-- ==== Sys2Proof/Word.lean ====
section
/-! DEFINITION. The words of the block and the names every layer shares: bytes, 16-bit samples (rule R13), 32-bit
interface words (10_state.md section 2), the two sequence channels (rule R118) and the three binary formats (rule R85). -/

namespace Sys2Proof

/-- One byte of memory (rule R60). -/
abbrev Byte := BitVec 8

/-- A sample word: one PWM period (rules R13 and R90). -/
abbrev Sample := BitVec 16

/-- A 32-bit interface register, address or colour word (rules R24 to R30, R93). -/
abbrev Word := BitVec 32

/-- A sequence channel, and the internal buffer of the same letter: A is channel 0 over BUF_A, B is channel 1 over
BUF_B (rules R15 and R118). -/
inductive Channel where
  | A
  | B
  deriving DecidableEq, Repr, Inhabited

/-- `other(A) = B`, `other(B) = A` (43_stream_single.md, opening paragraph). -/
def Channel.other : Channel → Channel
  | .A => .B
  | .B => .A

/-- The three binary formats of rule R85: which one a word has is known from where it is written or read. -/
inductive Format where
  /-- a command word, written to CMD (rule R86) -/
  | command
  /-- a sample word, read from RAM by ENG (rule R90) -/
  | sample
  /-- a colour item, written to COLOR_IN (rule R93) -/
  | colour
  deriving DecidableEq, Repr

/-- The agents that own a write buffer (rule R70). -/
inductive Writer where
  | host
  | ctrl
  deriving DecidableEq, Repr, Inhabited

/-- Whose step the schedule takes next: an agent's, or a memory step that drains one write buffer (rules R70, R126). -/
inductive Turn where
  | host
  | ctrl
  | eng
  | drain (w : Writer)
  deriving DecidableEq, Repr, Inhabited

end Sys2Proof
end

