-- ==== Sys2Proof/Config.lean ====
section
/-! DEFINITION. What is fixed for one block: the constants of the protocol (00_scope.md section 3), the open parameters
(rules R14, R15, R227 and 93_implementation_defined.md section 6) and the free values, the spec's draws
(93_implementation_defined.md section 1). -/

namespace Sys2Proof

/-- PERIOD_TICKS (rule R10). -/
def periodTicks : Nat := 20

/-- FRAME_LEN (rule R12). -/
def frameLen : Nat := 24

/-- IDLE_TAIL (rule R12). -/
def idleTail : Nat := 40

/-- The samples of one idle half-buffer of WRITE_SINGLE (rule R164). -/
def halfTail : Nat := 20

/-- RESET_TICKS (rule R16). -/
def resetTicks : Nat := 800

/-- The bytes of one interface or engine window (rule R60). -/
def windowBytes : Nat := 0x1000

/-- GAP_OUTPUT (rule R140). -/
inductive GapOutput where
  | idleLow
  | holdLast
  deriving DecidableEq, Repr

/-- The parameters of rules R14, R15 and R227. They are configuration: `State` carries them so that a statement about
every state is a statement about every choice of them, and no step writes them. -/
structure Params where
  ramBase : Word
  ramSize : Nat
  bufA : Word
  bufB : Word
  maxSeqLen : Nat
  ifBase : Word
  pwmBase : Word
  numPwmInstances : Nat
  tickHz : Nat
  gapOutput : GapOutput
  deriving DecidableEq, Repr

/-- The error codes of rule R205; codes 7 to 15 are never written. -/
inductive Machine.ErrCode where
  | ok
  | bufferTooSmall
  | emptyTransfer
  | outOfRangePointer
  | malformedSequence
  | notConfigured
  | badCommand
  deriving DecidableEq, Repr, Inhabited

namespace Params

/-- The first address after the RAM window (rule R62). -/
def ramEnd (p : Params) : Nat := p.ramBase.toNat + p.ramSize

/-- The base of the internal buffer of a channel (rule R66). -/
def buf (p : Params) : Channel → Word
  | .A => p.bufA
  | .B => p.bufB

/-- Two byte ranges `[a, a + n)` and `[b, b + m)` share no byte. -/
def apart (a n b m : Nat) : Bool := a + n ≤ b || b + m ≤ a

/-- One internal buffer lies even-aligned inside the RAM window (rule R66). -/
def bufOk (p : Params) (a : Word) : Bool :=
  a.toNat % 2 == 0 && p.ramBase.toNat ≤ a.toNat && a.toNat + 2 * frameLen ≤ p.ramEnd

/-- The admissible parameters: rules R15, R60 and R66 and the table of 93_implementation_defined.md section 6. -/
def wf (p : Params) : Bool :=
  p.ramBase.toNat % 2 == 0 && p.ramEnd ≤ 2 ^ 32 &&
  p.bufOk p.bufA && p.bufOk p.bufB && apart p.bufA.toNat (2 * frameLen) p.bufB.toNat (2 * frameLen) &&
  1 ≤ p.maxSeqLen && p.maxSeqLen ≤ 32767 &&
  p.ifBase.toNat % 32 == 0 && p.ifBase.toNat + windowBytes ≤ 2 ^ 32 && p.pwmBase.toNat + windowBytes ≤ 2 ^ 32 &&
  apart p.ifBase.toNat windowBytes p.ramBase.toNat p.ramSize &&
  apart p.pwmBase.toNat windowBytes p.ramBase.toNat p.ramSize &&
  apart p.ifBase.toNat windowBytes p.pwmBase.toNat windowBytes &&
  (p.numPwmInstances == 3 || p.numPwmInstances == 4) && 0 < p.tickHz

/-- DESIGN CHOICE (log 2): the admissible choice that 95_test_vectors.md uses, with interface and engine bases of the
model's own. `State.reset` carries it; every statement is about all parameters that are `wf`. -/
def vectors : Params where
  ramBase := 0x20000000
  ramSize := 0x10000
  bufA := 0x2000FF00
  bufB := 0x2000FF40
  maxSeqLen := 32767
  ifBase := 0x40100000
  pwmBase := 0x4001C000
  numPwmInstances := 3
  tickHz := 16000000
  gapOutput := .holdLast

end Params

/-! The free values. Each is a constant with no body: nothing in Lean can say what it is. They are applied to the
counter of draws that State holds, or to the place of an item on the wire. -/

/-- A byte ENG reads where no write has reached, or in a race (rules R63 and R74): chosen freshly at each draw. -/
opaque Config.freeByte : Nat → Byte

/-- Which step runs next once the planned turns are used up (rule R126; 93 section 1). -/
opaque Config.freeTurn : Nat → Turn

/-- How many free turns may pass before a Playing engine has its step: the weak fairness of rule R126. -/
opaque Config.freePatience : Nat → Nat

/-- The level of one tick of a wire item whose waveform is a draw: item number, then tick (rules R137 and R138). -/
opaque Config.freeLevel : Nat → Nat → Bool

/-- The length in ticks of a `Cut`, by its place on the wire; rule R137 bounds it by 20. -/
opaque Config.freeCutTicks : Nat → Nat

/-- The unmeasured length in ticks of a `Gap`, by its place on the wire (rule R137). -/
opaque Config.freeGapTicks : Nat → Nat

/-- For a `Gap` in which the driver changes: the length in ticks of one of its parts, by the gap's place on the wire and
the number of the part; each change of the driver ends a part (rules R140, R150 and R153; log 24). -/
opaque Config.freePartTicks : Nat → Nat → Nat

/-- The level, at one tick, of a pin the block does not drive (rules R153 and R226; log 24). -/
opaque Config.freePin : Nat → Nat → Bool

/-- The code STATUS.ERR holds after a command that FAULT.REFUSED has ended (rules R102 and R109; log 12). -/
opaque Config.freeErr : Nat → Machine.ErrCode

end Sys2Proof
end

