-- ==== Sys2Proof/Machine/HostOp.lean ====
section
/-! DEFINITION. The HOST operations of rule R95: what a "program" for the block is a list of. -/

namespace Sys2Proof.Machine

/-- One HOST operation (rule R95). Offsets are from IF_BASE, addresses are byte addresses. -/
inductive HostOp where
  /-- `W32 off, v` -/
  | w32 (off v : Word)
  /-- `R32 off -> x` -/
  | r32 (off : Word)
  /-- `POLL off, mask, v` -/
  | poll (off mask v : Word)
  /-- `MW8 a, v` -/
  | mw8 (a : Word) (v : Byte)
  /-- `MW16 a, v` -/
  | mw16 (a : Word) (v : Sample)
  /-- `MW32 a, v` -/
  | mw32 (a v : Word)
  /-- `HOST_FENCE` (rule R98) -/
  | fence
  deriving DecidableEq, Repr

end Sys2Proof.Machine
end

