-- ==== Sys2Proof/Syntax.lean ====
section
/-! DEFINITION. The syntax: one constructor for each row of spec/opcode_table.json (rules R87, R91 and R93). -/

namespace Sys2Proof

/-- The rows of the opcode table: the ten commands written to CMD, the three canonical samples ENG plays and the two
colour items written to COLOR_IN. A command's operands stand in ARG0 to ARG3 (rule R94), so a command carries only its
channel; a colour item carries its ignored bits too, so that no bit of a word is lost. -/
inductive Instr where
  /-- CONFIGURE, opcode 0x01 (rule R150) -/
  | configure
  /-- RELEASE, opcode 0x02 (rule R153) -/
  | release
  /-- ENCODE_PIXEL, opcode 0x10 (rule R107) -/
  | encodePixel
  /-- REQUIRED_LENGTH, opcode 0x11 (rule R110) -/
  | requiredLength
  /-- SEQ_START, opcode 0x20 (rule R122) -/
  | seqStart (ch : Channel)
  /-- SEQ_IS_DONE, opcode 0x21 (rule R123) -/
  | seqIsDone (ch : Channel)
  /-- SEQ_WAIT, opcode 0x22 (rule R124) -/
  | seqWait (ch : Channel)
  /-- SEND_BUF, opcode 0x30 (rule R195) -/
  | sendBuf
  /-- WRITE_SINGLE, opcode 0x31 (rule R160) -/
  | writeSingle
  /-- WRITE_LOOP, opcode 0x32 (rule R178) -/
  | writeLoop
  /-- SYM_ONE, sample 0x800D (rule R91) -/
  | symOne
  /-- SYM_ZERO, sample 0x8005 (rule R91) -/
  | symZero
  /-- SYM_IDLE, sample 0x8000 (rule R91) -/
  | symIdle
  /-- COLOR, bit 31 clear; `ign` are the ignored bits [30:24] (rule R93) -/
  | color (ign : BitVec 7) (r g b : Byte)
  /-- END, bit 31 set; `ign` are the ignored bits [30:0] (rule R93) -/
  | endItem (ign : BitVec 31)
  deriving DecidableEq, Repr

end Sys2Proof
end

