-- ==== Sys2Proof/WellFormed.lean ====
section
/-! DEFINITION. What is well formed: an instruction at the place its word is written to or read from (rule R85), a HOST
operation (rules R67, R76 and R95), and a HOST program. The bounds of fields are in their types (`Channel`, `BitVec`). -/

namespace Sys2Proof

/-- The format of an instruction's word (rules R86, R90 and R93). -/
def Instr.format : Instr → Format
  | .configure | .release | .encodePixel | .requiredLength => .command
  | .seqStart _ | .seqIsDone _ | .seqWait _ => .command
  | .sendBuf | .writeSingle | .writeLoop => .command
  | .symOne | .symZero | .symIdle => .sample
  | .color _ _ _ _ | .endItem _ => .colour

/-- An instruction is well formed at a place if it is of the format that place reads (rule R85): a command at CMD, a
sample in the region ENG plays, a colour item at COLOR_IN. -/
def Instr.wellFormedAt (f : Format) (i : Instr) : Bool := i.format == f

/-- Well formed at its own place: always, since the field types hold the bounds of rules R88 and R93. -/
def Instr.wellFormed (i : Instr) : Bool := i.wellFormedAt i.format

namespace Machine

/-- An interface offset HOST may use: aligned and inside the window (rules R60 and R76). -/
def offsetOk (off : Word) : Bool := off.toNat % 4 == 0 && off.toNat < windowBytes

/-- A HOST operation that rules R67, R76 and R95 allow, whatever the parameters. -/
def HostOp.wellFormed : HostOp → Bool
  | .w32 off _ | .r32 off | .poll off _ _ => offsetOk off
  | .mw8 _ _ => true
  | .mw16 a _ => a.toNat % 2 == 0
  | .mw32 a _ => a.toNat % 4 == 0
  | .fence => true

/-- A HOST program all of whose operations are well formed. -/
def programWellFormed (p : List HostOp) : Bool := p.all HostOp.wellFormed

end Machine

end Sys2Proof
end

