-- ==== Sys2Proof/Decode.lean ====
section
/-! DEFINITION. Decoding (rules R85 to R93 and R100), total on any word and any bytes and rejecting by name; then the
encoder, written from the same tables. -/

namespace Sys2Proof

/-- Why a word is no row of the opcode table. -/
inductive Reject where
  /-- a command word with a bit of [31:9] set (rule R89) -/
  | reservedBits
  /-- a command word whose OPC is not in the map of rule R87 -/
  | unknownOpcode
  /-- CH = 1 for an opcode that does not use CH (rule R88) -/
  | channelMisuse
  /-- a sample that is none of the three of rule R91; ENG plays it as data (rule R92) -/
  | otherSample
  /-- more bits than a sample has, or another number of bytes than the format has (rule R85) -/
  | wrongWidth
  deriving DecidableEq, Repr

/-- What a decoder reads: an instruction, or the reason there is none. -/
inductive Decoded where
  | instr (i : Instr)
  | reject (r : Reject)
  deriving DecidableEq, Repr

/-- The instruction, where there is one. -/
def Decoded.toOption : Decoded → Option Instr
  | .instr i => some i
  | .reject _ => none

/-! ### Decoding -/

/-- OPC, bits [7:0] of a command word (rule R86). -/
def opcField (w : Word) : BitVec 8 := w.extractLsb' 0 8

/-- CH, bit 8 of a command word: 0 = A, 1 = B (rules R86 and R88). -/
def chField (w : Word) : Channel := if w.getLsbD 8 then .B else .A

/-- RSV, bits [31:9] of a command word (rule R86). -/
def rsvField (w : Word) : BitVec 23 := w.extractLsb' 9 23

/-- The opcodes that use the CH field (rules R87 and R88). -/
def usesChannel (opc : BitVec 8) : Bool := opc == 0x20 || opc == 0x21 || opc == 0x22

/-- The opcode map (rule R87). -/
def commandOf (opc : BitVec 8) (ch : Channel) : Option Instr :=
  if opc = 0x01 then some .configure
  else if opc = 0x02 then some .release
  else if opc = 0x10 then some .encodePixel
  else if opc = 0x11 then some .requiredLength
  else if opc = 0x20 then some (.seqStart ch)
  else if opc = 0x21 then some (.seqIsDone ch)
  else if opc = 0x22 then some (.seqWait ch)
  else if opc = 0x30 then some .sendBuf
  else if opc = 0x31 then some .writeSingle
  else if opc = 0x32 then some .writeLoop
  else none

/-- Decoding a word written to CMD: reserved bits, then the opcode, then CH (rules R89, R100 and R211). -/
def decodeCommand (w : Word) : Decoded :=
  if rsvField w ≠ 0 then .reject .reservedBits
  else match commandOf (opcField w) (chField w) with
    | none => .reject .unknownOpcode
    | some i => if chField w = .B && !usesChannel (opcField w) then .reject .channelMisuse else .instr i

/-- Decoding a sample ENG reads (rule R91); any other value is played as data (rule R92). -/
def decodeSample (w : Sample) : Decoded :=
  if w = 0x800D then .instr .symOne
  else if w = 0x8005 then .instr .symZero
  else if w = 0x8000 then .instr .symIdle
  else .reject .otherSample

/-- Decoding a colour word written to COLOR_IN (rules R29 and R93). Every word is one of the two items. -/
def decodeColour (w : Word) : Instr :=
  if w.getLsbD 31 then .endItem (w.extractLsb' 0 31)
  else .color (w.extractLsb' 24 7) (w.extractLsb' 16 8) (w.extractLsb' 8 8) (w.extractLsb' 0 8)

/-- Decoding by the place the word stands at (rule R85). -/
def decode (f : Format) (w : Word) : Decoded :=
  match f with
  | .command => decodeCommand w
  | .sample => if w.toNat < 2 ^ 16 then decodeSample (w.setWidth 16) else .reject .wrongWidth
  | .colour => .instr (decodeColour w)

/-- The bytes a word of a format takes (rule R85). -/
def Format.bytes : Format → Nat
  | .command => 4
  | .sample => 2
  | .colour => 4

/-- The value of bytes laid out little-endian, the first at the lowest address (rule R64). -/
def leValue : List Byte → Nat
  | [] => 0
  | b :: bs => b.toNat + 256 * leValue bs

/-- The `n` low bytes of a value, least significant first (rule R64). -/
def leBytes : Nat → Nat → List Byte
  | 0, _ => []
  | n + 1, v => BitVec.ofNat 8 v :: leBytes n (v / 256)

/-- Decoding any bytes at a place: exactly one word of the place's format, or a rejection. -/
def decodeBytes (f : Format) (bs : List Byte) : Decoded :=
  if bs.length = f.bytes then decode f (BitVec.ofNat 32 (leValue bs)) else .reject .wrongWidth

/-- The decoder on a word of the opcode table. A 16-bit word is a sample. A 32-bit word is a command where it is a legal
one and a colour item otherwise: DESIGN CHOICE (log 3), since only the place a word is written to tells the two formats
apart (rule R85); the machine itself always knows the place. -/
def decodeTableWord (nbits w : Nat) : Option Instr :=
  if nbits = 16 then (decodeBytes .sample (leBytes 2 w)).toOption
  else if nbits = 32 then
    match decodeBytes .command (leBytes 4 w) with
    | .instr i => some i
    | .reject _ => (decodeBytes .colour (leBytes 4 w)).toOption
  else none

/-! ### Encoding -/

/-- CH as a bit (rule R86). -/
def chBit : Channel → BitVec 1
  | .A => 0
  | .B => 1

/-- A command word: RSV = 0, CH, OPC (rule R86). -/
def commandWord (opc : BitVec 8) (ch : Channel) : Word := (0 : BitVec 23) ++ chBit ch ++ opc

/-- The word of an instruction, a sample in the low 16 bits (rules R87, R91 and R93). -/
def encode : Instr → Word
  | .configure => commandWord 0x01 .A
  | .release => commandWord 0x02 .A
  | .encodePixel => commandWord 0x10 .A
  | .requiredLength => commandWord 0x11 .A
  | .seqStart ch => commandWord 0x20 ch
  | .seqIsDone ch => commandWord 0x21 ch
  | .seqWait ch => commandWord 0x22 ch
  | .sendBuf => commandWord 0x30 .A
  | .writeSingle => commandWord 0x31 .A
  | .writeLoop => commandWord 0x32 .A
  | .symOne => 0x0000800D
  | .symZero => 0x00008005
  | .symIdle => 0x00008000
  | .color ign r g b => (0 : BitVec 1) ++ ign ++ r ++ g ++ b
  | .endItem ign => (1 : BitVec 1) ++ ign

/-- The bytes of an instruction as they are laid out (rule R64). -/
def encodeBytes (i : Instr) : List Byte := leBytes i.format.bytes (encode i).toNat

end Sys2Proof
end

