-- ==== Sys2Proof/Machine/State.lean ====
section
/-! DEFINITION. The state of one block (rule R20): the command interface, CTRL, the driver, ENG, memory, the write
buffers, the wire and the fault bits, beside HOST's pending operations and the schedule. Plain data. -/

namespace Sys2Proof.Machine

/-! ### Command interface (10_state.md section 2) -/

/-- The stored part of the interface registers (rules R24 to R30). BUSY and CONFIGURED are views of `Ctrl.pc` and of the
driver state, so STATUS is put together in Machine/Flags.lean; CMD and COLOR_IN have no storage. -/
structure Iface where
  arg0 : Word
  arg1 : Word
  arg2 : Word
  arg3 : Word
  overrun : Bool
  pullReq : Bool
  err : ErrCode
  result : Word
  deriving DecidableEq, Repr

/-! ### CTRL (10_state.md section 1) -/

/-- A colour: three independent 8-bit channels (rule R19). -/
structure Colour where
  r : Byte
  g : Byte
  b : Byte
  deriving DecidableEq, Repr

/-- A colour item as CTRL pulls it (rules R29 and R99). -/
inductive Item where
  | color (c : Colour)
  | endSeq
  deriving DecidableEq, Repr

/-- What WRITE_LOOP writes into a buffer: a colour's frame or an idle frame (rule R176). -/
inductive Fill where
  | color (c : Colour)
  | idle
  deriving DecidableEq, Repr

/-- ENG's event flags (rule R45). -/
inductive Event where
  | seqStarted (ch : Channel)
  | seqEnd (ch : Channel)
  | loopsDone
  | stopped
  | pwmPeriodEnd
  deriving DecidableEq, Repr

/-- DRV (rule R31). -/
inductive Drv where
  | unconfigured
  | configured
  deriving DecidableEq, Repr

/-- CTRL's FSM states (rule R21): IDLE and the named states of each command's rule, left only where the rule leaves them
(rule R18). A state of the spec with a decision inside it has a name of the model's for each part; so have the two
commands whose rule names no state (log 10). -/
inductive Pc where
  | idle
  /-- CF_WRITE (rule R150) -/
  | cfWrite
  /-- CF_DRAIN, CF_OFF (rule R153) -/
  | cfDrain
  | cfOff
  /-- ENC_CHECK, ENC_WRITE (rule R107) -/
  | encCheck
  | encWrite
  /-- the one state of REQUIRED_LENGTH (rule R110) -/
  | rlBody
  /-- SS_CHECK, SS_GO (rule R122) -/
  | ssCheck (ch : Channel)
  | ssGo (ch : Channel)
  /-- the one state of SEQ_IS_DONE (rule R123) -/
  | sdBody (ch : Channel)
  /-- SW_POLL (rule R124) -/
  | swPoll (ch : Channel)
  /-- SB_CHECK; SB_FILL up to the loop's test, at its pull, and in its idle fill; SB_GO; SB_WAIT (rule R195) -/
  | sbCheck
  | sbLoop
  | sbFill
  | sbTail
  | sbGo
  | sbWait
  /-- WS_FIRST at its pull, and with its item pulled; WS_NEXT; WS_TAIL (rule R160) -/
  | wsFirst
  | wsFirst2
  | wsNext
  | wsTail
  /-- WL_SETUP at it0's pull, up to it1's pull, and with both pulled; WL_STEP up to its wait, at the termination test, and
  at its pull; WL_FINAL (rule R178) -/
  | wlSetup
  | wlSetup2
  | wlSetup3
  | wlStep
  | wlTest
  | wlItem
  | wlFinal
  deriving DecidableEq, Repr

/-- One statement of a command's pseudocode that CTRL performs as one step (rules R18 and R73): a buffered memory write,
an unbuffered ENG register write, a task, a fence, a wait, a part of a pull, or an update of a working register. -/
inductive Micro where
  /-- `MemWrite(a, 2, v)` -/
  | memWrite (a : Nat) (v : Sample)
  /-- `ENABLE <- v` -/
  | enable (v : BitVec 1)
  /-- `PSEL.OUT[k] <- v` -/
  | psel (k : Fin 4) (v : Word)
  /-- `MODE <- v` -/
  | mode (v : BitVec 1)
  /-- `PRESCALER <- v` -/
  | prescaler (v : BitVec 3)
  /-- `COUNTERTOP <- v` -/
  | countertop (v : BitVec 15)
  /-- `DECODER <- (LOAD, MODE)` -/
  | decoder (load : BitVec 2) (mode : BitVec 1)
  /-- `LOOP.CNT <- v` -/
  | loopCnt (v : BitVec 16)
  /-- `SEQ[ch].PTR <- v` -/
  | seqPtr (ch : Channel) (v : Word)
  /-- `SEQ[ch].CNT <- v` -/
  | seqCnt (ch : Channel) (v : BitVec 15)
  /-- `SEQ[ch].REFRESH <- v` -/
  | seqRefresh (ch : Channel) (v : BitVec 24)
  /-- `SEQ[ch].ENDDELAY <- v` -/
  | seqEndDelay (ch : Channel) (v : BitVec 24)
  /-- `EVENTS_e <- 0` -/
  | clear (e : Event)
  /-- `DRV <- d` -/
  | drv (d : Drv)
  /-- `FENCE` by CTRL (rule R72) -/
  | fence
  /-- `TASKS_SEQSTART[ch] <- 1` (rule R130) -/
  | task (ch : Channel)
  /-- `wait until EVENTS_SEQEND[ch] = 1` -/
  | awaitEnd (ch : Channel)
  /-- `pull()`, first half: `STATUS.PULLREQ <- 1` (rule R99) -/
  | raisePull
  /-- `pull()`, second half: no further step until the item is delivered (rule R99) -/
  | awaitItem
  /-- `role <- ch` -/
  | setRole (ch : Channel)
  /-- `blanks_fed <- blanks_fed + 1` -/
  | incBlanks
  /-- one pass of the `idle_sends` loop done (rule R160) -/
  | incIdleSends
  /-- `wptr <- wptr + 48 ; n_left <- n_left - 1` (rule R195) -/
  | nextFrame
  deriving DecidableEq, Repr

/-- The operands a command copies from the ARG registers when it starts (rules R25 and R94). -/
structure Operands where
  rgb : BitVec 24
  pin : BitVec 6
  n : Word
  addr : Word
  cnt : Word
  deriving DecidableEq, Repr

/-- CTRL: the FSM state with the statements of it still to perform, and the working registers of rule R22. -/
structure Ctrl where
  pc : Pc
  micro : List Micro
  ops : Operands
  role : Channel
  blanksFed : Nat
  ended : Bool
  nLeft : Nat
  idleSends : Nat
  item : Item
  wptr : Word
  deriving DecidableEq, Repr

/-! ### ENG (10_state.md sections 4 to 6) -/

/-- `SEQ[n]` (rules R38 to R41). -/
structure SeqRegs where
  ptr : Word
  cnt : BitVec 15
  refresh : BitVec 24
  endDelay : BitVec 24
  deriving DecidableEq, Repr

/-- ENG's registers, each by its defined bits (rules R32 to R43). -/
structure EngRegs where
  enable : BitVec 1
  mode : BitVec 1
  countertop : BitVec 15
  prescaler : BitVec 3
  decLoad : BitVec 2
  decMode : BitVec 1
  loopCnt : BitVec 16
  seqA : SeqRegs
  seqB : SeqRegs
  psel0 : Word
  psel1 : Word
  psel2 : Word
  psel3 : Word
  shorts : Word
  inten : Word
  deriving DecidableEq, Repr

/-- ENG's event flags, true where the event has occurred (rules R45 and R46). -/
structure Events where
  seqStartedA : Bool
  seqStartedB : Bool
  seqEndA : Bool
  seqEndB : Bool
  loopsDone : Bool
  stopped : Bool
  pwmPeriodEnd : Bool
  deriving DecidableEq, Repr

/-- The playout state `eng` (rule R47). -/
inductive Play where
  | stopped
  | playing (ch : Channel) (idx loopsLeft : Nat) (lptr : Word) (lcnt : Nat)
  deriving DecidableEq, Repr

/-- ENG. `raced` is set when rule R74 has made the playing sequence's reads draws. -/
structure Eng where
  regs : EngRegs
  events : Events
  play : Play
  loopMode : Bool
  raced : Bool
  tick : Nat
  deriving DecidableEq, Repr

/-! ### Memory, buffers, wire, faults, HOST, schedule -/

/-- MEM: the bytes that hold a value, by rising address (rule R63); an address not listed holds none. -/
abbrev Memory := List Host.Cell

/-- One entry of a write buffer: the byte writes of one `MemWrite` (rule R70). -/
abbrev Entry := List Host.Cell

/-- WB, one FIFO for each writing agent, the oldest entry first (rule R70). -/
structure WriteBuffers where
  host : List Entry
  ctrl : List Entry
  deriving DecidableEq, Repr

/-- An item of the wire trace (rule R137). -/
inductive WireItem where
  | sym (w : Sample)
  | cut
  | gap
  deriving DecidableEq, Repr

/-- FAULT, the sticky bits of rule R53. -/
structure FaultBits where
  dmaRace : Bool
  refused : Bool
  deriving DecidableEq, Repr

/-- HOST, the outside party: the operations it has still to do, and what its `R32` reads returned, oldest first. -/
structure HostSide where
  ops : List HostOp
  reads : List Word
  deriving DecidableEq, Repr

/-- The model's own schedule: the planned turns, then free turns (rule R126). `patience` is how many free turns ENG lets
pass, `draws` counts the draws made. -/
structure Sched where
  turns : List Turn
  patience : Nat
  draws : Nat
  deriving DecidableEq, Repr

/-- The changes of the driver state, oldest first, each with the number of wire items before it. The model's own record
(log 24), read by Machine/Wire.lean only: rule R140 gives the pin's level after CONFIGURE, and the trace of rule R137 has
no item for it. -/
abbrev DrvMarks := List (Nat × Drv)

/-- The whole state (rule R20). -/
structure State where
  params : Params
  iface : Iface
  ctrl : Ctrl
  drv : Drv
  eng : Eng
  mem : Memory
  wb : WriteBuffers
  wire : List WireItem
  marks : DrvMarks
  faults : FaultBits
  host : HostSide
  sched : Sched
  deriving DecidableEq, Repr

/-- Where the model stops: a HOST operation on an address the spec says is not there or in a way it does not allow. -/
inductive Fault where
  /-- Raised by a HOST access at an interface offset outside the window of 4096 bytes (rules R30 and R60). Safe. -/
  | hostOffsetOutsideWindow
  /-- Raised by a HOST store to an address that is neither RAM nor the interface window (rules R51 and R60). Safe. -/
  | hostStoreUnmapped
  deriving DecidableEq, Repr

/-- No instruction is refused; the constructor is the host's. -/
inductive Refusal where
  /-- Would be raised by an arm of `exec` that has no meaning yet; no arm raises it. Safe. -/
  | notModelled (mnemonic : String)
  deriving DecidableEq, Repr

/-! ### Reset (rules R55 and R225) -/

/-- PRESUMED (log 4): the family's reset value of a sequence channel (rules R38 to R41, marked gk). -/
def SeqRegs.reset : SeqRegs := { ptr := 0, cnt := 0, refresh := 1, endDelay := 0 }

/-- PRESUMED (log 4): the family's reset values (rules R32 to R42, marked gk); SHORTS and INTEN are 0 always (rule R43). -/
def EngRegs.reset : EngRegs where
  enable := 0
  mode := 0
  countertop := 0x3FF
  prescaler := 0
  decLoad := 0
  decMode := 0
  loopCnt := 0
  seqA := SeqRegs.reset
  seqB := SeqRegs.reset
  psel0 := 0xFFFFFFFF
  psel1 := 0xFFFFFFFF
  psel2 := 0xFFFFFFFF
  psel3 := 0xFFFFFFFF
  shorts := 0
  inten := 0

/-- Every event flag 0 (rule R45). -/
def Events.none : Events where
  seqStartedA := false
  seqStartedB := false
  seqEndA := false
  seqEndB := false
  loopsDone := false
  stopped := false
  pwmPeriodEnd := false

/-- CTRL at reset: pc = IDLE; the working registers hold no value (rules R22 and R55) and are zero here, DESIGN CHOICE
(log 5). -/
def Ctrl.reset : Ctrl where
  pc := .idle
  micro := []
  ops := { rgb := 0, pin := 0, n := 0, addr := 0, cnt := 0 }
  role := .A
  blanksFed := 0
  ended := false
  nLeft := 0
  idleSends := 0
  item := .endSeq
  wptr := 0

/-- The machine right after reset (rules R55 and R225). -/
def State.reset : State where
  params := Params.vectors
  iface := { arg0 := 0, arg1 := 0, arg2 := 0, arg3 := 0, overrun := false, pullReq := false, err := .ok, result := 0 }
  ctrl := Ctrl.reset
  drv := .unconfigured
  eng := { regs := EngRegs.reset, events := Events.none, play := .stopped, loopMode := false, raced := false, tick := 0 }
  mem := []
  wb := { host := [], ctrl := [] }
  wire := []
  marks := []
  faults := { dmaRace := false, refused := false }
  host := { ops := [], reads := [] }
  sched := { turns := [], patience := 0, draws := 0 }

end Sys2Proof.Machine
end

