-- ==== Sys2Proof/Machine/Flags.lean ====
section
/-! DEFINITION. The flags: the error codes (rule R205), the STATUS word (rule R26), and ENG's event flags (rule R45). -/

namespace Sys2Proof.Machine

/-- The number of an error code (rule R205). -/
def ErrCode.code : ErrCode → BitVec 4
  | .ok => 0
  | .bufferTooSmall => 1
  | .emptyTransfer => 2
  | .outOfRangePointer => 3
  | .malformedSequence => 4
  | .notConfigured => 5
  | .badCommand => 6

/-- STATUS.BUSY: 1 while pc ≠ IDLE (rules R21 and R26). -/
def State.busy (s : State) : Bool := s.ctrl.pc != .idle

/-- STATUS.CONFIGURED (rule R26). -/
def State.configured (s : State) : Bool := s.drv == .configured

/-- The STATUS word (rule R26): ERR in [11:8], PULLREQ, OVERRUN, CONFIGURED and BUSY in [3:0], all other bits 0. -/
def State.status (s : State) : Word :=
  (0 : BitVec 20) ++ s.iface.err.code ++ (0 : BitVec 4) ++ BitVec.ofBool s.iface.pullReq ++
    BitVec.ofBool s.iface.overrun ++ BitVec.ofBool s.configured ++ BitVec.ofBool s.busy

/-- The write-1-to-clear bit of a word written to STATUS (rules R26 and R28). -/
def clearsOverrun (v : Word) : Bool := v.getLsbD 2

/-- Reading one event flag (rule R45). -/
def Events.get (ev : Events) : Event → Bool
  | .seqStarted .A => ev.seqStartedA
  | .seqStarted .B => ev.seqStartedB
  | .seqEnd .A => ev.seqEndA
  | .seqEnd .B => ev.seqEndB
  | .loopsDone => ev.loopsDone
  | .stopped => ev.stopped
  | .pwmPeriodEnd => ev.pwmPeriodEnd

/-- Writing one event flag: ENG writes true, CTRL writes false (rules R45 and R129). -/
def Events.put (ev : Events) (e : Event) (v : Bool) : Events :=
  match e with
  | .seqStarted .A => { ev with seqStartedA := v }
  | .seqStarted .B => { ev with seqStartedB := v }
  | .seqEnd .A => { ev with seqEndA := v }
  | .seqEnd .B => { ev with seqEndB := v }
  | .loopsDone => { ev with loopsDone := v }
  | .stopped => { ev with stopped := v }
  | .pwmPeriodEnd => { ev with pwmPeriodEnd := v }

/-- Every event flag of rule R45. -/
def allEvents : List Event :=
  [.seqStarted .A, .seqStarted .B, .seqEnd .A, .seqEnd .B, .loopsDone, .stopped, .pwmPeriodEnd]

/-- Writing one event flag in the state. -/
def State.putEvent (s : State) (e : Event) (v : Bool) : State :=
  { s with eng := { s.eng with events := s.eng.events.put e v } }

/-- FAULT.REFUSED <- 1 (rule R53). -/
def State.refuse (s : State) : State := { s with faults := { s.faults with refused := true } }

/-- FAULT.DMA_RACE <- 1 where a race is found, and the playing sequence's reads become draws (rule R74). -/
def State.markRace (s : State) (race : Bool) : State :=
  { s with faults := { s.faults with dmaRace := s.faults.dmaRace || race },
           eng := { s.eng with raced := s.eng.raced || race } }

/-- STATUS.OVERRUN <- 1, the dropped write's only effect (rule R28). -/
def State.overrun (s : State) : State := { s with iface := { s.iface with overrun := true } }

end Sys2Proof.Machine
end

