-- ==== Sys2Proof/Machine/Operands.lean ====
section
/-! DEFINITION. Operand forms: the operands a command copies when it starts (rules R25 and R94), the colour word's fields
(rule R93), and the samples a colour or an idle frame is made of (40_encoder.md). -/

namespace Sys2Proof.Machine

/-- Operand assembly at command start (rule R94): no operand is extended, scaled or shifted. -/
def Iface.operands (f : Iface) : Operands where
  rgb := f.arg0.extractLsb' 0 24
  pin := f.arg0.extractLsb' 0 6
  n := f.arg1
  addr := f.arg2
  cnt := f.arg3

/-- `r = rgb[23:16]`, `g = rgb[15:8]`, `b = rgb[7:0]` (rules R93 and R107). -/
def colourOf (rgb : BitVec 24) : Colour where
  r := rgb.extractLsb' 16 8
  g := rgb.extractLsb' 8 8
  b := rgb.extractLsb' 0 8

/-- SYM_ONE (rule R91). -/
def symOneWord : Sample := 0x800D

/-- SYM_ZERO (rule R91). -/
def symZeroWord : Sample := 0x8005

/-- SYM_IDLE (rule R91). -/
def symIdleWord : Sample := 0x8000

/-- `sym(b)` (rule R103). -/
def sym (b : Bool) : Sample := if b then symOneWord else symZeroWord

/-- `rev8(x)[i] = x[7 - i]` (rule R104). -/
def rev8 (x : Byte) : Byte :=
  BitVec.ofBoolListLE [x.getLsbD 7, x.getLsbD 6, x.getLsbD 5, x.getLsbD 4, x.getLsbD 3, x.getLsbD 2, x.getLsbD 1,
    x.getLsbD 0]

/-- The eight samples of one channel byte, `sym(rev8(x)[k])` for k = 0..7 (rule R105). -/
def byteSamples (x : Byte) : List Sample := (List.range 8).map fun k => sym ((rev8 x).getLsbD k)

/-- `frame(r, g, b)`: green, then red, then blue (rules R105 and R106). -/
def frame (c : Colour) : List Sample := byteSamples c.g ++ byteSamples c.r ++ byteSamples c.b

/-- The samples of an idle frame of `k` symbols (rule R111). -/
def idleFrame (k : Nat) : List Sample := List.replicate k symIdleWord

/-- The 24 samples WRITE_LOOP fills a buffer with (rule R176). -/
def Fill.samples : Fill → List Sample
  | .color c => frame c
  | .idle => idleFrame frameLen

/-! ### The reading of a frame back (rule R112) -/

/-- `bit(s)`: 1 of SYM_ONE, 0 of SYM_ZERO, nothing of another word. -/
def symBit (w : Sample) : Option Bool :=
  if w = symOneWord then some true else if w = symZeroWord then some false else none

/-- The value of bits, the most significant first. -/
def msbValue (bits : List Bool) : Nat := bits.foldl (fun v b => 2 * v + b.toNat) 0

/-- The byte eight samples stand for. -/
def samplesByte (l : List Sample) : Option Byte := (l.mapM symBit).map fun bits => BitVec.ofNat 8 (msbValue bits)

/-- The colour of a frame: `g` from indices 0..7, `r` from 8..15, `b` from 16..23. -/
def unframe (l : List Sample) : Option Colour := do
  let g ← samplesByte (l.take 8)
  let r ← samplesByte ((l.drop 8).take 8)
  let b ← samplesByte (l.drop 16)
  return { r := r, g := g, b := b }

/-! ### Sizes -/

/-- `24*N + 40`, on unbounded naturals (rules R12 and R110). -/
def requiredLength (n : Nat) : Nat := frameLen * n + idleTail

/-- The largest N whose required length fits RESULT (rule R110). -/
def maxColours : Nat := 178956968

end Sys2Proof.Machine
end

