-- ==== Sys2Proof/Machine/Ops.lean ====
section
/-! DEFINITION. The named operations over memory, write buffers and registers, the window and overlap checks, and the one
way an error ends a command (60_exceptions.md). -/

namespace Sys2Proof.Machine

/-! ### Memory (20_memory.md) -/

namespace Memory

/-- The byte at an address, or nothing where no write has reached it (rule R63). -/
def read : Memory → Nat → Option Byte
  | [], _ => none
  | (k, v) :: m, a => if k = a then some v else read m a

/-- Writing one byte, keeping the addresses strictly rising. -/
def write : Memory → Nat → Byte → Memory
  | [], a, b => [(a, b)]
  | (k, v) :: m, a, b => if a < k then (a, b) :: (k, v) :: m else if a = k then (a, b) :: m else (k, v) :: write m a b

/-- The canonical form: addresses strictly rising. An unlisted address holds no value, so no entry can equal what one
reads as. -/
def wf : Memory → Bool
  | [] => true
  | [_] => true
  | (a, _) :: (b, v) :: m => a < b && wf ((b, v) :: m)

/-- Storing the bytes of one write-buffer entry (rule R70). -/
def store (m : Memory) (e : Entry) : Memory := e.foldl (fun m c => write m c.1 c.2) m

end Memory

/-- The byte writes of a 16-bit write, little-endian (rules R64 and R70). -/
def sampleCells (a : Nat) (v : Sample) : Entry := [(a, v.extractLsb' 0 8), (a + 1, v.extractLsb' 8 8)]

/-- The byte an entry writes to an address, if it covers it. -/
def Entry.read (e : Entry) (a : Nat) : Option Byte := (e.reverse.find? fun c => c.1 == a).map Prod.snd

/-- The write buffer of an agent. -/
def WriteBuffers.of (b : WriteBuffers) : Writer → List Entry
  | .host => b.host
  | .ctrl => b.ctrl

/-- Replacing the write buffer of an agent. -/
def WriteBuffers.set (b : WriteBuffers) (w : Writer) (l : List Entry) : WriteBuffers :=
  match w with
  | .host => { b with host := l }
  | .ctrl => { b with ctrl := l }

/-- `MemWrite` by agent w: one entry appended to its buffer (rule R70). -/
def State.enqueue (s : State) (w : Writer) (e : Entry) : State := { s with wb := s.wb.set w (s.wb.of w ++ [e]) }

/-- A read by an agent of a byte: the youngest entry of its own buffer that covers it, else MEM (rule R70). -/
def State.readAs (s : State) (w : Writer) (a : Nat) : Option Byte :=
  match (s.wb.of w).reverse.findSome? fun e => Entry.read e a with
  | some b => some b
  | none => Memory.read s.mem a

/-! ### Windows and regions -/

/-- `in_window(addr, len)` (rule R62), on unbounded naturals, so that no address wraps (rule R61). -/
def inWindow (p : Params) (addr len : Nat) : Bool :=
  addr % 2 == 0 && p.ramBase.toNat ≤ addr && addr + 2 * len ≤ p.ramEnd

/-- A region of `len` samples at `addr` overlaps BUF_A or BUF_B (rules R66, R109, R122 and R195). -/
def overlapsBuffers (p : Params) (addr bytes : Nat) : Bool :=
  !Params.apart addr bytes p.bufA.toNat (2 * frameLen) || !Params.apart addr bytes p.bufB.toNat (2 * frameLen)

/-- `check(addr, len)`: the pre-flight check of a descriptor (rule R120), or nothing where it passes. -/
def preflight (p : Params) (addr len : Nat) : Option ErrCode :=
  if len = 0 then some .emptyTransfer
  else if p.maxSeqLen < len then some .outOfRangePointer
  else if !inWindow p addr len then some .outOfRangePointer
  else none

/-- A byte address lies in `[base, base + 2*len)` (rule R116). -/
def inRegion (base len a : Nat) : Bool := base ≤ a && a < base + 2 * len

/-- An entry writes a byte of a region (rule R74). -/
def Entry.touches (e : Entry) (base len : Nat) : Bool := e.any fun c => inRegion base len c.1

/-- Some entry of some write buffer overlaps a region (rules R74 and R131). -/
def WriteBuffers.touch (b : WriteBuffers) (base len : Nat) : Bool :=
  b.host.any (fun e => Entry.touches e base len) || b.ctrl.any (fun e => Entry.touches e base len)

/-- The address lies in the region of the playing sequence (rule R74). -/
def Play.covers (p : Play) (e : Entry) : Bool :=
  match p with
  | .stopped => false
  | .playing _ _ _ lptr lcnt => Entry.touches e lptr.toNat lcnt

/-! ### The memory step (rules R70 and R74) -/

/-- The oldest entry of a buffer reaches MEM; a byte of it inside the playing sequence's region is a race. -/
def State.drain (s : State) (w : Writer) : State :=
  match s.wb.of w with
  | [] => s
  | e :: rest => ({ s with wb := s.wb.set w rest, mem := Memory.store s.mem e }).markRace (s.eng.play.covers e)

/-! ### How a command ends (rules R102, R205 to R210, R214) -/

/-- `STATUS.ERR <- c` and, in a running command, `pc <- IDLE`: the only thing an error or a success records. There is no
vector, no handler and no saved state (rules R207, R208, R214), so there is no return from it (rule R215). -/
def State.endCommand (s : State) (c : ErrCode) : State :=
  { s with iface := { s.iface with err := c }, ctrl := { s.ctrl with pc := .idle, micro := [] } }

/-- `raise Error(code)` (rule R18). -/
def State.raise (s : State) (c : ErrCode) : State := s.endCommand c

/-- `STATUS.ERR <- OK ; pc <- IDLE`. -/
def State.finish (s : State) : State := s.endCommand .ok

/-- `RESULT <- v`. -/
def State.setResult (s : State) (v : Word) : State := { s with iface := { s.iface with result := v } }


/-- `raise Error(c)` at decode: STATUS.ERR only; BUSY is 0 and stays 0 (rule R100). -/
def State.decodeError (s : State) (c : ErrCode) : State := { s with iface := { s.iface with err := c } }

/-- One item appended to the wire trace (rules R18 and R137). -/
def State.emit (s : State) (w : WireItem) : State := { s with wire := s.wire ++ [w] }

/-- The number of the next draw; each draw is fresh (93_implementation_defined.md). -/
def State.countDraws (s : State) (k : Nat) : State := { s with sched := { s.sched with draws := s.sched.draws + k } }

/-- `FAULT.REFUSED <- 1 ; pc <- IDLE` (rules R109, R110, R122 and R195). Every command ends by writing STATUS.ERR (rule
R102), and no rule says with what here: the code is a free value, DESIGN CHOICE (log 12). -/
def State.endRefused (s : State) : State := (s.refuse.endCommand (Config.freeErr s.sched.draws)).countDraws 1

end Sys2Proof.Machine
end

