-- ==== Sys2Proof/Machine/ColourPort.lean ====
section
/-! DEFINITION. The colour item port COLOR_IN (rules R29 and R99): the meanings of the two colour rows. -/

namespace Sys2Proof.Machine

/-- A write to COLOR_IN: it delivers the item and clears PULLREQ where a pull is pending, and is dropped otherwise
(rule R29). -/
def State.deliver (s : State) (it : Item) : State :=
  if s.iface.pullReq then
    { s with iface := { s.iface with pullReq := false }, ctrl := { s.ctrl with item := it } }
  else s.overrun

/-- COLOR (rules R29 and R93): bits [30:24] are ignored. -/
def execColor (_ign : BitVec 7) (r g b : Byte) (s : State) : Host.Outcome State Fault Refusal :=
  .next (s.deliver (.color { r := r, g := g, b := b }))

/-- END (rules R29 and R93): the other bits are ignored. -/
def execEndItem (_ign : BitVec 31) (s : State) : Host.Outcome State Fault Refusal := .next (s.deliver .endSeq)

end Sys2Proof.Machine
end

