-- ==== Sys2Proof/Machine/Engine.lean ====
section
/-! DEFINITION. The engine ENG (41_transfer.md section 3): the start task, begin, emit, end and preempt, the DMA read of a
sample, and the meanings of the three sample rows, each the playing of that word for one period. -/

namespace Sys2Proof.Machine

/-- `SEQ[ch]`. -/
def EngRegs.seq (r : EngRegs) : Channel → SeqRegs
  | .A => r.seqA
  | .B => r.seqB

/-- Replacing the playout state. -/
def State.setPlay (s : State) (p : Play) : State := { s with eng := { s.eng with play := p } }

/-- Replacing loop_mode. -/
def State.setLoopMode (s : State) (b : Bool) : State := { s with eng := { s.eng with loopMode := b } }

/-- `begin(n)` (rule R131): the descriptor is latched, a missing fence is a race (rule R74(b)). -/
def State.beginSeq (s : State) (n : Channel) (loopsLeft : Nat) : State :=
  let d := s.eng.regs.seq n
  if d.cnt = 0 then s.refuse.setPlay .stopped
  else
    let fresh : State := { s with eng := { s.eng with raced := false } }
    ((fresh.markRace (s.wb.touch d.ptr.toNat d.cnt.toNat)).putEvent (.seqStarted n) true).setPlay
      (.playing n 0 loopsLeft d.ptr d.cnt.toNat)

/-- `preempt()` (rule R135), where a sequence plays. -/
def State.preempt (s : State) : State :=
  match s.eng.play with
  | .stopped => s
  | .playing _ _ _ _ _ => (s.emit .cut).setPlay .stopped

/-- `TASKS_SEQSTART[n] <- 1` (rules R127 and R130). Rule R135 says that no writer preempts, and rule R187 that the sequences
a malformed WRITE_LOOP has started play to their end, yet WRITE_SINGLE, WRITE_LOOP and SEND_BUF start with no wait (rules
R160, R178 and R195) while a sequence of HOST's or such a pair may play: they cut it short here, as the pseudocode of rule
R130 does. DEDUCED (log 23). -/
def State.fireTask (s : State) (n : Channel) : State :=
  if s.drv = .unconfigured then s.refuse
  else
    let s := s.preempt
    let loops := s.eng.regs.loopCnt
    match n with
    | .A => (s.setLoopMode (loops != 0)).beginSeq .A (loops.toNat - 1)
    | .B => if loops ≠ 0 then s.refuse else (s.setLoopMode false).beginSeq .B 0

/-- ENG stops and the gap begins (rules R133 and R137). -/
def State.stopPlaying (s : State) : State := (s.setPlay .stopped).emit .gap

/-- WRITE_LOOP has restarted A and still owes B its refill: the pull, the writes or the fence of rule R176 are not done,
and the loop does not end here (rules R178, R181, R183 and R185). -/
def Ctrl.owesB (c : Ctrl) : Bool :=
  c.role == .B && !c.micro.contains (.task .A) &&
    match c.pc with
    | .wlTest => decide (c.blanksFed < 2)
    | .wlItem => true
    | .wlStep => c.micro.contains .fence
    | .idle | .cfWrite | .cfDrain | .cfOff | .encCheck | .encWrite | .rlBody | .ssCheck _ | .ssGo _ | .sdBody _ => false
    | .swPoll _ | .sbCheck | .sbLoop | .sbFill | .sbTail | .sbGo | .sbWait | .wsFirst | .wsFirst2 => false
    | .wsNext | .wsTail | .wlSetup | .wlSetup2 | .wlSetup3 | .wlFinal => false

/-- `end(n)` (rule R133). Where A ends before WRITE_LOOP has refilled B, the deadline of rules R183 and R233 is missed: a
race, and B's reads are draws (93_implementation_defined.md section 3). -/
def State.endSeq (s : State) (n : Channel) (loopsLeft : Nat) : State :=
  let s := s.putEvent (.seqEnd n) true
  if !s.eng.loopMode then s.stopPlaying
  else match n with
    | .A => (s.beginSeq .B loopsLeft).markRace s.ctrl.owesB
    | .B => if 0 < loopsLeft then s.beginSeq .A (loopsLeft - 1) else (s.putEvent .loopsDone true).stopPlaying

/-- The emit step on the sample read (rules R132 and R137): one whole period, after which the PWM counter stands at 0
again (rule R49). ENG has no step while it is stopped (rule R126). -/
def State.emitWord (s : State) (w : Sample) : State :=
  match s.eng.play with
  | .stopped => s
  | .playing ch idx ll lptr lcnt =>
    let s := s.emit (.sym w)
    let s : State := { s with eng := { s.eng with tick := 0 } }
    if idx + 1 = lcnt then s.endSeq ch ll else s.setPlay (.playing ch (idx + 1) ll lptr lcnt)

/-- A byte as ENG reads it: a draw in a raced sequence or where MEM holds no value, else MEM (rules R63 and R74). -/
def State.dmaByte (s : State) (a draw : Nat) : Byte :=
  if s.eng.raced then Config.freeByte draw else (Memory.read s.mem a).getD (Config.freeByte draw)

/-- `MemRead(a, 2)` by ENG, little-endian (rules R64, R67 and R70: ENG reads MEM only). -/
def State.dmaSample (s : State) (a : Nat) : Sample :=
  s.dmaByte (a + 1) (s.sched.draws + 1) ++ s.dmaByte a s.sched.draws

/-- The byte address of the next sample to play (rules R64 and R75). -/
def Play.sampleAddr : Play → Nat
  | .stopped => 0
  | .playing _ idx _ lptr _ => lptr.toNat + 2 * idx

/-- SYM_ONE: logical 1, one period of duty 13 (rules R91, R132 and R138). -/
def execSymOne (s : State) : Host.Outcome State Fault Refusal := .next (s.emitWord symOneWord)

/-- SYM_ZERO: logical 0, one period of duty 5 (rules R91, R132 and R138). -/
def execSymZero (s : State) : Host.Outcome State Fault Refusal := .next (s.emitWord symZeroWord)

/-- SYM_IDLE: one low period (rules R91, R132 and R138). -/
def execSymIdle (s : State) : Host.Outcome State Fault Refusal := .next (s.emitWord symIdleWord)

end Sys2Proof.Machine
end

