-- ==== Sys2Proof/Machine/Control.lean ====
section
/-! DEFINITION. The controller CTRL: how a command starts (rules R94 and R100), how its statements are performed one by
one (rules R18 and R73), and the statement lists the commands share: buffer writes, `xfer_start`, `pull`. -/

namespace Sys2Proof.Machine

/-! ### Statement lists -/

/-- `for i: MemWrite(a + 2*i, 2, l[i])` (rules R107 and R111). -/
def writeSamples : Nat → List Sample → List Micro
  | _, [] => []
  | a, v :: l => .memWrite a v :: writeSamples (a + 2) l

/-- `fill_idle(a, k)` (rule R111). -/
def fillIdle (a k : Nat) : List Micro := writeSamples a (idleFrame k)

/-- `xfer_start(ch, addr, len)` (rule R121). -/
def xferStart (ch : Channel) (addr : Word) (len : Nat) : List Micro :=
  [.seqPtr ch addr, .seqCnt ch (BitVec.ofNat 15 len), .loopCnt 0, .clear (.seqEnd ch), .clear (.seqStarted ch), .fence,
    .task ch]

/-- `pull()` (rule R99). -/
def pull : List Micro := [.raisePull, .awaitItem]

/-! ### ENG register writes (rule R73: each takes effect at the step that performs it) -/

/-- Replacing ENG's registers. -/
def State.setRegs (s : State) (r : EngRegs) : State := { s with eng := { s.eng with regs := r } }

/-- Replacing `SEQ[ch]`. -/
def EngRegs.setSeq (r : EngRegs) (ch : Channel) (d : SeqRegs) : EngRegs :=
  match ch with
  | .A => { r with seqA := d }
  | .B => { r with seqB := d }

/-- `PSEL.OUT[k] <- v` (rule R42). -/
def EngRegs.setPsel (r : EngRegs) (k : Fin 4) (v : Word) : EngRegs :=
  match k with
  | 0 => { r with psel0 := v }
  | 1 => { r with psel1 := v }
  | 2 => { r with psel2 := v }
  | 3 => { r with psel3 := v }

/-- What a statement writes to ENG's registers (rules R32 to R42). -/
def Micro.regs (m : Micro) (r : EngRegs) : EngRegs :=
  match m with
  | .enable v => { r with enable := v }
  | .psel k v => r.setPsel k v
  | .mode v => { r with mode := v }
  | .prescaler v => { r with prescaler := v }
  | .countertop v => { r with countertop := v }
  | .decoder load dm => { r with decLoad := load, decMode := dm }
  | .loopCnt v => { r with loopCnt := v }
  | .seqPtr ch v => r.setSeq ch { r.seq ch with ptr := v }
  | .seqCnt ch v => r.setSeq ch { r.seq ch with cnt := v }
  | .seqRefresh ch v => r.setSeq ch { r.seq ch with refresh := v }
  | .seqEndDelay ch v => r.setSeq ch { r.seq ch with endDelay := v }
  | .memWrite _ _ | .clear _ | .drv _ | .fence | .task _ | .awaitEnd _ | .raisePull | .awaitItem | .setRole _ => r
  | .incBlanks | .incIdleSends | .nextFrame => r

/-! ### The driver state (rules R31, R150 and R153) -/

/-- `DRV <- d`, recorded with its place on the wire (log 24). -/
def State.setDrv (s : State) (d : Drv) : State := { s with drv := d, marks := s.marks ++ [(s.wire.length, d)] }

/-! ### Performing one statement -/

/-- CTRL goes to an FSM state with its statements to perform (rules R18 and R21). -/
def State.goto (s : State) (pc : Pc) (body : List Micro) : State :=
  { s with ctrl := { s.ctrl with pc := pc, micro := body } }

/-- The statements still to perform. -/
def State.setMicro (s : State) (l : List Micro) : State := { s with ctrl := { s.ctrl with micro := l } }

/-- One statement performed; a wait or a fence whose condition does not hold leaves the state as it is (rule R18). `t` is
the state with the statement taken off CTRL's list. -/
def microStep (m : Micro) (rest : List Micro) (s : State) : State :=
  let t := s.setMicro rest
  let regs := s.eng.regs
  match m with
  | .memWrite a v => t.enqueue .ctrl (sampleCells a v)
  | .enable _ | .psel _ _ | .mode _ | .prescaler _ | .countertop _ | .decoder _ _ | .loopCnt _ => t.setRegs (m.regs regs)
  | .seqPtr _ _ | .seqCnt _ _ | .seqRefresh _ _ | .seqEndDelay _ _ => t.setRegs (m.regs regs)
  | .clear e => t.putEvent e false
  | .drv d => t.setDrv d
  | .fence => if s.wb.ctrl.isEmpty then t else s
  | .task ch => t.fireTask ch
  | .awaitEnd ch => if s.eng.events.get (.seqEnd ch) then t else s
  | .raisePull => { t with iface := { t.iface with pullReq := true } }
  | .awaitItem => if s.iface.pullReq then s else t
  | .setRole ch => { t with ctrl := { t.ctrl with role := ch } }
  | .incBlanks => { t with ctrl := { t.ctrl with blanksFed := t.ctrl.blanksFed + 1 } }
  | .incIdleSends => { t with ctrl := { t.ctrl with idleSends := t.ctrl.idleSends + 1 } }
  | .nextFrame => { t with ctrl := { t.ctrl with wptr := t.ctrl.wptr + 48, nLeft := t.ctrl.nLeft - 1 } }

/-- CTRL's next step in an FSM state: its next statement, and when the statements are done the state's own decision. -/
def State.ctrlStep (decide : State → State) (s : State) : Host.Outcome State Fault Refusal :=
  match s.ctrl.micro with
  | m :: rest => .next (microStep m rest s)
  | [] => .next (decide s)

/-! ### Starting a command -/

/-- `STATUS.BUSY <- 1; perform the rule of opc` (rule R100): the operands are copied from the ARG registers (rule R94)
and CTRL goes to the command's first state. -/
def State.start (s : State) (pc : Pc) (body : List Micro) : State :=
  { s with ctrl := { s.ctrl with pc := pc, micro := body, ops := s.iface.operands } }

/-- The decode check of a command that needs the driver (rules R100 and R206). -/
def State.startConfigured (s : State) (pc : Pc) (body : List Micro) : State :=
  if s.drv = .configured then s.start pc body else s.decodeError .notConfigured

/-- A command word written while another command runs is dropped (rules R24, R28 and R215). -/
def State.dropCommand (s : State) : Host.Outcome State Fault Refusal := .next s.overrun

end Sys2Proof.Machine
end

