-- ==== Sys2Proof/Machine/Driver.lean ====
section
/-! DEFINITION. The driver handle (42_driver.md): CONFIGURE and RELEASE. Each meaning is the command's next step: its start
where CTRL is idle, CTRL's next statement where the command runs, the dropped write where another command runs. -/

namespace Sys2Proof.Machine

/-- PSEL.OUT[k] disconnected (rules R42 and R150). -/
def disconnected : Word := 0xFFFFFFFF

/-- CF_WRITE (rule R150), in the order of its pseudocode. -/
def configureWrites (pin : BitVec 6) : List Micro :=
  [.enable 0, .psel 0 (pin.setWidth 32), .psel 1 disconnected, .psel 2 disconnected, .psel 3 disconnected,
    .mode 0, .prescaler 0, .countertop 20, .decoder 0 0, .loopCnt 0,
    .seqPtr .A 0, .seqCnt .A 0, .seqRefresh .A 0, .seqEndDelay .A 0,
    .seqPtr .B 0, .seqCnt .B 0, .seqRefresh .B 0, .seqEndDelay .B 0] ++
  allEvents.map Micro.clear ++ [.enable 1, .drv .configured]

/-- CF_OFF (rule R153). -/
def releaseWrites : List Micro := [.enable 0, .psel 0 disconnected, .drv .unconfigured]

/-- CONFIGURE (rules R150 to R152). -/
def execConfigure (s : State) : Host.Outcome State Fault Refusal :=
  match s.ctrl.pc with
  | .idle =>
    if s.drv = .configured then .next (s.decodeError .badCommand)
    else .next (s.start .cfWrite (configureWrites s.iface.operands.pin))
  | .cfWrite => s.ctrlStep State.finish
  | _ => s.dropCommand

/-- CF_DRAIN: `wait until eng = Stopped` (rule R153). -/
def releaseDrain (s : State) : State := if s.eng.play = .stopped then s.goto .cfOff releaseWrites else s

/-- RELEASE (rule R153). -/
def execRelease (s : State) : Host.Outcome State Fault Refusal :=
  match s.ctrl.pc with
  | .idle => .next (s.startConfigured .cfDrain [])
  | .cfDrain => s.ctrlStep releaseDrain
  | .cfOff => s.ctrlStep State.finish
  | _ => s.dropCommand

end Sys2Proof.Machine
end

