-- ==== Sys2Proof/Machine/Encoder.lean ====
section
/-! DEFINITION. The symbol encoder and the capacity helper (40_encoder.md): ENCODE_PIXEL and REQUIRED_LENGTH. Neither
needs a configured driver (rule R101). -/

namespace Sys2Proof.Machine

/-- ENC_WRITE with the fence of rule R108. -/
def encodeWrites (o : Operands) : List Micro := writeSamples o.addr.toNat (frame (colourOf o.rgb)) ++ [.fence]

/-- ENC_CHECK (rules R107 and R109). -/
def encodeCheck (s : State) : State :=
  let o := s.ctrl.ops
  if o.cnt.toNat < frameLen then s.raise .bufferTooSmall
  else if !inWindow s.params o.addr.toNat frameLen then s.raise .outOfRangePointer
  else if overlapsBuffers s.params o.addr.toNat (2 * frameLen) then s.endRefused
  else s.goto .encWrite (encodeWrites o)

/-- ENCODE_PIXEL (rules R107 to R109). -/
def execEncodePixel (s : State) : Host.Outcome State Fault Refusal :=
  match s.ctrl.pc with
  | .idle => .next (s.start .encCheck [])
  | .encCheck => s.ctrlStep encodeCheck
  | .encWrite => s.ctrlStep State.finish
  | _ => s.dropCommand

/-- The one state of REQUIRED_LENGTH (rule R110). -/
def requiredLengthBody (s : State) : State :=
  let n := s.ctrl.ops.n.toNat
  if maxColours < n then s.endRefused else (s.setResult (BitVec.ofNat 32 (requiredLength n))).finish

/-- REQUIRED_LENGTH (rule R110). -/
def execRequiredLength (s : State) : Host.Outcome State Fault Refusal :=
  match s.ctrl.pc with
  | .idle => .next (s.start .rlBody [])
  | .rlBody => s.ctrlStep requiredLengthBody
  | _ => s.dropCommand

end Sys2Proof.Machine
end

