-- ==== Sys2Proof/Machine/SendBuf.lean ====
section
/-! DEFINITION. The send over a caller-supplied scratch buffer (45_send_buf.md): SEND_BUF. -/

namespace Sys2Proof.Machine

/-- SB_CHECK (rules R195 and R197), in its order: capacity, N = 0, the descriptor, the overlap. -/
def sendBufCheck (s : State) : State :=
  let o := s.ctrl.ops
  let len := requiredLength o.n.toNat
  if o.cnt.toNat < len then s.raise .bufferTooSmall
  else if o.n = 0 then s.finish
  else match preflight s.params o.addr.toNat len with
    | some c => s.raise c
    | none =>
      if overlapsBuffers s.params o.addr.toNat (2 * len) then s.endRefused
      else { s with ctrl := { s.ctrl with wptr := o.addr, nLeft := o.n.toNat, pc := .sbLoop, micro := [] } }

/-- The test of SB_FILL's loop: the next pull, or the idle tail (rule R195). -/
def sendBufLoop (s : State) : State :=
  if 0 < s.ctrl.nLeft then s.goto .sbFill pull else s.goto .sbTail (fillIdle s.ctrl.wptr.toNat idleTail)

/-- SB_GO: the transfer is started (rule R195). -/
def sendBufStart (s : State) : State :=
  s.goto .sbGo (xferStart .A s.ctrl.ops.addr (requiredLength s.ctrl.ops.n.toNat))

/-- SB_FILL with an item pulled (rule R195). -/
def sendBufItem (s : State) : State :=
  match s.ctrl.item with
  | .endSeq => s.raise .malformedSequence
  | .color c => s.goto .sbLoop (writeSamples s.ctrl.wptr.toNat (frame c) ++ [.nextFrame])

/-- SB_WAIT: `wait until EVENTS_SEQEND[0] = 1` (rule R195). -/
def sendBufWait (s : State) : State := if s.eng.events.get (.seqEnd .A) then s.finish else s

/-- SEND_BUF (rules R195 to R199). -/
def execSendBuf (s : State) : Host.Outcome State Fault Refusal :=
  match s.ctrl.pc with
  | .idle => .next (s.startConfigured .sbCheck [])
  | .sbCheck => s.ctrlStep sendBufCheck
  | .sbLoop => s.ctrlStep sendBufLoop
  | .sbFill => s.ctrlStep sendBufItem
  | .sbTail => s.ctrlStep sendBufStart
  | .sbGo => s.ctrlStep fun s => s.goto .sbWait []
  | .sbWait => s.ctrlStep sendBufWait
  | _ => s.dropCommand

end Sys2Proof.Machine
end

