-- ==== Sys2Proof/Machine/StreamLoop.lean ====
section
/-! DEFINITION. The dual-sequence loop-ahead streaming writer (44_stream_loop.md): WRITE_LOOP. -/

namespace Sys2Proof.Machine

/-- `refill(X, v)` (rule R176). -/
def refill (p : Params) (ch : Channel) (v : Fill) : List Micro :=
  writeSamples (p.buf ch).toNat v.samples ++ (if v = .idle then [.incBlanks] else []) ++ [.fence]

/-- `clear_events()` (rule R177). -/
def clearEvents : List Micro :=
  [.clear (.seqEnd .A), .clear (.seqEnd .B), .clear (.seqStarted .A), .clear (.seqStarted .B), .clear .loopsDone]

/-- `FENCE ; TASKS_SEQSTART[0] <- 1` (rule R178). -/
def startA : List Micro := [.fence, .task .A]

/-- The descriptors and the loop count WRITE_LOOP sets up (rule R178). -/
def loopSetup (p : Params) : List Micro :=
  [.seqPtr .A p.bufA, .seqCnt .A (BitVec.ofNat 15 frameLen), .seqPtr .B p.bufB, .seqCnt .B (BitVec.ofNat 15 frameLen),
    .loopCnt 1]

/-- WL_SETUP with it0 pulled (rule R178). -/
def writeLoopFirst (s : State) : State :=
  match s.ctrl.item with
  | .endSeq => s.finish
  | .color c => s.goto .wlSetup2 (refill s.params .A (.color c) ++ pull)

/-- The rest of WL_SETUP once B's fill is known (rules R178 and R179). -/
def writeLoopPrime (s : State) (v : Fill) : State :=
  s.goto .wlSetup3 (refill s.params .B v ++ loopSetup s.params ++ clearEvents ++ startA ++ [.setRole .A])

/-- WL_SETUP with it1 pulled (rule R178). -/
def writeLoopSecond (s : State) : State :=
  match s.ctrl.item with
  | .endSeq => writeLoopPrime { s with ctrl := { s.ctrl with ended := true } } .idle
  | .color c => writeLoopPrime s (.color c)

/-- WL_STEP's wait: A's own flag in the A role; loop-done in the B role, and then the restart of A before the clear
(rules R178, R180 and R181). -/
def writeLoopStep (s : State) : State :=
  match s.ctrl.role with
  | .A => if s.eng.events.get (.seqEnd .A) then s.goto .wlTest [] else s
  | .B => if s.eng.events.get .loopsDone then s.goto .wlTest (startA ++ clearEvents) else s

/-- The termination test, then the next pull (rules R178 and R185). -/
def writeLoopTest (s : State) : State :=
  if 2 ≤ s.ctrl.blanksFed then s.goto .wlFinal [] else s.goto .wlItem pull

/-- `refill(role, v) ; role <- other(role) ; pc <- WL_STEP` (rule R178). -/
def writeLoopRefill (s : State) (v : Fill) : State :=
  s.goto .wlStep (refill s.params s.ctrl.role v ++ [.setRole s.ctrl.role.other])

/-- `next_item()` with the item pulled (rules R175 and R187), then the refill. -/
def writeLoopItem (s : State) : State :=
  match s.ctrl.item with
  | .endSeq => writeLoopRefill { s with ctrl := { s.ctrl with ended := true } } .idle
  | .color c => if s.ctrl.ended then s.raise .malformedSequence else writeLoopRefill s (.color c)

/-- WL_FINAL (rules R178 and R186). -/
def writeLoopFinal (s : State) : State := if s.eng.events.get .loopsDone then s.finish else s

/-- WL_SETUP's first line: `ended <- 0 ; blanks_fed <- 0` (rule R178), as the command starts. -/
def State.clearLoopCounters (s : State) : State := { s with ctrl := { s.ctrl with ended := false, blanksFed := 0 } }

/-- WRITE_LOOP (rules R175 to R191). -/
def execWriteLoop (s : State) : Host.Outcome State Fault Refusal :=
  match s.ctrl.pc with
  | .idle => if s.drv = .configured then .next (s.clearLoopCounters.start .wlSetup pull)
      else .next (s.decodeError .notConfigured)
  | .wlSetup => s.ctrlStep writeLoopFirst
  | .wlSetup2 => s.ctrlStep writeLoopSecond
  | .wlSetup3 => s.ctrlStep fun s => s.goto .wlStep []
  | .wlStep => s.ctrlStep writeLoopStep
  | .wlTest => s.ctrlStep writeLoopTest
  | .wlItem => s.ctrlStep writeLoopItem
  | .wlFinal => s.ctrlStep writeLoopFinal
  | _ => s.dropCommand

end Sys2Proof.Machine
end

