-- ==== Sys2Proof/Machine/StreamSingle.lean ====
section
/-! DEFINITION. The single-sequence streaming writer (43_stream_single.md): WRITE_SINGLE. -/

namespace Sys2Proof.Machine

/-- Encoding a colour into an internal buffer (rule R160). -/
def encodeInto (p : Params) (ch : Channel) (c : Colour) : List Micro := writeSamples (p.buf ch).toNat (frame c)

/-- WS_FIRST with its item pulled (rule R160, steps 1 and 2). -/
def writeSingleFirst (s : State) : State :=
  match s.ctrl.item with
  | .endSeq => s.finish
  | .color c =>
    let s : State := { s with ctrl := { s.ctrl with ended := false } }
    match preflight s.params s.params.bufA.toNat frameLen with
    | some e => s.raise e
    | none =>
      s.goto .wsFirst2 (encodeInto s.params .A c ++ xferStart .A s.params.bufA frameLen ++ [.setRole .A])

/-- WS_NEXT with its item pulled (rules R160 to R162): the encode comes before the wait, the start after it. On END the
idle fill of WS_TAIL goes to the buffer that is not active, before the wait (90_conflicts.md C2). -/
def writeSingleNext (s : State) : State :=
  let nb := s.ctrl.role.other
  match s.ctrl.item with
  | .endSeq =>
    let s : State := { s with ctrl := { s.ctrl with ended := true, idleSends := 0 } }
    s.goto .wsTail (fillIdle (s.params.buf nb).toNat halfTail ++ [.awaitEnd .A])
  | .color c =>
    s.goto .wsNext (encodeInto s.params nb c ++ [.awaitEnd .A] ++ xferStart .A (s.params.buf nb) frameLen ++
      [.setRole nb] ++ pull)

/-- The `idle_sends` loop of WS_TAIL: the idle half-buffer is sent twice, each time waiting (rules R160 and R164). -/
def writeSingleTail (s : State) : State :=
  if s.ctrl.idleSends < 2 then
    s.goto .wsTail (xferStart .A (s.params.buf s.ctrl.role.other) halfTail ++ [.awaitEnd .A, .incIdleSends])
  else s.finish

/-- WRITE_SINGLE (rules R160 to R168). -/
def execWriteSingle (s : State) : Host.Outcome State Fault Refusal :=
  match s.ctrl.pc with
  | .idle => .next (s.startConfigured .wsFirst pull)
  | .wsFirst => s.ctrlStep writeSingleFirst
  | .wsFirst2 => s.ctrlStep fun s => s.goto .wsNext pull
  | .wsNext => s.ctrlStep writeSingleNext
  | .wsTail => s.ctrlStep writeSingleTail
  | _ => s.dropCommand

end Sys2Proof.Machine
end

