-- ==== Sys2Proof/Machine/Transfer.lean ====
section
/-! DEFINITION. The transfer primitive (41_transfer.md section 2): SEQ_START, SEQ_IS_DONE and SEQ_WAIT. -/

namespace Sys2Proof.Machine

/-- SS_CHECK (rules R120 and R122). -/
def seqStartCheck (ch : Channel) (s : State) : State :=
  let o := s.ctrl.ops
  match preflight s.params o.addr.toNat o.cnt.toNat with
  | some c => s.raise c
  | none =>
    if overlapsBuffers s.params o.addr.toNat (2 * o.cnt.toNat) then s.endRefused
    else s.goto (.ssGo ch) (xferStart ch o.addr o.cnt.toNat)

/-- SEQ_START (rule R122). -/
def execSeqStart (ch : Channel) (s : State) : Host.Outcome State Fault Refusal :=
  match s.ctrl.pc with
  | .idle => .next (s.startConfigured (.ssCheck ch) [])
  | .ssCheck c => if c = ch then s.ctrlStep (seqStartCheck ch) else s.dropCommand
  | .ssGo c => if c = ch then s.ctrlStep State.finish else s.dropCommand
  | _ => s.dropCommand

/-- `RESULT <- zext_32(EVENTS_SEQEND[ch])` (rule R123). -/
def seqIsDoneBody (ch : Channel) (s : State) : State :=
  (s.setResult ((BitVec.ofBool (s.eng.events.get (.seqEnd ch))).setWidth 32)).finish

/-- SEQ_IS_DONE (rule R123). -/
def execSeqIsDone (ch : Channel) (s : State) : Host.Outcome State Fault Refusal :=
  match s.ctrl.pc with
  | .idle => .next (s.startConfigured (.sdBody ch) [])
  | .sdBody c => if c = ch then s.ctrlStep (seqIsDoneBody ch) else s.dropCommand
  | _ => s.dropCommand

/-- SW_POLL: `wait until EVENTS_SEQEND[ch] = 1`, with no timeout (rule R124). -/
def seqWaitPoll (ch : Channel) (s : State) : State := if s.eng.events.get (.seqEnd ch) then s.finish else s

/-- SEQ_WAIT (rule R124). -/
def execSeqWait (ch : Channel) (s : State) : Host.Outcome State Fault Refusal :=
  match s.ctrl.pc with
  | .idle => .next (s.startConfigured (.swPoll ch) [])
  | .swPoll c => if c = ch then s.ctrlStep (seqWaitPoll ch) else s.dropCommand
  | _ => s.dropCommand

end Sys2Proof.Machine
end

