-- ==== Sys2Proof/Machine/Dispatch.lean ====
section
/-! DEFINITION. The dispatch: one arm for each row of the opcode table. -/

namespace Sys2Proof.Machine

def exec (i : Instr) (s : State) : Host.Outcome State Fault Refusal :=
  match i with
  | .configure => Sys2Proof.Machine.execConfigure s
  | .release => Sys2Proof.Machine.execRelease s
  | .encodePixel => Sys2Proof.Machine.execEncodePixel s
  | .requiredLength => Sys2Proof.Machine.execRequiredLength s
  | .seqStart ch => Sys2Proof.Machine.execSeqStart ch s
  | .seqIsDone ch => Sys2Proof.Machine.execSeqIsDone ch s
  | .seqWait ch => Sys2Proof.Machine.execSeqWait ch s
  | .sendBuf => Sys2Proof.Machine.execSendBuf s
  | .writeSingle => Sys2Proof.Machine.execWriteSingle s
  | .writeLoop => Sys2Proof.Machine.execWriteLoop s
  | .symOne => Sys2Proof.Machine.execSymOne s
  | .symZero => Sys2Proof.Machine.execSymZero s
  | .symIdle => Sys2Proof.Machine.execSymIdle s
  | .color ign r g b => Sys2Proof.Machine.execColor ign r g b s
  | .endItem ign => Sys2Proof.Machine.execEndItem ign s

end Sys2Proof.Machine
end

