-- ==== Sys2Proof/Machine/Turns.lean ====
section
/-! DEFINITION. The turns of the agents: HOST's next operation (rules R24 to R30, R66, R67, R76, R95), CTRL's next step,
ENG's next sample (rule R132), a memory step (rule R70), and which of them comes next (rule R126). -/

namespace Sys2Proof.Machine

/-! ### The command interface -/

/-- A HOST read of an interface offset; no read has a side effect (rules R24 to R30 and R69). -/
def State.readIface (s : State) (off : Nat) : Word :=
  if off = 0x04 then s.iface.arg0
  else if off = 0x08 then s.iface.arg1
  else if off = 0x0C then s.iface.arg2
  else if off = 0x10 then s.iface.arg3
  else if off = 0x14 then s.status
  else if off = 0x18 then s.iface.result
  else 0

/-- A write to CMD (rules R24, R89 and R100): dropped while BUSY, an error where the word is illegal, else the command. -/
def State.writeCmd (s : State) (v : Word) : Host.Outcome State Fault Refusal :=
  if s.busy then s.dropCommand
  else match decodeCommand v with
    | .reject _ => .next (s.decodeError .badCommand)
    | .instr i => exec i s

/-- A HOST write to an interface offset (rules R24 to R30 and R69). -/
def State.writeIface (s : State) (off : Nat) (v : Word) : Host.Outcome State Fault Refusal :=
  if off = 0x00 then s.writeCmd v
  else if off = 0x04 then .next { s with iface := { s.iface with arg0 := v } }
  else if off = 0x08 then .next { s with iface := { s.iface with arg1 := v } }
  else if off = 0x0C then .next { s with iface := { s.iface with arg2 := v } }
  else if off = 0x10 then .next { s with iface := { s.iface with arg3 := v } }
  else if off = 0x14 then
    .next (if clearsOverrun v then { s with iface := { s.iface with overrun := false } } else s)
  else if off = 0x1C then exec (decodeColour v) s
  else .next s

/-! ### HOST stores (rules R60, R66, R67 and R76) -/

/-- The address lies in the interface window. -/
def inIface (p : Params) (a : Nat) : Bool := p.ifBase.toNat ≤ a && a < p.ifBase.toNat + windowBytes

/-- The bytes `[a, a + n)` lie in the RAM window. -/
def inRam (p : Params) (a n : Nat) : Bool := p.ramBase.toNat ≤ a && a + n ≤ p.ramEnd

/-- The halfwords of a HOST store, low address first: an aligned 4-byte store is two 16-bit writes (rule R67; log 9). -/
def storeEntries : Nat → List Byte → List Entry
  | a, b0 :: b1 :: rest => [(a, b0), (a + 1, b1)] :: storeEntries (a + 2) rest
  | a, [b0] => [[(a, b0)]]
  | _, [] => []

/-- The bytes of a HOST store, one entry each, low address first: only an aligned access is seen whole (rule R67). -/
def byteEntries : Nat → List Byte → List Entry
  | a, b :: rest => [(a, b)] :: byteEntries (a + 1) rest
  | _, [] => []

/-- A byte of `[a, a + n)` lies in the interface window. -/
def reachesIface (p : Params) (a n : Nat) : Bool := !Params.apart a n p.ifBase.toNat windowBytes

/-- Entries appended to a buffer in order (rules R70 and R71). -/
def State.enqueueAll (s : State) (w : Writer) (es : List Entry) : State :=
  es.foldl (fun s e => s.enqueue w e) s

/-- A HOST store of bytes to RAM or, for an aligned word, to the interface window. A store that reaches an internal buffer
sets FAULT.REFUSED whatever its alignment (rule R66). A misaligned store to RAM is a HOST access rule R67 does not allow
and rule R70 gives an effect: its bytes are written one by one and FAULT.REFUSED marks the run, DESIGN CHOICE (log 14). -/
def State.hostStore (s : State) (a : Nat) (bytes : List Byte) : Host.Outcome State Fault Refusal :=
  if reachesIface s.params a bytes.length then
    if inIface s.params a && bytes.length == 4 && a % 4 == 0 then
      s.writeIface (a - s.params.ifBase.toNat) (BitVec.ofNat 32 (leValue bytes))
    else .next s.refuse
  else if overlapsBuffers s.params a bytes.length then .next s.refuse
  else if !inRam s.params a bytes.length then .fault .hostStoreUnmapped
  else if a % bytes.length != 0 then .next (s.refuse.enqueueAll .host (byteEntries a bytes))
  else .next (s.enqueueAll .host (storeEntries a bytes))

/-! ### HOST's turn -/

/-- HOST has done an operation: the next one comes up. -/
def State.setHostOps (s : State) (l : List HostOp) : State := { s with host := { s.host with ops := l } }

/-- One HOST operation (rule R95); `rest` are the operations after it. An operation that waits stays where it is. -/
def State.hostOp (s : State) (op : HostOp) (rest : List HostOp) : Host.Outcome State Fault Refusal :=
  let t := s.setHostOps rest
  match op with
  | .w32 off v =>
    if windowBytes ≤ off.toNat then .fault .hostOffsetOutsideWindow
    else if off.toNat % 4 != 0 then .next t.refuse
    else t.writeIface off.toNat v
  | .r32 off =>
    if windowBytes ≤ off.toNat then .fault .hostOffsetOutsideWindow
    else if off.toNat % 4 != 0 then .next t.refuse
    else .next { t with host := { t.host with reads := t.host.reads ++ [s.readIface off.toNat] } }
  | .poll off mask v =>
    if windowBytes ≤ off.toNat then .fault .hostOffsetOutsideWindow
    else if off.toNat % 4 != 0 then .next t.refuse
    else .next (if s.readIface off.toNat &&& mask = v then t else s)
  | .mw8 a v => t.hostStore a.toNat [v]
  | .mw16 a v => t.hostStore a.toNat (leBytes 2 v.toNat)
  | .mw32 a v => t.hostStore a.toNat (leBytes 4 v.toNat)
  | .fence => .next (if s.wb.host.isEmpty then t else s)

/-- HOST's turn; HOST with nothing left to do has no step. -/
def hostTurn (s : State) : Host.Outcome State Fault Refusal :=
  match s.host.ops with
  | [] => .next s
  | op :: rest => s.hostOp op rest

/-! ### CTRL's turn -/

/-- The command an FSM state belongs to (rule R21). -/
def Pc.instr : Pc → Option Instr
  | .idle => none
  | .cfWrite => some .configure
  | .cfDrain | .cfOff => some .release
  | .encCheck | .encWrite => some .encodePixel
  | .rlBody => some .requiredLength
  | .ssCheck ch | .ssGo ch => some (.seqStart ch)
  | .sdBody ch => some (.seqIsDone ch)
  | .swPoll ch => some (.seqWait ch)
  | .sbCheck | .sbLoop | .sbFill | .sbTail | .sbGo | .sbWait => some .sendBuf
  | .wsFirst | .wsFirst2 | .wsNext | .wsTail => some .writeSingle
  | .wlSetup | .wlSetup2 | .wlSetup3 | .wlStep | .wlTest | .wlItem | .wlFinal => some .writeLoop

/-- CTRL's turn: the next step of the running command; CTRL in IDLE has no step (rule R21). -/
def ctrlTurn (s : State) : Host.Outcome State Fault Refusal :=
  match s.ctrl.pc.instr with
  | none => .next s
  | some i => exec i s

/-! ### ENG's turn -/

/-- ENG's turn (rules R92, R126 and R132): the next sample is read, decoded and played; a word that is no row of the
table is played as data. -/
def engTurn (s : State) : Host.Outcome State Fault Refusal :=
  match s.eng.play with
  | .stopped => .next s
  | .playing _ _ _ _ _ =>
    let w := s.dmaSample s.eng.play.sampleAddr
    let s := s.countDraws 2
    match decodeSample w with
    | .instr i => exec i s
    | .reject _ => .next (s.emitWord w)

/-! ### The schedule (rule R126) -/

/-- ENG is Playing (rule R47). -/
def State.isPlaying (s : State) : Bool := s.eng.play != .stopped

/-- Whose turn comes next: a planned turn; then ENG's if it has been passed over for long enough; then any. -/
def State.nextTurn (s : State) : Turn :=
  match s.sched.turns with
  | t :: _ => t
  | [] => if s.isPlaying && s.sched.patience == 0 then .eng else Config.freeTurn s.sched.draws

/-- The turn is taken off the schedule. After a free turn of ENG its patience is drawn anew (rule R126). -/
def State.takeTurn (s : State) : State :=
  match s.sched.turns with
  | _ :: rest => { s with sched := { s.sched with turns := rest } }
  | [] =>
    { s with sched :=
        { s.sched with
          patience := if s.nextTurn = .eng then Config.freePatience s.sched.draws else s.sched.patience - 1,
          draws := s.sched.draws + 1 } }

/-- An agent's turn. -/
def runTurn (t : Turn) (s : State) : Host.Outcome State Fault Refusal :=
  match t with
  | .host => hostTurn s
  | .ctrl => ctrlTurn s
  | .eng => engTurn s
  | .drain w => .next (s.drain w)

/-! ### Placing a word where the next step fetches it -/

/-- A sample placed where ENG reads next: in the playing sequence, else in a sequence of one sample at RAM_BASE. -/
def State.placeSample (s : State) (w : Nat) : State :=
  let p : Play := match s.eng.play with
    | .stopped => .playing .A 0 0 s.params.ramBase 1
    | p => p
  { s with
    eng := { s.eng with play := p, raced := false },
    mem := Memory.store s.mem (sampleCells p.sampleAddr (BitVec.ofNat 16 w)),
    sched := { s.sched with turns := .eng :: s.sched.turns } }

/-- A command word as HOST's next operation, with CTRL idle, so that the write is not dropped. -/
def State.placeCommand (s : State) (w : Nat) : State :=
  { s with
    ctrl := { s.ctrl with pc := .idle, micro := [] },
    host := { s.host with ops := .w32 0x00 (BitVec.ofNat 32 w) :: s.host.ops },
    sched := { s.sched with turns := .host :: s.sched.turns } }

/-- A colour word as HOST's next operation. -/
def State.placeColour (s : State) (w : Nat) : State :=
  { s with
    host := { s.host with ops := .w32 0x1C (BitVec.ofNat 32 w) :: s.host.ops },
    sched := { s.sched with turns := .host :: s.sched.turns } }

/-- A word of the opcode table, numbered as the table numbers it, placed where the next step fetches it (log 3, 6). -/
def State.placeWord (s : State) (nbits w : Nat) : State :=
  if nbits = 16 then s.placeSample w
  else match decodeCommand (BitVec.ofNat 32 w) with
    | .instr _ => s.placeCommand w
    | .reject _ => s.placeColour w

end Sys2Proof.Machine
end

