-- ==== Sys2Proof/Machine/Step.lean ====
section
/-! DEFINITION. One step of the block: the next turn of the schedule, taken by its agent; and the placing of a word where
the next step fetches it. -/

namespace Sys2Proof.Machine

/-- One step (rules R18, R70, R126): the three outcomes are a next state, a fault and a refusal. -/
def step (s : State) : Host.Outcome State Fault Refusal := runTurn s.nextTurn s.takeTurn

/-- The state with a word of the opcode table where step fetches its next instruction, and the turn of the agent that
fetches there coming next (log 6). -/
def State.withFetchWord (s : State) (nbits w : Nat) : State := s.placeWord nbits w

end Sys2Proof.Machine
end

