-- ==== Sys2Proof/Machine/HostProgram.lean ====
section
/-! DEFINITION. The command mnemonics of HOST, each expanded into HOST operations (rules R96 and R97), and how a program
comes to HOST. -/

namespace Sys2Proof.Machine.HostProgram

/-- `POLL 0x14, 0x1, 0`: until BUSY = 0. -/
def pollIdle : HostOp := .poll 0x14 0x1 0

/-- `POLL 0x14, 0x8, 0x8`: until PULLREQ = 1. -/
def pollPull : HostOp := .poll 0x14 0x8 0x8

/-- `W32 0x00, w`: the CMD write of a command. -/
def cmd (i : Instr) : HostOp := .w32 0x00 (encode i)

def configure (pin : Word) : List HostOp := [.w32 0x04 pin, cmd .configure, pollIdle]

def release : List HostOp := [cmd .release, pollIdle]

def encodePixel (rgb a c : Word) : List HostOp :=
  [.w32 0x04 rgb, .w32 0x0C a, .w32 0x10 c, cmd .encodePixel, pollIdle]

def requiredLength (n : Word) : List HostOp := [.w32 0x08 n, cmd .requiredLength, pollIdle, .r32 0x18]

def seqStart (ch : Channel) (a len : Word) : List HostOp :=
  [.w32 0x0C a, .w32 0x10 len, cmd (.seqStart ch), pollIdle]

def seqIsDone (ch : Channel) : List HostOp := [cmd (.seqIsDone ch), pollIdle, .r32 0x18]

def seqWait (ch : Channel) : List HostOp := [cmd (.seqWait ch), pollIdle]

/-- `PUSH rgb` (rule R96: rgb[31] = 0). -/
def push (rgb : Word) : List HostOp := [pollPull, .w32 0x1C rgb]

/-- `PUSHEND`. -/
def pushEnd : List HostOp := [pollPull, .w32 0x1C 0x80000000]

/-- The pushes of a list of items. -/
def pushes (items : List Word) : List HostOp := items.flatMap push

def sendBuf (n a c : Word) (items : List Word) : List HostOp :=
  [.w32 0x08 n, .w32 0x0C a, .w32 0x10 c, cmd .sendBuf] ++ pushes items ++ [pollIdle]

/-- WRITE_SINGLE over colours, ended by one END. -/
def writeSingle (items : List Word) : List HostOp := [cmd .writeSingle] ++ pushes items ++ pushEnd ++ [pollIdle]

/-- WRITE_LOOP over a given list of items, colours and ENDs. -/
def writeLoop (items : List Word) : List HostOp := [cmd .writeLoop] ++ pushes items ++ [pollIdle]

end Sys2Proof.Machine.HostProgram
end

