-- ==== Sys2Proof/Machine/Wire.lean ====
section
/-! DEFINITION. The wire trace read as levels of the output pin, tick by tick (41_transfer.md section 4; rules R16, R136
to R141). An observation of a state's trace: no step reads it. -/

namespace Sys2Proof.Machine

/-- POL, bit 15 of a sample (rule R90). -/
def polarity (w : Sample) : Bool := w.getLsbD 15

/-- DUTY, bits [14:0] of a sample (rule R90). -/
def duty (w : Sample) : Nat := (w.extractLsb' 0 15).toNat

/-- The level of the item numbered `k`, a `Sym` of word `w`, at one tick of its period (rule R138): a draw unless POL = 1
and DUTY ≤ 20. -/
def symLevel (k : Nat) (w : Sample) (t : Nat) : Bool :=
  if polarity w && duty w ≤ periodTicks then t < duty w else Config.freeLevel k t

/-- The 20 ticks of a `Sym` (rules R137 and R139). -/
def symTicks (k : Nat) (w : Sample) : List Bool := (List.range periodTicks).map (symLevel k w)

/-- The ticks of a `Cut`: any levels, at most 20 of them (rule R137). -/
def cutTicks (k : Nat) : List Bool :=
  (List.range (min (Config.freeCutTicks k) periodTicks)).map (Config.freeLevel k)

/-- The level at one tick of a gap (rule R140); `last` is the number and word of the last sample emitted since CONFIGURE,
and with none the pin is low (rule R151). -/
def gapLevel (g : GapOutput) (last : Option (Nat × Sample)) (t : Nat) : Bool :=
  match g, last with
  | .idleLow, _ => false
  | .holdLast, none => false
  | .holdLast, some (k, w) => symLevel k w (t % periodTicks)

/-- The changes of the driver state just before the item numbered `k`, oldest first. -/
def drvChanges (marks : DrvMarks) (k : Nat) : List Drv := (marks.filter fun m => m.1 == k).map Prod.snd

/-- The tick at which a part of the gap numbered `k` begins, the parts numbered from 0 (log 24). -/
def partStart (k : Nat) : Nat → Nat
  | 0 => 0
  | j + 1 => partStart k j + Config.freePartTicks k j

/-- The levels of a gap's part that a change of the driver begins: low in a driver configured anew, which has played no
sequence (rules R140 and R151); a draw where the driver is given up, the pin not driven (rule R153; log 24). -/
def changedLevel (k : Nat) : Drv → Nat → Bool
  | .configured => fun _ => false
  | .unconfigured => Config.freePin k

/-- The level at one tick of a gap, from its part numbered `j` on, with that part's level and the changes after it. -/
def partLevel (k : Nat) : (Nat → Bool) → Nat → List Drv → Nat → Bool
  | level, _, [], t => level t
  | level, j, d :: ds, t => if t < partStart k (j + 1) then level t else partLevel k (changedLevel k d) (j + 1) ds t

/-- The ticks of a `Gap` of unmeasured length (rules R137 and R140), with the changes of the driver in it: a RELEASE, and
what follows it, can only lie in a gap (rule R153). -/
def gapTicks (g : GapOutput) (k : Nat) (changes : List Drv) (last : Option (Nat × Sample)) : List Bool :=
  (List.range (Config.freeGapTicks k)).map (partLevel k (gapLevel g last) 0 changes)

/-- The last sample of the driver's present configuration, as the item numbered `k` begins: CONFIGURE forgets it. -/
def sinceConfigure (marks : DrvMarks) (k : Nat) (last : Option (Nat × Sample)) : Option (Nat × Sample) :=
  if marks.any fun m => m == (k, .configured) then none else last

/-- The last sample, once the item numbered `k` has been emitted. -/
def lastAfter (marks : DrvMarks) (k : Nat) (last : Option (Nat × Sample)) (x : WireItem) : Option (Nat × Sample) :=
  match x with
  | .sym w => some (k, w)
  | .cut | .gap => sinceConfigure marks k last

/-- The ticks of the item numbered `k`. -/
def itemTicks (g : GapOutput) (marks : DrvMarks) (k : Nat) (last : Option (Nat × Sample)) (x : WireItem) : List Bool :=
  match x with
  | .sym w => symTicks k w
  | .cut => cutTicks k
  | .gap => gapTicks g k (drvChanges marks (k + 1)) (sinceConfigure marks k last)

/-- The levels of a trace from item number `k` on. -/
def wireTicksFrom (g : GapOutput) (marks : DrvMarks) : Nat → Option (Nat × Sample) → List WireItem → List Bool
  | _, _, [] => []
  | k, last, x :: l => itemTicks g marks k last x ++ wireTicksFrom g marks (k + 1) (lastAfter marks k last x) l

/-- The last sample of the driver's present configuration after a trace from item number `k` on. -/
def lastPlayed (marks : DrvMarks) : Nat → Option (Nat × Sample) → List WireItem → Option (Nat × Sample)
  | k, last, [] => sinceConfigure marks k last
  | k, last, x :: l => lastPlayed marks (k + 1) (lastAfter marks k last x) l

/-- The levels of the pin over the whole trace. -/
def State.wireTicks (s : State) : List Bool := wireTicksFrom s.params.gapOutput s.marks 0 none s.wire

/-- A run of low level at least RESET_TICKS long, which the strip may take as a reset (rules R16 and R141). -/
def mayReset (l : List Bool) : Bool := resetTicks ≤ l.length && l.all (· == false)

/-- The pin is driven by the block: ENABLE = 1 and PSEL.OUT[0].CONNECT = 0 (rules R32, R42, R136 and R226). -/
def State.pinDriven (s : State) : Bool := s.eng.regs.enable == 1 && !s.eng.regs.psel0.getLsbD 31

/-- The level of the pin at one tick while ENG is stopped: low before the first sequence after CONFIGURE, the level of a gap
after it (rules R140 and R151); a draw where the block does not drive the pin (rules R153 and R226). The spec gives no level
inside CONFIGURE, between its ENABLE and its last statement, where the pin is driven and the driver not yet configured: a
draw there too, DESIGN CHOICE (log 24). -/
def State.restLevel (s : State) (t : Nat) : Bool :=
  if s.drv = .configured ∧ s.pinDriven = true then gapLevel s.params.gapOutput (lastPlayed s.marks 0 none s.wire) t
  else Config.freePin s.wire.length t

/-- The pin the output is routed to: PORT and PIN of PSEL.OUT[0] (rules R42 and R136). -/
def State.pin (s : State) : BitVec 6 := s.eng.regs.psel0.extractLsb' 0 6

end Sys2Proof.Machine
end

