-- ==== Sys2Proof/Safety.lean ====
section
/-! DEFINITION. What counts as a good run, in the terms statements use: the fault bits (rules R53 and R216), the invariants
of the machine, turns taken one after another, and the timing obligations as named premises (rule R235). -/

namespace Sys2Proof.Machine

/-- FAULT = 0, the premise of rule R53. -/
def State.clean (s : State) : Prop := s.faults = { dmaRace := false, refused := false }

/-! ### Runs by a given list of turns -/

/-- Turns taken one after another, stopping at the first fault or refusal. -/
def runTurns : List Turn → State → Host.Outcome State Fault Refusal
  | [], s => .next s
  | t :: ts, s =>
    match runTurn t s with
    | .next s' => runTurns ts s'
    | .fault r => .fault r
    | .refused r => .refused r

/-- `n` turns of one agent. -/
def runAgent (t : Turn) (n : Nat) (s : State) : Host.Outcome State Fault Refusal := runTurns (List.replicate n t) s

/-- `k` steps of the machine, stopping at the first fault or refusal. -/
def steps : Nat → State → Host.Outcome State Fault Refusal
  | 0, s => .next s
  | k + 1, s =>
    match step s with
    | .next s' => steps k s'
    | .fault r => .fault r
    | .refused r => .refused r

/-- Some schedule leads from one state to another (rule R126). -/
def Reaches (s t : State) : Prop := ∃ ts : List Turn, runTurns ts s = .next t

/-! ### What HOST does to the block in its next turn -/

/-- The interface write HOST's next operation makes, as an offset and a word: by `W32`, or by an aligned `MW32` into the
interface window (rules R60, R76 and R95). -/
def State.ifaceWrite (s : State) : Option (Nat × Word) :=
  match s.host.ops with
  | .w32 off v :: _ => if offsetOk off then some (off.toNat, v) else none
  | .mw32 a v :: _ =>
    if inIface s.params a.toNat && a.toNat % 4 == 0 then some (a.toNat - s.params.ifBase.toNat, v) else none
  | _ => none

/-- HOST's operation uses only the command interface or waits: it stores nothing to memory. -/
def HostOp.interfaceOnly : HostOp → Bool
  | .w32 _ _ | .r32 _ | .poll _ _ _ | .fence => true
  | .mw8 _ _ | .mw16 _ _ | .mw32 _ _ => false

/-- HOST's operation only reads, waits or writes a colour item: it gives no command and stores nothing to memory. -/
def HostOp.feeds : HostOp → Bool
  | .r32 _ | .poll _ _ _ | .fence => true
  | .w32 off _ => off == 0x1C
  | .mw8 _ _ | .mw16 _ _ | .mw32 _ _ => false

/-- The memory store of a HOST operation, as an address and its bytes (rules R64 and R67). -/
def HostOp.store : HostOp → Option (Nat × List Byte)
  | .mw8 a v => some (a.toNat, [v])
  | .mw16 a v => some (a.toNat, leBytes 2 v.toNat)
  | .mw32 a v => some (a.toNat, leBytes 4 v.toNat)
  | .w32 _ _ | .r32 _ | .poll _ _ _ | .fence => none

/-- A colour's word, written to COLOR_IN (rule R93). -/
def colourWord (c : Colour) : Word := encode (.color 0 c.r c.g c.b)

/-- HOST's answers to the pulls of a list of colours (rule R96). -/
def pushColours (cs : List Colour) : List HostOp := HostProgram.pushes (cs.map colourWord)

/-! ### Samples in memory and on the wire -/

/-- The 16-bit sample memory holds at an address, where both bytes hold a value (rule R64). -/
def Memory.sample (m : Memory) (a : Nat) : Option Sample :=
  match Memory.read m a, Memory.read m (a + 1) with
  | some lo, some hi => some (hi ++ lo)
  | _, _ => none

/-- Memory holds a list of samples from an address on (rules R64 and R116). -/
def Memory.holds (m : Memory) (a : Nat) (l : List Sample) : Prop :=
  ∀ i v, l[i]? = some v → Memory.sample m (a + 2 * i) = some v

/-- Samples played one after another, with no gap (rule R137). -/
def syms (l : List Sample) : List WireItem := l.map .sym

/-- The wire output of WRITE_SINGLE (rule R168). -/
def singleTrace (cs : List Colour) : List WireItem :=
  cs.flatMap (fun c => syms (frame c) ++ [.gap]) ++ syms (idleFrame 20) ++ [.gap] ++ syms (idleFrame 20) ++ [.gap]

/-- The wire output of SEND_BUF (rule R198). -/
def sendTrace (cs : List Colour) : List WireItem := cs.flatMap (fun c => syms (frame c)) ++ syms (idleFrame 40) ++ [.gap]

/-- The frames WRITE_LOOP plays: the colours, then 2 idle frames for an even number of them, 3 for an odd (rule R189). -/
def loopFrames (cs : List Colour) : List (List Sample) :=
  cs.map frame ++ List.replicate (if cs.length % 2 = 0 then 2 else 3) (idleFrame 24)

/-- Frames played in pairs, no gap inside a pair and one after it (rule R190). -/
def pairTrace : List (List Sample) → List WireItem
  | a :: b :: l => syms a ++ syms b ++ [.gap] ++ pairTrace l
  | [a] => syms a ++ [.gap]
  | [] => []

/-- The wire output of WRITE_LOOP (rule R190). -/
def loopTrace (cs : List Colour) : List WireItem := pairTrace (loopFrames cs)

/-! ### Before a command -/

/-- The block between commands: configured (rule R151), CTRL idle, ENG stopped, nothing pending in the write buffers. -/
structure State.Ready (s : State) : Prop where
  params : s.params.wf = true
  configured : s.drv = .configured
  idle : s.ctrl.pc = .idle
  stopped : s.eng.play = .stopped
  drained : s.wb = { host := [], ctrl := [] }
  noPull : s.iface.pullReq = false

/-- What CTRL holds after a command that has ended: the operands it copied (rule R94), nothing left to perform. -/
def Ctrl.after (c : Ctrl) (f : Iface) : Ctrl := { c with pc := .idle, micro := [], ops := f.operands }

/-- How FAULT.REFUSED ends a command (rules R109, R110, R122 and R195): nothing else changes but CTRL, the code STATUS.ERR
is written with, a free value (rule R102; log 12), and the draw counted for it. -/
def State.RefusedEnd (s u : State) : Prop :=
  u = { s with
    iface := { s.iface with err := u.iface.err }
    faults := { s.faults with refused := true }
    ctrl := s.ctrl.after s.iface
    sched := { s.sched with draws := s.sched.draws + 1 } }

/-! ### The configured state (rule R151) -/

/-- The settings CONFIGURE fixes: ENABLE = 1, up-counting, divide-by-one, 20 ticks, common load and refresh-per-count, no
refresh and no end delay, a connected OUT[0] and the other outputs disconnected (rules R127, R150 and R151). -/
def EngRegs.fixed (r : EngRegs) : Prop :=
  r.enable = 1 ∧ r.mode = 0 ∧ r.prescaler = 0 ∧ r.countertop = 20 ∧ r.decLoad = 0 ∧ r.decMode = 0 ∧
  r.seqA.refresh = 0 ∧ r.seqA.endDelay = 0 ∧ r.seqB.refresh = 0 ∧ r.seqB.endDelay = 0 ∧
  r.psel0.toNat < 64 ∧ r.psel1 = 0xFFFFFFFF ∧ r.psel2 = 0xFFFFFFFF ∧ r.psel3 = 0xFFFFFFFF

/-! ### The invariant of the machine -/

/-- A statement of CONFIGURE: a register write or an event clear. -/
def Micro.isSetup : Micro → Bool
  | .enable _ | .psel _ _ | .mode _ | .prescaler _ | .countertop _ | .decoder _ _ | .loopCnt _ => true
  | .seqPtr _ _ | .seqCnt _ _ | .seqRefresh _ _ | .seqEndDelay _ _ | .clear _ => true
  | .memWrite _ _ | .drv _ | .fence | .task _ | .awaitEnd _ | .raisePull | .awaitItem | .setRole _ => false
  | .incBlanks | .incIdleSends | .nextFrame => false

/-- A buffered write. -/
def Micro.isWrite : Micro → Bool
  | .memWrite _ _ => true
  | .enable _ | .psel _ _ | .mode _ | .prescaler _ | .countertop _ | .decoder _ _ | .loopCnt _ | .seqPtr _ _ => false
  | .seqCnt _ _ | .seqRefresh _ _ | .seqEndDelay _ _ | .clear _ | .drv _ | .fence | .task _ | .awaitEnd _ => false
  | .raisePull | .awaitItem | .setRole _ | .incBlanks | .incIdleSends | .nextFrame => false

/-- A statement of `xfer_start(ch, ..)` (rule R121). -/
def Micro.ofXfer (ch : Channel) : Micro → Bool
  | .seqPtr c _ | .seqCnt c _ | .task c => c == ch
  | .clear e => e == .seqEnd ch || e == .seqStarted ch
  | .loopCnt v => v == 0
  | .fence => true
  | .memWrite _ _ | .enable _ | .psel _ _ | .mode _ | .prescaler _ | .countertop _ | .decoder _ _ => false
  | .seqRefresh _ _ | .seqEndDelay _ _ | .drv _ | .awaitEnd _ | .raisePull | .awaitItem | .setRole _ => false
  | .incBlanks | .incIdleSends | .nextFrame => false

/-- A half of `pull()` (rule R99). -/
def Micro.ofPull (m : Micro) : Bool := m == .raisePull || m == .awaitItem

/-- A statement of `refill` (rule R176). -/
def Micro.ofRefill (m : Micro) : Bool := m.isWrite || m == .incBlanks || m == .fence

/-- A statement of `clear_events` or of the start of A (rules R177 and R178). -/
def Micro.ofRestart (m : Micro) : Bool := clearEvents.contains m || startA.contains m

/-- A statement of WRITE_LOOP's descriptors and loop count (rule R178). -/
def Micro.ofLoopSetup : Micro → Bool
  | .seqPtr _ _ | .seqCnt _ _ => true
  | .loopCnt v => v == 1
  | .memWrite _ _ | .enable _ | .psel _ _ | .mode _ | .prescaler _ | .countertop _ | .decoder _ _ => false
  | .seqRefresh _ _ | .seqEndDelay _ _ | .clear _ | .drv _ | .fence | .task _ | .awaitEnd _ | .raisePull => false
  | .awaitItem | .setRole _ | .incBlanks | .incIdleSends | .nextFrame => false

/-- A change of role (rules R160 and R178). -/
def Micro.isRole : Micro → Bool
  | .setRole _ => true
  | .memWrite _ _ | .enable _ | .psel _ _ | .mode _ | .prescaler _ | .countertop _ | .decoder _ _ | .loopCnt _ => false
  | .seqPtr _ _ | .seqCnt _ _ | .seqRefresh _ _ | .seqEndDelay _ _ | .clear _ | .drv _ | .fence | .task _ => false
  | .awaitEnd _ | .raisePull | .awaitItem | .incBlanks | .incIdleSends | .nextFrame => false

/-- The statements each FSM state of a command other than CONFIGURE and CF_OFF has to perform, by the command's own rule;
a state that only decides or waits has none. -/
def Pc.mayPerform (pc : Pc) (m : Micro) : Bool :=
  match pc with
  | .idle | .cfWrite | .cfDrain | .cfOff | .encCheck | .rlBody | .ssCheck _ | .sdBody _ | .swPoll _ => false
  | .sbCheck | .sbWait | .wlFinal => false
  | .encWrite => m.isWrite || m == .fence
  | .ssGo ch => m.ofXfer ch
  | .sbLoop => m.isWrite || m == .nextFrame
  | .sbFill | .wsFirst | .wlSetup | .wlItem => m.ofPull
  | .sbTail => m.isWrite
  | .sbGo => m.ofXfer .A
  | .wsFirst2 => m.isWrite || m.ofXfer .A || m.isRole
  | .wsNext => m.isWrite || m == .awaitEnd .A || m.ofXfer .A || m.isRole || m.ofPull
  | .wsTail => m.isWrite || m == .awaitEnd .A || m.ofXfer .A || m == .incIdleSends
  | .wlSetup2 => m.ofRefill || m.ofPull
  | .wlSetup3 => m.ofRefill || m.ofLoopSetup || m.ofRestart || m.isRole
  | .wlStep => m.ofRefill || m.isRole
  | .wlTest => m.ofRestart

/-- The statements still to perform belong to the FSM state: CONFIGURE's end with `DRV <- Configured`, RELEASE's are
those of CF_OFF, every other state's are those `mayPerform` lists. -/
def planOk (pc : Pc) (l : List Micro) : Prop :=
  match pc with
  | .cfWrite => l = [] ∨ ∃ k : List Micro, l = k ++ [.drv .configured] ∧ ∀ m ∈ k, m.isSetup = true
  | .cfOff => l <:+ releaseWrites
  | _ => ∀ m ∈ l, pc.mayPerform m = true

/-- Every start task has a fence immediately before it (rule R73(a)); `empty` says that the buffer is empty now. -/
def tasksFenced : Bool → List Micro → Bool
  | _, [] => true
  | _, .fence :: l => tasksFenced true l
  | e, .task _ :: l => e && tasksFenced false l
  | _, _ :: l => tasksFenced false l

/-- The two halves of every pull stand together (rule R99). -/
def pullsPaired : List Micro → Bool
  | [] => true
  | .raisePull :: l => l.head? == some .awaitItem && pullsPaired l
  | _ :: l => pullsPaired l

/-- The invariant of the machine. -/
structure Inv (s : State) : Prop where
  /-- MEM keeps its canonical form. -/
  memory : Memory.wf s.mem = true
  /-- In IDLE nothing is left to perform (rule R21). -/
  idle : s.ctrl.pc = .idle → s.ctrl.micro = []
  /-- The statements left belong to the running command. -/
  plan : planOk s.ctrl.pc s.ctrl.micro
  /-- CTRL fences before every start (rule R73(a)). -/
  fenced : tasksFenced s.wb.ctrl.isEmpty s.ctrl.micro = true
  /-- Pulls are whole (rule R99). -/
  pulls : pullsPaired s.ctrl.micro = true
  /-- PULLREQ is 1 only while CTRL waits for a colour item (rule R26). -/
  pullReq : s.iface.pullReq = true → s.ctrl.micro.head? = some .awaitItem
  /-- A playing sequence has a sample left, and plays only in a configured driver (rules R47 and R127). -/
  playing : ∀ ch idx ll lptr lcnt, s.eng.play = .playing ch idx ll lptr lcnt → idx < lcnt ∧ s.drv = .configured
  /-- The configured state (rule R151), but for the turn-off of RELEASE. -/
  settings : s.drv = .configured → s.ctrl.pc ≠ .cfOff → s.eng.regs.fixed
  /-- What is left of CONFIGURE makes the settings; the driver is not configured before its last statement. -/
  configuring : s.ctrl.pc = .cfWrite →
    (s.ctrl.micro.foldl (fun r m => m.regs r) s.eng.regs).fixed ∧ (s.ctrl.micro ≠ [] → s.drv = .unconfigured)
  /-- RELEASE turns ENG off only when it is stopped, and then gives the driver up (rule R153). -/
  releasing : s.ctrl.pc = .cfOff → s.eng.play = .stopped ∧ (s.ctrl.micro = [] → s.drv = .unconfigured)
  /-- There are no interrupts (rules R43 and R213). -/
  noInterrupts : s.eng.regs.shorts = 0 ∧ s.eng.regs.inten = 0
  /-- The model steps whole periods (rule R49). -/
  wholePeriods : s.eng.tick = 0

/-! ### The window invariant (rules R60, R62 and R66) -/

/-- All bytes of an entry lie in the RAM window. -/
def Entry.inRam (p : Params) (e : Entry) : Prop := ∀ c ∈ e, Machine.inRam p c.1 1 = true

/-- Every byte that is in memory, in a write buffer or still to be written by CTRL lies in the RAM window. -/
structure WindowInv (s : State) : Prop where
  mem : Entry.inRam s.params s.mem
  host : ∀ e ∈ s.wb.host, Entry.inRam s.params e
  ctrl : ∀ e ∈ s.wb.ctrl, Entry.inRam s.params e
  plan : ∀ a v, Micro.memWrite a v ∈ s.ctrl.micro → Machine.inRam s.params a 2 = true
  /-- SEND_BUF's write pointer leaves room for the frames still to pull and the idle tail (rules R195 and R196). -/
  scratch : s.ctrl.pc = .sbLoop ∨ s.ctrl.pc = .sbFill →
    s.params.ramBase.toNat ≤ s.ctrl.wptr.toNat ∧ s.ctrl.wptr.toNat + 48 * s.ctrl.nLeft + 80 ≤ s.params.ramEnd ∧
    s.ctrl.micro.count .nextFrame ≤ s.ctrl.nLeft
  pulling : s.ctrl.pc = .sbFill → 1 ≤ s.ctrl.nLeft ∧ Micro.nextFrame ∉ s.ctrl.micro

/-! ### Timing obligations: premises a claim may take, never rules of the machine (rule R235; log 22) -/

/-- A sequence of channel A is still playing. -/
def State.playsA (s : State) : Prop := ∃ idx ll lptr lcnt, s.eng.play = .playing .A idx ll lptr lcnt

/-- T_GAP (rule R232) for a write whose items are those numbered from `lo` up to `hi`: every Gap between two frames of it,
one with a further item of the write after it, is shorter than the strip's reset threshold. -/
def tGap (wire : List WireItem) (lo hi : Nat) : Prop :=
  ∀ k, lo ≤ k → k + 1 < hi → wire[k]? = some .gap → Config.freeGapTicks k < resetTicks

/-- T_REFILL_B (rule R233): while WRITE_LOOP, after a B-role restart of A, still owes B its refill, A is still playing. -/
def tRefillB (s : State) : Prop := s.ctrl.owesB = true → s.playsA

/-- T_CLEAR (rule R234): while CTRL, in a B-role step after the restart of A, has event flags to clear, A is still
playing. -/
def tClear (s : State) : Prop :=
  s.ctrl.role = .B → s.ctrl.pc = .wlTest → s.ctrl.micro ≠ [] → Micro.task .A ∉ s.ctrl.micro → s.playsA

end Sys2Proof.Machine
end

