-- ==== Sys2Proof/Certificates/Slice0/Obligations.lean ====
section
/-! DEFINITION. The statements for the provers, from the numbered rules of spec/. Values the model chose are not stated:
the parameters are those of the state, the free values are named as such. -/

section

open Sys2Proof Sys2Proof.Machine

/-! ### Encodings -/

/-- Words written out from the encodings of rules R86 to R93: RSV, CH and OPC of a command word; POL and DUTY of a sample;
END, the ignored bits, R, G and B of a colour item. The command words go through `decodeTableWord`, which reads a 32-bit
word as a command where it is a legal one: the model's choice (log 3). -/
def Obligations.SpelledWordsDecode : Prop :=
  decodeTableWord 32 0b00000000000000000000000000000001 = some .configure ∧
  decodeTableWord 32 0b00000000000000000000000000000010 = some .release ∧
  decodeTableWord 32 0b00000000000000000000000000010000 = some .encodePixel ∧
  decodeTableWord 32 0b00000000000000000000000000010001 = some .requiredLength ∧
  decodeTableWord 32 0b00000000000000000000000000100000 = some (.seqStart .A) ∧
  decodeTableWord 32 0b00000000000000000000000100100001 = some (.seqIsDone .B) ∧
  decodeTableWord 32 0b00000000000000000000000100100010 = some (.seqWait .B) ∧
  decodeTableWord 32 0b00000000000000000000000000110000 = some .sendBuf ∧
  decodeTableWord 32 0b00000000000000000000000000110001 = some .writeSingle ∧
  decodeTableWord 32 0b00000000000000000000000000110010 = some .writeLoop ∧
  decodeTableWord 16 0b1000000000001101 = some .symOne ∧
  decodeTableWord 16 0b1000000000000101 = some .symZero ∧
  decodeTableWord 16 0b1000000000000000 = some .symIdle ∧
  decode .colour 0b00000000000100100011010001010110 = .instr (.color 0 0x12 0x34 0x56) ∧
  decode .colour 0b10000000000000000000000000000000 = .instr (.endItem 0)

/-- Decoding the word of any instruction at its own place gives the instruction back, with every operand and every ignored
bit, from the word and from its bytes (rules R85 to R93). -/
def Obligations.EncodeThenDecode : Prop :=
  ∀ i : Instr, decode i.format (encode i) = .instr i ∧ decodeBytes i.format (encodeBytes i) = .instr i

/-- Where a word decodes at a place, it is the word of the instruction it decodes to, and that instruction belongs to the
place: no word has two readings and no bit is lost (rules R85 to R93). -/
def Obligations.DecodeThenEncode : Prop :=
  ∀ (f : Format) (w : Word) (i : Instr), decode f w = .instr i → i.format = f ∧ encode i = w

/-- Rule R89: a command word with an unlisted OPC, with a reserved bit set, or with CH = 1 for an opcode that does not use
CH ends at once with BAD_COMMAND and no other effect on any state. -/
def Obligations.IllegalCommandWords : Prop :=
  ∀ (s : State) (v : Word), s.busy = false →
    (v.extractLsb' 0 8 ∉ ([0x01, 0x02, 0x10, 0x11, 0x20, 0x21, 0x22, 0x30, 0x31, 0x32] : List (BitVec 8)) ∨
      v.extractLsb' 9 23 ≠ 0 ∨
      (v.getLsbD 8 = true ∧ v.extractLsb' 0 8 ∉ ([0x20, 0x21, 0x22] : List (BitVec 8)))) →
    s.writeIface 0x00 v = .next { s with iface := { s.iface with err := .badCommand } }

/-! ### Steps and reset -/

/-- A step runs the decoded instruction: a command word HOST writes to CMD while CTRL is idle (by W32, or by an aligned
MW32 at IF_BASE), a colour word it writes to COLOR_IN, a sample word ENG reads, and, for a running command, its next step
at CTRL's turn. Around exec, the step takes the turn off the schedule, takes HOST's operation off its list, and counts
ENG's two draws. A planned turn is taken first. The model's choices: that MW32 is a register write (log 13), the planned
turns (log 8), the counting of draws (log 7). -/
def Obligations.StepRunsFetchedInstruction : Prop :=
  ∀ (s : State) (i : Instr),
    (∀ v rest, s.nextTurn = .host → s.busy = false → s.host.ops = .w32 0x00 v :: rest → decode .command v = .instr i →
      step s = exec i (s.takeTurn.setHostOps rest)) ∧
    (∀ v rest, s.params.wf = true → s.nextTurn = .host → s.busy = false →
      s.host.ops = .mw32 s.params.ifBase v :: rest → decode .command v = .instr i →
      step s = exec i (s.takeTurn.setHostOps rest)) ∧
    (∀ v rest, s.nextTurn = .host → s.host.ops = .w32 0x1C v :: rest → decode .colour v = .instr i →
      step s = exec i (s.takeTurn.setHostOps rest)) ∧
    (∀ ch idx ll lptr lcnt, s.nextTurn = .eng → s.eng.play = .playing ch idx ll lptr lcnt →
      decode .sample ((s.takeTurn.dmaSample (lptr.toNat + 2 * idx)).setWidth 32) = .instr i →
      step s = exec i (s.takeTurn.countDraws 2)) ∧
    (s.nextTurn = .ctrl → s.ctrl.pc.instr = some i → step s = exec i s.takeTurn) ∧
    (∀ t rest, s.sched.turns = t :: rest →
      s.nextTurn = t ∧ s.takeTurn = { s with sched := { s.sched with turns := rest } })

/-- Reset (rules R55 and R225) as far as the spec gives it: every interface register 0, CTRL idle, the driver
unconfigured, every event flag 0, ENG stopped, loop_mode and tick 0, buffers and wire empty, no fault, no interrupt, no
byte of memory holding a value; and the block waits: no agent's turn changes anything. -/
def Obligations.ResetState : Prop :=
  (∀ off ∈ [0x00, 0x04, 0x08, 0x0C, 0x10, 0x14, 0x18, 0x1C], State.reset.readIface off = 0) ∧
  State.reset.ctrl.pc = .idle ∧ State.reset.drv = .unconfigured ∧
  (∀ e ∈ allEvents, State.reset.eng.events.get e = false) ∧
  State.reset.eng.play = .stopped ∧ State.reset.eng.loopMode = false ∧ State.reset.eng.tick = 0 ∧
  State.reset.eng.regs.shorts = 0 ∧ State.reset.eng.regs.inten = 0 ∧
  State.reset.wb = { host := [], ctrl := [] } ∧ State.reset.wire = [] ∧ State.reset.clean ∧
  (∀ a, Memory.read State.reset.mem a = none) ∧
  (∀ t : Turn, runTurn t State.reset = .next State.reset)

/-- The invariants hold at reset; the parameters reset carries (the model's choice, log 2) are admissible. -/
def Obligations.ResetMeetsInvariants : Prop :=
  State.reset.params.wf = true ∧ Inv State.reset ∧ WindowInv State.reset

/-- Every step keeps the invariant of the machine: memory's canonical form, an idle CTRL with nothing left to perform, the
statements left being those of CTRL's own state (rules R21 and R150 to R195), a fence before every start task (rule R73),
PULLREQ only while CTRL waits for an item (rule R26), a playing sequence with a sample left and a configured driver (rules
R47 and R127), the configured state (rule R151), no interrupts (R213). -/
def Obligations.StepKeepsInv : Prop :=
  ∀ s t : State, Inv s → step s = .next t → Inv t

/-- Every step keeps every byte the block holds, has pending or has still to write inside the RAM window (rules R60, R62
and R66), for all admissible parameters. -/
def Obligations.StepKeepsWindow : Prop :=
  ∀ s t : State, s.params.wf = true → WindowInv s → step s = .next t → WindowInv t

/-- What no step undoes: the fault bits are sticky (rule R53), the wire trace only grows (rules R18 and R137), and the
parameters are configuration (rule R227). The model's own record of the driver state (log 24) gains an entry exactly where
a step writes the driver state. -/
def Obligations.HistoryOnlyGrows : Prop :=
  ∀ s t : State, step s = .next t →
    (s.faults.dmaRace = true → t.faults.dmaRace = true) ∧ (s.faults.refused = true → t.faults.refused = true) ∧
    s.wire <+: t.wire ∧ t.params = s.params ∧
    (t.marks = s.marks ∧ t.drv = s.drv ∨ t.marks = s.marks ++ [(s.wire.length, t.drv)])

/-- Weak fairness (rule R126): with no turns planned, a Playing engine has its turn after at most `patience` further
steps, unless the run stops or the engine is stopped first. The patience is the model's form of the fairness (log 8). -/
def Obligations.WeakFairness : Prop :=
  ∀ s : State, s.sched.turns = [] → s.isPlaying = true →
    ∃ k, k ≤ s.sched.patience ∧
      ((∃ u, steps k s = .next u ∧ (u.nextTurn = .eng ∨ u.isPlaying = false)) ∨ ∀ u, steps k s ≠ .next u)

/-! ### The command interface -/

/-- Rule R28: OVERRUN is sticky, only a HOST write of 1 to STATUS bit 2 clears it, and setting it has no other effect. -/
def Obligations.OverrunIsSticky : Prop :=
  (∀ s t : State, s.iface.overrun = true → step s = .next t →
    t.iface.overrun = true ∨ ∃ v, s.nextTurn = .host ∧ s.ifaceWrite = some (0x14, v) ∧ v.getLsbD 2 = true) ∧
  (∀ (s : State) (v : Word), v.getLsbD 2 = true →
    s.writeIface 0x14 v = .next { s with iface := { s.iface with overrun := false } }) ∧
  (∀ (s : State) (v : Word), v.getLsbD 2 = false → s.writeIface 0x14 v = .next s) ∧
  (∀ (s : State) (v : Word), s.busy = true →
    s.writeIface 0x00 v = .next { s with iface := { s.iface with overrun := true } }) ∧
  (∀ (s : State) (v : Word), s.iface.pullReq = false →
    s.writeIface 0x1C v = .next { s with iface := { s.iface with overrun := true } })

/-- The STATUS word HOST reads (rules R26 and R205): BUSY, CONFIGURED, OVERRUN, PULLREQ, ERR in [11:8] by its code, all
other bits 0. -/
def Obligations.StatusWord : Prop :=
  ∀ s : State,
    (s.readIface 0x14).getLsbD 0 = decide (s.ctrl.pc ≠ .idle) ∧
    (s.readIface 0x14).getLsbD 1 = decide (s.drv = .configured) ∧
    (s.readIface 0x14).getLsbD 2 = s.iface.overrun ∧
    (s.readIface 0x14).getLsbD 3 = s.iface.pullReq ∧
    (s.readIface 0x14).extractLsb' 8 4 =
      (match s.iface.err with
        | .ok => 0
        | .bufferTooSmall => 1
        | .emptyTransfer => 2
        | .outOfRangePointer => 3
        | .malformedSequence => 4
        | .notConfigured => 5
        | .badCommand => 6) ∧
    ∀ b, (4 ≤ b ∧ b < 8 ∨ 12 ≤ b) → (s.readIface 0x14).getLsbD b = false

/-- Rule R29: a write to COLOR_IN delivers END or a colour and clears PULLREQ where a pull is pending, and is dropped with
OVERRUN otherwise; COLOR_IN reads 0. The meanings of COLOR and END, with all they leave unchanged. -/
def Obligations.ColorPort : Prop :=
  ∀ s : State,
    (∀ w : Word, s.iface.pullReq = true → w.getLsbD 31 = true →
      s.writeIface 0x1C w = .next
        { s with iface := { s.iface with pullReq := false }, ctrl := { s.ctrl with item := .endSeq } }) ∧
    (∀ w : Word, s.iface.pullReq = true → w.getLsbD 31 = false →
      s.writeIface 0x1C w = .next
        { s with iface := { s.iface with pullReq := false },
                 ctrl := { s.ctrl with item := .color ⟨w.extractLsb' 16 8, w.extractLsb' 8 8, w.extractLsb' 0 8⟩ } }) ∧
    (∀ w : Word, s.iface.pullReq = false →
      s.writeIface 0x1C w = .next { s with iface := { s.iface with overrun := true } }) ∧
    (∀ ign r g b, s.iface.pullReq = true →
      exec (.color ign r g b) s = .next
        { s with iface := { s.iface with pullReq := false },
                 ctrl := { s.ctrl with item := .color { r := r, g := g, b := b } } }) ∧
    (∀ ign, s.iface.pullReq = true →
      exec (.endItem ign) s = .next
        { s with iface := { s.iface with pullReq := false }, ctrl := { s.ctrl with item := .endSeq } }) ∧
    s.readIface 0x1C = 0

/-- Rule R30: offsets 0x20 to 0xFFF read 0 and ignore writes, as registers and as HOST's turn reaches them, by W32 and
R32 at an aligned offset (an unaligned one is rule R76's, HostStores). -/
def Obligations.ReservedOffsets : Prop :=
  ∀ (s : State) (off v : Word) (rest : List HostOp), 0x20 ≤ off.toNat → off.toNat ≤ 0xFFF →
    s.readIface off.toNat = 0 ∧ s.writeIface off.toNat v = .next s ∧
    (off.toNat % 4 = 0 → s.host.ops = .w32 off v :: rest →
      hostTurn s = .next { s with host := { s.host with ops := rest } }) ∧
    (off.toNat % 4 = 0 → s.host.ops = .r32 off :: rest →
      hostTurn s = .next { s with host := { ops := rest, reads := s.host.reads ++ [0] } })

/-- Reads of interface registers have no side effects (rules R24 and R69): an R32 adds what it read to HOST's reads and
changes nothing else, a POLL waits or goes on, CMD reads 0. -/
def Obligations.ReadsHaveNoSideEffects : Prop :=
  ∀ (s : State) (off mask v : Word) (rest : List HostOp), off.toNat % 4 = 0 → off.toNat < 0x1000 →
    (s.host.ops = .r32 off :: rest →
      hostTurn s = .next { s with host := { ops := rest, reads := s.host.reads ++ [s.readIface off.toNat] } }) ∧
    (s.host.ops = .poll off mask v :: rest →
      (s.readIface off.toNat &&& mask = v → hostTurn s = .next { s with host := { s.host with ops := rest } }) ∧
      (s.readIface off.toNat &&& mask ≠ v → hostTurn s = .next s)) ∧
    s.readIface 0x00 = 0

/-- ARG0 to ARG3 read back what was written and change nothing else; a running command does not see a later write: its
next step is the same whatever the ARG registers hold (rules R25 and R94). -/
def Obligations.ArgRegisters : Prop :=
  (∀ (s : State) (v : Word),
    s.writeIface 0x04 v = .next { s with iface := { s.iface with arg0 := v } } ∧
    s.writeIface 0x08 v = .next { s with iface := { s.iface with arg1 := v } } ∧
    s.writeIface 0x0C v = .next { s with iface := { s.iface with arg2 := v } } ∧
    s.writeIface 0x10 v = .next { s with iface := { s.iface with arg3 := v } } ∧
    s.readIface 0x04 = s.iface.arg0 ∧ s.readIface 0x08 = s.iface.arg1 ∧ s.readIface 0x0C = s.iface.arg2 ∧
    s.readIface 0x10 = s.iface.arg3) ∧
  (∀ (s t : State) (i : Instr) (a0 a1 a2 a3 : Word), s.ctrl.pc.instr = some i → exec i s = .next t →
    exec i { s with iface := { s.iface with arg0 := a0, arg1 := a1, arg2 := a2, arg3 := a3 } } =
      .next { t with iface := { t.iface with arg0 := a0, arg1 := a1, arg2 := a2, arg3 := a3 } })

/-- How a command starts (rules R94, R100, R101, R152 and R206): with the driver unconfigured every command but CONFIGURE,
ENCODE_PIXEL and REQUIRED_LENGTH only records NOT_CONFIGURED; otherwise CTRL becomes busy with it, holding its operands,
and nothing but CTRL changes. That every command copies all four ARG registers, not only those it reads, is the model's
choice (log 15). -/
def Obligations.CommandStarts : Prop :=
  ∀ (s : State) (i : Instr), i.format = .command → s.ctrl.pc = .idle →
    (s.drv = .unconfigured → i ≠ .configure → i ≠ .encodePixel → i ≠ .requiredLength →
      exec i s = .next { s with iface := { s.iface with err := .notConfigured } }) ∧
    ((s.drv = .unconfigured ∧ i = .configure) ∨ i = .encodePixel ∨ i = .requiredLength ∨
        (s.drv = .configured ∧ i ≠ .configure) →
      ∃ c : Ctrl, exec i s = .next { s with ctrl := c } ∧ c.pc.instr = some i ∧
        c.ops.rgb = s.iface.arg0.extractLsb' 0 24 ∧ c.ops.pin = s.iface.arg0.extractLsb' 0 6 ∧
        c.ops.n = s.iface.arg1 ∧ c.ops.addr = s.iface.arg2 ∧ c.ops.cnt = s.iface.arg3)

/-- Rule R152: CONFIGURE while Configured ends with BAD_COMMAND and changes nothing else. -/
def Obligations.ConfigureTwiceRejected : Prop :=
  ∀ s : State, s.ctrl.pc = .idle → s.drv = .configured →
    exec .configure s = .next { s with iface := { s.iface with err := .badCommand } } ∧
    s.writeIface 0x00 0x01 = .next { s with iface := { s.iface with err := .badCommand } }

/-- What a command returns, and when (rules R26, R27 and R102): STATUS.ERR is written only when a command ends, so BUSY is
0 after the step that writes it; RESULT is written only by REQUIRED_LENGTH and SEQ_IS_DONE, ending without error. -/
def Obligations.OutcomeWriters : Prop :=
  ∀ s t : State, step s = .next t →
    (t.iface.err ≠ s.iface.err → t.busy = false) ∧
    (t.iface.result ≠ s.iface.result →
      s.nextTurn = .ctrl ∧ (s.ctrl.pc = .rlBody ∨ ∃ ch, s.ctrl.pc = .sdBody ch) ∧ t.busy = false ∧ t.iface.err = .ok)

/-- The pull of rule R99: the first half sets PULLREQ, CTRL then has no further step until HOST delivers an item, and
goes on once it has. -/
def Obligations.PullWaits : Prop :=
  ∀ (s : State) (i : Instr) (rest : List Micro), s.ctrl.pc.instr = some i →
    (s.ctrl.micro = .raisePull :: .awaitItem :: rest →
      ctrlTurn s = .next { s with iface := { s.iface with pullReq := true },
                                  ctrl := { s.ctrl with micro := .awaitItem :: rest } }) ∧
    (s.ctrl.micro = .awaitItem :: rest → s.iface.pullReq = true → ctrlTurn s = .next s) ∧
    (s.ctrl.micro = .awaitItem :: rest → s.iface.pullReq = true → ∀ w : Word,
      ∃ t, s.writeIface 0x1C w = .next t ∧ t.iface.pullReq = false ∧
        ctrlTurn t = .next { t with ctrl := { t.ctrl with micro := rest } })

/-! ### The driver -/

/-- CONFIGURE (rules R150 and R151): turns of CTRL write every setting of the configured state, the pin from ARG0[5:0]
only, clear every event flag and enter Configured; ERR = OK; nothing else changes but the model's record of the driver
state (log 24). The pin then rests low, whatever was played before and whatever GAP_OUTPUT is (rules R140 and R151). The
count of 28 turns is the model's (log 10). -/
def Obligations.ConfigureRuns : Prop :=
  ∀ s : State, s.ctrl.pc = .idle → s.drv = .unconfigured →
    ∃ t u, exec .configure s = .next t ∧ runAgent .ctrl 28 t = .next u ∧
      u = { s with
        iface := { s.iface with err := .ok }
        drv := .configured
        marks := s.marks ++ [(s.wire.length, .configured)]
        ctrl := s.ctrl.after s.iface
        eng := { s.eng with
          events := Events.none
          regs := { s.eng.regs with
            enable := 1, mode := 0, prescaler := 0, countertop := 20, decLoad := 0, decMode := 0, loopCnt := 0
            seqA := { ptr := 0, cnt := 0, refresh := 0, endDelay := 0 }
            seqB := { ptr := 0, cnt := 0, refresh := 0, endDelay := 0 }
            psel0 := (s.iface.arg0.extractLsb' 0 6).setWidth 32
            psel1 := 0xFFFFFFFF, psel2 := 0xFFFFFFFF, psel3 := 0xFFFFFFFF } } } ∧
      u.pinDriven = true ∧ u.pin = s.iface.arg0.extractLsb' 0 6 ∧ ∀ tick, u.restLevel tick = false

/-- RELEASE (rule R153): it waits while ENG plays; with ENG stopped, turns of CTRL disable ENG, disconnect OUT[0] and
leave Configured; ERR = OK; nothing else changes but the model's record of the driver state (log 24). The count of 5 turns
is the model's (log 10). -/
def Obligations.ReleaseRuns : Prop :=
  ∀ s : State, s.ctrl.pc = .idle → s.drv = .configured →
    ∃ t, exec .release s = .next t ∧
      (∀ n, s.eng.play ≠ .stopped → runAgent .ctrl n t = .next t) ∧
      (s.eng.play = .stopped → runAgent .ctrl 5 t = .next
        { s with
          iface := { s.iface with err := .ok }
          drv := .unconfigured
          marks := s.marks ++ [(s.wire.length, .unconfigured)]
          ctrl := s.ctrl.after s.iface
          eng := { s.eng with regs := { s.eng.regs with enable := 0, psel0 := 0xFFFFFFFF } } })

/-- Rule R31: Configured is entered only by CONFIGURE and left only by RELEASE; reset is Unconfigured. The invariant rules
out states no run reaches, in which another command holds such a statement. -/
def Obligations.DriverStateChanges : Prop :=
  State.reset.drv = .unconfigured ∧
  ∀ s t : State, Inv s → step s = .next t → t.drv ≠ s.drv →
    s.nextTurn = .ctrl ∧
      ((t.drv = .configured ∧ s.ctrl.pc.instr = some .configure) ∨
       (t.drv = .unconfigured ∧ s.ctrl.pc.instr = some .release))

/-! ### The encoder -/

/-- Rule R105: a frame is 24 samples, green then red then blue, each most significant bit first; every sample is SYM_ONE
or SYM_ZERO (rules R103, R104 and R113). -/
def Obligations.FrameSamples : Prop :=
  ∀ c : Colour, (frame c).length = 24 ∧
    (∀ k, k < 8 →
      (frame c)[k]? = some (if c.g.getLsbD (7 - k) then 0x800D else 0x8005) ∧
      (frame c)[8 + k]? = some (if c.r.getLsbD (7 - k) then 0x800D else 0x8005) ∧
      (frame c)[16 + k]? = some (if c.b.getLsbD (7 - k) then 0x800D else 0x8005)) ∧
    (∀ x : Byte, ∀ i, i < 8 → (rev8 x).getLsbD i = x.getLsbD (7 - i))

/-- Rule R112: reading a frame back gives the colour, bit for bit. -/
def Obligations.FrameRoundTrip : Prop :=
  ∀ c : Colour, unframe (frame c) = some c

/-- The checks of ENCODE_PIXEL in their order (rules R107, R109, R114 and R211): capacity, window, overlap with the
internal buffers. Each ends the command with no byte written and nothing else changed. The model's choices: that one turn
of CTRL ends it (log 10), and the code a refused command leaves, a free value (log 12). -/
def Obligations.EncodePixelChecks : Prop :=
  ∀ s : State, s.ctrl.pc = .idle →
    ∃ t, exec .encodePixel s = .next t ∧
      (s.iface.arg3.toNat < 24 → runAgent .ctrl 1 t = .next
        { s with iface := { s.iface with err := .bufferTooSmall }, ctrl := s.ctrl.after s.iface }) ∧
      (24 ≤ s.iface.arg3.toNat → inWindow s.params s.iface.arg2.toNat 24 = false → runAgent .ctrl 1 t = .next
        { s with iface := { s.iface with err := .outOfRangePointer }, ctrl := s.ctrl.after s.iface }) ∧
      (24 ≤ s.iface.arg3.toNat → inWindow s.params s.iface.arg2.toNat 24 = true →
        overlapsBuffers s.params s.iface.arg2.toNat 48 = true → ∃ u, runAgent .ctrl 1 t = .next u ∧ s.RefusedEnd u)

/-- ENCODE_PIXEL where its checks pass (rules R107 and R108), whatever the driver state: turns of CTRL buffer the 24
samples, 24 memory steps store them, then the fence passes and the command ends with ERR = OK. MEM holds the frame at
ARG2 and every other byte is as before; the race of rule R74 is marked exactly where the destination lies in the playing
sequence; nothing else changes. The counts of 25 and 2 turns are the model's (log 10). CTRL's buffer is empty at the start;
where it is not, the fence waits for the rest of it too (FenceBlocks). -/
def Obligations.EncodePixelRuns : Prop :=
  ∀ s : State, s.ctrl.pc = .idle → s.wb.ctrl = [] → 24 ≤ s.iface.arg3.toNat →
    inWindow s.params s.iface.arg2.toNat 24 = true → overlapsBuffers s.params s.iface.arg2.toNat 48 = false →
    ∃ t u, exec .encodePixel s = .next t ∧
      runTurns (List.replicate 25 .ctrl ++ List.replicate 24 (.drain .ctrl) ++ List.replicate 2 .ctrl) t = .next u ∧
      Memory.holds u.mem s.iface.arg2.toNat (frame (colourOf (s.iface.arg0.extractLsb' 0 24))) ∧
      (∀ a, a < s.iface.arg2.toNat ∨ s.iface.arg2.toNat + 48 ≤ a → Memory.read u.mem a = Memory.read s.mem a) ∧
      (let race := s.eng.play.covers ((List.range 48).map fun k => (s.iface.arg2.toNat + k, 0))
       u = { s with
        iface := { s.iface with err := .ok }
        ctrl := s.ctrl.after s.iface
        mem := u.mem
        eng := { s.eng with raced := s.eng.raced || race }
        faults := { s.faults with dmaRace := s.faults.dmaRace || race } })

/-- Rule R108 over every schedule: when ENCODE_PIXEL has ended without error, the frame is in MEM, whatever turns HOST,
CTRL, ENG and the memory steps took, so that HOST may use it once it has seen BUSY = 0. HOST has nothing buffered and only
reads the interface, waits and answers pulls, since it could store to the destination itself. -/
def Obligations.EncodePixelFenced : Prop :=
  ∀ (s t u : State) (ts : List Turn), s.ctrl.pc = .idle → s.wb = { host := [], ctrl := [] } →
    (∀ op ∈ s.host.ops, op.feeds = true) →
    24 ≤ s.iface.arg3.toNat → inWindow s.params s.iface.arg2.toNat 24 = true →
    overlapsBuffers s.params s.iface.arg2.toNat 48 = false →
    exec .encodePixel s = .next t → runTurns ts t = .next u → u.busy = false →
    u.iface.err = .ok ∧ u.wb.ctrl = [] ∧
      Memory.holds u.mem s.iface.arg2.toNat (frame (colourOf (s.iface.arg0.extractLsb' 0 24)))

/-- REQUIRED_LENGTH (rule R110): RESULT is 24·N + 40 where that fits 32 bits and ERR = OK; otherwise FAULT.REFUSED, with
RESULT as before. Nothing else changes, and no configured driver is needed (rule R101). The model's choices: that one turn
of CTRL ends it (log 10), and the code a refused command leaves, a free value (log 12). -/
def Obligations.RequiredLengthRuns : Prop :=
  ∀ s : State, s.ctrl.pc = .idle →
    ∃ t, exec .requiredLength s = .next t ∧
      (s.iface.arg1.toNat ≤ 178956968 → ∃ v : Word, v.toNat = 24 * s.iface.arg1.toNat + 40 ∧
        runAgent .ctrl 1 t = .next
          { s with iface := { s.iface with err := .ok, result := v }, ctrl := s.ctrl.after s.iface }) ∧
      (178956968 < s.iface.arg1.toNat → ∃ u, runAgent .ctrl 1 t = .next u ∧ s.RefusedEnd u)

/-! ### The transfer primitive -/

/-- Rule R120: the pre-flight check of a descriptor, in its order. -/
def Obligations.PreflightCheck : Prop :=
  ∀ (p : Params) (addr len : Nat),
    (len = 0 → preflight p addr len = some .emptyTransfer) ∧
    (len ≠ 0 → p.maxSeqLen < len → preflight p addr len = some .outOfRangePointer) ∧
    (len ≠ 0 → len ≤ p.maxSeqLen →
      ¬(addr % 2 = 0 ∧ p.ramBase.toNat ≤ addr ∧ addr + 2 * len ≤ p.ramBase.toNat + p.ramSize) →
      preflight p addr len = some .outOfRangePointer) ∧
    (len ≠ 0 → len ≤ p.maxSeqLen → addr % 2 = 0 → p.ramBase.toNat ≤ addr →
      addr + 2 * len ≤ p.ramBase.toNat + p.ramSize → preflight p addr len = none)

/-- The checks of SEQ_START (rules R122 and R211): where one fails no ENG register and no event changes. The model's
choices: that one turn of CTRL ends it (log 10), and the code a refused command leaves, a free value (log 12). -/
def Obligations.SeqStartChecks : Prop :=
  ∀ (s : State) (ch : Channel), s.ctrl.pc = .idle → s.drv = .configured →
    ∃ t, exec (.seqStart ch) s = .next t ∧
      (∀ c, preflight s.params s.iface.arg2.toNat s.iface.arg3.toNat = some c → runAgent .ctrl 1 t = .next
        { s with iface := { s.iface with err := c }, ctrl := s.ctrl.after s.iface }) ∧
      (preflight s.params s.iface.arg2.toNat s.iface.arg3.toNat = none →
        overlapsBuffers s.params s.iface.arg2.toNat (2 * s.iface.arg3.toNat) = true →
        ∃ u, runAgent .ctrl 1 t = .next u ∧ s.RefusedEnd u)

/-- SEQ_START where its checks pass (rules R121, R122, R130, R131 and R135): turns of CTRL arm and start channel ch with
LOOP = 0, cut a playing sequence short, clear SEQEND[ch], set SEQSTARTED[ch] and end with ERR = OK; a write HOST has not
fenced that lies in the region is a race (rule R74). Nothing else changes. The count of 9 turns is the model's (log 10).
CTRL's buffer is empty at the start; where it is not, the fence waits (FenceBlocks). -/
def Obligations.SeqStartRuns : Prop :=
  ∀ (s : State) (ch : Channel), s.params.wf = true → s.ctrl.pc = .idle → s.drv = .configured → s.wb.ctrl = [] →
    preflight s.params s.iface.arg2.toNat s.iface.arg3.toNat = none →
    overlapsBuffers s.params s.iface.arg2.toNat (2 * s.iface.arg3.toNat) = false →
    ∃ t, exec (.seqStart ch) s = .next t ∧
      (let race := s.wb.touch s.iface.arg2.toNat s.iface.arg3.toNat
       let d : SeqRegs := { s.eng.regs.seq ch with ptr := s.iface.arg2, cnt := BitVec.ofNat 15 s.iface.arg3.toNat }
       runAgent .ctrl 9 t = .next
        { s with
          iface := { s.iface with err := .ok }
          ctrl := s.ctrl.after s.iface
          wire := s.wire ++ (if s.eng.play = .stopped then [] else [.cut])
          faults := { s.faults with dmaRace := s.faults.dmaRace || race }
          eng := { s.eng with
            regs := { s.eng.regs.setSeq ch d with loopCnt := 0 }
            events := (s.eng.events.put (.seqEnd ch) false).put (.seqStarted ch) true
            play := .playing ch 0 0 s.iface.arg2 s.iface.arg3.toNat
            loopMode := false
            raced := race } })

/-- SEQ_IS_DONE (rule R123): RESULT is 1 where the channel's completion flag is set and 0 where not; ERR = OK; nothing
else changes. That one turn of CTRL does all this is the model's choice (log 10). -/
def Obligations.SeqIsDoneRuns : Prop :=
  ∀ (s : State) (ch : Channel), s.ctrl.pc = .idle → s.drv = .configured →
    ∃ t, exec (.seqIsDone ch) s = .next t ∧
      runAgent .ctrl 1 t = .next
        { s with
          iface := { s.iface with err := .ok, result := if s.eng.events.get (.seqEnd ch) then 1 else 0 }
          ctrl := s.ctrl.after s.iface }

/-- SEQ_WAIT (rule R124): it ends with ERR = OK where the channel's completion flag is set, and waits, however long, where
it is not. That one turn of CTRL ends it is the model's choice (log 10). -/
def Obligations.SeqWaitRuns : Prop :=
  ∀ (s : State) (ch : Channel), s.ctrl.pc = .idle → s.drv = .configured →
    ∃ t, exec (.seqWait ch) s = .next t ∧
      (s.eng.events.get (.seqEnd ch) = true → runAgent .ctrl 1 t = .next
        { s with iface := { s.iface with err := .ok }, ctrl := s.ctrl.after s.iface }) ∧
      (s.eng.events.get (.seqEnd ch) = false → ∀ n, runAgent .ctrl n t = .next t)

/-- SEQ_IS_DONE and SEQ_WAIT are idempotent (rule R125): neither writes an ENG register or event, and repeating either
gives the same answer, whatever turns are taken between the two, as long as HOST gives no command there and the channel's
completion flag is afterwards as it was. That one turn of CTRL is a whole run of either is the model's choice (log 10). -/
def Obligations.CompletionChecksIdempotent : Prop :=
  ∀ (s : State) (ch : Channel), s.ctrl.pc = .idle → s.drv = .configured →
    (∃ t u, exec (.seqIsDone ch) s = .next t ∧ runAgent .ctrl 1 t = .next u ∧ u.busy = false ∧ u.eng = s.eng ∧
      ∀ (ts : List Turn) (v : State), (.host ∉ ts ∨ ∀ op ∈ s.host.ops, op.feeds = true) → runTurns ts u = .next v →
        v.eng.events.get (.seqEnd ch) = s.eng.events.get (.seqEnd ch) →
        ∃ t' u', exec (.seqIsDone ch) v = .next t' ∧ runAgent .ctrl 1 t' = .next u' ∧ u'.busy = false ∧
          u'.eng = v.eng ∧ u'.iface.result = u.iface.result ∧ u'.iface.err = u.iface.err) ∧
    (∀ (n : Nat) (t u : State), exec (.seqWait ch) s = .next t → runAgent .ctrl n t = .next u → u.eng = s.eng) ∧
    (s.eng.events.get (.seqEnd ch) = true →
      ∃ t u, exec (.seqWait ch) s = .next t ∧ runAgent .ctrl 1 t = .next u ∧ u.busy = false ∧
        ∀ (ts : List Turn) (v : State), (.host ∉ ts ∨ ∀ op ∈ s.host.ops, op.feeds = true) → runTurns ts u = .next v →
          v.eng.events.get (.seqEnd ch) = true →
          ∃ t' u', exec (.seqWait ch) v = .next t' ∧ runAgent .ctrl 1 t' = .next u' ∧ u'.busy = false ∧
            u'.eng = v.eng ∧ u'.iface.err = u.iface.err)

/-! ### The engine -/

/-- The start task (rules R127, R130, R131 and R135), as the CTRL step that triggers it: refused while Unconfigured; a
playing sequence is cut; channel A latches loop_mode and the loop count, channel B is refused in loop mode; then the
sequence begins, its descriptor latched, or is refused where its CNT is 0. The cut is made whichever command starts, and
whichever started what plays (log 23). Nothing else changes. -/
def Obligations.StartTask : Prop :=
  ∀ (s : State) (i : Instr) (n : Channel) (rest : List Micro), s.ctrl.pc.instr = some i →
    s.ctrl.micro = .task n :: rest →
    ∃ t, exec i s = .next t ∧
      t = { s with ctrl := { s.ctrl with micro := rest }, eng := t.eng, wire := t.wire, faults := t.faults } ∧
      t.eng.regs = s.eng.regs ∧ t.eng.tick = s.eng.tick ∧
      (s.drv = .unconfigured →
        t.eng = s.eng ∧ t.wire = s.wire ∧ t.faults = { s.faults with refused := true }) ∧
      (s.drv = .configured → t.wire = s.wire ++ (if s.eng.play = .stopped then [] else [.cut])) ∧
      (s.drv = .configured → n = .B → s.eng.regs.loopCnt ≠ 0 →
        t.eng = { s.eng with play := .stopped } ∧ t.faults = { s.faults with refused := true }) ∧
      (s.drv = .configured → (n = .B → s.eng.regs.loopCnt = 0) →
        t.eng.loopMode = decide (n = .A ∧ s.eng.regs.loopCnt ≠ 0) ∧
        ((s.eng.regs.seq n).cnt = 0 → t.eng.play = .stopped ∧ t.eng.events = s.eng.events ∧
          t.eng.raced = s.eng.raced ∧ t.faults = { s.faults with refused := true }) ∧
        ((s.eng.regs.seq n).cnt ≠ 0 →
          t.eng.play = .playing n 0 (if n = .A then s.eng.regs.loopCnt.toNat - 1 else 0) (s.eng.regs.seq n).ptr
            (s.eng.regs.seq n).cnt.toNat ∧
          t.eng.events = s.eng.events.put (.seqStarted n) true ∧
          t.eng.raced = s.wb.touch (s.eng.regs.seq n).ptr.toNat (s.eng.regs.seq n).cnt.toNat ∧
          t.faults = { s.faults with dmaRace := s.faults.dmaRace || t.eng.raced }))

/-- SYM_ONE, SYM_ZERO and SYM_IDLE (rules R91, R132 and R133): one whole period of the word on the wire; inside a sequence
the next index, and at its end, out of loop mode, SEQEND, a stopped engine and a gap. Nothing else changes. -/
def Obligations.EmitStep : Prop :=
  ∀ (s : State) (ch : Channel) (idx ll lcnt : Nat) (lptr : Word), s.eng.play = .playing ch idx ll lptr lcnt →
    ∀ iw ∈ ([(.symOne, 0x800D), (.symZero, 0x8005), (.symIdle, 0x8000)] : List (Instr × Sample)),
      (idx + 1 ≠ lcnt → exec iw.1 s = .next
        { s with wire := s.wire ++ [.sym iw.2],
                 eng := { s.eng with play := .playing ch (idx + 1) ll lptr lcnt, tick := 0 } }) ∧
      (idx + 1 = lcnt → s.eng.loopMode = false → exec iw.1 s = .next
        { s with wire := s.wire ++ [.sym iw.2, .gap],
                 eng := { s.eng with play := .stopped, events := s.eng.events.put (.seqEnd ch) true, tick := 0 } })

/-- The end of a sequence in loop mode (rules R133 and R134): A chains into B with no gap; B begins A again while loops
are left; at the last B, LOOPSDONE, a stopped engine and a gap. A chained sequence latches its descriptor (rule R131), and
a write still buffered over its region is a race (rule R74). Where A ends while WRITE_LOOP still owes B its refill, the
deadline of rules R183 and R233 is missed: a race too, whatever is buffered. Nothing else changes. -/
def Obligations.EndOfSequence : Prop :=
  ∀ (s : State) (ch : Channel) (idx ll lcnt : Nat) (lptr : Word), s.eng.play = .playing ch idx ll lptr lcnt →
    idx + 1 = lcnt → s.eng.loopMode = true →
    ∀ iw ∈ ([(.symOne, 0x800D), (.symZero, 0x8005), (.symIdle, 0x8000)] : List (Instr × Sample)),
    ∃ t, exec iw.1 s = .next t ∧ t = { s with wire := t.wire, eng := t.eng, faults := t.faults } ∧
      t.eng.regs = s.eng.regs ∧ t.eng.loopMode = true ∧ t.eng.tick = 0 ∧
      (ch = .A → s.eng.regs.seqB.cnt ≠ 0 →
        t.wire = s.wire ++ [.sym iw.2] ∧
        t.eng.play = .playing .B 0 ll s.eng.regs.seqB.ptr s.eng.regs.seqB.cnt.toNat ∧
        t.eng.events = (s.eng.events.put (.seqEnd .A) true).put (.seqStarted .B) true ∧
        t.eng.raced = (s.wb.touch s.eng.regs.seqB.ptr.toNat s.eng.regs.seqB.cnt.toNat || s.ctrl.owesB) ∧
        t.faults = { s.faults with dmaRace := s.faults.dmaRace || t.eng.raced }) ∧
      (ch = .B → 0 < ll → s.eng.regs.seqA.cnt ≠ 0 →
        t.wire = s.wire ++ [.sym iw.2] ∧
        t.eng.play = .playing .A 0 (ll - 1) s.eng.regs.seqA.ptr s.eng.regs.seqA.cnt.toNat ∧
        t.eng.events = (s.eng.events.put (.seqEnd .B) true).put (.seqStarted .A) true ∧
        t.eng.raced = s.wb.touch s.eng.regs.seqA.ptr.toNat s.eng.regs.seqA.cnt.toNat ∧
        t.faults = { s.faults with dmaRace := s.faults.dmaRace || t.eng.raced }) ∧
      (ch = .B → ll = 0 →
        t.wire = s.wire ++ [.sym iw.2, .gap] ∧ t.eng.play = .stopped ∧ t.eng.raced = s.eng.raced ∧
        t.eng.events = (s.eng.events.put (.seqEnd .B) true).put .loopsDone true ∧ t.faults = s.faults) ∧
      (ch = .A → s.eng.regs.seqB.cnt = 0 →
        t.wire = s.wire ++ [.sym iw.2] ∧ t.eng.play = .stopped ∧ t.eng.events = s.eng.events.put (.seqEnd .A) true ∧
        t.eng.raced = (s.eng.raced || s.ctrl.owesB) ∧
        t.faults = { dmaRace := s.faults.dmaRace || s.ctrl.owesB, refused := true }) ∧
      (ch = .B → 0 < ll → s.eng.regs.seqA.cnt = 0 →
        t.wire = s.wire ++ [.sym iw.2] ∧ t.eng.play = .stopped ∧ t.eng.events = s.eng.events.put (.seqEnd .B) true ∧
        t.eng.raced = s.eng.raced ∧ t.faults = { s.faults with refused := true })

/-- A whole sequence out of loop mode (rules R75, R92, R132, R133 and R137): if memory holds the samples, canonical or
not, ENG's turns play exactly them, in order and with no gap, then stop with SEQEND set and a gap. Nothing else changes but
the number of draws, which the model counts (log 7). -/
def Obligations.PlayoutSingle : Prop :=
  ∀ (s : State) (ch : Channel) (ll : Nat) (lptr : Word) (l : List Sample), l ≠ [] →
    s.eng.play = .playing ch 0 ll lptr l.length → s.eng.loopMode = false → s.eng.raced = false →
    Memory.holds s.mem lptr.toNat l →
    runAgent .eng l.length s = .next
      { s with
        wire := s.wire ++ syms l ++ [.gap]
        eng := { s.eng with play := .stopped, events := s.eng.events.put (.seqEnd ch) true, tick := 0 }
        sched := { s.sched with draws := s.sched.draws + 2 * l.length } }

/-- A pair in loop mode with LOOP.CNT = 1 (rules R133, R134 and R190): one start of A plays A, then B with no gap, then
sets LOOPSDONE, where B's buffer is whole when B begins. Nothing else changes but the number of draws (log 7). -/
def Obligations.PlayoutLoopPair : Prop :=
  ∀ (s : State) (pa : Word) (la lb : List Sample), la ≠ [] → lb ≠ [] →
    s.eng.play = .playing .A 0 0 pa la.length → s.eng.loopMode = true → s.eng.raced = false →
    s.eng.regs.seqB.cnt.toNat = lb.length → s.wb.touch s.eng.regs.seqB.ptr.toNat lb.length = false →
    s.ctrl.owesB = false →
    Memory.holds s.mem pa.toNat la → Memory.holds s.mem s.eng.regs.seqB.ptr.toNat lb →
    runAgent .eng (la.length + lb.length) s = .next
      { s with
        wire := s.wire ++ syms la ++ syms lb ++ [.gap]
        eng := { s.eng with
          play := .stopped
          events := (((s.eng.events.put (.seqEnd .A) true).put (.seqStarted .B) true).put (.seqEnd .B) true).put
            .loopsDone true
          tick := 0 }
        sched := { s.sched with draws := s.sched.draws + 2 * (la.length + lb.length) } }

/-- Rule R138: the waveform of a sample over its 20 ticks, high for DUTY ticks and then low where POL = 1 and DUTY ≤ 20, a
draw per tick otherwise; SYM_ONE is high 13 ticks, SYM_ZERO 5, SYM_IDLE none. -/
def Obligations.Waveform : Prop :=
  (∀ (k : Nat) (w : Sample), w.getLsbD 15 = true → (w.extractLsb' 0 15).toNat ≤ 20 →
    symTicks k w = List.replicate (w.extractLsb' 0 15).toNat true ++
      List.replicate (20 - (w.extractLsb' 0 15).toNat) false) ∧
  (∀ (k : Nat) (w : Sample), w.getLsbD 15 = false ∨ 20 < (w.extractLsb' 0 15).toNat →
    symTicks k w = (List.range 20).map (Config.freeLevel k)) ∧
  (∀ k, symTicks k 0x800D = List.replicate 13 true ++ List.replicate 7 false) ∧
  (∀ k, symTicks k 0x8005 = List.replicate 5 true ++ List.replicate 15 false) ∧
  (∀ k, symTicks k 0x8000 = List.replicate 20 false)

/-- Levels and durations on the wire. Samples: the 24 samples of a frame last 480 ticks, `n` idle samples are a low run of
20·n ticks, which the strip may take as a reset exactly from 40 samples on (rules R16, R115, R139 and R141). A Cut lasts at
most 20 ticks (rule R137). A Gap, of unmeasured length, is low under IdleLow and repeats the last sample's waveform under
HoldLast (rule R140; from its first tick: log 20), so that after idle samples it is low under either; it may be a reset
only from 800 ticks on (rule R141), and under T_GAP, a premise (rule R232, log 22), no Gap between two frames of a write
may. In a Gap every stretch in which the driver stands configured anew, with no sequence played, is low, however often
the driver is released and configured there (rules R140 and R151); the parts of the Gap are the model's reading (log 24). -/
def Obligations.GapsAndIdleTail : Prop :=
  (∀ (g : GapOutput) (marks : DrvMarks) (k n : Nat) (last : Option (Nat × Sample)) (c : Colour),
    wireTicksFrom g marks k last (syms (idleFrame n)) = List.replicate (20 * n) false ∧
    (mayReset (wireTicksFrom g marks k last (syms (idleFrame n))) = true ↔ 40 ≤ n) ∧
    (wireTicksFrom g marks k last (syms (frame c))).length = 480 ∧
    (1 ≤ n → drvChanges marks (k + n + 1) = [] →
      ∀ b ∈ wireTicksFrom g marks k last (syms (idleFrame n) ++ [.gap]), b = false)) ∧
  (∀ k, (cutTicks k).length ≤ 20) ∧
  (∀ (k : Nat) (last : Option (Nat × Sample)), ∀ b ∈ gapTicks .idleLow k [] last, b = false) ∧
  (∀ (k j t : Nat) (w : Sample), t < Config.freeGapTicks k →
    (gapTicks .holdLast k [] (some (j, w)))[t]? = some (symLevel j w (t % 20))) ∧
  (∀ (g : GapOutput) (k t : Nat) (last : Option (Nat × Sample)) (pre post : List Drv),
    partStart k (pre.length + 1) ≤ t → (post = [] ∨ t < partStart k (pre.length + 2)) →
    (gapTicks g k (pre ++ .configured :: post) last)[t]? ≠ some true) ∧
  (∀ (g : GapOutput) (k : Nat) (changes : List Drv) (last : Option (Nat × Sample)),
    (gapTicks g k changes last).length = Config.freeGapTicks k ∧
    (mayReset (gapTicks g k changes last) = true → 800 ≤ Config.freeGapTicks k) ∧
    (800 ≤ Config.freeGapTicks k → mayReset (gapTicks .idleLow k [] last) = true)) ∧
  (∀ (wire : List WireItem) (lo hi k : Nat) (g : GapOutput) (changes : List Drv) (last : Option (Nat × Sample)),
    tGap wire lo hi → lo ≤ k → k + 1 < hi → wire[k]? = some .gap → mayReset (gapTicks g k changes last) = false)

/-! ### The writers -/

/-- The checks of SEND_BUF in their order (rules R195, R197 and R211): capacity; N = 0 ends OK with no transfer; the
descriptor; the overlap. Nothing else changes. The model's choices: that one turn of CTRL ends it (log 10), and the code a
refused command leaves, a free value (log 12). -/
def Obligations.SendBufChecks : Prop :=
  ∀ s : State, s.ctrl.pc = .idle → s.drv = .configured →
    ∃ t, exec .sendBuf s = .next t ∧
      (s.iface.arg3.toNat < 24 * s.iface.arg1.toNat + 40 → runAgent .ctrl 1 t = .next
        { s with iface := { s.iface with err := .bufferTooSmall }, ctrl := s.ctrl.after s.iface }) ∧
      (40 ≤ s.iface.arg3.toNat → s.iface.arg1 = 0 → runAgent .ctrl 1 t = .next
        { s with iface := { s.iface with err := .ok }, ctrl := s.ctrl.after s.iface }) ∧
      (24 * s.iface.arg1.toNat + 40 ≤ s.iface.arg3.toNat → s.iface.arg1 ≠ 0 →
        (∀ c, preflight s.params s.iface.arg2.toNat (24 * s.iface.arg1.toNat + 40) = some c →
          runAgent .ctrl 1 t = .next
            { s with iface := { s.iface with err := c }, ctrl := s.ctrl.after s.iface }) ∧
        (preflight s.params s.iface.arg2.toNat (24 * s.iface.arg1.toNat + 40) = none →
          overlapsBuffers s.params s.iface.arg2.toNat (2 * (24 * s.iface.arg1.toNat + 40)) = true →
          ∃ u, runAgent .ctrl 1 t = .next u ∧ s.RefusedEnd u))

/-- SEND_BUF over N ≥ 1 colours (rules R195, R196 and R198): where its checks pass and HOST answers the N pulls, some
schedule ends it with ERR = OK and ENG stopped; the scratch buffer holds the N frames and 40 idle samples and no other
byte has changed; the wire has gained exactly them, in one transfer with no gap; no fault is set. -/
def Obligations.SendBufRuns : Prop :=
  ∀ (s : State) (cs : List Colour) (rest : List HostOp), s.Ready → cs ≠ [] → s.iface.arg1.toNat = cs.length →
    24 * cs.length + 40 ≤ s.iface.arg3.toNat →
    preflight s.params s.iface.arg2.toNat (24 * cs.length + 40) = none →
    overlapsBuffers s.params s.iface.arg2.toNat (2 * (24 * cs.length + 40)) = false →
    s.host.ops = pushColours cs ++ rest →
    ∃ t u, exec .sendBuf s = .next t ∧ Reaches t u ∧
      u.busy = false ∧ u.iface.err = .ok ∧ u.host.ops = rest ∧ u.eng.play = .stopped ∧
      u.eng.events.get (.seqEnd .A) = true ∧ u.faults = s.faults ∧ u.wb = s.wb ∧
      Memory.holds u.mem s.iface.arg2.toNat (cs.flatMap frame ++ idleFrame 40) ∧
      (∀ a, a < s.iface.arg2.toNat ∨ s.iface.arg2.toNat + 2 * (24 * cs.length + 40) ≤ a →
        Memory.read u.mem a = Memory.read s.mem a) ∧
      u.wire = s.wire ++ sendTrace cs

/-- WRITE_SINGLE over N ≥ 1 colours (rules R160, R161, R164, R165 and R168): where HOST answers the N + 1 pulls, some
schedule ends it with ERR = OK, ENG stopped and SEQEND[0] set; the wire has gained the N frames, each with its gap, and
the idle half-buffer twice. The last colour stands in A for an odd N and in B for an even one; the other buffer holds 20
idle samples and then what it held before, of the colour before the last or of the start; no byte outside the two buffers
has changed and no fault is set. The premise on MAX_SEQ_LEN is what rule R166 takes for granted (log 18). -/
def Obligations.WriteSingleRuns : Prop :=
  ∀ (s : State) (cs : List Colour) (rest : List HostOp), s.Ready → 24 ≤ s.params.maxSeqLen → cs ≠ [] →
    s.host.ops = pushColours cs ++ HostProgram.pushEnd ++ rest →
    ∃ t u, exec .writeSingle s = .next t ∧ Reaches t u ∧
      u.busy = false ∧ u.iface.err = .ok ∧ u.host.ops = rest ∧ u.eng.play = .stopped ∧
      u.eng.events.get (.seqEnd .A) = true ∧ u.eng.regs.loopCnt = 0 ∧ u.faults = s.faults ∧ u.wb = s.wb ∧
      (let lastBuf : Channel := if cs.length % 2 = 1 then .A else .B
       (∀ pre d, cs = pre ++ [d] → Memory.holds u.mem (s.params.buf lastBuf).toNat (frame d)) ∧
       (∀ pre c d, cs = pre ++ [c, d] →
         Memory.holds u.mem (s.params.buf lastBuf.other).toNat (idleFrame 20 ++ (frame c).drop 20)) ∧
       (cs.length = 1 → Memory.holds u.mem (s.params.buf .B).toNat (idleFrame 20) ∧
         ∀ k, 40 ≤ k → k < 48 →
           Memory.read u.mem ((s.params.buf .B).toNat + k) = Memory.read s.mem ((s.params.buf .B).toNat + k))) ∧
      (∀ a, (∀ ch, a < (s.params.buf ch).toNat ∨ (s.params.buf ch).toNat + 48 ≤ a) →
        Memory.read u.mem a = Memory.read s.mem a) ∧
      u.wire = s.wire ++ singleTrace cs

/-- Rule R163: no run of WRITE_SINGLE sets FAULT.DMA_RACE, in whatever order CTRL, ENG, HOST and the memory steps take
their turns, as long as HOST only reads the interface and answers pulls. -/
def Obligations.WriteSingleNeverRaces : Prop :=
  ∀ (s t u : State) (ts : List Turn), s.Ready → (∀ op ∈ s.host.ops, op.feeds = true) →
    exec .writeSingle s = .next t → runTurns ts t = .next u → u.faults.dmaRace = s.faults.dmaRace

/-- WRITE_LOOP over N ≥ 1 colours (rules R178, R185, R186, R189, R190 and R191): where HOST answers the N + 2 pulls, some
schedule ends it with ERR = OK, ENG stopped and LOOPSDONE and both SEQEND flags set; the wire has gained the N frames and
2 or 3 idle frames, in pairs; both internal buffers hold idle frames, no byte outside them has changed, LOOP.CNT is left
at 1 and no fault is set. -/
def Obligations.WriteLoopRuns : Prop :=
  ∀ (s : State) (cs : List Colour) (rest : List HostOp), s.Ready → cs ≠ [] →
    s.host.ops = pushColours cs ++ HostProgram.pushEnd ++ HostProgram.pushEnd ++ rest →
    ∃ t u, exec .writeLoop s = .next t ∧ Reaches t u ∧
      u.busy = false ∧ u.iface.err = .ok ∧ u.host.ops = rest ∧ u.eng.play = .stopped ∧
      u.eng.events.get .loopsDone = true ∧ u.eng.events.get (.seqEnd .A) = true ∧
      u.eng.events.get (.seqEnd .B) = true ∧ u.eng.regs.loopCnt = 1 ∧ u.ctrl.blanksFed = 2 ∧
      u.faults = s.faults ∧ u.wb = s.wb ∧
      (∀ ch, Memory.holds u.mem (s.params.buf ch).toNat (idleFrame 24)) ∧
      (∀ a, (∀ ch, a < (s.params.buf ch).toNat ∨ (s.params.buf ch).toNat + 48 ≤ a) →
        Memory.read u.mem a = Memory.read s.mem a) ∧
      u.wire = s.wire ++ loopTrace cs

/-- Rules R183, R184 and R233: a run of WRITE_LOOP in which the refill deadline T_REFILL_B holds at every state sets no
FAULT.DMA_RACE, in whatever order the agents take their turns, as long as HOST only reads the interface and answers
pulls. The deadline is a premise (rule R235), in the model's reading by steps (log 22): without it the machine admits the
race (EndOfSequence). -/
def Obligations.WriteLoopRacesOnlyPastDeadline : Prop :=
  ∀ (s t u : State) (ts : List Turn), s.Ready → (∀ op ∈ s.host.ops, op.feeds = true) →
    exec .writeLoop s = .next t → runTurns ts t = .next u →
    (∀ k v, runTurns (ts.take k) t = .next v → tRefillB v) →
    u.faults.dmaRace = s.faults.dmaRace

/-- Writing zero colours (rules R160, R178 and R197): WRITE_SINGLE and WRITE_LOOP whose first item is END end OK with no
ENG register, event, byte or wire item changed. The count of three turns of CTRL is the model's (log 10). -/
def Obligations.ZeroColoursNoTransfer : Prop :=
  ∀ (s : State) (rest : List HostOp), s.Ready → s.host.ops = HostProgram.pushEnd ++ rest →
    (∃ t, exec .writeSingle s = .next t ∧
      runTurns [.ctrl, .host, .host, .ctrl, .ctrl] t = .next
        { s with iface := { s.iface with err := .ok }, host := { s.host with ops := rest },
                 ctrl := { s.ctrl.after s.iface with item := .endSeq } }) ∧
    (∃ t, exec .writeLoop s = .next t ∧
      runTurns [.ctrl, .host, .host, .ctrl, .ctrl] t = .next
        { s with iface := { s.iface with err := .ok }, host := { s.host with ops := rest },
                 ctrl := { s.ctrl.after s.iface with item := .endSeq, ended := false, blanksFed := 0 } })

/-- Malformed input (rules R187 and R195): a colour after an END in WRITE_LOOP, and an END before the N colours in
SEND_BUF, end the command at once with MALFORMED_SEQUENCE; ENG, its events and sequences, memory and the write buffers
stay as they are. -/
def Obligations.MalformedInput : Prop :=
  ∀ s : State, s.ctrl.micro = [] →
    (∀ c, s.ctrl.pc = .wlItem → s.ctrl.ended = true → s.ctrl.item = .color c → exec .writeLoop s = .next
      { s with iface := { s.iface with err := .malformedSequence }, ctrl := { s.ctrl with pc := .idle } }) ∧
    (s.ctrl.pc = .sbFill → s.ctrl.item = .endSeq → exec .sendBuf s = .next
      { s with iface := { s.iface with err := .malformedSequence }, ctrl := { s.ctrl with pc := .idle } })

/-- The hangs of rule R234: with ENG stopped, SEQ_WAIT on a flag that is 0, and WRITE_LOOP waiting for a flag that the
clear after the restart has lost, stay where they are in every schedule, whatever HOST does; nothing ends them. Under
T_CLEAR, a premise (rules R234 and R235, log 22), no flag is lost: while CTRL is in the clear of a B-role step and A is
playing when it starts, A's completion flag is set or A still plays, in every schedule. -/
def Obligations.LostFlagHangs : Prop :=
  (∀ (s u : State) (ts : List Turn), s.ctrl.micro = [] → s.eng.play = .stopped →
    ((∃ ch, s.ctrl.pc = .swPoll ch ∧ s.eng.events.get (.seqEnd ch) = false) ∨
     (s.ctrl.pc = .wlStep ∧ s.ctrl.role = .A ∧ s.eng.events.get (.seqEnd .A) = false) ∨
     (s.ctrl.pc = .wlStep ∧ s.ctrl.role = .B ∧ s.eng.events.get .loopsDone = false) ∨
     (s.ctrl.pc = .wlFinal ∧ s.eng.events.get .loopsDone = false)) →
    runTurns ts s = .next u → u.ctrl.pc = s.ctrl.pc ∧ u.busy = true ∧ u.wire = s.wire ∧ u.eng = s.eng) ∧
  (∀ (s u : State) (ts : List Turn), s.ctrl.role = .B → s.ctrl.micro = clearEvents → s.playsA →
    (∀ k v, runTurns (ts.take k) s = .next v → v.ctrl.pc = .wlTest ∧ tClear v) →
    runTurns ts s = .next u → u.playsA ∨ u.eng.events.get (.seqEnd .A) = true)

/-! ### Memory and ordering -/

/-- Rule R64: a sample occupies two bytes, the low one first; ENG reads it back so, sample i at addr + 2·i. -/
def Obligations.SampleLittleEndian : Prop :=
  (∀ (m : Memory) (a : Nat) (v : Sample),
    Memory.read (Memory.store m (sampleCells a v)) a = some (v.extractLsb' 0 8) ∧
    Memory.read (Memory.store m (sampleCells a v)) (a + 1) = some (v.extractLsb' 8 8) ∧
    ∀ x, x ≠ a → x ≠ a + 1 → Memory.read (Memory.store m (sampleCells a v)) x = Memory.read m x) ∧
  (∀ (s : State) (a : Nat) (lo hi : Byte), s.eng.raced = false → Memory.read s.mem a = some lo →
    Memory.read s.mem (a + 1) = some hi → s.dmaSample a = hi ++ lo) ∧
  (∀ (ch : Channel) (idx ll lcnt : Nat) (lptr : Word),
    (Play.playing ch idx ll lptr lcnt).sampleAddr = lptr.toNat + 2 * idx)

/-- The write buffers (rules R70 and R71): a memory step stores the oldest entry of one buffer and leaves the other agent's
alone; a buffered write is appended, and the writing agent reads its own youngest write. -/
def Obligations.WriteBufferFifo : Prop :=
  ∀ (s : State) (w : Writer),
    (∀ e rest, s.wb.of w = e :: rest →
      ∃ t, runTurn (.drain w) s = .next t ∧ t.mem = Memory.store s.mem e ∧ t.wb = s.wb.set w rest ∧
        t.wire = s.wire ∧ t.ctrl = s.ctrl ∧ t.iface = s.iface ∧ t.drv = s.drv ∧ t.host = s.host ∧
        t.eng = { s.eng with raced := t.eng.raced }) ∧
    (s.wb.of w = [] → runTurn (.drain w) s = .next s) ∧
    (∀ (a : Nat) (v : Sample),
      (s.enqueue w (sampleCells a v)).wb.of w = s.wb.of w ++ [sampleCells a v] ∧
      (s.enqueue w (sampleCells a v)).readAs w a = some (v.extractLsb' 0 8) ∧
      (s.enqueue w (sampleCells a v)).readAs w (a + 1) = some (v.extractLsb' 8 8) ∧
      ∀ x, x ≠ a → x ≠ a + 1 → (s.enqueue w (sampleCells a v)).readAs w x = s.readAs w x)

/-- The DMA race (rule R74): a byte stored into the region of the playing sequence, or an entry still buffered over the
region a sequence latches as it begins, sets FAULT.DMA_RACE, and every read of that sequence is then a draw; without such
a byte, or with no sequence playing, a memory step leaves the fault bits as before. The mark stays until another sequence
begins. -/
def Obligations.RaceConditions : Prop :=
  (∀ (s : State) (w : Writer) (e : Entry) (rest : List Entry) (ch : Channel) (idx ll lcnt : Nat) (lptr : Word),
    s.wb.of w = e :: rest → s.eng.play = .playing ch idx ll lptr lcnt →
    ∃ t, runTurn (.drain w) s = .next t ∧
      ((∃ c ∈ e, lptr.toNat ≤ c.1 ∧ c.1 < lptr.toNat + 2 * lcnt) → t.faults = { s.faults with dmaRace := true } ∧
        t.eng.raced = true) ∧
      ((∀ c ∈ e, c.1 < lptr.toNat ∨ lptr.toNat + 2 * lcnt ≤ c.1) →
        t.faults = s.faults ∧ t.eng.raced = s.eng.raced)) ∧
  (∀ (s : State) (w : Writer), s.eng.play = .stopped →
    ∃ t, runTurn (.drain w) s = .next t ∧ t.faults = s.faults ∧ t.eng = s.eng) ∧
  (∀ (s : State) (n : Channel) (ll : Nat), (s.eng.regs.seq n).cnt ≠ 0 →
    ((∃ e, (e ∈ s.wb.host ∨ e ∈ s.wb.ctrl) ∧ ∃ c ∈ e, (s.eng.regs.seq n).ptr.toNat ≤ c.1 ∧
        c.1 < (s.eng.regs.seq n).ptr.toNat + 2 * (s.eng.regs.seq n).cnt.toNat) →
      (s.beginSeq n ll).faults.dmaRace = true ∧ (s.beginSeq n ll).eng.raced = true) ∧
    ((∀ e, (e ∈ s.wb.host ∨ e ∈ s.wb.ctrl) → ∀ c ∈ e, c.1 < (s.eng.regs.seq n).ptr.toNat ∨
        (s.eng.regs.seq n).ptr.toNat + 2 * (s.eng.regs.seq n).cnt.toNat ≤ c.1) →
      (s.beginSeq n ll).faults = s.faults ∧ (s.beginSeq n ll).eng.raced = false)) ∧
  (∀ (s : State) (a : Nat), s.eng.raced = true →
    s.dmaSample a = Config.freeByte (s.sched.draws + 1) ++ Config.freeByte s.sched.draws) ∧
  (∀ s t : State, step s = .next t → s.eng.raced = true → t.eng.raced = true ∨ ∃ ch ll lptr lcnt,
    t.eng.play = .playing ch 0 ll lptr lcnt)

/-- Rule R72: a FENCE gives its agent no further step until its write buffer is empty; HOST_FENCE is HOST's (rule R98). -/
def Obligations.FenceBlocks : Prop :=
  (∀ (s : State) (i : Instr) (rest : List Micro), s.ctrl.pc.instr = some i → s.ctrl.micro = .fence :: rest →
    (s.wb.ctrl ≠ [] → ctrlTurn s = .next s) ∧
    (s.wb.ctrl = [] → ctrlTurn s = .next { s with ctrl := { s.ctrl with micro := rest } })) ∧
  (∀ (s : State) (rest : List HostOp), s.host.ops = .fence :: rest →
    (s.wb.host ≠ [] → hostTurn s = .next s) ∧
    (s.wb.host = [] → hostTurn s = .next { s with host := { s.host with ops := rest } }))

/-- HOST's accesses (rules R66, R67, R70 and R76). A store that reaches an internal buffer sets FAULT.REFUSED, whatever its
alignment; another store to RAM is buffered and seen by HOST at once, and one that is misaligned sets FAULT.REFUSED as
well. In the interface window, a store of another width or alignment than a word, and a W32, R32 or POLL at an unaligned
offset, set FAULT.REFUSED. A store to neither RAM nor the interface window, and a W32, R32 or POLL at an offset of 0x1000
or more, stops. The model's choices: that a refused access to a buffer or the window does nothing else (log 13); that a
misaligned store to RAM is done and marked so, and that an access outside what the block knows stops (log 14: rule R60
only models no other address, and rule R51 gives HOST no path to the engine window). -/
def Obligations.HostStores : Prop :=
  (∀ (s : State) (op : HostOp) (rest : List HostOp) (a : Nat) (bs : List Byte), s.host.ops = op :: rest →
    op.store = some (a, bs) →
    (reachesIface s.params a bs.length = false →
      (overlapsBuffers s.params a bs.length = true → hostTurn s = .next
        { s with host := { s.host with ops := rest }, faults := { s.faults with refused := true } }) ∧
      (overlapsBuffers s.params a bs.length = false → inRam s.params a bs.length = true →
        ∃ t, hostTurn s = .next t ∧
          t = { s with
            host := { s.host with ops := rest }
            wb := { s.wb with host := t.wb.host }
            faults := { s.faults with refused := s.faults.refused || decide (a % bs.length ≠ 0) } } ∧
          s.wb.host <+: t.wb.host ∧
          (∀ k b, bs[k]? = some b → t.readAs .host (a + k) = some b) ∧
          (∀ x, x < a ∨ a + bs.length ≤ x → t.readAs .host x = s.readAs .host x)) ∧
      (overlapsBuffers s.params a bs.length = false → inRam s.params a bs.length = false →
        hostTurn s = .fault .hostStoreUnmapped)) ∧
    (reachesIface s.params a bs.length = true → (inIface s.params a = false ∨ bs.length ≠ 4 ∨ a % 4 ≠ 0) →
      hostTurn s = .next
        { s with host := { s.host with ops := rest }, faults := { s.faults with refused := true } })) ∧
  (∀ (s : State) (off mask v : Word) (rest : List HostOp) (op : HostOp),
    op ∈ ([.w32 off v, .r32 off, .poll off mask v] : List HostOp) → s.host.ops = op :: rest → off.toNat < 0x1000 →
    off.toNat % 4 ≠ 0 → hostTurn s = .next
      { s with host := { s.host with ops := rest }, faults := { s.faults with refused := true } }) ∧
  (∀ (s : State) (off mask v : Word) (rest : List HostOp) (op : HostOp),
    op ∈ ([.w32 off v, .r32 off, .poll off mask v] : List HostOp) → s.host.ops = op :: rest → 0x1000 ≤ off.toNat →
    hostTurn s = .fault .hostOffsetOutsideWindow)

/-- What HOST can reach (rule R51): its turns leave ENG, the driver, memory itself, CTRL's write buffer and the wire as
they are. -/
def Obligations.HostReach : Prop :=
  ∀ s t : State, hostTurn s = .next t →
    t.eng = s.eng ∧ t.drv = s.drv ∧ t.mem = s.mem ∧ t.wb.ctrl = s.wb.ctrl ∧ t.wire = s.wire ∧ t.sched = s.sched ∧
    t.faults.dmaRace = s.faults.dmaRace

/-- Rule R129 and what ENG can reach (rules R45, R51 and R128): ENG clears no event flag; CTRL clears one by writing 0, and
only that step clears one; ENG's registers are written only by CTRL; ENG writes no memory. -/
def Obligations.EngineReach : Prop :=
  (∀ s t : State, engTurn s = .next t →
    (∀ e, s.eng.events.get e = true → t.eng.events.get e = true) ∧ t.eng.regs = s.eng.regs ∧ t.mem = s.mem ∧
    t.wb = s.wb ∧ t.iface = s.iface ∧ t.ctrl = s.ctrl ∧ t.drv = s.drv ∧ t.host = s.host) ∧
  (∀ (s t : State) (e : Event), step s = .next t → s.eng.events.get e = true → t.eng.events.get e = false →
    s.nextTurn = .ctrl ∧ s.ctrl.micro.head? = some (.clear e)) ∧
  (∀ s t : State, step s = .next t → t.eng.regs ≠ s.eng.regs → s.nextTurn = .ctrl) ∧
  (∀ (s : State) (i : Instr) (e : Event) (rest : List Micro), s.ctrl.pc.instr = some i →
    s.ctrl.micro = .clear e :: rest →
    ∃ t, exec i s = .next t ∧ t.eng.events.get e = false ∧ ∀ f, f ≠ e → t.eng.events.get f = s.eng.events.get f)

/-- The frame of one step of a running command (rules R70 and R73): it stores to memory only through its write buffer,
exactly the sample of the write it performs at the address of that write; it writes ENG's registers only as its
statement says; unless it fires a start task it leaves the playout and the wire alone; the ARG registers, OVERRUN, memory
itself, HOST and the parameters are unchanged; so is the schedule but for the draw of a refused ending (log 12). -/
def Obligations.CommandFrame : Prop :=
  ∀ (s t : State) (i : Instr), s.ctrl.pc.instr = some i → exec i s = .next t →
    t.params = s.params ∧ t.mem = s.mem ∧ t.wb.host = s.wb.host ∧ t.host = s.host ∧
    t.sched.turns = s.sched.turns ∧ t.sched.patience = s.sched.patience ∧
    t.iface.arg0 = s.iface.arg0 ∧ t.iface.arg1 = s.iface.arg1 ∧ t.iface.arg2 = s.iface.arg2 ∧
    t.iface.arg3 = s.iface.arg3 ∧ t.iface.overrun = s.iface.overrun ∧
    (∀ a v, s.ctrl.micro.head? = some (.memWrite a v) →
      t.readAs .ctrl a = some (v.extractLsb' 0 8) ∧ t.readAs .ctrl (a + 1) = some (v.extractLsb' 8 8) ∧
      ∀ x, x ≠ a → x ≠ a + 1 → t.readAs .ctrl x = s.readAs .ctrl x) ∧
    ((∀ a v, s.ctrl.micro.head? ≠ some (.memWrite a v)) → t.wb = s.wb ∧ ∀ x, t.readAs .ctrl x = s.readAs .ctrl x) ∧
    t.eng.regs = (match s.ctrl.micro.head? with | some m => m.regs s.eng.regs | none => s.eng.regs) ∧
    ((∀ ch, s.ctrl.micro.head? ≠ some (.task ch)) →
      t.eng.play = s.eng.play ∧ t.eng.loopMode = s.eng.loopMode ∧ t.eng.raced = s.eng.raced ∧ t.wire = s.wire ∧
      t.faults.dmaRace = s.faults.dmaRace)

end
end

