-- ==== Sys2Proof/Laws/Memory.lean ====
section
/-! SUPPORT. The laws of memory and of the write buffers: read after write, the canonical form, the byte a store leaves,
and the two bytes of a sample. -/

namespace Sys2Proof.Machine

namespace Memory

@[simp] theorem read_nil (a : Nat) : read [] a = none := rfl

theorem read_cons (k : Nat) (v : Byte) (m : Memory) (a : Nat) :
    read ((k, v) :: m) a = if k = a then some v else read m a := rfl

/-- A read of the address written gives the byte written. -/
@[simp] theorem read_write_same (m : Memory) (a : Nat) (b : Byte) : read (write m a b) a = some b := by
  induction m with
  | nil => simp [write, read_cons]
  | cons c m ih =>
    obtain ⟨k, v⟩ := c
    unfold write
    split
    · simp [read_cons]
    · split
      · simp [read_cons]
      · rw [read_cons, if_neg (by omega), ih]

/-- A write leaves every other address as it was. -/
theorem read_write_other (m : Memory) {a x : Nat} (b : Byte) (h : x ≠ a) : read (write m a b) x = read m x := by
  induction m with
  | nil => simp [write, read_cons, Ne.symm h]
  | cons c m ih =>
    obtain ⟨k, v⟩ := c
    unfold write
    split
    · rw [read_cons, if_neg (Ne.symm h)]
    · split
      · rename_i hk
        rw [read_cons, if_neg (Ne.symm h), read_cons, if_neg (by omega)]
      · rw [read_cons, read_cons, ih]

theorem read_write (m : Memory) (a x : Nat) (b : Byte) :
    read (write m a b) x = if x = a then some b else read m x := by
  split
  · subst x; simp
  · exact read_write_other m b ‹_›

/-- The least address of a canonical memory bounds the rest. -/
theorem wf_cons {k : Nat} {v : Byte} {m : Memory} :
    wf ((k, v) :: m) = true ↔ (∀ c, m.head? = some c → k < c.1) ∧ wf m = true := by
  cases m with
  | nil => simp [wf]
  | cons d m => obtain ⟨j, w⟩ := d; simp [wf]

theorem head_write (m : Memory) (a : Nat) (b : Byte) (c : Host.Cell) (h : (write m a b).head? = some c) :
    c.1 = a ∨ ∃ d, m.head? = some d ∧ c.1 = d.1 := by
  cases m with
  | nil => simp [write] at h; simp [← h]
  | cons d m =>
    obtain ⟨k, v⟩ := d
    unfold write at h
    split at h
    · simp at h; simp [← h]
    · split at h
      · simp at h; simp [← h]
      · simp at h; simp [← h]

/-- A write keeps the canonical form. -/
theorem wf_write (m : Memory) (a : Nat) (b : Byte) (h : wf m = true) : wf (write m a b) = true := by
  induction m with
  | nil => simp [write, wf]
  | cons c m ih =>
    obtain ⟨k, v⟩ := c
    have hc := wf_cons.1 h
    unfold write
    split
    · exact wf_cons.2 ⟨fun c hc' => by simp at hc'; subst hc'; assumption, h⟩
    · split
      · rename_i hk; subst hk; exact wf_cons.2 ⟨hc.1, hc.2⟩
      · refine wf_cons.2 ⟨fun c hh => ?_, ih hc.2⟩
        rcases head_write m a b c hh with h1 | ⟨d, hd, h1⟩
        · omega
        · rw [h1]; exact hc.1 d hd

@[simp] theorem store_nil (m : Memory) : store m [] = m := rfl

@[simp] theorem store_cons (m : Memory) (c : Host.Cell) (e : Entry) :
    store m (c :: e) = store (write m c.1 c.2) e := rfl

/-- Storing an entry keeps the canonical form. -/
theorem wf_store (m : Memory) (e : Entry) (h : wf m = true) : wf (store m e) = true := by
  induction e generalizing m with
  | nil => simpa
  | cons c e ih => exact ih _ (wf_write m c.1 c.2 h)

/-- An address no byte of the entry is for reads as before. -/
theorem read_store_other (m : Memory) (e : Entry) (x : Nat) (h : ∀ c ∈ e, c.1 ≠ x) : read (store m e) x = read m x := by
  induction e generalizing m with
  | nil => rfl
  | cons c e ih =>
    rw [store_cons, ih _ (fun d hd => h d (List.mem_cons_of_mem _ hd)),
      read_write_other _ _ (Ne.symm (h c List.mem_cons_self))]

/-- The cells of memory after a write are the old ones and the new one. -/
theorem mem_write (m : Memory) (a : Nat) (b : Byte) (c : Host.Cell) (h : c ∈ write m a b) : c = (a, b) ∨ c ∈ m := by
  induction m with
  | nil => simpa [write] using h
  | cons d m ih =>
    obtain ⟨k, v⟩ := d
    unfold write at h
    split at h
    · simpa using h
    · split at h
      · rcases List.mem_cons.1 h with h | h
        · exact .inl h
        · exact .inr (List.mem_cons_of_mem _ h)
      · rcases List.mem_cons.1 h with h | h
        · exact .inr (h ▸ List.mem_cons_self)
        · exact (ih h).imp id (List.mem_cons_of_mem _)

/-- The cells of memory after a store are the old ones and the entry's. -/
theorem mem_store (m : Memory) (e : Entry) (c : Host.Cell) (h : c ∈ store m e) : c ∈ e ∨ c ∈ m := by
  induction e generalizing m with
  | nil => exact .inr h
  | cons d e ih =>
    rcases ih _ h with h | h
    · exact .inl (List.mem_cons_of_mem _ h)
    · refine (mem_write _ _ _ _ h).imp (fun h => ?_) id
      rw [h]; exact List.mem_cons_self

end Memory

/-! ### The two bytes of a sample (rule R64) -/

/-- A sample is its high byte over its low byte. -/
@[simp] theorem sample_bytes (v : Sample) : v.extractLsb' 8 8 ++ v.extractLsb' 0 8 = v := by
  apply BitVec.eq_of_getLsbD_eq
  intro i hi
  simp only [BitVec.getLsbD_append, BitVec.getLsbD_extractLsb']
  by_cases h : i < 8
  · simp [h]
  · simp [h, show i - 8 < 8 by omega, show 8 + (i - 8) = i by omega]

/-- Storing a sample leaves its low byte at its address. -/
@[simp] theorem read_store_sample_low (m : Memory) (a : Nat) (v : Sample) :
    Memory.read (Memory.store m (sampleCells a v)) a = some (v.extractLsb' 0 8) := by
  simp [sampleCells, Memory.read_write]

/-- Storing a sample leaves its high byte after it. -/
@[simp] theorem read_store_sample_high (m : Memory) (a : Nat) (v : Sample) :
    Memory.read (Memory.store m (sampleCells a v)) (a + 1) = some (v.extractLsb' 8 8) := by
  simp [sampleCells]

/-- Storing a sample leaves every other byte as it was. -/
theorem read_store_sample_other (m : Memory) (a x : Nat) (v : Sample) (h : x < a ∨ a + 1 < x) :
    Memory.read (Memory.store m (sampleCells a v)) x = Memory.read m x := by
  apply Memory.read_store_other
  intro c hc
  simp [sampleCells] at hc
  rcases hc with rfl | rfl <;> simp <;> omega

/-- The addresses a sample's entry writes. -/
theorem mem_sampleCells {a : Nat} {v : Sample} {c : Host.Cell} (h : c ∈ sampleCells a v) : c.1 = a ∨ c.1 = a + 1 := by
  simp [sampleCells] at h
  rcases h with rfl | rfl <;> simp

/-! ### Write buffers (rule R70) -/

@[simp] theorem WriteBuffers.of_set_same (b : WriteBuffers) (w : Writer) (l : List Entry) : (b.set w l).of w = l := by
  cases w <;> rfl

@[simp] theorem WriteBuffers.ctrl_set_host (b : WriteBuffers) (l : List Entry) : (b.set .host l).ctrl = b.ctrl := rfl

@[simp] theorem WriteBuffers.host_set_ctrl (b : WriteBuffers) (l : List Entry) : (b.set .ctrl l).host = b.host := rfl

@[simp] theorem WriteBuffers.ctrl_set_ctrl (b : WriteBuffers) (l : List Entry) : (b.set .ctrl l).ctrl = l := rfl

@[simp] theorem WriteBuffers.host_set_host (b : WriteBuffers) (l : List Entry) : (b.set .host l).host = l := rfl

@[simp] theorem WriteBuffers.of_ctrl (b : WriteBuffers) : b.of .ctrl = b.ctrl := rfl

@[simp] theorem WriteBuffers.of_host (b : WriteBuffers) : b.of .host = b.host := rfl

/-- An empty pair of buffers overlaps nothing. -/
theorem WriteBuffers.touch_nil (b : WriteBuffers) (base len : Nat) (h : b.host = []) (c : b.ctrl = []) :
    b.touch base len = false := by
  simp [WriteBuffers.touch, h, c]

end Sys2Proof.Machine
end

