-- ==== Sys2Proof/Laws/State.lean ====
section
/-! SUPPORT. One lemma for each field of State and each named update of it, so that no later proof unfolds a record update;
then the fields that the branching operations leave alone. -/

namespace Sys2Proof.Machine

namespace State

@[simp] theorem raise_eq (s : State) (c : ErrCode) : s.raise c = s.endCommand c := rfl
@[simp] theorem finish_eq (s : State) : s.finish = s.endCommand .ok := rfl

/-! #### `putEvent` -/

@[simp] theorem putEvent_params (s : State) (e : Event) (v : Bool) : (s.putEvent e v).params = s.params := rfl
@[simp] theorem putEvent_iface (s : State) (e : Event) (v : Bool) : (s.putEvent e v).iface = s.iface := rfl
@[simp] theorem putEvent_ctrl (s : State) (e : Event) (v : Bool) : (s.putEvent e v).ctrl = s.ctrl := rfl
@[simp] theorem putEvent_drv (s : State) (e : Event) (v : Bool) : (s.putEvent e v).drv = s.drv := rfl
@[simp] theorem putEvent_eng (s : State) (e : Event) (v : Bool) :
    (s.putEvent e v).eng = { s.eng with events := s.eng.events.put e v } := rfl
@[simp] theorem putEvent_mem (s : State) (e : Event) (v : Bool) : (s.putEvent e v).mem = s.mem := rfl
@[simp] theorem putEvent_wb (s : State) (e : Event) (v : Bool) : (s.putEvent e v).wb = s.wb := rfl
@[simp] theorem putEvent_wire (s : State) (e : Event) (v : Bool) : (s.putEvent e v).wire = s.wire := rfl
@[simp] theorem putEvent_marks (s : State) (e : Event) (v : Bool) : (s.putEvent e v).marks = s.marks := rfl
@[simp] theorem putEvent_faults (s : State) (e : Event) (v : Bool) : (s.putEvent e v).faults = s.faults := rfl
@[simp] theorem putEvent_host (s : State) (e : Event) (v : Bool) : (s.putEvent e v).host = s.host := rfl
@[simp] theorem putEvent_sched (s : State) (e : Event) (v : Bool) : (s.putEvent e v).sched = s.sched := rfl

/-! #### `refuse` -/

@[simp] theorem refuse_params (s : State) : (s.refuse).params = s.params := rfl
@[simp] theorem refuse_iface (s : State) : (s.refuse).iface = s.iface := rfl
@[simp] theorem refuse_ctrl (s : State) : (s.refuse).ctrl = s.ctrl := rfl
@[simp] theorem refuse_drv (s : State) : (s.refuse).drv = s.drv := rfl
@[simp] theorem refuse_eng (s : State) : (s.refuse).eng = s.eng := rfl
@[simp] theorem refuse_mem (s : State) : (s.refuse).mem = s.mem := rfl
@[simp] theorem refuse_wb (s : State) : (s.refuse).wb = s.wb := rfl
@[simp] theorem refuse_wire (s : State) : (s.refuse).wire = s.wire := rfl
@[simp] theorem refuse_marks (s : State) : (s.refuse).marks = s.marks := rfl
@[simp] theorem refuse_faults (s : State) : (s.refuse).faults = { s.faults with refused := true } := rfl
@[simp] theorem refuse_host (s : State) : (s.refuse).host = s.host := rfl
@[simp] theorem refuse_sched (s : State) : (s.refuse).sched = s.sched := rfl

/-! #### `markRace` -/

@[simp] theorem markRace_params (s : State) (b : Bool) : (s.markRace b).params = s.params := rfl
@[simp] theorem markRace_iface (s : State) (b : Bool) : (s.markRace b).iface = s.iface := rfl
@[simp] theorem markRace_ctrl (s : State) (b : Bool) : (s.markRace b).ctrl = s.ctrl := rfl
@[simp] theorem markRace_drv (s : State) (b : Bool) : (s.markRace b).drv = s.drv := rfl
@[simp] theorem markRace_eng (s : State) (b : Bool) :
    (s.markRace b).eng = { s.eng with raced := s.eng.raced || b } := rfl
@[simp] theorem markRace_mem (s : State) (b : Bool) : (s.markRace b).mem = s.mem := rfl
@[simp] theorem markRace_wb (s : State) (b : Bool) : (s.markRace b).wb = s.wb := rfl
@[simp] theorem markRace_wire (s : State) (b : Bool) : (s.markRace b).wire = s.wire := rfl
@[simp] theorem markRace_marks (s : State) (b : Bool) : (s.markRace b).marks = s.marks := rfl
@[simp] theorem markRace_faults (s : State) (b : Bool) :
    (s.markRace b).faults = { s.faults with dmaRace := s.faults.dmaRace || b } := rfl
@[simp] theorem markRace_host (s : State) (b : Bool) : (s.markRace b).host = s.host := rfl
@[simp] theorem markRace_sched (s : State) (b : Bool) : (s.markRace b).sched = s.sched := rfl

/-! #### `overrun` -/

@[simp] theorem overrun_params (s : State) : (s.overrun).params = s.params := rfl
@[simp] theorem overrun_iface (s : State) : (s.overrun).iface = { s.iface with overrun := true } := rfl
@[simp] theorem overrun_ctrl (s : State) : (s.overrun).ctrl = s.ctrl := rfl
@[simp] theorem overrun_drv (s : State) : (s.overrun).drv = s.drv := rfl
@[simp] theorem overrun_eng (s : State) : (s.overrun).eng = s.eng := rfl
@[simp] theorem overrun_mem (s : State) : (s.overrun).mem = s.mem := rfl
@[simp] theorem overrun_wb (s : State) : (s.overrun).wb = s.wb := rfl
@[simp] theorem overrun_wire (s : State) : (s.overrun).wire = s.wire := rfl
@[simp] theorem overrun_marks (s : State) : (s.overrun).marks = s.marks := rfl
@[simp] theorem overrun_faults (s : State) : (s.overrun).faults = s.faults := rfl
@[simp] theorem overrun_host (s : State) : (s.overrun).host = s.host := rfl
@[simp] theorem overrun_sched (s : State) : (s.overrun).sched = s.sched := rfl

/-! #### `enqueue` -/

@[simp] theorem enqueue_params (s : State) (w : Writer) (e : Entry) : (s.enqueue w e).params = s.params := rfl
@[simp] theorem enqueue_iface (s : State) (w : Writer) (e : Entry) : (s.enqueue w e).iface = s.iface := rfl
@[simp] theorem enqueue_ctrl (s : State) (w : Writer) (e : Entry) : (s.enqueue w e).ctrl = s.ctrl := rfl
@[simp] theorem enqueue_drv (s : State) (w : Writer) (e : Entry) : (s.enqueue w e).drv = s.drv := rfl
@[simp] theorem enqueue_eng (s : State) (w : Writer) (e : Entry) : (s.enqueue w e).eng = s.eng := rfl
@[simp] theorem enqueue_mem (s : State) (w : Writer) (e : Entry) : (s.enqueue w e).mem = s.mem := rfl
@[simp] theorem enqueue_wb (s : State) (w : Writer) (e : Entry) :
    (s.enqueue w e).wb = s.wb.set w (s.wb.of w ++ [e]) := rfl
@[simp] theorem enqueue_wire (s : State) (w : Writer) (e : Entry) : (s.enqueue w e).wire = s.wire := rfl
@[simp] theorem enqueue_marks (s : State) (w : Writer) (e : Entry) : (s.enqueue w e).marks = s.marks := rfl
@[simp] theorem enqueue_faults (s : State) (w : Writer) (e : Entry) : (s.enqueue w e).faults = s.faults := rfl
@[simp] theorem enqueue_host (s : State) (w : Writer) (e : Entry) : (s.enqueue w e).host = s.host := rfl
@[simp] theorem enqueue_sched (s : State) (w : Writer) (e : Entry) : (s.enqueue w e).sched = s.sched := rfl

/-! #### `endCommand` -/

@[simp] theorem endCommand_params (s : State) (c : ErrCode) : (s.endCommand c).params = s.params := rfl
@[simp] theorem endCommand_iface (s : State) (c : ErrCode) : (s.endCommand c).iface = { s.iface with err := c } := rfl
@[simp] theorem endCommand_ctrl (s : State) (c : ErrCode) :
    (s.endCommand c).ctrl = { s.ctrl with pc := .idle, micro := [] } := rfl
@[simp] theorem endCommand_drv (s : State) (c : ErrCode) : (s.endCommand c).drv = s.drv := rfl
@[simp] theorem endCommand_eng (s : State) (c : ErrCode) : (s.endCommand c).eng = s.eng := rfl
@[simp] theorem endCommand_mem (s : State) (c : ErrCode) : (s.endCommand c).mem = s.mem := rfl
@[simp] theorem endCommand_wb (s : State) (c : ErrCode) : (s.endCommand c).wb = s.wb := rfl
@[simp] theorem endCommand_wire (s : State) (c : ErrCode) : (s.endCommand c).wire = s.wire := rfl
@[simp] theorem endCommand_marks (s : State) (c : ErrCode) : (s.endCommand c).marks = s.marks := rfl
@[simp] theorem endCommand_faults (s : State) (c : ErrCode) : (s.endCommand c).faults = s.faults := rfl
@[simp] theorem endCommand_host (s : State) (c : ErrCode) : (s.endCommand c).host = s.host := rfl
@[simp] theorem endCommand_sched (s : State) (c : ErrCode) : (s.endCommand c).sched = s.sched := rfl

/-! #### `setResult` -/

@[simp] theorem setResult_params (s : State) (v : Word) : (s.setResult v).params = s.params := rfl
@[simp] theorem setResult_iface (s : State) (v : Word) : (s.setResult v).iface = { s.iface with result := v } := rfl
@[simp] theorem setResult_ctrl (s : State) (v : Word) : (s.setResult v).ctrl = s.ctrl := rfl
@[simp] theorem setResult_drv (s : State) (v : Word) : (s.setResult v).drv = s.drv := rfl
@[simp] theorem setResult_eng (s : State) (v : Word) : (s.setResult v).eng = s.eng := rfl
@[simp] theorem setResult_mem (s : State) (v : Word) : (s.setResult v).mem = s.mem := rfl
@[simp] theorem setResult_wb (s : State) (v : Word) : (s.setResult v).wb = s.wb := rfl
@[simp] theorem setResult_wire (s : State) (v : Word) : (s.setResult v).wire = s.wire := rfl
@[simp] theorem setResult_marks (s : State) (v : Word) : (s.setResult v).marks = s.marks := rfl
@[simp] theorem setResult_faults (s : State) (v : Word) : (s.setResult v).faults = s.faults := rfl
@[simp] theorem setResult_host (s : State) (v : Word) : (s.setResult v).host = s.host := rfl
@[simp] theorem setResult_sched (s : State) (v : Word) : (s.setResult v).sched = s.sched := rfl

/-! #### `endRefused` -/

@[simp] theorem endRefused_params (s : State) : (s.endRefused).params = s.params := rfl
@[simp] theorem endRefused_iface (s : State) :
    (s.endRefused).iface = { s.iface with err := Config.freeErr s.sched.draws } := rfl
@[simp] theorem endRefused_ctrl (s : State) : (s.endRefused).ctrl = { s.ctrl with pc := .idle, micro := [] } := rfl
@[simp] theorem endRefused_drv (s : State) : (s.endRefused).drv = s.drv := rfl
@[simp] theorem endRefused_eng (s : State) : (s.endRefused).eng = s.eng := rfl
@[simp] theorem endRefused_mem (s : State) : (s.endRefused).mem = s.mem := rfl
@[simp] theorem endRefused_wb (s : State) : (s.endRefused).wb = s.wb := rfl
@[simp] theorem endRefused_wire (s : State) : (s.endRefused).wire = s.wire := rfl
@[simp] theorem endRefused_marks (s : State) : (s.endRefused).marks = s.marks := rfl
@[simp] theorem endRefused_faults (s : State) : (s.endRefused).faults = { s.faults with refused := true } := rfl
@[simp] theorem endRefused_host (s : State) : (s.endRefused).host = s.host := rfl
@[simp] theorem endRefused_sched (s : State) :
    (s.endRefused).sched = { s.sched with draws := s.sched.draws + 1 } := rfl

/-! #### `decodeError` -/

@[simp] theorem decodeError_params (s : State) (c : ErrCode) : (s.decodeError c).params = s.params := rfl
@[simp] theorem decodeError_iface (s : State) (c : ErrCode) :
    (s.decodeError c).iface = { s.iface with err := c } := rfl
@[simp] theorem decodeError_ctrl (s : State) (c : ErrCode) : (s.decodeError c).ctrl = s.ctrl := rfl
@[simp] theorem decodeError_drv (s : State) (c : ErrCode) : (s.decodeError c).drv = s.drv := rfl
@[simp] theorem decodeError_eng (s : State) (c : ErrCode) : (s.decodeError c).eng = s.eng := rfl
@[simp] theorem decodeError_mem (s : State) (c : ErrCode) : (s.decodeError c).mem = s.mem := rfl
@[simp] theorem decodeError_wb (s : State) (c : ErrCode) : (s.decodeError c).wb = s.wb := rfl
@[simp] theorem decodeError_wire (s : State) (c : ErrCode) : (s.decodeError c).wire = s.wire := rfl
@[simp] theorem decodeError_marks (s : State) (c : ErrCode) : (s.decodeError c).marks = s.marks := rfl
@[simp] theorem decodeError_faults (s : State) (c : ErrCode) : (s.decodeError c).faults = s.faults := rfl
@[simp] theorem decodeError_host (s : State) (c : ErrCode) : (s.decodeError c).host = s.host := rfl
@[simp] theorem decodeError_sched (s : State) (c : ErrCode) : (s.decodeError c).sched = s.sched := rfl

/-! #### `emit` -/

@[simp] theorem emit_params (s : State) (w : WireItem) : (s.emit w).params = s.params := rfl
@[simp] theorem emit_iface (s : State) (w : WireItem) : (s.emit w).iface = s.iface := rfl
@[simp] theorem emit_ctrl (s : State) (w : WireItem) : (s.emit w).ctrl = s.ctrl := rfl
@[simp] theorem emit_drv (s : State) (w : WireItem) : (s.emit w).drv = s.drv := rfl
@[simp] theorem emit_eng (s : State) (w : WireItem) : (s.emit w).eng = s.eng := rfl
@[simp] theorem emit_mem (s : State) (w : WireItem) : (s.emit w).mem = s.mem := rfl
@[simp] theorem emit_wb (s : State) (w : WireItem) : (s.emit w).wb = s.wb := rfl
@[simp] theorem emit_wire (s : State) (w : WireItem) : (s.emit w).wire = s.wire ++ [w] := rfl
@[simp] theorem emit_marks (s : State) (w : WireItem) : (s.emit w).marks = s.marks := rfl
@[simp] theorem emit_faults (s : State) (w : WireItem) : (s.emit w).faults = s.faults := rfl
@[simp] theorem emit_host (s : State) (w : WireItem) : (s.emit w).host = s.host := rfl
@[simp] theorem emit_sched (s : State) (w : WireItem) : (s.emit w).sched = s.sched := rfl

/-! #### `countDraws` -/

@[simp] theorem countDraws_params (s : State) (k : Nat) : (s.countDraws k).params = s.params := rfl
@[simp] theorem countDraws_iface (s : State) (k : Nat) : (s.countDraws k).iface = s.iface := rfl
@[simp] theorem countDraws_ctrl (s : State) (k : Nat) : (s.countDraws k).ctrl = s.ctrl := rfl
@[simp] theorem countDraws_drv (s : State) (k : Nat) : (s.countDraws k).drv = s.drv := rfl
@[simp] theorem countDraws_eng (s : State) (k : Nat) : (s.countDraws k).eng = s.eng := rfl
@[simp] theorem countDraws_mem (s : State) (k : Nat) : (s.countDraws k).mem = s.mem := rfl
@[simp] theorem countDraws_wb (s : State) (k : Nat) : (s.countDraws k).wb = s.wb := rfl
@[simp] theorem countDraws_wire (s : State) (k : Nat) : (s.countDraws k).wire = s.wire := rfl
@[simp] theorem countDraws_marks (s : State) (k : Nat) : (s.countDraws k).marks = s.marks := rfl
@[simp] theorem countDraws_faults (s : State) (k : Nat) : (s.countDraws k).faults = s.faults := rfl
@[simp] theorem countDraws_host (s : State) (k : Nat) : (s.countDraws k).host = s.host := rfl
@[simp] theorem countDraws_sched (s : State) (k : Nat) :
    (s.countDraws k).sched = { s.sched with draws := s.sched.draws + k } := rfl

/-! #### `setPlay` -/

@[simp] theorem setPlay_params (s : State) (p : Play) : (s.setPlay p).params = s.params := rfl
@[simp] theorem setPlay_iface (s : State) (p : Play) : (s.setPlay p).iface = s.iface := rfl
@[simp] theorem setPlay_ctrl (s : State) (p : Play) : (s.setPlay p).ctrl = s.ctrl := rfl
@[simp] theorem setPlay_drv (s : State) (p : Play) : (s.setPlay p).drv = s.drv := rfl
@[simp] theorem setPlay_eng (s : State) (p : Play) : (s.setPlay p).eng = { s.eng with play := p } := rfl
@[simp] theorem setPlay_mem (s : State) (p : Play) : (s.setPlay p).mem = s.mem := rfl
@[simp] theorem setPlay_wb (s : State) (p : Play) : (s.setPlay p).wb = s.wb := rfl
@[simp] theorem setPlay_wire (s : State) (p : Play) : (s.setPlay p).wire = s.wire := rfl
@[simp] theorem setPlay_marks (s : State) (p : Play) : (s.setPlay p).marks = s.marks := rfl
@[simp] theorem setPlay_faults (s : State) (p : Play) : (s.setPlay p).faults = s.faults := rfl
@[simp] theorem setPlay_host (s : State) (p : Play) : (s.setPlay p).host = s.host := rfl
@[simp] theorem setPlay_sched (s : State) (p : Play) : (s.setPlay p).sched = s.sched := rfl

/-! #### `setLoopMode` -/

@[simp] theorem setLoopMode_params (s : State) (b : Bool) : (s.setLoopMode b).params = s.params := rfl
@[simp] theorem setLoopMode_iface (s : State) (b : Bool) : (s.setLoopMode b).iface = s.iface := rfl
@[simp] theorem setLoopMode_ctrl (s : State) (b : Bool) : (s.setLoopMode b).ctrl = s.ctrl := rfl
@[simp] theorem setLoopMode_drv (s : State) (b : Bool) : (s.setLoopMode b).drv = s.drv := rfl
@[simp] theorem setLoopMode_eng (s : State) (b : Bool) : (s.setLoopMode b).eng = { s.eng with loopMode := b } := rfl
@[simp] theorem setLoopMode_mem (s : State) (b : Bool) : (s.setLoopMode b).mem = s.mem := rfl
@[simp] theorem setLoopMode_wb (s : State) (b : Bool) : (s.setLoopMode b).wb = s.wb := rfl
@[simp] theorem setLoopMode_wire (s : State) (b : Bool) : (s.setLoopMode b).wire = s.wire := rfl
@[simp] theorem setLoopMode_marks (s : State) (b : Bool) : (s.setLoopMode b).marks = s.marks := rfl
@[simp] theorem setLoopMode_faults (s : State) (b : Bool) : (s.setLoopMode b).faults = s.faults := rfl
@[simp] theorem setLoopMode_host (s : State) (b : Bool) : (s.setLoopMode b).host = s.host := rfl
@[simp] theorem setLoopMode_sched (s : State) (b : Bool) : (s.setLoopMode b).sched = s.sched := rfl

/-! #### `stopPlaying` -/

@[simp] theorem stopPlaying_params (s : State) : (s.stopPlaying).params = s.params := rfl
@[simp] theorem stopPlaying_iface (s : State) : (s.stopPlaying).iface = s.iface := rfl
@[simp] theorem stopPlaying_ctrl (s : State) : (s.stopPlaying).ctrl = s.ctrl := rfl
@[simp] theorem stopPlaying_drv (s : State) : (s.stopPlaying).drv = s.drv := rfl
@[simp] theorem stopPlaying_eng (s : State) : (s.stopPlaying).eng = { s.eng with play := .stopped } := rfl
@[simp] theorem stopPlaying_mem (s : State) : (s.stopPlaying).mem = s.mem := rfl
@[simp] theorem stopPlaying_wb (s : State) : (s.stopPlaying).wb = s.wb := rfl
@[simp] theorem stopPlaying_wire (s : State) : (s.stopPlaying).wire = s.wire ++ [.gap] := rfl
@[simp] theorem stopPlaying_marks (s : State) : (s.stopPlaying).marks = s.marks := rfl
@[simp] theorem stopPlaying_faults (s : State) : (s.stopPlaying).faults = s.faults := rfl
@[simp] theorem stopPlaying_host (s : State) : (s.stopPlaying).host = s.host := rfl
@[simp] theorem stopPlaying_sched (s : State) : (s.stopPlaying).sched = s.sched := rfl

/-! #### `setRegs` -/

@[simp] theorem setRegs_params (s : State) (r : EngRegs) : (s.setRegs r).params = s.params := rfl
@[simp] theorem setRegs_iface (s : State) (r : EngRegs) : (s.setRegs r).iface = s.iface := rfl
@[simp] theorem setRegs_ctrl (s : State) (r : EngRegs) : (s.setRegs r).ctrl = s.ctrl := rfl
@[simp] theorem setRegs_drv (s : State) (r : EngRegs) : (s.setRegs r).drv = s.drv := rfl
@[simp] theorem setRegs_eng (s : State) (r : EngRegs) : (s.setRegs r).eng = { s.eng with regs := r } := rfl
@[simp] theorem setRegs_mem (s : State) (r : EngRegs) : (s.setRegs r).mem = s.mem := rfl
@[simp] theorem setRegs_wb (s : State) (r : EngRegs) : (s.setRegs r).wb = s.wb := rfl
@[simp] theorem setRegs_wire (s : State) (r : EngRegs) : (s.setRegs r).wire = s.wire := rfl
@[simp] theorem setRegs_marks (s : State) (r : EngRegs) : (s.setRegs r).marks = s.marks := rfl
@[simp] theorem setRegs_faults (s : State) (r : EngRegs) : (s.setRegs r).faults = s.faults := rfl
@[simp] theorem setRegs_host (s : State) (r : EngRegs) : (s.setRegs r).host = s.host := rfl
@[simp] theorem setRegs_sched (s : State) (r : EngRegs) : (s.setRegs r).sched = s.sched := rfl

/-! #### `setDrv` -/

@[simp] theorem setDrv_params (s : State) (d : Drv) : (s.setDrv d).params = s.params := rfl
@[simp] theorem setDrv_iface (s : State) (d : Drv) : (s.setDrv d).iface = s.iface := rfl
@[simp] theorem setDrv_ctrl (s : State) (d : Drv) : (s.setDrv d).ctrl = s.ctrl := rfl
@[simp] theorem setDrv_drv (s : State) (d : Drv) : (s.setDrv d).drv = d := rfl
@[simp] theorem setDrv_eng (s : State) (d : Drv) : (s.setDrv d).eng = s.eng := rfl
@[simp] theorem setDrv_mem (s : State) (d : Drv) : (s.setDrv d).mem = s.mem := rfl
@[simp] theorem setDrv_wb (s : State) (d : Drv) : (s.setDrv d).wb = s.wb := rfl
@[simp] theorem setDrv_wire (s : State) (d : Drv) : (s.setDrv d).wire = s.wire := rfl
@[simp] theorem setDrv_marks (s : State) (d : Drv) : (s.setDrv d).marks = s.marks ++ [(s.wire.length, d)] := rfl
@[simp] theorem setDrv_faults (s : State) (d : Drv) : (s.setDrv d).faults = s.faults := rfl
@[simp] theorem setDrv_host (s : State) (d : Drv) : (s.setDrv d).host = s.host := rfl
@[simp] theorem setDrv_sched (s : State) (d : Drv) : (s.setDrv d).sched = s.sched := rfl

/-! #### `goto` -/

@[simp] theorem goto_params (s : State) (pc : Pc) (l : List Micro) : (s.goto pc l).params = s.params := rfl
@[simp] theorem goto_iface (s : State) (pc : Pc) (l : List Micro) : (s.goto pc l).iface = s.iface := rfl
@[simp] theorem goto_ctrl (s : State) (pc : Pc) (l : List Micro) :
    (s.goto pc l).ctrl = { s.ctrl with pc := pc, micro := l } := rfl
@[simp] theorem goto_drv (s : State) (pc : Pc) (l : List Micro) : (s.goto pc l).drv = s.drv := rfl
@[simp] theorem goto_eng (s : State) (pc : Pc) (l : List Micro) : (s.goto pc l).eng = s.eng := rfl
@[simp] theorem goto_mem (s : State) (pc : Pc) (l : List Micro) : (s.goto pc l).mem = s.mem := rfl
@[simp] theorem goto_wb (s : State) (pc : Pc) (l : List Micro) : (s.goto pc l).wb = s.wb := rfl
@[simp] theorem goto_wire (s : State) (pc : Pc) (l : List Micro) : (s.goto pc l).wire = s.wire := rfl
@[simp] theorem goto_marks (s : State) (pc : Pc) (l : List Micro) : (s.goto pc l).marks = s.marks := rfl
@[simp] theorem goto_faults (s : State) (pc : Pc) (l : List Micro) : (s.goto pc l).faults = s.faults := rfl
@[simp] theorem goto_host (s : State) (pc : Pc) (l : List Micro) : (s.goto pc l).host = s.host := rfl
@[simp] theorem goto_sched (s : State) (pc : Pc) (l : List Micro) : (s.goto pc l).sched = s.sched := rfl

/-! #### `setMicro` -/

@[simp] theorem setMicro_params (s : State) (l : List Micro) : (s.setMicro l).params = s.params := rfl
@[simp] theorem setMicro_iface (s : State) (l : List Micro) : (s.setMicro l).iface = s.iface := rfl
@[simp] theorem setMicro_ctrl (s : State) (l : List Micro) : (s.setMicro l).ctrl = { s.ctrl with micro := l } := rfl
@[simp] theorem setMicro_drv (s : State) (l : List Micro) : (s.setMicro l).drv = s.drv := rfl
@[simp] theorem setMicro_eng (s : State) (l : List Micro) : (s.setMicro l).eng = s.eng := rfl
@[simp] theorem setMicro_mem (s : State) (l : List Micro) : (s.setMicro l).mem = s.mem := rfl
@[simp] theorem setMicro_wb (s : State) (l : List Micro) : (s.setMicro l).wb = s.wb := rfl
@[simp] theorem setMicro_wire (s : State) (l : List Micro) : (s.setMicro l).wire = s.wire := rfl
@[simp] theorem setMicro_marks (s : State) (l : List Micro) : (s.setMicro l).marks = s.marks := rfl
@[simp] theorem setMicro_faults (s : State) (l : List Micro) : (s.setMicro l).faults = s.faults := rfl
@[simp] theorem setMicro_host (s : State) (l : List Micro) : (s.setMicro l).host = s.host := rfl
@[simp] theorem setMicro_sched (s : State) (l : List Micro) : (s.setMicro l).sched = s.sched := rfl

/-! #### `start` -/

@[simp] theorem start_params (s : State) (pc : Pc) (l : List Micro) : (s.start pc l).params = s.params := rfl
@[simp] theorem start_iface (s : State) (pc : Pc) (l : List Micro) : (s.start pc l).iface = s.iface := rfl
@[simp] theorem start_ctrl (s : State) (pc : Pc) (l : List Micro) :
    (s.start pc l).ctrl = { s.ctrl with pc := pc, micro := l, ops := s.iface.operands } := rfl
@[simp] theorem start_drv (s : State) (pc : Pc) (l : List Micro) : (s.start pc l).drv = s.drv := rfl
@[simp] theorem start_eng (s : State) (pc : Pc) (l : List Micro) : (s.start pc l).eng = s.eng := rfl
@[simp] theorem start_mem (s : State) (pc : Pc) (l : List Micro) : (s.start pc l).mem = s.mem := rfl
@[simp] theorem start_wb (s : State) (pc : Pc) (l : List Micro) : (s.start pc l).wb = s.wb := rfl
@[simp] theorem start_wire (s : State) (pc : Pc) (l : List Micro) : (s.start pc l).wire = s.wire := rfl
@[simp] theorem start_marks (s : State) (pc : Pc) (l : List Micro) : (s.start pc l).marks = s.marks := rfl
@[simp] theorem start_faults (s : State) (pc : Pc) (l : List Micro) : (s.start pc l).faults = s.faults := rfl
@[simp] theorem start_host (s : State) (pc : Pc) (l : List Micro) : (s.start pc l).host = s.host := rfl
@[simp] theorem start_sched (s : State) (pc : Pc) (l : List Micro) : (s.start pc l).sched = s.sched := rfl

/-! #### `clearLoopCounters` -/

@[simp] theorem clearLoopCounters_params (s : State) : (s.clearLoopCounters).params = s.params := rfl
@[simp] theorem clearLoopCounters_iface (s : State) : (s.clearLoopCounters).iface = s.iface := rfl
@[simp] theorem clearLoopCounters_ctrl (s : State) :
    (s.clearLoopCounters).ctrl = { s.ctrl with ended := false, blanksFed := 0 } := rfl
@[simp] theorem clearLoopCounters_drv (s : State) : (s.clearLoopCounters).drv = s.drv := rfl
@[simp] theorem clearLoopCounters_eng (s : State) : (s.clearLoopCounters).eng = s.eng := rfl
@[simp] theorem clearLoopCounters_mem (s : State) : (s.clearLoopCounters).mem = s.mem := rfl
@[simp] theorem clearLoopCounters_wb (s : State) : (s.clearLoopCounters).wb = s.wb := rfl
@[simp] theorem clearLoopCounters_wire (s : State) : (s.clearLoopCounters).wire = s.wire := rfl
@[simp] theorem clearLoopCounters_marks (s : State) : (s.clearLoopCounters).marks = s.marks := rfl
@[simp] theorem clearLoopCounters_faults (s : State) : (s.clearLoopCounters).faults = s.faults := rfl
@[simp] theorem clearLoopCounters_host (s : State) : (s.clearLoopCounters).host = s.host := rfl
@[simp] theorem clearLoopCounters_sched (s : State) : (s.clearLoopCounters).sched = s.sched := rfl

/-! #### `setHostOps` -/

@[simp] theorem setHostOps_params (s : State) (l : List HostOp) : (s.setHostOps l).params = s.params := rfl
@[simp] theorem setHostOps_iface (s : State) (l : List HostOp) : (s.setHostOps l).iface = s.iface := rfl
@[simp] theorem setHostOps_ctrl (s : State) (l : List HostOp) : (s.setHostOps l).ctrl = s.ctrl := rfl
@[simp] theorem setHostOps_drv (s : State) (l : List HostOp) : (s.setHostOps l).drv = s.drv := rfl
@[simp] theorem setHostOps_eng (s : State) (l : List HostOp) : (s.setHostOps l).eng = s.eng := rfl
@[simp] theorem setHostOps_mem (s : State) (l : List HostOp) : (s.setHostOps l).mem = s.mem := rfl
@[simp] theorem setHostOps_wb (s : State) (l : List HostOp) : (s.setHostOps l).wb = s.wb := rfl
@[simp] theorem setHostOps_wire (s : State) (l : List HostOp) : (s.setHostOps l).wire = s.wire := rfl
@[simp] theorem setHostOps_marks (s : State) (l : List HostOp) : (s.setHostOps l).marks = s.marks := rfl
@[simp] theorem setHostOps_faults (s : State) (l : List HostOp) : (s.setHostOps l).faults = s.faults := rfl
@[simp] theorem setHostOps_host (s : State) (l : List HostOp) :
    (s.setHostOps l).host = { s.host with ops := l } := rfl
@[simp] theorem setHostOps_sched (s : State) (l : List HostOp) : (s.setHostOps l).sched = s.sched := rfl

/-! #### `preempt` -/

@[simp] theorem preempt_params (s : State) : (s.preempt).params = s.params := by
  unfold preempt; split <;> rfl
@[simp] theorem preempt_iface (s : State) : (s.preempt).iface = s.iface := by
  unfold preempt; split <;> rfl
@[simp] theorem preempt_ctrl (s : State) : (s.preempt).ctrl = s.ctrl := by
  unfold preempt; split <;> rfl
@[simp] theorem preempt_drv (s : State) : (s.preempt).drv = s.drv := by
  unfold preempt; split <;> rfl
@[simp] theorem preempt_mem (s : State) : (s.preempt).mem = s.mem := by
  unfold preempt; split <;> rfl
@[simp] theorem preempt_wb (s : State) : (s.preempt).wb = s.wb := by
  unfold preempt; split <;> rfl
@[simp] theorem preempt_marks (s : State) : (s.preempt).marks = s.marks := by
  unfold preempt; split <;> rfl
@[simp] theorem preempt_faults (s : State) : (s.preempt).faults = s.faults := by
  unfold preempt; split <;> rfl
@[simp] theorem preempt_host (s : State) : (s.preempt).host = s.host := by
  unfold preempt; split <;> rfl
@[simp] theorem preempt_sched (s : State) : (s.preempt).sched = s.sched := by
  unfold preempt; split <;> rfl

/-! #### `beginSeq` -/

@[simp] theorem beginSeq_params (s : State) (n : Channel) (ll : Nat) : (s.beginSeq n ll).params = s.params := by
  unfold beginSeq; dsimp only; split <;> rfl
@[simp] theorem beginSeq_iface (s : State) (n : Channel) (ll : Nat) : (s.beginSeq n ll).iface = s.iface := by
  unfold beginSeq; dsimp only; split <;> rfl
@[simp] theorem beginSeq_ctrl (s : State) (n : Channel) (ll : Nat) : (s.beginSeq n ll).ctrl = s.ctrl := by
  unfold beginSeq; dsimp only; split <;> rfl
@[simp] theorem beginSeq_drv (s : State) (n : Channel) (ll : Nat) : (s.beginSeq n ll).drv = s.drv := by
  unfold beginSeq; dsimp only; split <;> rfl
@[simp] theorem beginSeq_mem (s : State) (n : Channel) (ll : Nat) : (s.beginSeq n ll).mem = s.mem := by
  unfold beginSeq; dsimp only; split <;> rfl
@[simp] theorem beginSeq_wb (s : State) (n : Channel) (ll : Nat) : (s.beginSeq n ll).wb = s.wb := by
  unfold beginSeq; dsimp only; split <;> rfl
@[simp] theorem beginSeq_wire (s : State) (n : Channel) (ll : Nat) : (s.beginSeq n ll).wire = s.wire := by
  unfold beginSeq; dsimp only; split <;> rfl
@[simp] theorem beginSeq_marks (s : State) (n : Channel) (ll : Nat) : (s.beginSeq n ll).marks = s.marks := by
  unfold beginSeq; dsimp only; split <;> rfl
@[simp] theorem beginSeq_host (s : State) (n : Channel) (ll : Nat) : (s.beginSeq n ll).host = s.host := by
  unfold beginSeq; dsimp only; split <;> rfl
@[simp] theorem beginSeq_sched (s : State) (n : Channel) (ll : Nat) : (s.beginSeq n ll).sched = s.sched := by
  unfold beginSeq; dsimp only; split <;> rfl

/-! #### `fireTask` -/

@[simp] theorem fireTask_params (s : State) (n : Channel) : (s.fireTask n).params = s.params := by
  unfold fireTask; cases n <;> (dsimp only; split <;> (try split) <;> simp)
@[simp] theorem fireTask_iface (s : State) (n : Channel) : (s.fireTask n).iface = s.iface := by
  unfold fireTask; cases n <;> (dsimp only; split <;> (try split) <;> simp)
@[simp] theorem fireTask_ctrl (s : State) (n : Channel) : (s.fireTask n).ctrl = s.ctrl := by
  unfold fireTask; cases n <;> (dsimp only; split <;> (try split) <;> simp)
@[simp] theorem fireTask_drv (s : State) (n : Channel) : (s.fireTask n).drv = s.drv := by
  unfold fireTask; cases n <;> (dsimp only; split <;> (try split) <;> simp)
@[simp] theorem fireTask_mem (s : State) (n : Channel) : (s.fireTask n).mem = s.mem := by
  unfold fireTask; cases n <;> (dsimp only; split <;> (try split) <;> simp)
@[simp] theorem fireTask_wb (s : State) (n : Channel) : (s.fireTask n).wb = s.wb := by
  unfold fireTask; cases n <;> (dsimp only; split <;> (try split) <;> simp)
@[simp] theorem fireTask_marks (s : State) (n : Channel) : (s.fireTask n).marks = s.marks := by
  unfold fireTask; cases n <;> (dsimp only; split <;> (try split) <;> simp)
@[simp] theorem fireTask_host (s : State) (n : Channel) : (s.fireTask n).host = s.host := by
  unfold fireTask; cases n <;> (dsimp only; split <;> (try split) <;> simp)
@[simp] theorem fireTask_sched (s : State) (n : Channel) : (s.fireTask n).sched = s.sched := by
  unfold fireTask; cases n <;> (dsimp only; split <;> (try split) <;> simp)

/-! #### `endSeq` -/

@[simp] theorem endSeq_params (s : State) (n : Channel) (ll : Nat) : (s.endSeq n ll).params = s.params := by
  unfold endSeq; cases n <;> (dsimp only; split <;> (try split) <;> simp)
@[simp] theorem endSeq_iface (s : State) (n : Channel) (ll : Nat) : (s.endSeq n ll).iface = s.iface := by
  unfold endSeq; cases n <;> (dsimp only; split <;> (try split) <;> simp)
@[simp] theorem endSeq_ctrl (s : State) (n : Channel) (ll : Nat) : (s.endSeq n ll).ctrl = s.ctrl := by
  unfold endSeq; cases n <;> (dsimp only; split <;> (try split) <;> simp)
@[simp] theorem endSeq_drv (s : State) (n : Channel) (ll : Nat) : (s.endSeq n ll).drv = s.drv := by
  unfold endSeq; cases n <;> (dsimp only; split <;> (try split) <;> simp)
@[simp] theorem endSeq_mem (s : State) (n : Channel) (ll : Nat) : (s.endSeq n ll).mem = s.mem := by
  unfold endSeq; cases n <;> (dsimp only; split <;> (try split) <;> simp)
@[simp] theorem endSeq_wb (s : State) (n : Channel) (ll : Nat) : (s.endSeq n ll).wb = s.wb := by
  unfold endSeq; cases n <;> (dsimp only; split <;> (try split) <;> simp)
@[simp] theorem endSeq_marks (s : State) (n : Channel) (ll : Nat) : (s.endSeq n ll).marks = s.marks := by
  unfold endSeq; cases n <;> (dsimp only; split <;> (try split) <;> simp)
@[simp] theorem endSeq_host (s : State) (n : Channel) (ll : Nat) : (s.endSeq n ll).host = s.host := by
  unfold endSeq; cases n <;> (dsimp only; split <;> (try split) <;> simp)
@[simp] theorem endSeq_sched (s : State) (n : Channel) (ll : Nat) : (s.endSeq n ll).sched = s.sched := by
  unfold endSeq; cases n <;> (dsimp only; split <;> (try split) <;> simp)

/-! #### `emitWord` -/

@[simp] theorem emitWord_params (s : State) (w : Sample) : (s.emitWord w).params = s.params := by
  unfold emitWord; split; · rfl
  dsimp only; split <;> simp
@[simp] theorem emitWord_iface (s : State) (w : Sample) : (s.emitWord w).iface = s.iface := by
  unfold emitWord; split; · rfl
  dsimp only; split <;> simp
@[simp] theorem emitWord_ctrl (s : State) (w : Sample) : (s.emitWord w).ctrl = s.ctrl := by
  unfold emitWord; split; · rfl
  dsimp only; split <;> simp
@[simp] theorem emitWord_drv (s : State) (w : Sample) : (s.emitWord w).drv = s.drv := by
  unfold emitWord; split; · rfl
  dsimp only; split <;> simp
@[simp] theorem emitWord_mem (s : State) (w : Sample) : (s.emitWord w).mem = s.mem := by
  unfold emitWord; split; · rfl
  dsimp only; split <;> simp
@[simp] theorem emitWord_wb (s : State) (w : Sample) : (s.emitWord w).wb = s.wb := by
  unfold emitWord; split; · rfl
  dsimp only; split <;> simp
@[simp] theorem emitWord_marks (s : State) (w : Sample) : (s.emitWord w).marks = s.marks := by
  unfold emitWord; split; · rfl
  dsimp only; split <;> simp
@[simp] theorem emitWord_host (s : State) (w : Sample) : (s.emitWord w).host = s.host := by
  unfold emitWord; split; · rfl
  dsimp only; split <;> simp
@[simp] theorem emitWord_sched (s : State) (w : Sample) : (s.emitWord w).sched = s.sched := by
  unfold emitWord; split; · rfl
  dsimp only; split <;> simp

/-! #### `drain` -/

@[simp] theorem drain_params (s : State) (w : Writer) : (s.drain w).params = s.params := by
  unfold drain; split <;> rfl
@[simp] theorem drain_iface (s : State) (w : Writer) : (s.drain w).iface = s.iface := by
  unfold drain; split <;> rfl
@[simp] theorem drain_ctrl (s : State) (w : Writer) : (s.drain w).ctrl = s.ctrl := by
  unfold drain; split <;> rfl
@[simp] theorem drain_drv (s : State) (w : Writer) : (s.drain w).drv = s.drv := by
  unfold drain; split <;> rfl
@[simp] theorem drain_wire (s : State) (w : Writer) : (s.drain w).wire = s.wire := by
  unfold drain; split <;> rfl
@[simp] theorem drain_marks (s : State) (w : Writer) : (s.drain w).marks = s.marks := by
  unfold drain; split <;> rfl
@[simp] theorem drain_host (s : State) (w : Writer) : (s.drain w).host = s.host := by
  unfold drain; split <;> rfl
@[simp] theorem drain_sched (s : State) (w : Writer) : (s.drain w).sched = s.sched := by
  unfold drain; split <;> rfl

/-! #### `deliver` -/

@[simp] theorem deliver_params (s : State) (it : Item) : (s.deliver it).params = s.params := by
  unfold deliver; split <;> rfl
@[simp] theorem deliver_drv (s : State) (it : Item) : (s.deliver it).drv = s.drv := by
  unfold deliver; split <;> rfl
@[simp] theorem deliver_eng (s : State) (it : Item) : (s.deliver it).eng = s.eng := by
  unfold deliver; split <;> rfl
@[simp] theorem deliver_mem (s : State) (it : Item) : (s.deliver it).mem = s.mem := by
  unfold deliver; split <;> rfl
@[simp] theorem deliver_wb (s : State) (it : Item) : (s.deliver it).wb = s.wb := by
  unfold deliver; split <;> rfl
@[simp] theorem deliver_wire (s : State) (it : Item) : (s.deliver it).wire = s.wire := by
  unfold deliver; split <;> rfl
@[simp] theorem deliver_marks (s : State) (it : Item) : (s.deliver it).marks = s.marks := by
  unfold deliver; split <;> rfl
@[simp] theorem deliver_faults (s : State) (it : Item) : (s.deliver it).faults = s.faults := by
  unfold deliver; split <;> rfl
@[simp] theorem deliver_host (s : State) (it : Item) : (s.deliver it).host = s.host := by
  unfold deliver; split <;> rfl
@[simp] theorem deliver_sched (s : State) (it : Item) : (s.deliver it).sched = s.sched := by
  unfold deliver; split <;> rfl

/-! #### `startConfigured` -/

@[simp] theorem startConfigured_params (s : State) (pc : Pc) (l : List Micro) : (s.startConfigured pc l).params = s.params := by
  unfold startConfigured; split <;> rfl
@[simp] theorem startConfigured_drv (s : State) (pc : Pc) (l : List Micro) : (s.startConfigured pc l).drv = s.drv := by
  unfold startConfigured; split <;> rfl
@[simp] theorem startConfigured_eng (s : State) (pc : Pc) (l : List Micro) : (s.startConfigured pc l).eng = s.eng := by
  unfold startConfigured; split <;> rfl
@[simp] theorem startConfigured_mem (s : State) (pc : Pc) (l : List Micro) : (s.startConfigured pc l).mem = s.mem := by
  unfold startConfigured; split <;> rfl
@[simp] theorem startConfigured_wb (s : State) (pc : Pc) (l : List Micro) : (s.startConfigured pc l).wb = s.wb := by
  unfold startConfigured; split <;> rfl
@[simp] theorem startConfigured_wire (s : State) (pc : Pc) (l : List Micro) : (s.startConfigured pc l).wire = s.wire := by
  unfold startConfigured; split <;> rfl
@[simp] theorem startConfigured_marks (s : State) (pc : Pc) (l : List Micro) : (s.startConfigured pc l).marks = s.marks := by
  unfold startConfigured; split <;> rfl
@[simp] theorem startConfigured_faults (s : State) (pc : Pc) (l : List Micro) : (s.startConfigured pc l).faults = s.faults := by
  unfold startConfigured; split <;> rfl
@[simp] theorem startConfigured_host (s : State) (pc : Pc) (l : List Micro) : (s.startConfigured pc l).host = s.host := by
  unfold startConfigured; split <;> rfl
@[simp] theorem startConfigured_sched (s : State) (pc : Pc) (l : List Micro) : (s.startConfigured pc l).sched = s.sched := by
  unfold startConfigured; split <;> rfl

/-! #### `takeTurn` -/

@[simp] theorem takeTurn_params (s : State) : (s.takeTurn).params = s.params := by
  unfold takeTurn; split <;> rfl
@[simp] theorem takeTurn_iface (s : State) : (s.takeTurn).iface = s.iface := by
  unfold takeTurn; split <;> rfl
@[simp] theorem takeTurn_ctrl (s : State) : (s.takeTurn).ctrl = s.ctrl := by
  unfold takeTurn; split <;> rfl
@[simp] theorem takeTurn_drv (s : State) : (s.takeTurn).drv = s.drv := by
  unfold takeTurn; split <;> rfl
@[simp] theorem takeTurn_eng (s : State) : (s.takeTurn).eng = s.eng := by
  unfold takeTurn; split <;> rfl
@[simp] theorem takeTurn_mem (s : State) : (s.takeTurn).mem = s.mem := by
  unfold takeTurn; split <;> rfl
@[simp] theorem takeTurn_wb (s : State) : (s.takeTurn).wb = s.wb := by
  unfold takeTurn; split <;> rfl
@[simp] theorem takeTurn_wire (s : State) : (s.takeTurn).wire = s.wire := by
  unfold takeTurn; split <;> rfl
@[simp] theorem takeTurn_marks (s : State) : (s.takeTurn).marks = s.marks := by
  unfold takeTurn; split <;> rfl
@[simp] theorem takeTurn_faults (s : State) : (s.takeTurn).faults = s.faults := by
  unfold takeTurn; split <;> rfl
@[simp] theorem takeTurn_host (s : State) : (s.takeTurn).host = s.host := by
  unfold takeTurn; split <;> rfl

end State

end Sys2Proof.Machine
end

