-- ==== Sys2Proof/Laws/Engine.lean ====
section
/-! SUPPORT. What each operation of ENG can do, said once: the registers it never writes, the playout state it leaves, the
flags it sets and the items it appends to the wire. -/

namespace Sys2Proof.Machine

/-! ### Event flags -/

@[simp] theorem Events.get_put_same (ev : Events) (e : Event) (v : Bool) : (ev.put e v).get e = v := by
  cases e with
  | seqStarted ch => cases ch <;> rfl
  | seqEnd ch => cases ch <;> rfl
  | loopsDone => rfl
  | stopped => rfl
  | pwmPeriodEnd => rfl

theorem Events.get_put_other (ev : Events) {e f : Event} (v : Bool) (h : f ≠ e) : (ev.put e v).get f = ev.get f := by
  rcases e with (_ | _) | (_ | _) | _ | _ | _ <;> rcases f with (_ | _) | (_ | _) | _ | _ | _ <;>
    first | rfl | exact absurd rfl h

theorem Events.get_put (ev : Events) (e f : Event) (v : Bool) : (ev.put e v).get f = if f = e then v else ev.get f := by
  split
  · subst f; simp
  · exact Events.get_put_other ev v ‹_›

/-! ### The playout state is whole: a playing sequence has a sample left -/

/-- A playing sequence has a sample left (rule R47). -/
def Play.hasSample : Play → Prop
  | .stopped => True
  | .playing _ idx _ _ lcnt => idx < lcnt

namespace State

/-! #### begin (rule R131) -/

theorem beginSeq_empty {s : State} {n : Channel} {ll : Nat} (h : (s.eng.regs.seq n).cnt = 0) :
    s.beginSeq n ll = s.refuse.setPlay .stopped := by simp [beginSeq, h]

theorem beginSeq_play (s : State) (n : Channel) (ll : Nat) :
    (s.beginSeq n ll).eng.play = if (s.eng.regs.seq n).cnt = 0 then .stopped
      else .playing n 0 ll (s.eng.regs.seq n).ptr (s.eng.regs.seq n).cnt.toNat := by
  unfold beginSeq; dsimp only; split <;> rfl

@[simp] theorem beginSeq_regs (s : State) (n : Channel) (ll : Nat) : (s.beginSeq n ll).eng.regs = s.eng.regs := by
  unfold beginSeq; dsimp only; split <;> rfl

@[simp] theorem beginSeq_loopMode (s : State) (n : Channel) (ll : Nat) :
    (s.beginSeq n ll).eng.loopMode = s.eng.loopMode := by unfold beginSeq; dsimp only; split <;> rfl

@[simp] theorem beginSeq_tick (s : State) (n : Channel) (ll : Nat) : (s.beginSeq n ll).eng.tick = s.eng.tick := by
  unfold beginSeq; dsimp only; split <;> rfl

theorem beginSeq_events (s : State) (n : Channel) (ll : Nat) :
    (s.beginSeq n ll).eng.events = if (s.eng.regs.seq n).cnt = 0 then s.eng.events
      else s.eng.events.put (.seqStarted n) true := by unfold beginSeq; dsimp only; split <;> rfl

theorem beginSeq_hasSample (s : State) (n : Channel) (ll : Nat) : (s.beginSeq n ll).eng.play.hasSample := by
  rw [beginSeq_play]
  split
  · trivial
  · rename_i h
    refine Nat.pos_of_ne_zero fun h0 => h (BitVec.eq_of_toNat_eq ?_)
    simpa using h0

/-! #### preempt (rule R135) -/

@[simp] theorem preempt_regs (s : State) : s.preempt.eng.regs = s.eng.regs := by unfold preempt; split <;> rfl

@[simp] theorem preempt_tick (s : State) : s.preempt.eng.tick = s.eng.tick := by unfold preempt; split <;> rfl

@[simp] theorem preempt_play (s : State) : s.preempt.eng.play = .stopped := by
  unfold preempt
  split
  · assumption
  · rfl

/-- Preempting sets no event flag (rule R135). -/
@[simp] theorem preempt_events (s : State) : s.preempt.eng.events = s.eng.events := by unfold preempt; split <;> rfl

theorem preempt_wire (s : State) :
    s.preempt.wire = if s.eng.play = .stopped then s.wire else s.wire ++ [.cut] := by
  unfold preempt
  split <;> rename_i h <;> simp [h]

/-! #### the start task (rules R127 and R130) -/

@[simp] theorem fireTask_regs (s : State) (n : Channel) : (s.fireTask n).eng.regs = s.eng.regs := by
  unfold fireTask
  cases n <;> (dsimp only; split <;> (try split) <;> simp)

@[simp] theorem fireTask_tick (s : State) (n : Channel) : (s.fireTask n).eng.tick = s.eng.tick := by
  unfold fireTask
  cases n <;> (dsimp only; split <;> (try split) <;> simp)

theorem fireTask_unconfigured {s : State} (n : Channel) (h : s.drv = .unconfigured) : s.fireTask n = s.refuse := by
  simp [fireTask, h]

/-- A start task leaves a whole playout state. -/
theorem fireTask_hasSample (s : State) (n : Channel) (h : s.eng.play.hasSample) :
    (s.fireTask n).eng.play.hasSample := by
  unfold fireTask
  dsimp only
  split
  · exact h
  · cases n with
    | A => exact beginSeq_hasSample _ _ _
    | B =>
      dsimp only
      split
      · simp [Play.hasSample]
      · exact beginSeq_hasSample _ _ _

/-! #### end (rule R133) -/

@[simp] theorem endSeq_regs (s : State) (n : Channel) (ll : Nat) : (s.endSeq n ll).eng.regs = s.eng.regs := by
  unfold endSeq
  cases n <;> (dsimp only; split <;> (try split) <;> simp)

@[simp] theorem endSeq_tick (s : State) (n : Channel) (ll : Nat) : (s.endSeq n ll).eng.tick = s.eng.tick := by
  unfold endSeq
  cases n <;> (dsimp only; split <;> (try split) <;> simp)

/-- What ends a sequence leaves a whole playout state. -/
theorem endSeq_hasSample (s : State) (n : Channel) (ll : Nat) : (s.endSeq n ll).eng.play.hasSample := by
  unfold endSeq
  dsimp only
  split
  · simp [Play.hasSample]
  · cases n with
    | A => exact beginSeq_hasSample _ _ _
    | B =>
      dsimp only
      split
      · exact beginSeq_hasSample _ _ _
      · simp [Play.hasSample]

/-! #### the emit step (rules R126 and R132) -/

theorem emitWord_stopped {s : State} (w : Sample) (h : s.eng.play = .stopped) : s.emitWord w = s := by
  simp [emitWord, h]

/-- Inside a sequence the sample is emitted and the index moves on. -/
theorem emitWord_inside {s : State} (w : Sample) {ch : Channel} {idx ll lcnt : Nat} {lptr : Word}
    (h : s.eng.play = .playing ch idx ll lptr lcnt) (hi : idx + 1 ≠ lcnt) :
    s.emitWord w = { s with wire := s.wire ++ [.sym w],
                            eng := { s.eng with tick := 0, play := .playing ch (idx + 1) ll lptr lcnt } } := by
  simp [emitWord, h, hi, emit, setPlay]

/-- The last sample ends the sequence in the same step. -/
theorem emitWord_last {s : State} (w : Sample) {ch : Channel} {idx ll lcnt : Nat} {lptr : Word}
    (h : s.eng.play = .playing ch idx ll lptr lcnt) (hi : idx + 1 = lcnt) :
    s.emitWord w = endSeq { s with wire := s.wire ++ [.sym w], eng := { s.eng with tick := 0 } } ch ll := by
  simp [emitWord, h, hi, emit]

@[simp] theorem emitWord_regs (s : State) (w : Sample) : (s.emitWord w).eng.regs = s.eng.regs := by
  unfold emitWord
  split
  · rfl
  · dsimp only
    split <;> simp

/-- An emit step leaves a whole playout state. -/
theorem emitWord_hasSample (s : State) (w : Sample) (h : s.eng.play.hasSample) :
    (s.emitWord w).eng.play.hasSample := by
  cases hp : s.eng.play with
  | stopped => rw [emitWord_stopped w hp, hp]; trivial
  | playing ch idx ll lptr lcnt =>
    rw [hp] at h
    by_cases hi : idx + 1 = lcnt
    · rw [emitWord_last w hp hi]; exact endSeq_hasSample _ _ _
    · rw [emitWord_inside w hp hi]
      simp only [Play.hasSample] at h ⊢
      omega

/-- ENG steps whole periods (rule R49). -/
theorem emitWord_tick (s : State) (w : Sample) (h : s.eng.tick = 0) : (s.emitWord w).eng.tick = 0 := by
  cases hp : s.eng.play with
  | stopped => rw [emitWord_stopped w hp, h]
  | playing ch idx ll lptr lcnt =>
    by_cases hi : idx + 1 = lcnt
    · rw [emitWord_last w hp hi]; simp
    · rw [emitWord_inside w hp hi]

end State

end Sys2Proof.Machine
end

