-- ==== Sys2Proof/Laws/Control.lean ====
section
/-! SUPPORT. What one statement of CTRL can do, what each FSM state's decision can do, and so what one step of a command
can do, said once. -/

namespace Sys2Proof.Machine

/-! ### One statement (rule R73) -/

section Statement

variable (m : Micro) (rest : List Micro) (s : State)

/-- Every statement's own case: the fields that no statement changes. -/
theorem microStep_frame :
    (microStep m rest s).params = s.params ∧ (microStep m rest s).mem = s.mem ∧ (microStep m rest s).host = s.host ∧
    (microStep m rest s).sched = s.sched ∧ (microStep m rest s).ctrl.pc = s.ctrl.pc := by
  cases m <;> simp [microStep] <;> split <;> simp

@[simp] theorem microStep_params : (microStep m rest s).params = s.params := (microStep_frame m rest s).1
@[simp] theorem microStep_mem : (microStep m rest s).mem = s.mem := (microStep_frame m rest s).2.1
@[simp] theorem microStep_host : (microStep m rest s).host = s.host := (microStep_frame m rest s).2.2.1
@[simp] theorem microStep_sched : (microStep m rest s).sched = s.sched := (microStep_frame m rest s).2.2.2.1
@[simp] theorem microStep_pc : (microStep m rest s).ctrl.pc = s.ctrl.pc := (microStep_frame m rest s).2.2.2.2

/-- Only a memory write changes the write buffers, and it appends its sample to CTRL's. -/
theorem microStep_wb : (microStep m rest s).wb =
    match m with
    | .memWrite a v => s.wb.set .ctrl (s.wb.ctrl ++ [sampleCells a v])
    | _ => s.wb := by
  cases m <;> simp [microStep, State.setMicro_wb] <;> split <;> simp

/-- Only `DRV <- d` changes the driver state. -/
theorem microStep_drv : (microStep m rest s).drv = match m with | .drv d => d | _ => s.drv := by
  cases m <;> simp [microStep] <;> split <;> simp

/-- Only `DRV <- d` is recorded, with its place on the wire. -/
theorem microStep_marks : (microStep m rest s).marks =
    match m with | .drv d => s.marks ++ [(s.wire.length, d)] | _ => s.marks := by
  cases m <;> simp [microStep] <;> split <;> simp

/-- Only the first half of a pull changes the interface, and only PULLREQ of it. -/
theorem microStep_iface : (microStep m rest s).iface =
    match m with | .raisePull => { s.iface with pullReq := true } | _ => s.iface := by
  cases m <;> simp [microStep] <;> split <;> simp

/-- A statement writes ENG's registers as `Micro.regs` says. -/
theorem microStep_regs : (microStep m rest s).eng.regs = m.regs s.eng.regs := by
  cases m <;> simp [microStep, Micro.regs] <;> split <;> simp

/-- A statement that is no start task leaves the playout, the loop mode, the wire and the fault bits alone. -/
theorem microStep_noTask (h : ∀ ch, m ≠ .task ch) :
    (microStep m rest s).eng.play = s.eng.play ∧ (microStep m rest s).eng.loopMode = s.eng.loopMode ∧
    (microStep m rest s).eng.raced = s.eng.raced ∧ (microStep m rest s).wire = s.wire ∧
    (microStep m rest s).faults = s.faults := by
  cases m <;> first | exact absurd rfl (h _) | (simp [microStep] <;> split <;> simp)

/-- A start task is the engine's `fireTask`. -/
@[simp] theorem microStep_task (ch : Channel) : microStep (.task ch) rest s = (s.setMicro rest).fireTask ch := rfl

@[simp] theorem microStep_tick : (microStep m rest s).eng.tick = s.eng.tick := by
  cases m <;> simp [microStep] <;> split <;> simp

/-- A statement is taken off the list, or it waits and changes nothing. -/
theorem microStep_micro : (microStep m rest s).ctrl.micro = rest ∨ microStep m rest s = s := by
  cases m <;> simp only [microStep] <;>
    first | (left; simp; done) | (split <;> first | (left; simp) | exact .inr rfl)

/-- The statements that can wait. -/
theorem microStep_waits (h : microStep m rest s = s) (hm : s.ctrl.micro = m :: rest) :
    (m = .fence ∧ s.wb.ctrl ≠ []) ∨ (∃ ch, m = .awaitEnd ch ∧ s.eng.events.get (.seqEnd ch) = false) ∨
    (m = .awaitItem ∧ s.iface.pullReq = true) := by
  have hne : (microStep m rest s).ctrl.micro ≠ rest := by rw [h, hm]; simp
  cases m <;> simp only [microStep] at hne <;> first | (simp at hne; done) | split at hne
  · exact absurd rfl hne
  · rename_i hw; exact .inl ⟨rfl, by simpa using hw⟩
  · exact absurd rfl hne
  · rename_i ch hw; exact .inr (.inl ⟨ch, rfl, by simpa using hw⟩)
  · rename_i hw; exact .inr (.inr ⟨rfl, hw⟩)
  · exact absurd rfl hne

end Statement

/-! ### Decisions -/

/-- Nothing but CTRL itself, STATUS.ERR, RESULT, FAULT.REFUSED and the number of draws has changed. -/
def OnlyControl (s t : State) : Prop :=
  t = { s with ctrl := t.ctrl, iface := { s.iface with err := t.iface.err, result := t.iface.result },
               faults := { s.faults with refused := t.faults.refused },
               sched := { s.sched with draws := t.sched.draws } }

/-- What a decision that only changes control leaves alone. -/
theorem OnlyControl.frame {s t : State} (h : OnlyControl s t) :
    t.params = s.params ∧ t.drv = s.drv ∧ t.eng = s.eng ∧ t.mem = s.mem ∧ t.wb = s.wb ∧ t.wire = s.wire ∧
    t.host = s.host ∧ t.marks = s.marks ∧ t.iface.pullReq = s.iface.pullReq ∧ t.iface.overrun = s.iface.overrun ∧
    t.iface.arg0 = s.iface.arg0 ∧ t.iface.arg1 = s.iface.arg1 ∧ t.iface.arg2 = s.iface.arg2 ∧
    t.iface.arg3 = s.iface.arg3 ∧ t.faults.dmaRace = s.faults.dmaRace ∧ t.sched.turns = s.sched.turns ∧
    t.sched.patience = s.sched.patience := by
  rw [h]; simp

theorem onlyControl_finish (s : State) : OnlyControl s s.finish := rfl

theorem onlyControl_releaseDrain (s : State) : OnlyControl s (releaseDrain s) := by unfold releaseDrain; split <;> rfl

theorem onlyControl_encodeCheck (s : State) : OnlyControl s (encodeCheck s) := by
  unfold encodeCheck; dsimp only; split
  · rfl
  · split
    · rfl
    · split <;> rfl

theorem onlyControl_requiredLengthBody (s : State) : OnlyControl s (requiredLengthBody s) := by
  unfold requiredLengthBody; dsimp only; split <;> rfl

theorem onlyControl_seqStartCheck (ch : Channel) (s : State) : OnlyControl s (seqStartCheck ch s) := by
  unfold seqStartCheck; dsimp only; split
  · rfl
  · split <;> rfl

theorem onlyControl_seqIsDoneBody (ch : Channel) (s : State) : OnlyControl s (seqIsDoneBody ch s) := rfl

theorem onlyControl_seqWaitPoll (ch : Channel) (s : State) : OnlyControl s (seqWaitPoll ch s) := by
  unfold seqWaitPoll; split <;> rfl

theorem onlyControl_sendBufCheck (s : State) : OnlyControl s (sendBufCheck s) := by
  unfold sendBufCheck; dsimp only; split
  · rfl
  · split
    · rfl
    · split
      · rfl
      · split <;> rfl

theorem onlyControl_sendBufLoop (s : State) : OnlyControl s (sendBufLoop s) := by
  unfold sendBufLoop; split <;> rfl

theorem onlyControl_sendBufItem (s : State) : OnlyControl s (sendBufItem s) := by unfold sendBufItem; split <;> rfl

theorem onlyControl_sendBufWait (s : State) : OnlyControl s (sendBufWait s) := by unfold sendBufWait; split <;> rfl

theorem onlyControl_goto (s : State) (pc : Pc) (l : List Micro) : OnlyControl s (s.goto pc l) := rfl

theorem onlyControl_writeSingleFirst (s : State) : OnlyControl s (writeSingleFirst s) := by
  unfold writeSingleFirst; split
  · rfl
  · dsimp only; split <;> rfl

theorem onlyControl_writeSingleNext (s : State) : OnlyControl s (writeSingleNext s) := by
  unfold writeSingleNext; dsimp only; split <;> rfl

theorem onlyControl_writeSingleTail (s : State) : OnlyControl s (writeSingleTail s) := by
  unfold writeSingleTail; split <;> rfl

theorem onlyControl_writeLoopFirst (s : State) : OnlyControl s (writeLoopFirst s) := by
  unfold writeLoopFirst; split <;> rfl

theorem onlyControl_writeLoopSecond (s : State) : OnlyControl s (writeLoopSecond s) := by
  unfold writeLoopSecond; split <;> rfl

theorem onlyControl_writeLoopStep (s : State) : OnlyControl s (writeLoopStep s) := by
  unfold writeLoopStep; split <;> split <;> rfl

theorem onlyControl_writeLoopTest (s : State) : OnlyControl s (writeLoopTest s) := by
  unfold writeLoopTest; split <;> rfl

theorem onlyControl_writeLoopItem (s : State) : OnlyControl s (writeLoopItem s) := by
  unfold writeLoopItem; split
  · rfl
  · split <;> rfl

theorem onlyControl_writeLoopFinal (s : State) : OnlyControl s (writeLoopFinal s) := by
  unfold writeLoopFinal; split <;> rfl

/-! ### One step of a command -/

/-- The decision a command takes in an FSM state with nothing left to perform. -/
def decision (s : State) : State :=
  match s.ctrl.pc with
  | .idle => s
  | .cfWrite | .cfOff | .encWrite | .ssGo _ => s.finish
  | .cfDrain => releaseDrain s
  | .encCheck => encodeCheck s
  | .rlBody => requiredLengthBody s
  | .ssCheck ch => seqStartCheck ch s
  | .sdBody ch => seqIsDoneBody ch s
  | .swPoll ch => seqWaitPoll ch s
  | .sbCheck => sendBufCheck s
  | .sbLoop => sendBufLoop s
  | .sbFill => sendBufItem s
  | .sbTail => sendBufStart s
  | .sbGo => s.goto .sbWait []
  | .sbWait => sendBufWait s
  | .wsFirst => writeSingleFirst s
  | .wsFirst2 => s.goto .wsNext pull
  | .wsNext => writeSingleNext s
  | .wsTail => writeSingleTail s
  | .wlSetup => writeLoopFirst s
  | .wlSetup2 => writeLoopSecond s
  | .wlSetup3 => s.goto .wlStep []
  | .wlStep => writeLoopStep s
  | .wlTest => writeLoopTest s
  | .wlItem => writeLoopItem s
  | .wlFinal => writeLoopFinal s

/-- A decision changes only control. -/
theorem onlyControl_decision (s : State) : OnlyControl s (decision s) := by
  unfold decision
  split
  · rfl
  iterate 4 · exact onlyControl_finish s
  · exact onlyControl_releaseDrain s
  · exact onlyControl_encodeCheck s
  · exact onlyControl_requiredLengthBody s
  · exact onlyControl_seqStartCheck _ s
  · exact onlyControl_seqIsDoneBody _ s
  · exact onlyControl_seqWaitPoll _ s
  · exact onlyControl_sendBufCheck s
  · exact onlyControl_sendBufLoop s
  · exact onlyControl_sendBufItem s
  · exact onlyControl_goto s _ _
  · exact onlyControl_goto s _ _
  · exact onlyControl_sendBufWait s
  · exact onlyControl_writeSingleFirst s
  · exact onlyControl_goto s _ _
  · exact onlyControl_writeSingleNext s
  · exact onlyControl_writeSingleTail s
  · exact onlyControl_writeLoopFirst s
  · exact onlyControl_writeLoopSecond s
  · exact onlyControl_goto s _ _
  · exact onlyControl_writeLoopStep s
  · exact onlyControl_writeLoopTest s
  · exact onlyControl_writeLoopItem s
  · exact onlyControl_writeLoopFinal s

/-- CTRL's step: the next statement, or the decision. -/
def advance (s : State) : State :=
  match s.ctrl.micro with
  | m :: rest => microStep m rest s
  | [] => decision s

/-- A running command's step is `advance`: every meaning's arms agree with `decision`. -/
theorem exec_running (i : Instr) (s : State) (h : s.ctrl.pc.instr = some i) : exec i s = .next (advance s) := by
  unfold advance decision
  cases hm : s.ctrl.micro <;> cases hp : s.ctrl.pc <;> rw [hp] at h <;>
    simp only [Pc.instr, Option.some.injEq, reduceCtorEq] at h <;> subst h <;>
    simp [exec, execConfigure, execRelease, execEncodePixel, execRequiredLength, execSeqStart, execSeqIsDone,
      execSeqWait, execSendBuf, execWriteSingle, execWriteLoop, hp, hm, State.ctrlStep]

/-- A command while another one runs is dropped (rules R24 and R215). -/
theorem exec_other (i : Instr) (s : State) (hf : i.format = .command) (hb : s.ctrl.pc ≠ .idle)
    (h : s.ctrl.pc.instr ≠ some i) : exec i s = .next s.overrun := by
  cases i <;> simp only [Instr.format, reduceCtorEq] at hf <;>
    cases hp : s.ctrl.pc <;> rw [hp] at h hb <;> simp_all [exec, execConfigure, execRelease, execEncodePixel,
      execRequiredLength, execSeqStart, execSeqIsDone, execSeqWait, execSendBuf, execWriteSingle, execWriteLoop,
      State.dropCommand, Pc.instr]

/-- The first state of a command and the statements it starts with. -/
def firstState (i : Instr) (s : State) : Pc × List Micro :=
  match i with
  | .configure => (.cfWrite, configureWrites s.iface.operands.pin)
  | .release => (.cfDrain, [])
  | .encodePixel => (.encCheck, [])
  | .requiredLength => (.rlBody, [])
  | .seqStart ch => (.ssCheck ch, [])
  | .seqIsDone ch => (.sdBody ch, [])
  | .seqWait ch => (.swPoll ch, [])
  | .sendBuf => (.sbCheck, [])
  | .writeSingle => (.wsFirst, pull)
  | .writeLoop => (.wlSetup, pull)
  | .symOne | .symZero | .symIdle | .color _ _ _ _ | .endItem _ => (.idle, [])

/-- An idle CTRL starts the command, or reports a decode error (rule R100). -/
theorem exec_idle (i : Instr) (s : State) (hf : i.format = .command) (h : s.ctrl.pc = .idle) :
    (∃ c, exec i s = .next (s.decodeError c)) ∨
    exec i s = .next (s.start (firstState i s).1 (firstState i s).2) ∨
    (i = .writeLoop ∧ exec i s = .next (s.clearLoopCounters.start .wlSetup pull)) := by
  cases i <;> simp only [Instr.format, reduceCtorEq] at hf <;>
    simp only [exec, execConfigure, execRelease, execEncodePixel, execRequiredLength, execSeqStart, execSeqIsDone,
      execSeqWait, execSendBuf, execWriteSingle, execWriteLoop, h, State.startConfigured, firstState] <;>
    (try split) <;> simp

/-- Every meaning answers a next state. -/
theorem exec_next (i : Instr) (s : State) : ∃ t, exec i s = .next t := by
  by_cases hf : i.format = .command
  · by_cases hb : s.ctrl.pc = .idle
    · rcases exec_idle i s hf hb with ⟨c, h⟩ | h | ⟨_, h⟩ <;> exact ⟨_, h⟩
    · by_cases hi : s.ctrl.pc.instr = some i
      · exact ⟨_, exec_running i s hi⟩
      · exact ⟨_, exec_other i s hf hb hi⟩
  · cases i <;> first | exact absurd rfl hf | exact ⟨_, rfl⟩

end Sys2Proof.Machine
end

