-- ==== Sys2Proof/Laws/Invariant.lean ====
section
/-! SUPPORT. The pieces of the machine's invariant: what it depends on, the statement lists it allows, and that one
statement, one decision, one store and one emit step keep it. -/

namespace Sys2Proof.Machine

/-! ### Lists of statements -/

theorem tasksFenced_mono {e : Bool} {l : List Micro} (h : tasksFenced false l = true) : tasksFenced e l = true := by
  cases l with
  | nil => rfl
  | cons m l => cases m <;> simp_all [tasksFenced]

@[simp] theorem tasksFenced_memWrite (e : Bool) (a : Nat) (v : Sample) (l : List Micro) :
    tasksFenced e (.memWrite a v :: l) = tasksFenced false l := rfl

theorem tasksFenced_writes {e : Bool} (a : Nat) (vs : List Sample) {l : List Micro} (h : tasksFenced false l = true) :
    tasksFenced e (writeSamples a vs ++ l) = true := by
  induction vs generalizing a e with
  | nil => exact tasksFenced_mono h
  | cons v vs ih => exact ih (a + 2)

@[simp] theorem pullsPaired_writes (a : Nat) (vs : List Sample) (l : List Micro) :
    pullsPaired (writeSamples a vs ++ l) = pullsPaired l := by
  induction vs generalizing a with
  | nil => rfl
  | cons v vs ih => exact ih (a + 2)

theorem isWrite_writes {a : Nat} {vs : List Sample} {m : Micro} (h : m ∈ writeSamples a vs) : m.isWrite = true := by
  induction vs generalizing a with
  | nil => simp [writeSamples] at h
  | cons v vs ih =>
    rcases List.mem_cons.1 h with rfl | h
    · rfl
    · exact ih h

/-- A statement of a command other than CONFIGURE and RELEASE: it writes none of the settings of rule R151. -/
def Micro.keepsSettings : Micro → Bool
  | .enable _ | .psel _ _ | .mode _ | .prescaler _ | .countertop _ | .decoder _ _ | .seqRefresh _ _ => false
  | .seqEndDelay _ _ | .drv _ => false
  | .memWrite _ _ | .loopCnt _ | .seqPtr _ _ | .seqCnt _ _ | .clear _ | .fence | .task _ | .awaitEnd _ => true
  | .raisePull | .awaitItem | .setRole _ | .incBlanks | .incIdleSends | .nextFrame => true

/-- What a state other than CONFIGURE's and CF_OFF has to perform writes none of the settings of rule R151. -/
theorem Pc.keepsSettings_of_mayPerform {pc : Pc} {m : Micro} (h : pc.mayPerform m = true) : m.keepsSettings = true := by
  cases m <;> first | rfl | (exfalso; revert h; cases pc <;> simp [Pc.mayPerform, Micro.isWrite, Micro.ofXfer,
    Micro.ofPull, Micro.ofRefill, Micro.ofRestart, Micro.ofLoopSetup, Micro.isRole, clearEvents, startA])

/-- A list of statements CTRL may take up in an FSM state. -/
structure Plan (pc : Pc) (l : List Micro) : Prop where
  may : ∀ m ∈ l, pc.mayPerform m = true
  fenced : tasksFenced false l = true
  pulls : pullsPaired l = true

theorem Plan.nil {pc : Pc} : Plan pc [] := ⟨by simp, rfl, rfl⟩

theorem Plan.writes {pc : Pc} {a : Nat} {vs : List Sample} {l : List Micro}
    (hw : ∀ m : Micro, m.isWrite = true → pc.mayPerform m = true) (h : Plan pc l) :
    Plan pc (writeSamples a vs ++ l) where
  may m hm := (List.mem_append.1 hm).elim (fun hm => hw m (isWrite_writes hm)) (h.may m)
  fenced := tasksFenced_writes a vs h.fenced
  pulls := by simpa using h.pulls

theorem Plan.of_decide {pc : Pc} {l : List Micro}
    (h : (l.all pc.mayPerform && tasksFenced false l && pullsPaired l) = true) : Plan pc l := by
  simp only [Bool.and_eq_true, List.all_eq_true] at h
  exact ⟨h.1.1, h.1.2, h.2⟩

/-! ### What the invariant depends on -/

/-- Only these parts of a state matter to the invariant. -/
theorem Inv.congr {s t : State} (h : Inv s) (mem : Memory.wf t.mem = true) (ctrl : t.ctrl.pc = s.ctrl.pc)
    (micro : t.ctrl.micro = s.ctrl.micro) (wb : s.wb.ctrl = [] → t.wb.ctrl = []) (drv : t.drv = s.drv)
    (pull : t.iface.pullReq = true → s.iface.pullReq = true) (regs : t.eng.regs = s.eng.regs)
    (play : t.eng.play.hasSample) (started : t.eng.play ≠ .stopped → s.eng.play ≠ .stopped)
    (tick : t.eng.tick = 0) : Inv t where
  memory := mem
  idle := by rw [ctrl, micro]; exact h.idle
  plan := by rw [ctrl, micro]; exact h.plan
  fenced := by
    rw [micro]
    cases he : s.wb.ctrl.isEmpty with
    | false => exact tasksFenced_mono (by have := h.fenced; rwa [he] at this)
    | true =>
      have := h.fenced
      rw [he] at this
      rw [wb (List.isEmpty_iff.1 he)]
      exact this
  pulls := by rw [micro]; exact h.pulls
  pullReq hp := by rw [micro]; exact h.pullReq (pull hp)
  playing ch idx ll lptr lcnt hp := by
    refine ⟨by rw [hp] at play; exact play, ?_⟩
    have hs := started (by rw [hp]; simp)
    rw [drv]
    cases hq : s.eng.play with
    | stopped => exact absurd hq hs
    | playing c i l p n => exact (h.playing c i l p n hq).2
  settings := by rw [drv, ctrl, regs]; exact h.settings
  configuring := by rw [ctrl, micro, regs, drv]; exact h.configuring
  releasing hp := by
    rw [ctrl] at hp
    rw [micro, drv]
    refine ⟨?_, (h.releasing hp).2⟩
    by_contra hs
    exact started hs (h.releasing hp).1
  noInterrupts := by rw [regs]; exact h.noInterrupts
  wholePeriods := tick

/-- The invariant says that a playing sequence has a sample left. -/
theorem Inv.hasSample {s : State} (h : Inv s) : s.eng.play.hasSample := by
  cases hp : s.eng.play with
  | stopped => trivial
  | playing ch idx ll lptr lcnt => exact (h.playing ch idx ll lptr lcnt hp).1

theorem Inv.drv_of_playing {s : State} (h : Inv s) (hp : s.eng.play ≠ .stopped) : s.drv = .configured := by
  cases hq : s.eng.play with
  | stopped => exact absurd hq hp
  | playing ch idx ll lptr lcnt => exact (h.playing ch idx ll lptr lcnt hq).2

/-! ### ENG and memory steps -/

/-- An emit step never starts a stopped engine. -/
theorem State.emitWord_started {s : State} {w : Sample} (h : (s.emitWord w).eng.play ≠ .stopped) :
    s.eng.play ≠ .stopped := by
  intro hs
  rw [State.emitWord_stopped w hs] at h
  exact h hs

theorem Inv.emitWord {s : State} (h : Inv s) (w : Sample) : Inv (s.emitWord w) :=
  h.congr (by simpa using h.memory) (by simp) (by simp) (by simp) (by simp) (by simp) (by simp)
    (State.emitWord_hasSample s w h.hasSample) State.emitWord_started (State.emitWord_tick s w h.wholePeriods)

theorem State.drain_eng (s : State) (w : Writer) :
    (s.drain w).eng.play = s.eng.play ∧ (s.drain w).eng.regs = s.eng.regs ∧ (s.drain w).eng.tick = s.eng.tick := by
  unfold State.drain; split <;> simp

theorem State.drain_ctrl_wb (s : State) (w : Writer) (h : s.wb.ctrl = []) : (s.drain w).wb.ctrl = [] := by
  unfold State.drain
  cases w with
  | host => split <;> simp [WriteBuffers.set, h]
  | ctrl => simp [h]

theorem State.drain_mem_wf (s : State) (w : Writer) (h : Memory.wf s.mem = true) :
    Memory.wf (s.drain w).mem = true := by
  unfold State.drain
  split
  · exact h
  · simpa using Memory.wf_store _ _ h

theorem Inv.drain {s : State} (h : Inv s) (w : Writer) : Inv (s.drain w) :=
  h.congr (s.drain_mem_wf w h.memory) (by simp) (by simp) (s.drain_ctrl_wb w) (by simp) (by simp)
    (s.drain_eng w).2.1 (by rw [(s.drain_eng w).1]; exact h.hasSample) (by rw [(s.drain_eng w).1]; exact id)
    (by rw [(s.drain_eng w).2.2]; exact h.wholePeriods)

/-! ### A step of a command -/

/-- Going to a state of a command other than CONFIGURE and CF_OFF. -/
theorem Inv.goto {s : State} (h : Inv s) (hm : s.ctrl.micro = []) (ho : s.ctrl.pc ≠ .cfOff) {pc : Pc} {l : List Micro}
    (hi : pc ≠ .idle) (hw : pc ≠ .cfWrite) (hf : pc ≠ .cfOff) (hl : Plan pc l) : Inv (s.goto pc l) where
  memory := h.memory
  idle hp := absurd hp hi
  plan := by
    show planOk pc l
    unfold planOk
    cases pc <;> first | exact absurd rfl hw | exact absurd rfl hf | exact hl.may
  fenced := tasksFenced_mono hl.fenced
  pulls := hl.pulls
  pullReq hp := by have := h.pullReq hp; rw [hm] at this; simp at this
  playing := h.playing
  settings hd _ := h.settings hd ho
  configuring hp := absurd hp hw
  releasing hp := absurd hp hf
  noInterrupts := h.noInterrupts
  wholePeriods := h.wholePeriods

/-- Ending a command, whatever it records. -/
theorem Inv.ended {s t : State} (h : Inv s) (hm : s.ctrl.micro = []) (ht : OnlyControl s t) (hp : t.ctrl.pc = .idle)
    (hl : t.ctrl.micro = []) : Inv t := by
  obtain ⟨_, hdrv, heng, hmem, hwb, _, _, _, hpull, _⟩ := ht.frame
  exact
    { memory := by rw [hmem]; exact h.memory
      idle := fun _ => hl
      plan := by rw [hp, hl]; simp [planOk]
      fenced := by rw [hl]; rfl
      pulls := by rw [hl]; rfl
      pullReq := fun hq => by
        rw [hpull] at hq
        have := h.pullReq hq
        rw [hm] at this
        simp at this
      playing := fun ch idx ll lptr lcnt hq => by rw [hdrv]; rw [heng] at hq; exact h.playing ch idx ll lptr lcnt hq
      settings := fun hd _ => by
        rw [heng]
        rw [hdrv] at hd
        exact h.settings hd fun ho => by
          have := (h.releasing ho).2 hm
          rw [hd] at this
          exact absurd this (by simp)
      configuring := fun hc => by rw [hp] at hc; exact absurd hc (by simp)
      releasing := fun hc => by rw [hp] at hc; exact absurd hc (by simp)
      noInterrupts := by rw [heng]; exact h.noInterrupts
      wholePeriods := by rw [heng]; exact h.wholePeriods }

/-- A change of CTRL's working registers does not matter. -/
theorem Inv.registers {s : State} (h : Inv s) (c : Ctrl) (hp : c.pc = s.ctrl.pc) (hm : c.micro = s.ctrl.micro) :
    Inv { s with ctrl := c } :=
  h.congr h.memory hp hm id rfl id rfl h.hasSample id h.wholePeriods

/-! ### Statements, decisions and steps of a command -/

/-- Taking a statement off keeps the fences right. -/
theorem tasksFenced_tail {e : Bool} {m : Micro} {l : List Micro} (h : tasksFenced e (m :: l) = true)
    (hf : m ≠ .fence) : tasksFenced false l = true := by
  cases m <;> simp_all [tasksFenced]

/-- Taking a statement off keeps the pulls whole. -/
theorem pullsPaired_tail {m : Micro} {l : List Micro} (h : pullsPaired (m :: l) = true) : pullsPaired l = true := by
  cases m <;> simp_all [pullsPaired]

/-- Taking a statement off keeps the list in its command. -/
theorem planOk_tail {pc : Pc} {m : Micro} {l : List Micro} (h : planOk pc (m :: l)) : planOk pc l := by
  unfold planOk at h ⊢
  split at h
  · rcases h with h | ⟨k, hk, hall⟩
    · simp at h
    · cases k with
      | nil => simp at hk; simp [hk.2]
      | cons c k => simp at hk; exact .inr ⟨k, hk.2, fun m hm => hall m (List.mem_cons_of_mem _ hm)⟩
  · exact (List.suffix_cons m l).trans h
  · exact fun c hc => h c (List.mem_cons_of_mem _ hc)

/-- A statement outside CONFIGURE and RELEASE keeps the settings of rule R151. -/
theorem regs_keeps {m : Micro} (h : m.keepsSettings = true) (r : EngRegs) (hr : r.fixed) : (m.regs r).fixed := by
  cases m <;> simp [Micro.keepsSettings] at h <;> simp only [Micro.regs] <;> try exact hr
  · rename_i ch v; cases ch <;> exact hr
  · rename_i ch v; cases ch <;> exact hr

/-- No statement writes SHORTS or INTEN (rule R43). -/
theorem regs_interrupts (m : Micro) (r : EngRegs) : (m.regs r).shorts = r.shorts ∧ (m.regs r).inten = r.inten := by
  cases m <;> simp [Micro.regs] <;> rename_i ch v <;> first | (cases ch <;> exact ⟨rfl, rfl⟩) | skip
  all_goals (unfold EngRegs.setPsel; split <;> exact ⟨rfl, rfl⟩)

/-- A statement that does not wait keeps the invariant. -/
theorem Inv.taken {s : State} (h : Inv s) {m : Micro} {rest : List Micro} (hm : s.ctrl.micro = m :: rest)
    (hne : (microStep m rest s).ctrl.micro = rest) : Inv (microStep m rest s) := by
  have hidle : s.ctrl.pc ≠ .idle := fun hp => by have := h.idle hp; rw [hm] at this; simp at this
  have hplan := h.plan
  rw [hm] at hplan
  have hpull : s.iface.pullReq = true → m = .awaitItem := fun hp => by
    have := h.pullReq hp; rw [hm] at this; simpa using this
  have hblock : m = .awaitItem → s.iface.pullReq = false := fun hmm => by
    subst hmm
    by_contra hp
    simp only [Bool.not_eq_false] at hp
    simp only [microStep, hp, if_true] at hne
    rw [hm] at hne
    simp at hne
  have hdrv : ∀ d, m = .drv d → (s.ctrl.pc = .cfWrite ∧ d = .configured ∧ rest = []) ∨
      (s.ctrl.pc = .cfOff ∧ d = .unconfigured ∧ rest = []) := by
    rintro d rfl
    unfold planOk at hplan
    split at hplan
    · left
      rename_i hp
      rcases hplan with hplan | ⟨k, hk, hall⟩
      · simp at hplan
      · cases k with
        | nil => simp at hk; exact ⟨hp, hk.1, hk.2⟩
        | cons c k => simp at hk; have := hall c List.mem_cons_self; rw [← hk.1] at this; simp [Micro.isSetup] at this
    · right
      rename_i hp
      obtain ⟨k, hk⟩ := hplan
      rcases k with _ | ⟨_, _ | ⟨_, _ | ⟨_, k⟩⟩⟩ <;> simp [releaseWrites] at hk
      exact ⟨hp, hk.2.2.1, hk.2.2.2⟩
    · have := Pc.keepsSettings_of_mayPerform (hplan _ List.mem_cons_self); simp [Micro.keepsSettings] at this
  have hplay : (microStep m rest s).eng.play.hasSample := by
    by_cases ht : ∃ ch, m = .task ch
    · obtain ⟨ch, rfl⟩ := ht
      exact State.fireTask_hasSample _ _ h.hasSample
    · rw [(microStep_noTask m rest s (fun ch hc => ht ⟨ch, hc⟩)).1]; exact h.hasSample
  exact
    { memory := by simpa using h.memory
      idle := fun hp => absurd (by simpa using hp) hidle
      plan := by rw [hne, microStep_pc]; exact planOk_tail hplan
      fenced := by
        rw [hne, microStep_wb]
        have hf := h.fenced
        rw [hm] at hf
        by_cases hmf : m = .fence
        · subst hmf
          simp only [microStep] at hne
          split at hne
          · rename_i he; rw [he] at hf ⊢; exact hf
          · rw [hm] at hne; simp at hne
        · exact tasksFenced_mono (tasksFenced_tail hf hmf)
      pulls := by rw [hne]; have := h.pulls; rw [hm] at this; exact pullsPaired_tail this
      pullReq := fun hp => by
        rw [hne]
        rw [microStep_iface] at hp
        by_cases hr : m = .raisePull
        · subst hr
          have := h.pulls
          rw [hm] at this
          simp [pullsPaired] at this
          exact this.1
        · have hq : s.iface.pullReq = true := by cases m <;> simp_all
          have := hblock (hpull hq)
          rw [hq] at this
          simp at this
      playing := fun ch idx ll lptr lcnt hp => by
        refine ⟨by rw [hp] at hplay; exact hplay, ?_⟩
        by_cases ht : ∃ ch, m = .task ch
        · obtain ⟨ch, rfl⟩ := ht
          simp only [microStep_task, State.fireTask_drv, State.setMicro_drv]
          cases hd : s.drv with
          | configured => rfl
          | unconfigured =>
            simp only [microStep_task] at hp
            rw [State.fireTask_unconfigured ch (by simpa using hd)] at hp
            exact absurd (h.drv_of_playing (by simp at hp; rw [hp]; simp)) (by rw [hd]; simp)
        · rw [(microStep_noTask m rest s (fun ch hc => ht ⟨ch, hc⟩)).1] at hp
          have hc := (h.playing _ _ _ _ _ hp).2
          by_cases hd : ∃ d, m = .drv d
          · obtain ⟨d, rfl⟩ := hd
            rcases hdrv d rfl with ⟨_, rfl, _⟩ | ⟨ho, _, _⟩
            · rw [microStep_drv]
            · rw [(h.releasing ho).1] at hp; simp at hp
          · rw [microStep_drv]; cases m <;> simp_all
      settings := fun hd ho => by
        rw [microStep_pc] at ho
        rw [microStep_regs]
        by_cases hc : s.ctrl.pc = .cfWrite
        · by_cases hr : rest = []
          · have := (h.configuring hc).1
            rw [hm, hr] at this
            exact this
          · have hu := (h.configuring hc).2 (by rw [hm]; simp)
            exfalso
            by_cases hdd : ∃ d, m = .drv d
            · obtain ⟨d, rfl⟩ := hdd
              rcases hdrv d rfl with ⟨_, _, h0⟩ | ⟨_, _, h0⟩ <;> exact hr h0
            · rw [microStep_drv] at hd; cases m <;> simp_all
        · have hk : ∀ c ∈ m :: rest, c.keepsSettings = true := by
            unfold planOk at hplan
            split at hplan
            · rename_i hx; exact absurd hx hc
            · rename_i hx; exact absurd hx ho
            · exact fun c hc => Pc.keepsSettings_of_mayPerform (hplan c hc)
          have hkm := hk m List.mem_cons_self
          have hdd : s.drv = .configured := by rw [microStep_drv] at hd; cases m <;> simp_all [Micro.keepsSettings]
          exact regs_keeps hkm _ (h.settings hdd ho)
      configuring := fun hp => by
        rw [microStep_pc] at hp
        have := h.configuring hp
        rw [hm] at this
        refine ⟨by rw [hne, microStep_regs]; exact this.1, fun hr => ?_⟩
        rw [hne] at hr
        by_cases hdd : ∃ d, m = .drv d
        · obtain ⟨d, rfl⟩ := hdd
          rcases hdrv d rfl with ⟨_, _, h0⟩ | ⟨_, _, h0⟩ <;> exact absurd h0 hr
        · rw [microStep_drv]; have := this.2 (by simp); cases m <;> simp_all
      releasing := fun hp => by
        rw [microStep_pc] at hp
        have hr := h.releasing hp
        rw [hp] at hplan
        obtain ⟨k, hk⟩ := hplan
        rw [hne]
        rcases k with _ | ⟨_, _ | ⟨_, _ | ⟨_, k⟩⟩⟩ <;> simp [releaseWrites] at hk
        · obtain ⟨rfl, rfl⟩ := hk; simp [microStep, hr.1]
        · obtain ⟨_, rfl, rfl⟩ := hk; simp [microStep, hr.1]
        · obtain ⟨_, _, rfl, rfl⟩ := hk; simp [microStep, hr.1]
      noInterrupts := by rw [microStep_regs, (regs_interrupts _ _).1, (regs_interrupts _ _).2]; exact h.noInterrupts
      wholePeriods := by simpa using h.wholePeriods }

/-- One statement keeps the invariant. -/
theorem Inv.microStep {s : State} (h : Inv s) {m : Micro} {rest : List Micro} (hm : s.ctrl.micro = m :: rest) :
    Inv (microStep m rest s) := by
  rcases microStep_micro m rest s with hne | he
  · exact h.taken hm hne
  · rw [he]; exact h

/-- `xfer_start` is fenced (rules R73 and R121). -/
theorem plan_xferStart {pc : Pc} (ch : Channel) (a : Word) (n : Nat) {l : List Micro}
    (hx : ∀ m : Micro, m.ofXfer ch = true → pc.mayPerform m = true) (h : Plan pc l) :
    Plan pc (xferStart ch a n ++ l) where
  may m hm := by
    rcases List.mem_append.1 hm with hm | hm
    · apply hx
      simp [xferStart] at hm
      rcases hm with rfl | rfl | rfl | rfl | rfl | rfl | rfl <;> simp [Micro.ofXfer]
    · exact h.may m hm
  fenced := by simpa [xferStart, tasksFenced] using h.fenced
  pulls := by simpa [xferStart, pullsPaired] using h.pulls

/-- A statement that is neither a task nor half a pull may stand before any plan. -/
theorem plan_cons {pc : Pc} {m : Micro} {l : List Micro} (h : Plan pc l) (hk : pc.mayPerform m = true)
    (ht : ∀ ch, m ≠ .task ch) (hp : m ≠ .raisePull) : Plan pc (m :: l) where
  may c hc := (List.mem_cons.1 hc).elim (fun e => e ▸ hk) (h.may c)
  fenced := by
    have hf := h.fenced
    have ha := fun e => tasksFenced_mono (e := e) hf
    cases m <;> simp_all [tasksFenced]
  pulls := by have hf := h.pulls; cases m <;> simp_all [pullsPaired]

/-- `pull` is a plan of each state that pulls. -/
theorem plan_pull {pc : Pc} (h : ∀ m : Micro, m.ofPull = true → pc.mayPerform m = true) : Plan pc pull where
  may m hm := by simp [pull] at hm; rcases hm with rfl | rfl <;> exact h _ rfl
  fenced := rfl
  pulls := rfl

/-- `refill` is a plan (rule R176). -/
theorem plan_refill {pc : Pc} (p : Params) (ch : Channel) (v : Fill) {l : List Micro}
    (hr : ∀ m : Micro, m.ofRefill = true → pc.mayPerform m = true) (h : Plan pc l) : Plan pc (refill p ch v ++ l) := by
  have hf : Plan pc (.fence :: l) := plan_cons h (hr _ rfl) (by simp) (by simp)
  unfold refill
  rw [List.append_assoc, List.append_assoc]
  refine Plan.writes (fun m hm => hr m (by simp [Micro.ofRefill, hm])) ?_
  split
  · exact plan_cons hf (hr _ rfl) (by simp) (by simp)
  · exact hf

/-- Every decision keeps the invariant. -/
theorem decision_inv {s : State} (h : Inv s) (hm : s.ctrl.micro = []) : Inv (decision s) := by
  have fin : ∀ c, Inv (s.endCommand c) := fun c => h.ended hm rfl rfl rfl
  have ref : Inv s.endRefused := h.ended hm rfl rfl rfl
  unfold decision
  split <;> rename_i hp
  · exact h
  iterate 4 exact fin _
  · unfold releaseDrain
    split
    · rename_i hs
      exact
        { memory := h.memory
          idle := fun hc => by simp at hc
          plan := by simp [planOk]
          fenced := by simp; rfl
          pulls := by simp; rfl
          pullReq := fun hq => by have := h.pullReq hq; rw [hm] at this; simp at this
          playing := h.playing
          settings := fun _ hc => by simp at hc
          configuring := fun hc => by simp at hc
          releasing := fun _ => by simp [hs, releaseWrites]
          noInterrupts := h.noInterrupts
          wholePeriods := h.wholePeriods }
    · exact h
  · unfold encodeCheck; dsimp only; split
    · exact fin _
    · split
      · exact fin _
      · split
        · exact ref
        · refine h.goto hm (by rw [hp]; simp) (by simp) (by simp) (by simp) ?_
          unfold encodeWrites
          exact Plan.writes (by intro m h; simp [Pc.mayPerform, h]) (Plan.of_decide (by decide))
  · unfold requiredLengthBody; dsimp only; split
    · exact ref
    · exact h.ended hm rfl rfl rfl
  · unfold seqStartCheck; dsimp only; split
    · exact fin _
    · split
      · exact ref
      · refine h.goto hm (by rw [hp]; simp) (by simp) (by simp) (by simp) ?_
        simpa using plan_xferStart _ _ _ (by intro m h; simp [Pc.mayPerform, h]) Plan.nil
  · exact h.ended hm rfl rfl rfl
  · unfold seqWaitPoll; split
    · exact fin _
    · exact h
  · unfold sendBufCheck; dsimp only; split
    · exact fin _
    · split
      · exact fin _
      · split
        · exact fin _
        · split
          · exact ref
          · have h2 := h.registers { s.ctrl with wptr := s.ctrl.ops.addr, nLeft := s.ctrl.ops.n.toNat } rfl rfl
            exact h2.goto (pc := .sbLoop) hm (by show s.ctrl.pc ≠ _; rw [hp]; simp) (by simp) (by simp) (by simp)
              Plan.nil
  · unfold sendBufLoop; split
    · exact h.goto hm (by rw [hp]; simp) (by simp) (by simp) (by simp) (plan_pull (by intro m h; simp [Pc.mayPerform, h]))
    · refine h.goto hm (by rw [hp]; simp) (by simp) (by simp) (by simp) ?_
      simpa [fillIdle] using Plan.writes (pc := .sbTail) (a := s.ctrl.wptr.toNat) (vs := idleFrame idleTail)
        (by intro m h; simp [Pc.mayPerform, h]) Plan.nil
  · unfold sendBufItem; split
    · exact fin _
    · refine h.goto hm (by rw [hp]; simp) (by simp) (by simp) (by simp) ?_
      exact Plan.writes (by intro m h; simp [Pc.mayPerform, h]) (Plan.of_decide (by decide))
  · refine h.goto hm (by rw [hp]; simp) (by simp) (by simp) (by simp) ?_
    simpa using plan_xferStart _ _ _ (by intro m h; simp [Pc.mayPerform, h]) Plan.nil
  · exact h.goto hm (by rw [hp]; simp) (by simp) (by simp) (by simp) Plan.nil
  · unfold sendBufWait; split
    · exact fin _
    · exact h
  · unfold writeSingleFirst; split
    · exact fin _
    · dsimp only
      split
      · exact h.ended hm rfl rfl rfl
      · have h2 := h.registers { s.ctrl with ended := false } rfl rfl
        refine h2.goto hm (by show s.ctrl.pc ≠ _; rw [hp]; simp) (by simp) (by simp) (by simp) ?_
        rw [List.append_assoc]
        exact Plan.writes (by intro m h; simp [Pc.mayPerform, h]) (plan_xferStart _ _ _ (by intro m h; simp [Pc.mayPerform, h]) (Plan.of_decide (by decide)))
  · exact h.goto hm (by rw [hp]; simp) (by simp) (by simp) (by simp) (plan_pull (by intro m h; simp [Pc.mayPerform, h]))
  · unfold writeSingleNext; dsimp only; split
    · have h2 := h.registers { s.ctrl with ended := true, idleSends := 0 } rfl rfl
      refine h2.goto hm (by show s.ctrl.pc ≠ _; rw [hp]; simp) (by simp) (by simp) (by simp) ?_
      exact Plan.writes (by intro m h; simp [Pc.mayPerform, h]) (Plan.of_decide (by decide))
    · refine h.goto hm (by rw [hp]; simp) (by simp) (by simp) (by simp) ?_
      simp only [List.append_assoc]
      refine Plan.writes (by intro m h; simp [Pc.mayPerform, h]) (plan_cons (plan_xferStart _ _ _ (by intro m h; simp [Pc.mayPerform, h]) ?_) rfl (by simp) (by simp))
      exact plan_cons (plan_pull (by intro m h; simp [Pc.mayPerform, h])) rfl (by simp) (by simp)
  · unfold writeSingleTail; split
    · refine h.goto hm (by rw [hp]; simp) (by simp) (by simp) (by simp) ?_
      exact plan_xferStart _ _ _ (by intro m h; simp [Pc.mayPerform, h]) (Plan.of_decide (by decide))
    · exact fin _
  · unfold writeLoopFirst; split
    · exact fin _
    · exact h.goto hm (by rw [hp]; simp) (by simp) (by simp) (by simp) (plan_refill _ _ _ (by intro m h; simp [Pc.mayPerform, h]) (plan_pull (by intro m h; simp [Pc.mayPerform, h])))
  · have key : ∀ t : State, Inv t → t.ctrl.micro = [] → t.ctrl.pc ≠ .cfOff → ∀ v, Inv (writeLoopPrime t v) := by
      intro t ht htm htp v
      unfold writeLoopPrime
      refine ht.goto htm htp (by simp) (by simp) (by simp) ?_
      simp only [List.append_assoc]
      refine plan_refill _ _ _ (by intro m h; simp [Pc.mayPerform, h]) ?_
      exact Plan.of_decide rfl
    unfold writeLoopSecond; split
    · exact key _ (h.registers { s.ctrl with ended := true } rfl rfl) hm (by show s.ctrl.pc ≠ _; rw [hp]; simp) _
    · exact key _ h hm (by rw [hp]; simp) _
  · exact h.goto hm (by rw [hp]; simp) (by simp) (by simp) (by simp) Plan.nil
  · unfold writeLoopStep; split <;> split
    · exact h.goto hm (by rw [hp]; simp) (by simp) (by simp) (by simp) Plan.nil
    · exact h
    · exact h.goto hm (by rw [hp]; simp) (by simp) (by simp) (by simp) (Plan.of_decide (by decide))
    · exact h
  · unfold writeLoopTest; split
    · exact h.goto hm (by rw [hp]; simp) (by simp) (by simp) (by simp) Plan.nil
    · exact h.goto hm (by rw [hp]; simp) (by simp) (by simp) (by simp) (plan_pull (by intro m h; simp [Pc.mayPerform, h]))
  · have key : ∀ t : State, Inv t → t.ctrl.micro = [] → t.ctrl.pc ≠ .cfOff → ∀ v, Inv (writeLoopRefill t v) := by
      intro t ht htm htp v
      unfold writeLoopRefill
      refine ht.goto htm htp (by simp) (by simp) (by simp) ?_
      exact plan_refill _ _ _ (by intro m h; simp [Pc.mayPerform, h]) (plan_cons Plan.nil rfl (by simp) (by simp))
    unfold writeLoopItem; split
    · exact key _ (h.registers { s.ctrl with ended := true } rfl rfl) hm (by show s.ctrl.pc ≠ _; rw [hp]; simp) _
    · split
      · exact fin _
      · exact key _ h hm (by rw [hp]; simp) _
  · unfold writeLoopFinal; split
    · exact fin _
    · exact h

/-- A step of a running command keeps the invariant. -/
theorem advance_inv {s : State} (h : Inv s) : Inv (advance s) := by
  unfold advance
  split
  · rename_i hm; exact h.microStep hm
  · rename_i hm; exact decision_inv h hm

end Sys2Proof.Machine
end

