-- ==== Sys2Proof/Laws/PerInstr.lean ====
section
/-! SUPPORT. Statements made of every instruction, one lemma for each constructor: the bytes an instruction is laid out in
hold its word (rules R64 and R85). -/

namespace Sys2Proof.Laws.Layout

open Sys2Proof

/-- The bytes of the instruction are as many as its format has, and their little-endian value is its word. -/
def Statement (i : Instr) : Prop :=
  (encodeBytes i).length = i.format.bytes ∧ leValue (encodeBytes i) = (encode i).toNat

/-- Laying out the low `n` bytes and reading them back gives the value, where it fits. -/
theorem leValue_leBytes (n v : Nat) (h : v < 256 ^ n) : (leBytes n v).length = n ∧ leValue (leBytes n v) = v := by
  induction n generalizing v with
  | zero =>
    have : v = 0 := by simpa using h
    simp [leBytes, leValue, this]
  | succ n ih =>
    have hv : v / 256 < 256 ^ n := by
      rw [Nat.div_lt_iff_lt_mul (by decide)]
      simpa [Nat.pow_succ] using h
    obtain ⟨hl, hr⟩ := ih (v / 256) hv
    refine ⟨by simp [leBytes, hl], ?_⟩
    simp only [leBytes, leValue, hr, BitVec.toNat_ofNat]
    omega

/-- A 32-bit word fits its four bytes. -/
theorem statement_of_four {i : Instr} (h : i.format.bytes = 4) : Statement i := by
  unfold Statement encodeBytes
  rw [h]
  exact leValue_leBytes 4 _ (encode i).isLt

theorem configure : Statement .configure := statement_of_four rfl
theorem release : Statement .release := statement_of_four rfl
theorem encodePixel : Statement .encodePixel := statement_of_four rfl
theorem requiredLength : Statement .requiredLength := statement_of_four rfl
theorem seqStart (ch : Channel) : Statement (.seqStart ch) := statement_of_four rfl
theorem seqIsDone (ch : Channel) : Statement (.seqIsDone ch) := statement_of_four rfl
theorem seqWait (ch : Channel) : Statement (.seqWait ch) := statement_of_four rfl
theorem sendBuf : Statement .sendBuf := statement_of_four rfl
theorem writeSingle : Statement .writeSingle := statement_of_four rfl
theorem writeLoop : Statement .writeLoop := statement_of_four rfl
theorem symOne : Statement .symOne := leValue_leBytes 2 _ (by decide)
theorem symZero : Statement .symZero := leValue_leBytes 2 _ (by decide)
theorem symIdle : Statement .symIdle := leValue_leBytes 2 _ (by decide)
theorem color (ign : BitVec 7) (r g b : Byte) : Statement (.color ign r g b) := statement_of_four rfl
theorem endItem (ign : BitVec 31) : Statement (.endItem ign) := statement_of_four rfl

end Sys2Proof.Laws.Layout
end

