-- ==== Sys2Proof/Laws/Runs.lean ====
section
/-! SUPPORT. Runs by turns: runs joined end to end, ENG's turn as one emit step, the buffered writing of samples by CTRL's
turns, and the emptying of a write buffer by memory steps. -/

namespace Sys2Proof.Machine

/-! ### Runs joined -/

theorem runTurns_cons_next {t : Turn} {ts : List Turn} {s u : State} (h : runTurn t s = .next u) :
    runTurns (t :: ts) s = runTurns ts u := by
  simp [runTurns, h]

theorem runTurns_append {a b : List Turn} {s u : State} (h : runTurns a s = .next u) :
    runTurns (a ++ b) s = runTurns b u := by
  induction a generalizing s with
  | nil => simp [runTurns] at h; rw [← h]; rfl
  | cons t a ih =>
    simp only [runTurns, List.cons_append] at h ⊢
    split at h <;> simp_all

theorem runAgent_add {t : Turn} {n m : Nat} {s u : State} (h : runAgent t n s = .next u) :
    runAgent t (n + m) s = runAgent t m u := by
  unfold runAgent at h ⊢
  rw [← List.replicate_append_replicate, runTurns_append h]

theorem Reaches.refl (s : State) : Reaches s s := ⟨[], rfl⟩

theorem Reaches.turn {s t : State} (w : Turn) (h : runTurn w s = .next t) : Reaches s t :=
  ⟨[w], by rw [runTurns_cons_next h]; rfl⟩

theorem Reaches.trans {s t u : State} (h : Reaches s t) (k : Reaches t u) : Reaches s u := by
  obtain ⟨a, ha⟩ := h
  obtain ⟨b, hb⟩ := k
  exact ⟨a ++ b, by rw [runTurns_append ha, hb]⟩

theorem Reaches.agent {s t : State} {w : Turn} {n : Nat} (h : runAgent w n s = .next t) : Reaches s t := ⟨_, h⟩

/-! ### CTRL's turn -/

/-- CTRL's turn in a running command performs the next statement, or the state's decision. -/
theorem ctrlTurn_running {s : State} (h : s.ctrl.pc ≠ .idle) : ctrlTurn s = .next (advance s) := by
  unfold ctrlTurn
  cases hp : s.ctrl.pc.instr with
  | none => cases hq : s.ctrl.pc <;> simp_all [Pc.instr]
  | some i => exact exec_running i s hp

/-! ### ENG's turn -/

/-- A word that is a row of the table is played as its instruction plays it, any other as data: the same emit step. -/
theorem play_decoded (s : State) (w : Sample) :
    (match decodeSample w with
      | .instr i => exec i s
      | .reject _ => .next (s.emitWord w)) = (.next (s.emitWord w) : Host.Outcome State Fault Refusal) := by
  unfold decodeSample
  by_cases h1 : w = 0x800D
  · simp [h1, exec, execSymOne, symOneWord]
  · by_cases h2 : w = 0x8005
    · simp [h2, exec, execSymZero, symZeroWord]
    · by_cases h3 : w = 0x8000
      · simp [h3, exec, execSymIdle, symIdleWord]
      · rw [if_neg h1, if_neg h2, if_neg h3]

theorem engTurn_playing {s : State} {ch : Channel} {idx ll lcnt : Nat} {lptr : Word}
    (h : s.eng.play = .playing ch idx ll lptr lcnt) :
    engTurn s = .next ((s.countDraws 2).emitWord (s.dmaSample (lptr.toNat + 2 * idx))) := by
  unfold engTurn
  rw [h]
  simp only [Play.sampleAddr]
  exact play_decoded _ _

/-- ENG reads the sample memory holds, outside a race (rules R64 and R74). -/
theorem dmaSample_of_sample {s : State} (hr : s.eng.raced = false) {a : Nat} {v : Sample}
    (h : Memory.sample s.mem a = some v) : s.dmaSample a = v := by
  unfold Memory.sample at h
  cases h1 : Memory.read s.mem a <;> cases h2 : Memory.read s.mem (a + 1) <;> simp [h1, h2] at h
  simp [State.dmaSample, State.dmaByte, hr, h1, h2, h]

/-! ### Buffered writes -/

/-- The entries of consecutive sample writes. -/
def sampleEntries : Nat → List Sample → List Entry
  | _, [] => []
  | a, v :: l => sampleCells a v :: sampleEntries (a + 2) l

theorem sampleEntries_length (a : Nat) (l : List Sample) : (sampleEntries a l).length = l.length := by
  induction l generalizing a with
  | nil => rfl
  | cons v l ih => simp [sampleEntries, ih]

/-- `l.length` turns of CTRL buffer the samples it has to write and change nothing else. -/
theorem ctrl_writeSamples (l : List Sample) (a : Nat) (rest : List Micro) (s : State) (hp : s.ctrl.pc ≠ .idle)
    (hm : s.ctrl.micro = writeSamples a l ++ rest) :
    runAgent .ctrl l.length s = .next
      { s with ctrl := { s.ctrl with micro := rest }, wb := { s.wb with ctrl := s.wb.ctrl ++ sampleEntries a l } } := by
  induction l generalizing a s with
  | nil =>
    have hr : s.ctrl.micro = rest := hm
    simp [runAgent, runTurns, sampleEntries, ← hr]
  | cons v l ih =>
    have h1 : runTurn .ctrl s = .next _ := ctrlTurn_running hp
    unfold runAgent
    rw [List.length_cons, List.replicate_succ, runTurns_cons_next h1]
    have ha : advance s = (s.setMicro (writeSamples (a + 2) l ++ rest)).enqueue .ctrl (sampleCells a v) := by
      simp [advance, hm, writeSamples, microStep]
    rw [ha]
    have := ih (a + 2) ((s.setMicro (writeSamples (a + 2) l ++ rest)).enqueue .ctrl (sampleCells a v)) hp rfl
    unfold runAgent at this
    rw [this]
    simp [State.enqueue, State.setMicro, WriteBuffers.set, WriteBuffers.of, sampleEntries]

/-- Memory steps empty CTRL's buffer into memory, oldest entry first; with no playing sequence in their way they change
nothing else. -/
theorem drain_all (es : List Entry) (s : State) (hb : s.wb.ctrl = es) (hc : ∀ e ∈ es, s.eng.play.covers e = false) :
    runAgent (.drain .ctrl) es.length s = .next
      { s with wb := { s.wb with ctrl := [] }, mem := es.foldl Memory.store s.mem } := by
  induction es generalizing s with
  | nil =>
    have hw : s.wb = { s.wb with ctrl := [] } := by rw [← hb]
    simp only [runAgent, List.length_nil, List.replicate_zero, runTurns, List.foldl_nil, ← hw]
  | cons e es ih =>
    have h1 : runTurn (.drain .ctrl) s = .next (s.drain .ctrl) := rfl
    unfold runAgent
    rw [List.length_cons, List.replicate_succ, runTurns_cons_next h1]
    have hd : s.drain .ctrl = { s with wb := { s.wb with ctrl := es }, mem := Memory.store s.mem e } := by
      simp [State.drain, WriteBuffers.of, hb, hc e (by simp), State.markRace, WriteBuffers.set]
    rw [hd]
    have := ih { s with wb := { s.wb with ctrl := es }, mem := Memory.store s.mem e } rfl
      (fun e' he => hc e' (by simp [he]))
    unfold runAgent at this
    rw [this]
    simp

/-- A sample stored outside the stored bytes leaves a held sample alone. -/
theorem sample_store_other (m : Memory) (a x : Nat) (v : Sample) (h : x + 1 < a ∨ a + 1 < x) :
    Memory.sample (Memory.store m (sampleCells a v)) x = Memory.sample m x := by
  unfold Memory.sample
  rw [read_store_sample_other m a x v (by omega), read_store_sample_other m a (x + 1) v (by omega)]

theorem read_storeEntries_other (l : List Sample) (a x : Nat) (m : Memory) (h : x < a ∨ a + 2 * l.length ≤ x) :
    Memory.read ((sampleEntries a l).foldl Memory.store m) x = Memory.read m x := by
  induction l generalizing a m with
  | nil => rfl
  | cons v l ih =>
    simp only [List.length_cons] at h
    rw [sampleEntries, List.foldl_cons, ih (a + 2) _ (by omega), read_store_sample_other m a x v (by omega)]

/-- The samples stored are the samples memory holds (rule R64). -/
theorem holds_storeEntries (l : List Sample) (a : Nat) (m : Memory) :
    Memory.holds ((sampleEntries a l).foldl Memory.store m) a l := by
  induction l generalizing a m with
  | nil => intro i v h; simp at h
  | cons w l ih =>
    intro i v h
    rw [sampleEntries, List.foldl_cons]
    cases i with
    | zero =>
      simp only [List.getElem?_cons_zero, Option.some.injEq] at h
      subst h
      unfold Memory.sample
      rw [read_storeEntries_other l _ _ _ (by omega), read_storeEntries_other l _ _ _ (by omega)]
      simp
    | succ i =>
      have := ih (a + 2) (Memory.store m (sampleCells a w)) i v (by simpa using h)
      rwa [show a + 2 * (i + 1) = a + 2 + 2 * i by omega]

end Sys2Proof.Machine
end

