-- ==== Sys2Proof/Laws/Window.lean ====
section
/-! SUPPORT. The window invariant through CTRL's statements, CTRL's decisions and the memory steps: every byte written lies
in the RAM window (rules R60, R62 and R66). -/

namespace Sys2Proof.Machine

/-- The two bytes of a sample written inside the window. -/
theorem inRam_sample {p : Params} {a : Nat} {v : Sample} (h : inRam p a 2 = true) : Entry.inRam p (sampleCells a v) := by
  intro c hc
  simp [inRam] at *
  rcases mem_sampleCells hc with h1 | h1 <;> omega

/-- The addresses a list of samples is written to. -/
theorem mem_writeSamples {a a' : Nat} {v : Sample} {vs : List Sample} (h : Micro.memWrite a' v ∈ writeSamples a vs) :
    ∃ i, i < vs.length ∧ a' = a + 2 * i := by
  induction vs generalizing a with
  | nil => simp [writeSamples] at h
  | cons w vs ih =>
    rcases List.mem_cons.1 h with h | h
    · cases h; exact ⟨0, by simp, rfl⟩
    · obtain ⟨i, hi, rfl⟩ := ih h; exact ⟨i+1, by simpa using hi, by omega⟩

/-- Writing samples moves no pointer. -/
theorem nextFrame_writes {a : Nat} {vs : List Sample} : Micro.nextFrame ∉ writeSamples a vs := by
  induction vs generalizing a with
  | nil => simp [writeSamples]
  | cons w vs ih => simp [writeSamples, ih]

/-- A pixel frame has 24 samples (rule R113). -/
theorem frame_length (c : Colour) : (frame c).length = 24 := by simp [frame, byteSamples]

/-- Storing an entry inside the window keeps memory inside it. -/
theorem store_inRam {p : Params} {m : Memory} {e : Entry} (hm : Entry.inRam p m) (he : Entry.inRam p e) : Entry.inRam p (Memory.store m e) :=
  fun c hc => (Memory.mem_store m e c hc).elim (he c) (hm c)

/-- The invariant depends on the parameters, memory, the buffers and CTRL's pointer and statements only. -/
theorem WindowInv.congr {s t : State} (h : WindowInv s) (hp : t.params = s.params) (hm : t.mem = s.mem) (hw : t.wb = s.wb)
   (hmi : ∀ m ∈ t.ctrl.micro, m ∈ s.ctrl.micro) (hc : t.ctrl.micro.count .nextFrame ≤ s.ctrl.micro.count .nextFrame) (hpc : t.ctrl.pc = s.ctrl.pc) (hx : t.ctrl.wptr = s.ctrl.wptr)
   (hn : t.ctrl.nLeft = s.ctrl.nLeft) : WindowInv t where
  mem := by rw [hp, hm]; exact h.mem
  host := by rw [hp, hw]; exact h.host
  ctrl := by rw [hp, hw]; exact h.ctrl
  plan a v hav := by rw [hp]; exact h.plan a v (hmi _ hav)
  scratch hh := by
    rw [hpc] at hh; rw [hp, hx, hn]; have := h.scratch hh; omega
  pulling hh := by rw [hpc] at hh; rw [hn]; have := h.pulling hh; exact ⟨this.1, fun hc => this.2 (hmi _ hc)⟩

/-- A memory step keeps the invariant. -/
theorem WindowInv.drain {s : State} (h : WindowInv s) (w : Writer) : WindowInv (s.drain w) := by
  unfold State.drain
  cases w with
  | host =>
    cases hw : s.wb.of .host with
    | nil => exact h
    | cons e rest =>
      simp at hw
      exact { mem := store_inRam h.mem (h.host e (by rw [hw]; simp)), host := fun e' he => h.host e' (by rw [hw]; exact List.mem_cons_of_mem _ he), ctrl := h.ctrl, plan := h.plan, scratch := h.scratch, pulling := h.pulling }
  | ctrl =>
    cases hw : s.wb.of .ctrl with
    | nil => exact h
    | cons e rest =>
      simp at hw
      exact { mem := store_inRam h.mem (h.ctrl e (by rw [hw]; simp)), ctrl := fun e' he => h.ctrl e' (by rw [hw]; exact List.mem_cons_of_mem _ he), host := h.host, plan := h.plan, scratch := h.scratch, pulling := h.pulling }

/-- A statement of CTRL keeps the invariant. -/
theorem WindowInv.microStep {s : State} (hwf : s.params.wf = true) (h : WindowInv s) {m : Micro} {rest : List Micro} (hm : s.ctrl.micro = m :: rest) :
    WindowInv (microStep m rest s) := by
  rcases microStep_micro m rest s with hne | he
  swap
  · rw [he]; exact h
  have hplan := h.plan
  rw [hm] at hplan
  have hend : s.params.ramEnd ≤ 2^32 := by simp [Params.wf] at hwf; omega
  refine { mem := by simpa using h.mem, host := ?_, ctrl := ?_, plan := ?_, scratch := ?_, pulling := ?_ }
  · rw [microStep_wb, microStep_params]; cases m <;> simpa using h.host
  · rw [microStep_wb, microStep_params]
    cases m <;> try simpa using h.ctrl
    rename_i a v
    intro e he
    simp at he
    rcases he with he | rfl
    · exact h.ctrl e he
    · exact inRam_sample (hplan a v (by simp))
  · intro a v hav; rw [hne] at hav; rw [microStep_params]; exact hplan a v (List.mem_cons_of_mem _ hav)
  · intro hpc
    rw [microStep_pc] at hpc
    rw [hne, microStep_params]
    have hs := h.scratch hpc
    rw [hm] at hs
    by_cases hnf : m = .nextFrame
    · subst hnf
      simp at hs
      have : s.ctrl.wptr.toNat + 48 < 2^32 := by omega
      simp [Machine.microStep]
      rw [Nat.mod_eq_of_lt (by omega)]
      omega
    · rw [List.count_cons_of_ne hnf] at hs
      have : (Machine.microStep m rest s).ctrl.wptr = s.ctrl.wptr ∧ (Machine.microStep m rest s).ctrl.nLeft = s.ctrl.nLeft := by
        cases m <;> first | exact absurd rfl hnf | (simp [Machine.microStep]; done) | (simp [Machine.microStep]; split <;> simp)
      rw [this.1, this.2]; exact hs
  · intro hpc
    rw [microStep_pc] at hpc
    have hs := h.pulling hpc
    rw [hm] at hs
    have hnf : m ≠ .nextFrame := fun e => hs.2 (by simp [e])
    have : (Machine.microStep m rest s).ctrl.nLeft = s.ctrl.nLeft := by
        cases m <;> first | exact absurd rfl hnf | (simp [Machine.microStep]; done) | (simp [Machine.microStep]; split <;> simp)
    rw [this, hne]; exact ⟨hs.1, fun hh => hs.2 (List.mem_cons_of_mem _ hh)⟩

/-- A decision that leaves SEND_BUF's fill keeps it, where the statements it sets write inside the window. -/
theorem WindowInv.of {s t : State} (h : WindowInv s) (ho : OnlyControl s t) (hpl : ∀ a v, Micro.memWrite a v ∈ t.ctrl.micro → inRam s.params a 2 = true)
   (h1 : t.ctrl.pc ≠ .sbLoop) (h2 : t.ctrl.pc ≠ .sbFill) : WindowInv t := by
  obtain ⟨hp, _, _, hm, hw, _⟩ := ho.frame
  exact { mem := by rw [hp, hm]; exact h.mem, host := by rw [hp, hw]; exact h.host, ctrl := by rw [hp, hw]; exact h.ctrl, plan := by rw [hp]; exact hpl, scratch := fun hh => (hh.elim h1 h2).elim, pulling := fun hh => (h2 hh).elim }

/-- Samples written inside the window. -/
theorem inRam_writes {p : Params} {a n : Nat} (h : p.ramBase.toNat ≤ a) (h2 : a + 2 * n ≤ p.ramEnd) {vs : List Sample} (hl : vs.length ≤ n) {a' : Nat} {v : Sample}
   (hm : Micro.memWrite a' v ∈ writeSamples a vs) : inRam p a' 2 = true := by
  obtain ⟨i, hi, rfl⟩ := mem_writeSamples hm
  simp [inRam]; omega

/-- The internal buffers lie inside the window (rule R66). -/
theorem buf_ok {p : Params} (h : p.wf = true) (ch : Channel) : p.ramBase.toNat ≤ (p.buf ch).toNat ∧ (p.buf ch).toNat + 48 ≤ p.ramEnd := by
  simp only [Params.wf, Params.bufOk, Bool.and_eq_true, decide_eq_true_eq] at h
  have hf : frameLen = 24 := rfl
  rw [hf] at h
  cases ch <;> simp only [Params.buf] <;> omega

/-- Every decision keeps the invariant. -/
theorem decision_window {s : State} (hwf : s.params.wf = true) (h : WindowInv s) (_hm : s.ctrl.micro = []) : WindowInv (decision s) := by
  have hb := buf_ok hwf
  have ho := onlyControl_decision s
  have fin : ∀ c, WindowInv (s.endCommand c) := fun c => h.of rfl (by simp) (by simp) (by simp)
  have ref : WindowInv s.endRefused := h.of rfl (by simp) (by simp) (by simp)
  clear ho
  unfold decision
  split <;> rename_i hp
  · exact h
  iterate 4 exact fin _
  · unfold releaseDrain; split
    · exact h.of rfl (by simp [releaseWrites]) (by simp) (by simp)
    · exact h
  · unfold encodeCheck; dsimp only; split
    · exact fin _
    · split
      · exact fin _
      · split
        · exact ref
        · rename_i h1 h2
          refine h.of rfl ?_ (by simp) (by simp)
          intro a v hav
          simp [encodeWrites] at hav
          simp [inWindow] at h1; have hf : frameLen = 24 := rfl; rw [hf] at h1
          exact inRam_writes (n := 24) (by omega) (by omega) (by rw [frame_length]) hav
  · unfold requiredLengthBody; dsimp only; split
    · exact ref
    · exact h.of rfl (by simp) (by simp) (by simp)
  · unfold seqStartCheck; dsimp only; split
    · exact fin _
    · split
      · exact ref
      · exact h.of rfl (by simp [xferStart]) (by simp) (by simp)
  · exact h.of rfl (by simp [seqIsDoneBody]) (by simp [seqIsDoneBody]) (by simp [seqIsDoneBody])
  · unfold seqWaitPoll; split
    · exact fin _
    · exact h
  · unfold sendBufCheck; dsimp only; split
    · exact fin _
    · split
      · exact fin _
      · split
        · exact fin _
        · split
          · exact ref
          · rename_i hpre _
            refine { mem := h.mem, host := h.host, ctrl := h.ctrl, plan := by simp, scratch := fun _ => ?_, pulling := by simp }
            unfold preflight at hpre
            split at hpre
            · cases hpre
            · split at hpre
              · cases hpre
              · split at hpre
                · cases hpre
                · rename_i hw; simp [inWindow] at hw; have hf : ∀ n, requiredLength n = 24 * n + 40 := fun _ => rfl; rw [hf] at hw
                  simp; omega
  · have hs := h.scratch (.inl hp)
    unfold sendBufLoop; split
    · rename_i h0
      exact { mem := h.mem, host := h.host, ctrl := h.ctrl, plan := by simp [pull], scratch := fun _ => ⟨hs.1, hs.2.1, by simp [pull]⟩, pulling := fun _ => ⟨h0, by simp [pull]⟩ }
    · refine h.of rfl ?_ (by simp) (by simp)
      intro a v hav
      simp at hav
      exact inRam_writes (n := 40) hs.1 (by omega) (by simp [idleFrame, idleTail]) hav
  · have hs := h.scratch (.inr hp)
    have hq := h.pulling hp
    unfold sendBufItem; split
    · exact fin _
    · rename_i c _
      refine { mem := h.mem, host := h.host, ctrl := h.ctrl, plan := ?_, scratch := fun _ => ⟨hs.1, hs.2.1, ?_⟩, pulling := by simp }
      · intro a v hav
        simp at hav
        exact inRam_writes (n := 24) hs.1 (by simp; omega) (by rw [frame_length]) hav
      · simp [List.count_eq_zero_of_not_mem nextFrame_writes]; omega
  · unfold sendBufStart; exact h.of rfl (by simp [xferStart]) (by simp) (by simp)
  · exact h.of rfl (by simp) (by simp) (by simp)
  · unfold sendBufWait; split
    · exact fin _
    · exact h
  · unfold writeSingleFirst; split
    · exact fin _
    · dsimp only; split
      · exact h.of rfl (by simp) (by simp) (by simp)
      · refine h.of rfl ?_ (by simp) (by simp)
        intro a v hav
        simp [encodeInto, xferStart] at hav
        exact inRam_writes (n := 24) (hb .A).1 (by have := (hb .A).2; omega) (by rw [frame_length]) hav
  · exact h.of rfl (by simp [pull]) (by simp) (by simp)
  · unfold writeSingleNext; dsimp only; split
    · refine h.of rfl ?_ (by simp) (by simp)
      intro a v hav
      simp [fillIdle, idleFrame] at hav
      exact inRam_writes (n := 24) (hb _).1 (by have := (hb s.ctrl.role.other).2; omega) (by simp [halfTail]) hav
    · refine h.of rfl ?_ (by simp) (by simp)
      intro a v hav
      simp [encodeInto, xferStart, pull] at hav
      exact inRam_writes (n := 24) (hb _).1 (by have := (hb s.ctrl.role.other).2; omega) (by rw [frame_length]) hav
  · unfold writeSingleTail; split
    · exact h.of rfl (by simp [xferStart]) (by simp) (by simp)
    · exact fin _
  · unfold writeLoopFirst; split
    · exact fin _
    · refine h.of rfl ?_ (by simp) (by simp)
      intro a v hav
      simp [refill, Fill.samples, pull] at hav
      exact inRam_writes (n := 24) (hb _).1 (by have := (hb .A).2; omega) (by rw [frame_length]) hav
  · have hf : ∀ v : Fill, v.samples.length = 24 := by intro v; cases v <;> simp [Fill.samples, frame_length, idleFrame, frameLen]
    have : ∀ a x v, Micro.memWrite a x ∈ refill s.params .B v ++ loopSetup s.params ++ clearEvents ++ startA ++ [.setRole .A] → inRam s.params a 2 = true := by
      intro a x v hav
      have hav : Micro.memWrite a x ∈ writeSamples (s.params.buf .B).toNat v.samples := by
        revert hav; cases v <;> simp [refill, loopSetup, clearEvents, startA]
      exact inRam_writes (n := 24) (hb _).1 (by have := (hb .B).2; omega) (by rw [hf]) hav
    unfold writeLoopSecond; split <;> unfold writeLoopPrime
    · exact h.of rfl (fun a v => this a v _) (by simp) (by simp)
    · exact h.of rfl (fun a v => this a v _) (by simp) (by simp)
  · exact h.of rfl (by simp) (by simp) (by simp)
  · unfold writeLoopStep; split <;> split
    · exact h.of rfl (by simp) (by simp) (by simp)
    · exact h
    · exact h.of rfl (by simp [startA, clearEvents]) (by simp) (by simp)
    · exact h
  · unfold writeLoopTest; split
    · exact h.of rfl (by simp) (by simp) (by simp)
    · exact h.of rfl (by simp [pull]) (by simp) (by simp)
  · have hf : ∀ v : Fill, v.samples.length = 24 := by intro v; cases v <;> simp [Fill.samples, frame_length, idleFrame, frameLen]
    have : ∀ a x v, Micro.memWrite a x ∈ refill s.params s.ctrl.role v ++ [.setRole s.ctrl.role.other] → inRam s.params a 2 = true := by
      intro a x v hav
      have hav : Micro.memWrite a x ∈ writeSamples (s.params.buf s.ctrl.role).toNat v.samples := by
        revert hav; cases v <;> simp [refill]
      exact inRam_writes (n := 24) (hb _).1 (by have := (hb s.ctrl.role).2; omega) (by rw [hf]) hav
    unfold writeLoopItem; split <;> unfold writeLoopRefill
    · exact h.of rfl (fun a v => this a v _) (by simp) (by simp)
    · split
      · exact fin _
      · exact h.of rfl (fun a v => this a v _) (by simp) (by simp)
  · unfold writeLoopFinal; split
    · exact fin _
    · exact h
end Sys2Proof.Machine
end

