-- ==== Sys2Proof/Machine/RegisterMap.lean ====
section
/-! DEFINITION. ENG's registers as 32-bit words at their offsets from PWM_BASE (10_state.md sections 4 and 5; informative,
rule R32's preamble). HOST has no access path to them (rule R51), so this is a view of the state that no step takes. -/

namespace Sys2Proof.Machine

/-- A flag as a register word. -/
def flagWord (b : Bool) : Word := (BitVec.ofBool b).setWidth 32

/-- One register of `SEQ[n]` by its offset from 0x520 + 0x20·n (rules R38 to R41). -/
def SeqRegs.word (d : SeqRegs) (off : Nat) : Word :=
  if off = 0x0 then d.ptr
  else if off = 0x4 then d.cnt.setWidth 32
  else if off = 0x8 then d.refresh.setWidth 32
  else if off = 0xC then d.endDelay.setWidth 32
  else 0

/-- DECODER: LOAD in [1:0], MODE in bit 8 (rule R36). -/
def EngRegs.decoderWord (r : EngRegs) : Word := (0 : BitVec 23) ++ r.decMode ++ (0 : BitVec 6) ++ r.decLoad

/-- The word at an offset of the engine window: the registers of rules R32 to R43 with their reserved bits 0, the event
flags of rule R45; tasks have no storage (rule R44). -/
def State.engineWord (s : State) (off : Nat) : Word :=
  let r := s.eng.regs
  let ev := s.eng.events
  if off = 0x104 then flagWord ev.stopped
  else if off = 0x108 then flagWord ev.seqStartedA
  else if off = 0x10C then flagWord ev.seqStartedB
  else if off = 0x110 then flagWord ev.seqEndA
  else if off = 0x114 then flagWord ev.seqEndB
  else if off = 0x118 then flagWord ev.pwmPeriodEnd
  else if off = 0x11C then flagWord ev.loopsDone
  else if off = 0x200 then r.shorts
  else if off = 0x300 || off = 0x304 || off = 0x308 then r.inten
  else if off = 0x500 then r.enable.setWidth 32
  else if off = 0x504 then r.mode.setWidth 32
  else if off = 0x508 then r.countertop.setWidth 32
  else if off = 0x50C then r.prescaler.setWidth 32
  else if off = 0x510 then r.decoderWord
  else if off = 0x514 then r.loopCnt.setWidth 32
  else if 0x520 ≤ off && off < 0x530 then r.seqA.word (off - 0x520)
  else if 0x540 ≤ off && off < 0x550 then r.seqB.word (off - 0x540)
  else if off = 0x560 then r.psel0
  else if off = 0x564 then r.psel1
  else if off = 0x568 then r.psel2
  else if off = 0x56C then r.psel3
  else 0

end Sys2Proof.Machine
end

