-- ==== Sys2Proof/Tests/Slice0.lean ====
section
/-! SUPPORT. The model's own tests: words decoded from the spec's encodings, ill-formed terms the checks refuse, one-step
tests with results from 95_test_vectors.md, and for every statement with hypotheses a state that meets them. -/

namespace Sys2Proof.Tests

open Sys2Proof Sys2Proof.Machine

/-! ### Decoding: words written out bit by bit from rules R86, R87, R90, R91 and R93 -/

theorem test_decode_configure : decode .command 0b00000000000000000000000_0_00000001 = .instr .configure := by decide

theorem test_decode_release : decode .command 0b00000000000000000000000_0_00000010 = .instr .release := by decide

theorem test_decode_encodePixel : decode .command 0b00000000000000000000000_0_00010000 = .instr .encodePixel := by decide

theorem test_decode_requiredLength :
    decode .command 0b00000000000000000000000_0_00010001 = .instr .requiredLength := by decide

theorem test_decode_seqStart :
    decode .command 0b00000000000000000000000_0_00100000 = .instr (.seqStart .A) ∧
    decode .command 0b00000000000000000000000_1_00100000 = .instr (.seqStart .B) := by decide

theorem test_decode_seqIsDone :
    decode .command 0b00000000000000000000000_0_00100001 = .instr (.seqIsDone .A) ∧
    decode .command 0b00000000000000000000000_1_00100001 = .instr (.seqIsDone .B) := by decide

theorem test_decode_seqWait :
    decode .command 0b00000000000000000000000_0_00100010 = .instr (.seqWait .A) ∧
    decode .command 0b00000000000000000000000_1_00100010 = .instr (.seqWait .B) := by decide

theorem test_decode_sendBuf : decode .command 0b00000000000000000000000_0_00110000 = .instr .sendBuf := by decide

theorem test_decode_writeSingle : decode .command 0b00000000000000000000000_0_00110001 = .instr .writeSingle := by decide

theorem test_decode_writeLoop : decode .command 0b00000000000000000000000_0_00110010 = .instr .writeLoop := by decide

theorem test_decode_symOne : decodeBytes .sample [0b00001101, 0b10000000] = .instr .symOne := by decide

theorem test_decode_symZero : decodeBytes .sample [0b00000101, 0b10000000] = .instr .symZero := by decide

theorem test_decode_symIdle : decodeBytes .sample [0b00000000, 0b10000000] = .instr .symIdle := by decide

theorem test_decode_color :
    decode .colour 0b0_0000000_00010010_00110100_01010110 = .instr (.color 0 0x12 0x34 0x56) ∧
    decode .colour 0b0_1111111_11111111_00000000_00000000 = .instr (.color 0x7F 0xFF 0 0) := by decide

theorem test_decode_endItem : decode .colour 0b1_0000000000000000000000000000000 = .instr (.endItem 0) := by decide

/-- Rules R88 and R89; vectors K1, K3, K4 and K9: the reserved bits before the opcode, the opcode before CH. -/
theorem test_decode_rejects :
    decode .command 0x00000000 = .reject .unknownOpcode ∧ decode .command 0x00000110 = .reject .channelMisuse ∧
    decode .command 0x00000220 = .reject .reservedBits ∧ decode .command 0x00000301 = .reject .reservedBits ∧
    decode .command 0x00000140 = .reject .unknownOpcode ∧ decode .sample 0x0000000D = .reject .otherSample ∧
    decode .sample 0x00010000 = .reject .wrongWidth ∧ decodeBytes .command [0x01, 0x00] = .reject .wrongWidth := by
  decide

/-- The first byte is the least significant one (rule R64). -/
theorem test_encodeBytes_seqStart : encodeBytes (.seqStart .B) = [0x20, 0x01, 0x00, 0x00] := by decide

/-! ### Well-formedness: an ill-formed term for each check -/

theorem test_wellFormed_place :
    Instr.wellFormedAt .sample .configure = false ∧ Instr.wellFormedAt .command .symOne = false ∧
    Instr.wellFormedAt .command (.color 0 0 0 0) = false ∧ Instr.wellFormedAt .colour (.endItem 0) = true := by decide

theorem test_wellFormed_hostOp :
    HostOp.wellFormed (.w32 0x02 0) = false ∧ HostOp.wellFormed (.w32 0x1000 0) = false ∧
    HostOp.wellFormed (.r32 0x16 ) = false ∧ HostOp.wellFormed (.poll 0x1000 1 0) = false ∧
    HostOp.wellFormed (.mw16 0x20000001 0) = false ∧ HostOp.wellFormed (.mw32 0x20000002 0) = false ∧
    programWellFormed [.w32 0x04 13, .mw16 0x20000001 0] = false ∧
    programWellFormed [.w32 0x04 13, .mw8 0x20000001 0, .fence, .w32 0xFFC 0] = true := by decide

theorem test_wellFormed_params_buffers :
    Params.wf { Params.vectors with bufA := 0x2000FF01 } = false ∧
    Params.wf { Params.vectors with bufA := 0x2000FFD2 } = false ∧
    Params.wf { Params.vectors with bufB := 0x1FFFFFFE } = false ∧
    Params.wf { Params.vectors with bufB := 0x2000FF2E } = false ∧
    Params.wf { Params.vectors with bufB := 0x2000FF30 } = true := by decide

theorem test_wellFormed_params_windows :
    Params.wf { Params.vectors with ramBase := 0x1FFFFFFF } = false ∧
    Params.wf { Params.vectors with ramSize := 0xE0000001 } = false ∧
    Params.wf { Params.vectors with ifBase := 0x40100010 } = false ∧
    Params.wf { Params.vectors with ifBase := 0x2000F000 } = false ∧
    Params.wf { Params.vectors with ifBase := 0xFFFFF020 } = false ∧
    Params.wf { Params.vectors with pwmBase := 0x20000000 } = false ∧
    Params.wf { Params.vectors with pwmBase := 0x40100FFF } = false ∧
    Params.wf { Params.vectors with pwmBase := 0xFFFFF001 } = false := by decide

theorem test_wellFormed_params_numbers :
    Params.wf { Params.vectors with maxSeqLen := 0 } = false ∧
    Params.wf { Params.vectors with maxSeqLen := 32768 } = false ∧
    Params.wf { Params.vectors with numPwmInstances := 5 } = false ∧
    Params.wf { Params.vectors with tickHz := 0 } = false ∧ Params.wf Params.vectors = true := by decide

/-! ### Small states -/

/-- A configured block between commands, with ARG2 and ARG3. -/
def ready (arg2 arg3 : Word) : State :=
  { State.reset with
    drv := .configured
    iface := { State.reset.iface with arg2 := arg2, arg3 := arg3 } }

/-- CTRL in an FSM state with statements to perform. -/
def at_ (pc : Pc) (l : List Micro) : State := (ready 0 0).goto pc l

/-- ENG playing sample `idx` of `lcnt` samples at RAM_BASE. -/
def playing (ch : Channel) (idx lcnt : Nat) : State :=
  (ready 0 0).setPlay (.playing ch idx 0 0x20000000 lcnt)

/-- HOST with operations to do. -/
def hostWith (l : List HostOp) (s : State) : State := s.setHostOps l

/-- The next turn is planned. -/
def planned (l : List Turn) (s : State) : State := { s with sched := { s.sched with turns := l } }

/-- What an observation gives of the state an outcome answers. -/
def seen {α : Type} (f : State → α) : Host.Outcome State Fault Refusal → Option α
  | .next s => some (f s)
  | .fault _ => none
  | .refused _ => none

/-- The state an outcome answers is as a check says. -/
def holds (f : State → Bool) (o : Host.Outcome State Fault Refusal) : Bool := (seen f o).getD false

/-! ### One step of each instruction, with the results of 95_test_vectors.md -/

/-- Vector DR3: only ARG0[5:0] selects the pin. -/
theorem test_configure_pin :
    holds (fun s => s.ctrl.pc == .cfWrite && s.ctrl.micro.contains (.psel 0 0x2F))
      (exec .configure { State.reset with iface := { State.reset.iface with arg0 := 0xFFFFFFEF } }) = true := by decide

/-- Vectors K8 and DR2: STATUS = 0x602. -/
theorem test_configure_again : seen State.status (exec .configure (ready 0 0)) = some 0x602 := by decide

/-- Vector K7: STATUS = 0x500. -/
theorem test_release_unconfigured : seen State.status (exec .release State.reset) = some 0x500 := by decide

/-- Vector DR6: RELEASE waits while a sequence plays. -/
theorem test_release_waits :
    seen (fun s => s.ctrl.pc) (exec .release { playing .A 0 24 with ctrl := (at_ .cfDrain []).ctrl }) = some .cfDrain := by
  decide

/-- Vectors E3 and E2: the capacity is checked first, STATUS = 0x100. -/
theorem test_encodePixel_small :
    seen State.status (exec .encodePixel
      { at_ .encCheck [] with ctrl := { (at_ .encCheck []).ctrl with ops := { rgb := 0, pin := 0, n := 0, addr := 0x10000000, cnt := 23 } },
                              drv := .unconfigured }) = some 0x100 := by decide

/-- Vector E10: a destination over BUF_A's last bytes is refused, with nothing written; BUSY = 0 after it. -/
theorem test_encodePixel_refused :
    seen (fun s => (s.faults.refused, s.busy, s.wb.ctrl)) (exec .encodePixel
      { at_ .encCheck [] with ctrl := { (at_ .encCheck []).ctrl with ops := { rgb := 0, pin := 0, n := 0, addr := 0x2000FF20, cnt := 24 } } }) =
      some (true, false, []) := by decide

/-- The largest N whose length fits: RESULT = 0xFFFFFFE8 (rule R110). -/
theorem test_requiredLength_largest :
    seen (fun s => s.iface.result) (exec .requiredLength
      { at_ .rlBody [] with ctrl := { (at_ .rlBody []).ctrl with ops := { rgb := 0, pin := 0, n := 0x0AAAAAA8, addr := 0, cnt := 0 } } }) =
      some 0xFFFFFFE8 := by decide

/-- One more is refused, and RESULT keeps its value (rule R110). -/
theorem test_requiredLength_refused :
    seen (fun s => (s.faults.refused, s.iface.result)) (exec .requiredLength
      { at_ .rlBody [] with ctrl := { (at_ .rlBody []).ctrl with ops := { rgb := 0, pin := 0, n := 0x0AAAAAA9, addr := 0, cnt := 0 } } }) =
      some (true, 0) := by decide

/-- Vector T3: the length is checked before the odd address, STATUS = 0x202. -/
theorem test_seqStart_empty :
    seen State.status (exec (.seqStart .A)
      { at_ (.ssCheck .A) [] with ctrl := { (at_ (.ssCheck .A) []).ctrl with ops := { rgb := 0, pin := 0, n := 0, addr := 0x20000001, cnt := 0 } } }) =
      some 0x202 := by decide

/-- Vector T8: the task preempts a playing sequence; the wire gains Cut and SEQEND is not set. -/
theorem test_seqStart_preempts :
    seen (fun s => (s.wire, s.eng.events.seqEndA, s.eng.play)) (exec (.seqStart .B)
      { playing .A 3 24 with
        ctrl := (at_ (.ssGo .B) [.task .B]).ctrl
        eng := { (playing .A 3 24).eng with
          regs := { (playing .A 3 24).eng.regs with seqB := { ptr := 0x20000100, cnt := 24, refresh := 0, endDelay := 0 } } } }) =
      some ([.cut], false, .playing .B 0 0 0x20000100 24) := by decide

/-- Vector K13: 0 on a channel never started, STATUS = 2. -/
theorem test_seqIsDone_never :
    seen (fun s => (s.iface.result, s.status)) (exec (.seqIsDone .A) (at_ (.sdBody .A) [])) = some (0, 2) := by decide

/-- Vector T7: the flag read is the channel's own. -/
theorem test_seqIsDone_B :
    seen (fun s => s.iface.result) (exec (.seqIsDone .B) ((at_ (.sdBody .B) []).putEvent (.seqEnd .B) true)) = some 1 := by
  decide

/-- Vector T11: waiting on B while only A has ended. -/
theorem test_seqWait_waits :
    seen State.busy (exec (.seqWait .B) ((at_ (.swPoll .B) []).putEvent (.seqEnd .A) true)) = some true := by decide

/-- Vector S9: after a completed transfer it returns at once. -/
theorem test_seqWait_done :
    seen State.status (exec (.seqWait .A) ((at_ (.swPoll .A) []).putEvent (.seqEnd .A) true)) = some 2 := by decide

/-- Vector B12: N = 0 returns before the address check. -/
theorem test_sendBuf_zero :
    seen State.status (exec .sendBuf
      { at_ .sbCheck [] with ctrl := { (at_ .sbCheck []).ctrl with ops := { rgb := 0, pin := 0, n := 0, addr := 0x20000001, cnt := 40 } } }) =
      some 2 := by decide

/-- Vectors B9 and B10: the scratch region may end where BUF_A begins, and not reach into it. -/
theorem test_sendBuf_overlap :
    let at1 (a : Word) : State :=
      { at_ .sbCheck [] with ctrl := { (at_ .sbCheck []).ctrl with ops := { rgb := 0, pin := 0, n := 1, addr := a, cnt := 64 } } }
    seen (fun s => (s.ctrl.pc, s.faults.refused)) (exec .sendBuf (at1 0x2000FE80)) = some (.sbLoop, false) ∧
    seen (fun s => (s.ctrl.pc, s.faults.refused)) (exec .sendBuf (at1 0x2000FEA0)) = some (.idle, true) := by decide

/-- Rule R160: on END with A active the idle fill goes to B, before the wait (90_conflicts.md C2). -/
theorem test_writeSingle_tail :
    seen (fun s => (s.ctrl.pc, s.ctrl.micro.head?, s.ctrl.micro.getLast?, s.ctrl.micro.length))
      (exec .writeSingle (at_ .wsNext [])) =
      some (.wsTail, some (.memWrite 0x2000FF40 0x8000), some (.awaitEnd .A), 21) := by decide

/-- Vector W0: END first ends OK. -/
theorem test_writeSingle_zero : seen State.status (exec .writeSingle (at_ .wsFirst [])) = some 2 := by decide

/-- Rule R181: in the B role A is restarted before the flags are cleared. -/
theorem test_writeLoop_restart :
    seen (fun s => s.ctrl.micro) (exec .writeLoop
      ({ at_ .wlStep [] with ctrl := { (at_ .wlStep []).ctrl with role := .B } }.putEvent .loopsDone true)) =
      some [.fence, .task .A, .clear (.seqEnd .A), .clear (.seqEnd .B), .clear (.seqStarted .A), .clear (.seqStarted .B),
        .clear .loopsDone] := by decide

/-- Rules R18 and R21: WS_FIRST, WL_SETUP and SB_FILL are left when their last statement is done, by falling through. -/
theorem test_fallThrough :
    let place (s : State) : Pc × Nat := (s.ctrl.pc, s.ctrl.micro.length)
    let coloured (pc : Pc) : State :=
      { at_ pc [] with ctrl := { (at_ pc []).ctrl with item := .color { r := 1, g := 2, b := 3 } } }
    seen place (exec .writeSingle (coloured .wsFirst)) = some (.wsFirst2, 24 + 7 + 1) ∧
    seen place (exec .writeSingle (at_ .wsFirst2 [])) = some (.wsNext, 2) ∧
    seen place (exec .writeLoop (coloured .wlSetup2)) = some (.wlSetup3, 25 + 5 + 5 + 2 + 1) ∧
    seen place (exec .writeLoop (at_ .wlSetup3 [])) = some (.wlStep, 0) ∧
    seen place (exec .sendBuf (at_ .sbLoop [])) = some (.sbTail, 40) ∧
    seen place (exec .sendBuf (at_ .sbTail [])) = some (.sbGo, 7) := by decide

/-- Vector L7: a colour after END is MALFORMED_SEQUENCE, STATUS = 0x402. -/
theorem test_writeLoop_malformed :
    seen State.status (exec .writeLoop
      { at_ .wlItem [] with ctrl := { (at_ .wlItem []).ctrl with ended := true, item := .color { r := 1, g := 2, b := 3 } } }) =
      some 0x402 := by decide

/-- The last sample of a sequence: its period, then the gap, SEQEND and a stopped engine (rule R133). -/
theorem test_symOne_last :
    seen (fun s => (s.wire, s.eng.play, s.eng.events.seqEndB)) (exec .symOne (playing .B 23 24)) =
      some ([.sym 0x800D, .gap], .stopped, true) := by decide

theorem test_symZero_next :
    seen (fun s => (s.wire, s.eng.play)) (exec .symZero (playing .A 0 2)) =
      some ([.sym 0x8005], .playing .A 1 0 0x20000000 2) := by decide

/-- Loop mode: A chains into B in the same step, with no gap (rule R133). -/
theorem test_symIdle_chains :
    seen (fun s => (s.wire, s.eng.play, s.eng.events.seqEndA, s.eng.events.seqStartedB)) (exec .symIdle
      { (playing .A 23 24).setLoopMode true with
        eng := { ((playing .A 23 24).setLoopMode true).eng with
          regs := { EngRegs.reset with seqB := { ptr := 0x2000FF40, cnt := 24, refresh := 0, endDelay := 0 } } } }) =
      some ([.sym 0x8000], .playing .B 0 0 0x2000FF40 24, true, true) := by decide

/-- Rules R183 and R233: A ends while WRITE_LOOP still waits for B's item; and it does not owe one in its last step. -/
theorem test_deadline_missed :
    let chain (pc : Pc) (l : List Micro) (blanks : Nat) : State :=
      { (playing .A 23 24).setLoopMode true with
        ctrl := { (at_ pc l).ctrl with role := .B, blanksFed := blanks }
        eng := { ((playing .A 23 24).setLoopMode true).eng with
          regs := { EngRegs.reset with seqB := { ptr := 0x2000FF40, cnt := 24, refresh := 0, endDelay := 0 } } } }
    let race (s : State) : Bool × Bool := (s.faults.dmaRace, s.eng.raced)
    seen race (exec .symZero (chain .wlItem [.awaitItem] 0)) = some (true, true) ∧
    seen race (exec .symZero (chain .wlStep [.fence, .setRole .A] 1)) = some (true, true) ∧
    seen race (exec .symZero (chain .wlStep [.setRole .A] 1)) = some (false, false) ∧
    seen race (exec .symZero (chain .wlTest [] 1)) = some (true, true) ∧
    seen race (exec .symZero (chain .wlTest [] 2)) = some (false, false) := by decide

/-- Rules R140 and R151: after RELEASE and CONFIGURE no earlier sample counts; a new one does. -/
theorem test_wire_afterConfigure :
    lastPlayed [(0, .configured)] 0 none [.sym 0x800D, .gap] = some (0, 0x800D) ∧
    lastPlayed [(0, .configured), (2, .unconfigured), (2, .configured)] 0 none [.sym 0x800D, .gap] = none ∧
    lastPlayed [(0, .configured), (2, .unconfigured), (2, .configured)] 0 none [.sym 0x800D, .gap, .sym 0x8005] =
      some (2, 0x8005) ∧
    drvChanges [(0, .configured), (2, .unconfigured), (2, .configured)] 2 = [.unconfigured, .configured] ∧
    drvChanges [(0, .configured)] 2 = [] := by decide

/-- Rule R29: bits [30:24] are ignored and the pull is answered. -/
theorem test_color_delivers :
    seen (fun s => (s.ctrl.item, s.iface.pullReq)) (exec (.color 0x7F 0x12 0x34 0x56)
      { ready 0 0 with iface := { State.reset.iface with pullReq := true } }) =
      some (.color { r := 0x12, g := 0x34, b := 0x56 }, false) := by decide

/-- Vector K12: with no pull pending it is dropped, OVERRUN = 1. -/
theorem test_endItem_dropped : seen State.status (exec (.endItem 0) (ready 0 0)) = some 6 := by decide

/-! ### Memory, registers and encoder -/

/-- Vectors M1 and M2 (rules R64 and R68). -/
theorem test_memory_littleEndian :
    Memory.sample (Memory.store [] [(0x20000000, 0x0D), (0x20000001, 0x80)]) 0x20000000 = some 0x800D ∧
    Memory.sample (Memory.store [(0x20000000, 0x0D), (0x20000001, 0x80)] [(0x20000001, 0x00)]) 0x20000000 = some 0x000D := by
  decide

/-- The frame of (0x12, 0x34, 0x56) as 95_test_vectors.md writes it out. -/
theorem test_frame :
    frame { r := 0x12, g := 0x34, b := 0x56 } =
      [0x8005, 0x8005, 0x800D, 0x800D, 0x8005, 0x800D, 0x8005, 0x8005,
       0x8005, 0x8005, 0x8005, 0x800D, 0x8005, 0x8005, 0x800D, 0x8005,
       0x8005, 0x800D, 0x8005, 0x800D, 0x8005, 0x800D, 0x800D, 0x8005] := by decide

/-- Vector M4; a misaligned store that reaches BUF_A (rule R66) and one that does not (log 14); the faults of a store and of
a read that have no address. -/
theorem test_host_stores :
    seen (fun s => (s.faults.refused, s.wb.host)) (hostTurn (hostWith [.mw16 0x2000FF00 0x8000] State.reset)) = some (true, []) ∧
    hostTurn (hostWith [.mw8 0x10000000 0] State.reset) = .fault .hostStoreUnmapped ∧
    seen (fun s => (s.faults.refused, s.wb.host)) (hostTurn (hostWith [.mw16 0x2000FEFF 0x8000] State.reset)) = some (true, []) ∧
    seen (fun s => (s.faults.refused, s.wb.host)) (hostTurn (hostWith [.mw16 0x20000001 0x800D] State.reset)) =
      some (true, [[(0x20000001, 0x0D)], [(0x20000002, 0x80)]]) ∧
    hostTurn (hostWith [.r32 0x1000] State.reset) = .fault .hostOffsetOutsideWindow :=
  ⟨by decide, rfl, by decide, by decide, rfl⟩

/-- Vectors X1 to X4. -/
theorem test_reset_reads :
    ([0x00, 0x04, 0x08, 0x0C, 0x10, 0x14, 0x18, 0x1C, 0x20].map State.reset.readIface) = List.replicate 9 0 := by decide

/-- The family's reset words at their offsets (log 4). -/
theorem test_reset_engineWords :
    State.reset.engineWord 0x508 = 0x3FF ∧ State.reset.engineWord 0x528 = 1 ∧ State.reset.engineWord 0x560 = 0xFFFFFFFF ∧
    State.reset.engineWord 0x500 = 0 ∧ State.reset.pinDriven = false := by decide

/-- Vector L1's wire. -/
theorem test_loopTrace :
    loopTrace [{ r := 0, g := 0, b := 0 }] =
      syms (List.replicate 24 0x8005) ++ syms (List.replicate 24 0x8000) ++ [.gap] ++ syms (List.replicate 24 0x8000) ++
        syms (List.replicate 24 0x8000) ++ [.gap] := by decide

/-! ### Witnesses: for each statement with hypotheses, a state and operands that meet them together -/

/-- An outcome a check holds of is a next state of which it holds. -/
theorem of_holds {f : State → Bool} {o : Host.Outcome State Fault Refusal} (h : holds f o = true) :
    ∃ u, o = .next u ∧ f u = true := by
  cases o with
  | next u => exact ⟨u, rfl, h⟩
  | fault r => cases h
  | refused r => cases h

def red : Colour := { r := 255, g := 0, b := 0 }

/-- The settings of rule R151. -/
def configuredRegs : EngRegs :=
  { EngRegs.reset with
    enable := 1, countertop := 20, psel0 := 13
    seqA := { ptr := 0, cnt := 0, refresh := 0, endDelay := 0 }
    seqB := { ptr := 0, cnt := 0, refresh := 0, endDelay := 0 } }

/-- A configured block whose CTRL waits in SEQ_WAIT while ENG plays a sample of RAM. -/
def running : State :=
  { playing .A 0 1 with
    ctrl := (at_ (.swPoll .A) []).ctrl
    eng := { (playing .A 0 1).eng with regs := configuredRegs }
    mem := [(0x20000000, 0x0D), (0x20000001, 0x80)] }

theorem test_witness_ready : (ready 0x20000000 64).Ready := ⟨by decide, rfl, rfl, rfl, rfl, rfl⟩

theorem test_witness_inv : Inv running where
  memory := by decide
  idle := by decide
  plan := by intro m hm; cases hm
  fenced := by decide
  pulls := by decide
  pullReq := by decide
  playing := by intro ch idx ll lptr lcnt h; cases h; exact ⟨by decide, rfl⟩
  settings := by intro _ _; unfold EngRegs.fixed; decide
  configuring := by intro h; cases h
  releasing := by intro h; cases h
  noInterrupts := by decide
  wholePeriods := rfl

theorem test_witness_windowInv : WindowInv running where
  mem := by unfold Entry.inRam; decide
  host := by intro e he; cases he
  ctrl := by intro e he; cases he
  plan := by intro a v h; cases h
  scratch := by intro h; cases h <;> contradiction
  pulling := by intro h; cases h

/-- StepKeepsInv, StepKeepsWindow, HistoryOnlyGrows, OutcomeWriters: states from which a step goes on, ENG's and CTRL's. -/
theorem test_witness_steps :
    (∃ t, step (planned [.ctrl] (at_ .cfWrite [.drv .configured])) = .next t ∧ (t.marks == [(0, .configured)]) = true) ∧
    running.params.wf = true ∧ (∃ t, step (planned [.eng] running) = .next t ∧ (t.wire == [.sym 0x800D, .gap]) = true) ∧
    (∃ t, step (planned [.ctrl] { at_ .rlBody [] with ctrl := { (at_ .rlBody []).ctrl with ops := { rgb := 0, pin := 0, n := 1, addr := 0, cnt := 0 } } }) =
      .next t ∧ (t.iface.result == 64 && !t.busy) = true) ∧
    (∃ t, step (planned [.ctrl] (at_ .cfOff [.drv .unconfigured])) = .next t ∧ (t.drv == .unconfigured) = true) ∧
    (∃ t, step (planned [.drain .host] { running with
        faults := { dmaRace := true, refused := true }, wb := { host := [[(0x20000000, 0)]], ctrl := [] } }) = .next t ∧
      (t.faults.dmaRace && t.eng.raced) = true) :=
  ⟨of_holds (by decide), by decide, of_holds (by decide), of_holds (by decide), of_holds (by decide), of_holds (by decide)⟩

/-- DriverStateChanges: the steps that enter and leave Configured, from states of the invariant. -/
theorem test_witness_driverStateChanges :
    Inv { at_ .cfOff [.drv .unconfigured] with eng := { State.reset.eng with regs := configuredRegs } } ∧
    Inv { at_ .cfWrite [.drv .configured] with drv := .unconfigured, eng := { State.reset.eng with regs := configuredRegs } } := by
  constructor
  · exact {
      memory := by decide, idle := by decide, plan := ⟨[.enable 0, .psel 0 disconnected], rfl⟩, fenced := by decide,
      pulls := by decide, pullReq := by decide, playing := (by intro _ _ _ _ _ h; cases h),
      settings := fun _ h => absurd rfl h, configuring := (by intro h; cases h),
      releasing := fun _ => ⟨rfl, by intro h; cases h⟩, noInterrupts := by decide, wholePeriods := rfl }
  · exact {
      memory := by decide, idle := by decide, plan := .inr ⟨[], rfl, by intro m hm; cases hm⟩, fenced := by decide,
      pulls := by decide, pullReq := by decide, playing := (by intro _ _ _ _ _ h; cases h),
      settings := (by intro h; cases h), configuring := fun _ => ⟨by unfold EngRegs.fixed; decide, fun _ => rfl⟩,
      releasing := (by intro h; cases h), noInterrupts := by decide, wholePeriods := rfl }

/-- WeakFairness. -/
theorem test_witness_weakFairness :
    running.sched.turns = [] ∧ running.isPlaying = true ∧ steps 0 running = .next running := ⟨rfl, by decide, rfl⟩

/-- IllegalCommandWords: each of the three ways, OPC 0x00 among them. -/
theorem test_witness_illegalCommandWords :
    State.reset.busy = false ∧
    ((0x00000000 : Word).extractLsb' 0 8 ∉ ([0x01, 0x02, 0x10, 0x11, 0x20, 0x21, 0x22, 0x30, 0x31, 0x32] : List (BitVec 8))) ∧
    (0x80000020 : Word).extractLsb' 9 23 ≠ 0 ∧ (0x00000220 : Word).extractLsb' 9 23 ≠ 0 ∧
    ((0x00000101 : Word).getLsbD 8 = true ∧ (0x00000101 : Word).extractLsb' 0 8 ∉ ([0x20, 0x21, 0x22] : List (BitVec 8))) := by
  decide

/-- StepRunsFetchedInstruction: each of the five places a step takes an instruction from, by a planned turn. -/
theorem test_witness_stepRunsFetchedInstruction :
    ((planned [.host] (hostWith [.w32 0x00 0x11] State.reset)).nextTurn = .host ∧ State.reset.busy = false ∧
      decode .command 0x11 = .instr .requiredLength) ∧
    (State.reset.params.wf = true ∧
      (planned [.host] (hostWith [.mw32 Params.vectors.ifBase 0x01] State.reset)).nextTurn = .host) ∧
    decode .colour 0x80000000 = .instr (.endItem 0) ∧
    ((planned [.eng] running).nextTurn = .eng ∧
      decode .sample (((planned [.eng] running).takeTurn.dmaSample 0x20000000).setWidth 32) = .instr .symOne) ∧
    ((planned [.ctrl] running).nextTurn = .ctrl ∧ running.ctrl.pc.instr = some (.seqWait .A)) := by decide

/-- OverrunIsSticky, EngineReach: a step that goes on with OVERRUN set, and one that clears a flag. -/
theorem test_witness_overrun_and_clear :
    (∃ t, step (planned [.ctrl] { at_ .rlBody [] with iface := { State.reset.iface with overrun := true } }) = .next t ∧
      t.iface.overrun = true) ∧
    (∃ t, step (planned [.host] (hostWith [.w32 0x14 0x4] { ready 0 0 with iface := { State.reset.iface with overrun := true } })) =
      .next t ∧ (!t.iface.overrun) = true) ∧
    (∃ t, step (planned [.ctrl] ((at_ .cfWrite [.clear .loopsDone]).putEvent .loopsDone true)) = .next t ∧
      (!t.eng.events.get .loopsDone) = true) ∧
    ((at_ .cfWrite [.clear .loopsDone]).putEvent .loopsDone true).eng.events.get .loopsDone = true ∧
    (running.busy = true ∧ running.iface.pullReq = false) ∧ (0x4 : Word).getLsbD 2 = true ∧ (0xFFFFFFFB : Word).getLsbD 2 = false :=
  ⟨of_holds (by decide), of_holds (by decide), of_holds (by decide), by decide, by decide, by decide, by decide⟩

/-- ColorPort, ReservedOffsets, ReadsHaveNoSideEffects, StatusWord: boundary words and offsets. -/
theorem test_witness_interface :
    (0x80000000 : Word).getLsbD 31 = true ∧ (0x7FFFFFFF : Word).getLsbD 31 = false ∧
    (0x20 ≤ (0x20 : Word).toNat ∧ (0x20 : Word).toNat % 4 = 0) ∧ ((0xFFF : Word).toNat ≤ 0xFFF ∧ (0xFFC : Word).toNat % 4 = 0) ∧
    ((0xFFC : Word).toNat % 4 = 0 ∧ (0xFFC : Word).toNat < 0x1000) ∧
    (State.reset.readIface 0x14 &&& 0x1 = 0) ∧ (State.reset.readIface 0x14 &&& 0x8 ≠ 0x8) ∧
    (4 ≤ 7 ∧ 7 < 8) ∧ (12 ≤ 31) := by decide

/-- ArgRegisters, CommandFrame: a running command's step, here a buffered write. -/
theorem test_witness_running :
    (at_ .encWrite [.memWrite 0x20000000 0x800D]).ctrl.pc.instr = some .encodePixel ∧
    (∃ t, exec .encodePixel (at_ .encWrite [.memWrite 0x20000000 0x800D]) = .next t ∧
      (t.readAs .ctrl 0x20000001 == some 0x80) = true) := ⟨by decide, of_holds (by decide)⟩

/-- CommandStarts, ConfigureRuns, ConfigureTwiceRejected, ReleaseRuns, RequiredLengthRuns, SeqIsDoneRuns, SeqWaitRuns,
CompletionChecksIdempotent, PullWaits, StartTask, FenceBlocks, MalformedInput: the states of a command. -/
theorem test_witness_commands :
    (Instr.format .configure = .command ∧ State.reset.ctrl.pc = .idle ∧ State.reset.drv = .unconfigured) ∧
    (Instr.format (.seqWait .B) = .command ∧ (ready 0 0).ctrl.pc = .idle ∧ (ready 0 0).drv = .configured) ∧
    (running.eng.play ≠ .stopped ∧ (ready 0 0).eng.play = .stopped) ∧
    ((0 : Word).toNat ≤ 178956968 ∧ (0x0AAAAAA8 : Word).toNat ≤ 178956968 ∧ 178956968 < (0x0AAAAAA9 : Word).toNat) ∧
    (((ready 0 0).putEvent (.seqEnd .B) true).eng.events.get (.seqEnd .B) = true ∧
      (ready 0 0).eng.events.get (.seqEnd .B) = false) ∧
    ((at_ .wsNext pull).ctrl.micro = [.raisePull, .awaitItem] ∧ (at_ .wsNext pull).ctrl.pc.instr = some .writeSingle) ∧
    ((at_ .wlStep startA).ctrl.micro = [.fence, .task .A] ∧ (at_ .wlStep startA).wb.ctrl = []) ∧
    ((at_ .wlItem []).ctrl.pc = .wlItem ∧ (at_ .sbFill []).ctrl.pc = .sbFill ∧ (at_ .sbFill []).ctrl.item = .endSeq) := by
  decide

/-- CompletionChecksIdempotent: a flag that is set, and turns between the two runs that leave it so. -/
theorem test_witness_completionChecks :
    let s : State := ((playing .A 0 24).placeSample 0x8000).putEvent (.seqEnd .B) true
    s.ctrl.pc = .idle ∧ s.drv = .configured ∧ s.eng.events.get (.seqEnd .B) = true ∧ .host ∉ ([.eng, .ctrl] : List Turn) ∧
    ∃ t, exec (.seqIsDone .B) s = .next t ∧ ∃ u, runAgent .ctrl 1 t = .next u ∧
      ∃ v, runTurns [.eng, .ctrl] u = .next v ∧ (v.eng.events.get (.seqEnd .B) && v.eng != u.eng) = true := by
  refine ⟨by decide, by decide, by decide, by decide, _, rfl, _, rfl, of_holds (by decide)⟩

/-- PreflightCheck, SeqStartChecks, SeqStartRuns: each outcome at its boundary (vectors T2 to T6 and B8). -/
theorem test_witness_preflight :
    preflight Params.vectors 0x20000001 0 = some .emptyTransfer ∧
    preflight Params.vectors 0x20000000 32768 = some .outOfRangePointer ∧
    preflight Params.vectors 0x20000001 24 = some .outOfRangePointer ∧
    preflight Params.vectors 0x1FFFFFFE 1 = some .outOfRangePointer ∧
    preflight Params.vectors 0x2000FFC0 33 = some .outOfRangePointer ∧
    preflight Params.vectors 0x2000FFC0 32 = none ∧ preflight Params.vectors 0x20000000 32767 = none ∧
    overlapsBuffers Params.vectors 0x20000000 (2 * 32767) = true ∧
    overlapsBuffers Params.vectors 0x2000FE80 (2 * 64) = false ∧
    Params.vectors.wf = true ∧ (ready 0x2000FE80 64).wb.ctrl = [] := by decide

/-- EncodePixelChecks, EncodePixelRuns, EncodePixelFenced (vectors E2, E4, E6, E7, E9): a whole run, with the frame in MEM. -/
theorem test_witness_encodePixel :
    ((23 : Word).toNat < 24 ∧ 24 ≤ (24 : Word).toNat) ∧
    inWindow Params.vectors 0x1FFFFFFE 24 = false ∧ inWindow Params.vectors 0x2000FFD2 24 = false ∧
    inWindow Params.vectors 0x2000FFD0 24 = true ∧ overlapsBuffers Params.vectors 0x2000FFD0 48 = false ∧
    inWindow Params.vectors 0x2000FF00 24 = true ∧ overlapsBuffers Params.vectors 0x2000FF00 48 = true ∧
    ∃ t, exec .encodePixel (ready 0x2000FFD0 24) = .next t ∧
      ∃ u, runTurns (List.replicate 25 .ctrl ++ List.replicate 24 (.drain .ctrl) ++ List.replicate 2 .ctrl) t = .next u ∧
        (!u.busy && Memory.sample u.mem 0x2000FFFE == some 0x8005) = true := by
  refine ⟨by decide, by decide, by decide, by decide, by decide, by decide, by decide, _, rfl, of_holds ?_⟩
  decide +kernel

/-- EncodePixelFenced: HOST polls while it waits, and sees BUSY = 0 once the fence has passed. -/
theorem test_witness_encodePixelFenced :
    let s := hostWith [HostProgram.pollIdle] (ready 0x2000FFD0 24)
    s.wb = { host := [], ctrl := [] } ∧ (∀ op ∈ s.host.ops, op.feeds = true) ∧
    ∃ t, exec .encodePixel s = .next t ∧
      ∃ u, runTurns (List.replicate 25 .ctrl ++ [.host] ++ List.replicate 24 (.drain .ctrl) ++ [.ctrl, .ctrl, .host]) t = .next u ∧
        (!u.busy && u.host.ops == []) = true := by
  refine ⟨rfl, by decide, _, rfl, of_holds ?_⟩
  decide +kernel

/-- EmitStep, EndOfSequence: inside a sequence and at its end, out of loop mode and in it. -/
theorem test_witness_endOfSequence :
    (playing .A 0 2).eng.play = .playing .A 0 0 0x20000000 2 ∧ (playing .B 1 2).eng.play = .playing .B 1 0 0x20000000 2 ∧
    (playing .A 0 2).eng.loopMode = false ∧ ((playing .B 1 2).setLoopMode true).eng.loopMode = true := by decide

/-- Samples memory holds, checked one by one. -/
theorem holds_of_check {m : Memory} {a : Nat} {l : List Sample}
    (h : ∀ i, i < l.length → Memory.sample m (a + 2 * i) = l[i]?) : Memory.holds m a l := by
  intro i v hv
  rw [h i (by by_contra hn; rw [List.getElem?_eq_none (by omega)] at hv; cases hv), hv]

/-- PlayoutLoopPair: one state with loop mode, B's descriptor and both memories. -/
theorem test_witness_playoutLoopPair :
    let s : State := { playing .A 0 2 with
      eng := { (playing .A 0 2).eng with
        loopMode := true
        regs := { configuredRegs with seqB := { ptr := 0x20000004, cnt := 1, refresh := 0, endDelay := 0 } } }
      mem := [(0x20000000, 0x0D), (0x20000001, 0x80), (0x20000002, 0x15), (0x20000003, 0x00), (0x20000004, 0x05),
        (0x20000005, 0x80)] }
    s.eng.play = .playing .A 0 0 0x20000000 2 ∧ s.eng.loopMode = true ∧ s.eng.raced = false ∧
    s.eng.regs.seqB.cnt.toNat = 1 ∧ s.wb.touch s.eng.regs.seqB.ptr.toNat 1 = false ∧ s.ctrl.owesB = false ∧
    Memory.holds s.mem 0x20000000 [0x800D, 0x0015] ∧ Memory.holds s.mem s.eng.regs.seqB.ptr.toNat [0x8005] :=
  ⟨by decide, by decide, by decide, by decide, by decide, by decide, holds_of_check (by decide), holds_of_check (by decide)⟩

/-- PlayoutSingle: memory that holds the samples, one of them not canonical. -/
theorem test_witness_playout :
    let m : Memory := [(0x20000000, 0x0D), (0x20000001, 0x80), (0x20000002, 0x15), (0x20000003, 0x00)]
    Memory.holds m 0x20000000 [0x800D, 0x0015] ∧
    (playing .A 0 2).eng.play = .playing .A 0 0 0x20000000 2 ∧ (playing .A 0 2).eng.raced = false ∧
    (playing .A 0 2).eng.loopMode = false :=
  ⟨holds_of_check (by decide), by decide, by decide, by decide⟩

/-- Rules R140 and R151: in a gap with RELEASE, CONFIGURE, RELEASE, CONFIGURE, the pin is low from each CONFIGURE on. -/
theorem test_gap_reconfigured (k : Nat) (held : Nat → Bool) (h : 0 < Config.freePartTicks k 2) :
    let changes : List Drv := [.unconfigured, .configured, .unconfigured, .configured]
    partLevel k held 0 changes (partStart k 2) = false ∧ partLevel k held 0 changes (partStart k 4) = false := by
  constructor <;> simp only [partLevel, partStart, changedLevel, Nat.zero_add] <;> repeat' split
  all_goals first | rfl | omega

/-- GapsAndIdleTail, the stretch a last CONFIGURE begins: a tick that lies in it. -/
theorem test_witness_reconfigured :
    partStart 3 (([.unconfigured] : List Drv).length + 1) ≤ partStart 3 2 ∧ (([] : List Drv) = [] ∨ partStart 3 2 < 0) :=
  ⟨Nat.le_refl _, .inl rfl⟩

/-- GapsAndIdleTail: a write's trace with a gap between two of its frames and one after its last. -/
theorem test_witness_gaps :
    let l : List WireItem := [.sym 0x8000, .gap, .sym 0x8000, .gap]
    (0 ≤ 1 ∧ 1 + 1 < 4 ∧ l[1]? = some .gap) ∧ ¬(3 + 1 < 4) ∧ l[3]? = some .gap ∧
    (1 ≤ 40 ∧ drvChanges [(0, .configured)] (0 + 40 + 1) = []) := by decide

/-- Waveform: DUTY at its limits, and both ways of being no defined waveform (rule R138). -/
theorem test_witness_waveform :
    ((0x8014 : Sample).getLsbD 15 = true ∧ ((0x8014 : Sample).extractLsb' 0 15).toNat ≤ 20) ∧
    ((0x8000 : Sample).getLsbD 15 = true ∧ ((0x8000 : Sample).extractLsb' 0 15).toNat ≤ 20) ∧
    20 < ((0x8015 : Sample).extractLsb' 0 15).toNat ∧ (0x000D : Sample).getLsbD 15 = false := by decide

/-- SendBufChecks: the capacity at its limit, N = 0, and a scratch buffer over BUF_A (vectors B1 to B3, B7, B10). -/
theorem test_witness_sendBufChecks :
    ((63 : Word).toNat < 24 * (1 : Word).toNat + 40 ∧ 24 * (1 : Word).toNat + 40 ≤ (64 : Word).toNat) ∧
    (40 ≤ (40 : Word).toNat ∧ (39 : Word).toNat < 24 * (0 : Word).toNat + 40) ∧
    preflight Params.vectors 0x20000000 (24 * 1364 + 40) = some .outOfRangePointer ∧
    preflight Params.vectors 0x2000FEA0 64 = none ∧ overlapsBuffers Params.vectors 0x2000FEA0 128 = true := by decide

/-- SendBufRuns. -/
theorem test_witness_sendBufRuns :
    (hostWith (pushColours [red] ++ [HostProgram.pollIdle])
      { ready 0x20000000 64 with iface := { (ready 0x20000000 64).iface with arg1 := 1 } }).Ready ∧
    ([red] : List Colour) ≠ [] ∧ (1 : Word).toNat = [red].length ∧ 24 * [red].length + 40 ≤ (64 : Word).toNat ∧
    preflight Params.vectors (0x20000000 : Word).toNat (24 * [red].length + 40) = none ∧
    overlapsBuffers Params.vectors (0x20000000 : Word).toNat (2 * (24 * [red].length + 40)) = false :=
  ⟨⟨by decide, rfl, rfl, rfl, rfl, rfl⟩, by decide, by decide, by decide, by decide, by decide⟩

/-- WriteSingleRuns, WriteSingleNeverRaces: HOST feeding one colour and END, and a run of it. -/
theorem test_witness_writeSingle :
    let s := hostWith (pushColours [red] ++ HostProgram.pushEnd) (ready 0 0)
    s.Ready ∧ 24 ≤ s.params.maxSeqLen ∧ (∀ op ∈ s.host.ops, op.feeds = true) ∧
    ∃ t, exec .writeSingle s = .next t ∧ ∃ u, runTurns [.ctrl, .host, .host, .ctrl, .ctrl, .ctrl, .drain .ctrl] t = .next u ∧
      (u.ctrl.pc == .wsFirst2 && Memory.read u.mem 0x2000FF00 == some 0x05) = true :=
  ⟨⟨by decide, rfl, rfl, rfl, rfl, rfl⟩, by decide, by decide, _, rfl, of_holds (by decide)⟩

/-- WriteLoopRuns, WriteLoopRacesOnlyPastDeadline: HOST feeding one colour and two ENDs, and a run that keeps T_REFILL_B. -/
theorem test_witness_writeLoop :
    let s := hostWith (pushColours [red] ++ HostProgram.pushEnd ++ HostProgram.pushEnd) (ready 0 0)
    s.Ready ∧ (∀ op ∈ s.host.ops, op.feeds = true) ∧
    ∃ t, exec .writeLoop s = .next t ∧ (∃ u, runTurns [.ctrl, .host] t = .next u ∧ u.iface.pullReq = true) ∧
      ∀ k v, runTurns (([.ctrl, .host] : List Turn).take k) t = .next v → tRefillB v := by
  refine ⟨⟨by decide, rfl, rfl, rfl, rfl, rfl⟩, by decide, _, rfl, of_holds (by decide), ?_⟩
  intro k v h
  rcases k with _ | _ | k <;> simp only [List.take_zero, List.take_succ_cons, List.take_nil] at h <;> cases h <;>
    intro hr <;> cases hr

/-- WriteLoopRacesOnlyPastDeadline, where its premise bites: B's refill is owed and A plays, so T_REFILL_B holds; after A
has ended it does not. -/
theorem test_witness_refillB :
    let s : State := { playing .A 0 24 with ctrl := { (at_ .wlItem [.awaitItem]).ctrl with role := .B } }
    s.ctrl.owesB = true ∧ s.playsA ∧ tRefillB s ∧ ¬ tRefillB (s.setPlay (.playing .B 0 0 0x2000FF40 24)) := by
  refine ⟨by decide, ⟨_, _, _, _, rfl⟩, fun _ => ⟨_, _, _, _, rfl⟩, fun h => ?_⟩
  obtain ⟨_, _, _, _, h⟩ := h (by decide)
  cases h

/-- ZeroColoursNoTransfer. -/
theorem test_witness_zeroColours :
    (hostWith (HostProgram.pushEnd ++ []) (ready 0 0)).Ready ∧
    (hostWith (HostProgram.pushEnd ++ []) (ready 0 0)).host.ops = HostProgram.pushEnd ++ [] :=
  ⟨⟨by decide, rfl, rfl, rfl, rfl, rfl⟩, rfl⟩

/-- LostFlagHangs: SEQ_WAIT on a flag never set and WRITE_LOOP past a lost flag, in runs that go on. -/
theorem test_witness_lostFlagHangs :
    ((at_ (.swPoll .B) []).eng.play = .stopped ∧ (at_ (.swPoll .B) []).eng.events.get (.seqEnd .B) = false) ∧
    (∃ u, runTurns [.eng, .ctrl, .host] (at_ (.swPoll .B) []) = .next u ∧ u.busy = true) ∧
    (at_ .wlStep []).ctrl.role = .A ∧
    ({ at_ .wlStep [] with ctrl := { (at_ .wlStep []).ctrl with role := .B } } : State).ctrl.role = .B ∧
    (∃ u, runTurns [.ctrl] (at_ .wlFinal []) = .next u ∧ u.busy = true) :=
  ⟨by decide, of_holds (by decide), rfl, rfl, of_holds (by decide)⟩

/-- LostFlagHangs under T_CLEAR: A plays while the flags are cleared, its last sample after the last clear. -/
theorem test_witness_tClear :
    let s : State := { playing .A 0 24 with ctrl := { (at_ .wlTest clearEvents).ctrl with role := .B } }
    s.ctrl.role = .B ∧ s.ctrl.micro = clearEvents ∧ s.playsA ∧
    (∀ k v, runTurns (([.ctrl] : List Turn).take k) s = .next v → v.ctrl.pc = .wlTest ∧ tClear v) ∧
    ∃ u, runTurns [.ctrl] s = .next u ∧ (u.ctrl.micro == clearEvents.tail) = true := by
  refine ⟨rfl, rfl, ⟨_, _, _, _, rfl⟩, ?_, of_holds (by decide)⟩
  intro k v h
  rcases k with _ | k <;> simp only [List.take_zero, List.take_succ_cons, List.take_nil] at h <;> cases h <;>
    exact ⟨rfl, fun _ _ _ _ => ⟨_, _, _, _, rfl⟩⟩

/-- SampleLittleEndian, WriteBufferFifo, RaceConditions: buffered writes inside and outside a playing region. -/
theorem test_witness_memory :
    (running.eng.raced = false ∧ Memory.read running.mem 0x20000000 = some 0x0D ∧
      Memory.read running.mem (0x20000000 + 1) = some 0x80) ∧
    ({ host := [], ctrl := [[(5, 1)], [(6, 2)]] } : WriteBuffers).of .ctrl = [(5, 1)] :: [[(6, 2)]] ∧
    ((0x20000000 : Word).toNat ≤ 0x20000001 ∧ 0x20000001 < (0x20000000 : Word).toNat + 2 * 1) ∧
    (0x1FFFFFFF < (0x20000000 : Word).toNat ∧ (0x20000000 : Word).toNat + 2 * 1 ≤ 0x20000002) ∧
    (configuredRegs.setSeq .B { ptr := 0x20000000, cnt := 1, refresh := 0, endDelay := 0 }).seqB.cnt ≠ 0 ∧
    ({ running with eng := { running.eng with raced := true } } : State).eng.raced = true := by decide

/-- HostStores: aligned and misaligned stores clear of the buffers, one that reaches BUF_A's first byte from before it and
one its last, one outside RAM; accesses to the interface window, one that only ends in it (rules R60, R66, R67 and R76). -/
theorem test_witness_hostStores :
    HostOp.store (.mw32 0x20000004 0x8005800D) = some (0x20000004, [0x0D, 0x80, 0x05, 0x80]) ∧
    (reachesIface Params.vectors 0x20000004 4 = false ∧ inRam Params.vectors 0x20000004 4 = true ∧
      overlapsBuffers Params.vectors 0x20000004 4 = false) ∧
    (inRam Params.vectors 0x20000001 2 = true ∧ 0x20000001 % 2 ≠ 0) ∧
    (overlapsBuffers Params.vectors 0x2000FEFF 2 = true ∧ overlapsBuffers Params.vectors 0x2000FF2F 1 = true ∧
      overlapsBuffers Params.vectors 0x2000FF30 1 = false) ∧
    (inRam Params.vectors 0x2000FFFF 2 = false ∧ overlapsBuffers Params.vectors 0x2000FFFF 2 = false ∧
      reachesIface Params.vectors 0x2000FFFF 2 = false) ∧
    (reachesIface Params.vectors 0x400FFFFF 2 = true ∧ inIface Params.vectors 0x400FFFFF = false ∧
      inIface Params.vectors 0x40100FFF = true ∧ reachesIface Params.vectors 0x40101000 4 = false) ∧
    ((0xFFF : Word).toNat < 0x1000 ∧ (0xFFF : Word).toNat % 4 ≠ 0 ∧ (0x1 : Word).toNat % 4 ≠ 0) ∧
    0x1000 ≤ (0x1000 : Word).toNat := by decide

/-- HostReach, EngineReach: turns of HOST and of ENG that go on. -/
theorem test_witness_turns :
    (∃ t, hostTurn (hostWith [.w32 0x00 0x32, .fence] running) = .next t ∧ t.iface.overrun = true) ∧
    (∃ t, engTurn running = .next t ∧ t.eng.events.seqEndA = true) := ⟨of_holds (by decide), of_holds (by decide)⟩

end Sys2Proof.Tests
end

/-! PROOFS. 10_state.md: what an interface write, HOST's turn, CTRL's decision and a step can do, said once each as an
inversion; from these the statements about the command interface, HOST's reach, DRV, reset and what every step keeps. -/

namespace Sys2Proof.Machine

/-! ### The interface registers (rules R24 to R30) -/

theorem commandOf_format {opc : BitVec 8} {ch : Channel} {i : Instr} (h : commandOf opc ch = some i) :
    i.format = .command := by
  unfold commandOf at h
  repeat' split at h
  all_goals cases h
  all_goals rfl

/-- A word that decodes at CMD is a command (rule R85). -/
theorem decodeCommand_format {v : Word} {i : Instr} (h : decodeCommand v = .instr i) : i.format = .command := by
  unfold decodeCommand at h
  split at h
  · cases h
  · split at h
    · cases h
    · rename_i hc
      split at h
      · cases h
      · cases h; exact commandOf_format hc

namespace State

theorem readIface_reserved (s : State) {off : Nat} (h : 0x20 ≤ off) : s.readIface off = 0 := by
  unfold readIface
  iterate 6 rw [if_neg (by omega)]

theorem writeIface_cmd (s : State) (v : Word) : s.writeIface 0x00 v = s.writeCmd v := rfl

theorem writeIface_status (s : State) (v : Word) : s.writeIface 0x14 v =
    .next (if v.getLsbD 2 then { s with iface := { s.iface with overrun := false } } else s) := rfl

theorem writeIface_colour (s : State) (v : Word) : s.writeIface 0x1C v = exec (decodeColour v) s := rfl

theorem writeIface_reserved (s : State) {off : Nat} (v : Word) (h : 0x20 ≤ off) : s.writeIface off v = .next s := by
  unfold writeIface
  iterate 7 rw [if_neg (by omega)]

theorem busy_eq_false {s : State} : s.busy = false ↔ s.ctrl.pc = .idle := by simp [busy]

/-- A CMD write while BUSY is dropped (rule R28). -/
theorem writeCmd_busy {s : State} (v : Word) (h : s.busy = true) : s.writeCmd v = .next s.overrun := by
  simp [writeCmd, h, dropCommand]

/-- A legal command word written while BUSY = 0 is the command (rule R100). -/
theorem writeCmd_instr {s : State} {v : Word} {i : Instr} (h : s.busy = false) (hi : decodeCommand v = .instr i) :
    s.writeCmd v = exec i s := by
  simp [writeCmd, h, hi]

theorem deliver_pull {s : State} (it : Item) (h : s.iface.pullReq = true) : s.deliver it =
    { s with iface := { s.iface with pullReq := false }, ctrl := { s.ctrl with item := it } } := by
  simp [deliver, h]

theorem deliver_noPull {s : State} (it : Item) (h : s.iface.pullReq = false) : s.deliver it = s.overrun := by
  simp [deliver, h]

/-- A COLOR_IN write reaches the interface and CTRL only. -/
theorem deliver_frame (s : State) (it : Item) :
    s.deliver it = { s with iface := (s.deliver it).iface, ctrl := (s.deliver it).ctrl } := by
  unfold deliver; split <;> rfl

@[simp] theorem deliver_err (s : State) (it : Item) : (s.deliver it).iface.err = s.iface.err := by
  unfold deliver; split <;> rfl
@[simp] theorem deliver_result (s : State) (it : Item) : (s.deliver it).iface.result = s.iface.result := by
  unfold deliver; split <;> rfl

theorem deliver_overrun {s : State} (it : Item) (h : s.iface.overrun = true) : (s.deliver it).iface.overrun = true := by
  unfold deliver
  split
  · exact h
  · rfl

end State

/-- The item a colour word delivers (rule R29). -/
def itemOf (w : Word) : Item :=
  if w.getLsbD 31 then .endSeq
  else .color { r := w.extractLsb' 16 8, g := w.extractLsb' 8 8, b := w.extractLsb' 0 8 }

theorem exec_decodeColour (s : State) (w : Word) : exec (decodeColour w) s = .next (s.deliver (itemOf w)) := by
  unfold decodeColour itemOf
  split <;> rfl

/-! ### What an interface write can do -/

/-- What a HOST write of `v` at the interface offset `off` makes of the state. -/
inductive PortWrite (s : State) (off : Nat) (v : Word) : State → Prop
  /-- a CMD write while BUSY (rule R28) -/
  | dropped : PortWrite s off v s.overrun
  /-- a command that ends at its decode (rules R89 and R206) -/
  | rejected (idle : s.ctrl.pc = .idle) (e : ErrCode) : PortWrite s off v (s.decodeError e)
  /-- a command that starts (rule R100) -/
  | started (c : Ctrl) : PortWrite s off v { s with ctrl := c }
  /-- an ARG register (rule R25) -/
  | argument (a0 a1 a2 a3 : Word) :
    PortWrite s off v { s with iface := { s.iface with arg0 := a0, arg1 := a1, arg2 := a2, arg3 := a3 } }
  /-- a write of 1 to STATUS bit 2 (rule R28) -/
  | cleared (status : off = 0x14) (bit : v.getLsbD 2 = true) :
    PortWrite s off v { s with iface := { s.iface with overrun := false } }
  /-- a colour item (rule R29) -/
  | colour (it : Item) : PortWrite s off v (s.deliver it)
  /-- a register no write reaches (rules R27 and R30) -/
  | ignored : PortWrite s off v s

theorem writeCmd_cases {s t : State} {v : Word} (off : Nat) (h : s.writeCmd v = .next t) : PortWrite s off v t := by
  cases hb : s.busy with
  | true => rw [State.writeCmd_busy v hb] at h; cases h; exact .dropped
  | false =>
    have hp := State.busy_eq_false.1 hb
    cases hd : decodeCommand v with
    | reject r => simp [State.writeCmd, hb, hd] at h; cases h; exact .rejected hp _
    | instr i =>
      rw [State.writeCmd_instr hb hd] at h
      rcases exec_idle i s (decodeCommand_format hd) hp with ⟨c, he⟩ | he | ⟨_, he⟩ <;> rw [he] at h <;> cases h
      · exact .rejected hp c
      · exact .started _
      · exact .started _

theorem writeIface_cases {s t : State} {off : Nat} {v : Word} (h : s.writeIface off v = .next t) :
    PortWrite s off v t := by
  unfold State.writeIface at h
  split at h
  · exact writeCmd_cases off h
  iterate 4 (split at h; · cases h; exact .argument _ _ _ _)
  split at h
  · rename_i hoff
    cases h
    split
    · exact .cleared hoff ‹_›
    · exact .ignored
  · split at h
    · rw [exec_decodeColour] at h; cases h; exact .colour _
    · cases h; exact .ignored

namespace PortWrite

variable {s t : State} {off : Nat} {v : Word}

/-- An interface write reaches the interface and CTRL only. -/
theorem frame (h : PortWrite s off v t) : t = { s with iface := t.iface, ctrl := t.ctrl } := by
  cases h with
  | colour it => exact s.deliver_frame it
  | _ => rfl

theorem result (h : PortWrite s off v t) : t.iface.result = s.iface.result := by
  cases h with
  | colour it => exact s.deliver_result it
  | _ => rfl

/-- A HOST write changes ERR only where no command runs. -/
theorem err (h : PortWrite s off v t) (he : t.iface.err ≠ s.iface.err) : t.busy = false := by
  cases h with
  | rejected idle e => exact State.busy_eq_false.2 idle
  | colour it => exact absurd (s.deliver_err it) he
  | _ => exact absurd rfl he

theorem overrun (h : PortWrite s off v t) (ho : s.iface.overrun = true) :
    t.iface.overrun = true ∨ off = 0x14 ∧ v.getLsbD 2 = true := by
  cases h with
  | dropped => exact .inl rfl
  | cleared status bit => exact .inr ⟨status, bit⟩
  | colour it => exact .inl (State.deliver_overrun it ho)
  | _ => exact .inl ho

end PortWrite

/-! ### HOST's turn (rule R95) -/

/-- What HOST's turn makes of the state. -/
inductive HostMove (s : State) : State → Prop
  /-- an interface write -/
  | port {off : Nat} {v : Word} {t : State} (write : s.ifaceWrite = some (off, v)) (rest : List HostOp)
    (effect : PortWrite (s.setHostOps rest) off v t) : HostMove s t
  /-- a read, a wait, a store to RAM, or an access that is dropped -/
  | other (side : HostSide) (l : List Entry) (r : Bool) (sticky : s.faults.refused = true → r = true) :
    HostMove s { s with host := side, wb := { s.wb with host := l }, faults := { s.faults with refused := r } }

theorem enqueueAll_host (s : State) (es : List Entry) :
    s.enqueueAll .host es = { s with wb := { s.wb with host := s.wb.host ++ es } } := by
  unfold State.enqueueAll
  induction es generalizing s with
  | nil => simp
  | cons e es ih => rw [List.foldl_cons, ih]; simp [State.enqueue, WriteBuffers.set]

/-- A HOST store is a register write, for an aligned word in the interface window, or reaches HOST's write buffer and
FAULT.REFUSED only. -/
theorem hostStore_cases {s t : State} {a : Nat} {bytes : List Byte} (h : s.hostStore a bytes = .next t) :
    (inIface s.params a = true ∧ bytes.length = 4 ∧ a % 4 = 0 ∧
      s.writeIface (a - s.params.ifBase.toNat) (BitVec.ofNat 32 (leValue bytes)) = .next t) ∨
    ∃ l r, (s.faults.refused = true → r = true) ∧
      t = { s with wb := { s.wb with host := l }, faults := { s.faults with refused := r } } := by
  unfold State.hostStore at h
  split at h
  · split at h
    · rename_i hc
      simp only [Bool.and_eq_true, beq_iff_eq] at hc
      exact .inl ⟨hc.1.1, hc.1.2, hc.2, h⟩
    · cases h; exact .inr ⟨_, true, fun _ => rfl, rfl⟩
  right
  split at h
  · cases h; exact ⟨_, true, fun _ => rfl, rfl⟩
  split at h
  · cases h
  split at h <;> rw [enqueueAll_host] at h <;> cases h
  · exact ⟨_, true, fun _ => rfl, rfl⟩
  · exact ⟨_, _, id, rfl⟩

theorem ofNat_leValue_leBytes (v : Word) : BitVec.ofNat 32 (leValue (leBytes 4 v.toNat)) = v := by
  rw [(Laws.Layout.leValue_leBytes 4 v.toNat v.isLt).2, BitVec.ofNat_toNat, BitVec.setWidth_eq]

/-- A HOST store of an operation, where it is no register write. -/
theorem HostMove.of_store {s t : State} {a : Nat} {bytes : List Byte} {rest : List HostOp}
    (h : (s.setHostOps rest).hostStore a bytes = .next t)
    (hw : inIface s.params a = true → bytes.length = 4 → a % 4 = 0 →
      s.ifaceWrite = some (a - s.params.ifBase.toNat, BitVec.ofNat 32 (leValue bytes))) : HostMove s t := by
  rcases hostStore_cases h with ⟨hi, hl, ha, h⟩ | ⟨l, r, hr, rfl⟩
  · exact .port (hw hi hl ha) rest (writeIface_cases h)
  · exact .other _ l r hr

theorem hostOp_cases {s t : State} {op : HostOp} {rest : List HostOp} (hops : s.host.ops = op :: rest)
    (h : s.hostOp op rest = .next t) : HostMove s t := by
  unfold State.hostOp at h
  cases op with
  | w32 off v =>
    dsimp only at h
    split at h
    · cases h
    split at h
    · cases h; exact .other _ _ true fun _ => rfl
    · exact .port (by simp_all [State.ifaceWrite, offsetOk]) rest (writeIface_cases h)
  | r32 off =>
    dsimp only at h
    split at h
    · cases h
    split at h <;> cases h
    · exact .other _ _ true fun _ => rfl
    · exact .other _ _ _ id
  | poll off mask v =>
    dsimp only at h
    split at h
    · cases h
    split at h <;> cases h
    · exact .other _ _ true fun _ => rfl
    · split <;> exact .other _ _ _ id
  | mw8 a v => exact .of_store h (by simp)
  | mw16 a v => exact .of_store h (by simp [leBytes])
  | mw32 a v =>
    refine .of_store h fun hi _ ha => ?_
    rw [ofNat_leValue_leBytes]
    simp [State.ifaceWrite, hops, hi, ha]
  | fence =>
    cases h
    split <;> exact .other _ _ _ id

theorem hostTurn_cases {s t : State} (h : hostTurn s = .next t) : HostMove s t := by
  unfold hostTurn at h
  split at h
  · cases h; exact .other _ _ _ id
  · exact hostOp_cases ‹_› h

namespace HostMove

variable {s t : State}

/-- HOST reaches the interface, CTRL, its own write buffer and FAULT.REFUSED only (rule R51). -/
theorem frame (h : HostMove s t) : t = { s with
    iface := t.iface, ctrl := t.ctrl, wb := { s.wb with host := t.wb.host },
    faults := { s.faults with refused := t.faults.refused }, host := t.host } := by
  cases h with
  | port _ _ effect => rw [effect.frame]; rfl
  | other side l r _ => rfl

theorem refused (h : HostMove s t) (hr : s.faults.refused = true) : t.faults.refused = true := by
  cases h with
  | port _ _ effect => rw [effect.frame]; exact hr
  | other side l r sticky => exact sticky hr

theorem result (h : HostMove s t) : t.iface.result = s.iface.result := by
  cases h with
  | port _ _ effect => exact effect.result
  | other side l r _ => rfl

theorem err (h : HostMove s t) (he : t.iface.err ≠ s.iface.err) : t.busy = false := by
  cases h with
  | port _ _ effect => exact effect.err he
  | other side l r _ => exact absurd rfl he

theorem overrun (h : HostMove s t) (ho : s.iface.overrun = true) :
    t.iface.overrun = true ∨ ∃ v, s.ifaceWrite = some (0x14, v) ∧ v.getLsbD 2 = true := by
  cases h with
  | port write _ effect =>
    rcases effect.overrun ho with ht | ⟨rfl, bit⟩
    · exact .inl ht
    · exact .inr ⟨_, write, bit⟩
  | other side l r _ => exact .inl ho

end HostMove

/-! ### HOST's turn by its operation -/

theorem offsetOk_iff {off : Word} : offsetOk off = true ↔ off.toNat % 4 = 0 ∧ off.toNat < windowBytes := by
  simp [offsetOk]

section

variable {s : State} {off v mask : Word} {rest : List HostOp}

/-- A W32 in the window is the register write, with the operation taken off HOST's list. -/
theorem hostTurn_w32 (hops : s.host.ops = .w32 off v :: rest) (h : offsetOk off = true) :
    hostTurn s = (s.setHostOps rest).writeIface off.toNat v := by
  obtain ⟨ha, hlt⟩ := offsetOk_iff.1 h
  simp [hostTurn, hops, State.hostOp, ha, hlt]

theorem hostTurn_r32 (hops : s.host.ops = .r32 off :: rest) (h : offsetOk off = true) : hostTurn s = .next
    { s with host := { ops := rest, reads := s.host.reads ++ [s.readIface off.toNat] } } := by
  obtain ⟨ha, hlt⟩ := offsetOk_iff.1 h
  simp [hostTurn, hops, State.hostOp, ha, hlt, State.setHostOps]

theorem hostTurn_poll (hops : s.host.ops = .poll off mask v :: rest) (h : offsetOk off = true) : hostTurn s = .next
    (if s.readIface off.toNat &&& mask = v then s.setHostOps rest else s) := by
  obtain ⟨ha, hlt⟩ := offsetOk_iff.1 h
  simp [hostTurn, hops, State.hostOp, ha, hlt]

/-- An MW32 at IF_BASE is the CMD write (log 13). -/
theorem hostTurn_mw32_base (hops : s.host.ops = .mw32 s.params.ifBase v :: rest) (hwf : s.params.wf = true) :
    hostTurn s = (s.setHostOps rest).writeIface 0x00 v := by
  have ha : s.params.ifBase.toNat % 4 = 0 := by
    simp only [Params.wf, Bool.and_eq_true, beq_iff_eq] at hwf
    omega
  have hl : (leBytes 4 v.toNat).length = 4 := rfl
  simp [hostTurn, hops, State.hostOp, State.hostStore, hl, reachesIface, Params.apart, inIface, windowBytes, ha,
    ofNat_leValue_leBytes]

end

/-! ### CTRL's decisions -/

/-- What a decision makes of the state. -/
inductive Decided (s : State) : State → Prop
  /-- the command goes on, or waits -/
  | goesOn (c : Ctrl) : Decided s { s with ctrl := c }
  /-- the command ends with a code (rules R102 and R208) -/
  | ends (c : Ctrl) (e : ErrCode) : Decided s (State.endCommand { s with ctrl := c } e)
  /-- FAULT.REFUSED ends the command (rules R109, R110, R122 and R195) -/
  | refused : Decided s s.endRefused
  /-- the command returns a RESULT (rules R110 and R123) -/
  | returns (v : Word) (returning : s.ctrl.pc = .rlBody ∨ ∃ ch, s.ctrl.pc = .sdBody ch) :
    Decided s ((s.setResult v).endCommand .ok)

theorem decided_encodeCheck (s : State) : Decided s (encodeCheck s) := by
  unfold encodeCheck; dsimp only; split
  · exact .ends _ _
  · split
    · exact .ends _ _
    · split
      · exact .refused
      · exact .goesOn _

theorem decided_seqStartCheck (ch : Channel) (s : State) : Decided s (seqStartCheck ch s) := by
  unfold seqStartCheck; dsimp only; split
  · exact .ends _ _
  · split
    · exact .refused
    · exact .goesOn _

theorem decided_sendBufCheck (s : State) : Decided s (sendBufCheck s) := by
  unfold sendBufCheck; dsimp only; split
  · exact .ends _ _
  · split
    · exact .ends _ _
    · split
      · exact .ends _ _
      · split
        · exact .refused
        · exact .goesOn _

theorem decided_writeSingleFirst (s : State) : Decided s (writeSingleFirst s) := by
  unfold writeSingleFirst; split
  · exact .ends _ _
  · dsimp only; split
    · exact .ends _ _
    · exact .goesOn _

/-- Every decision goes on, ends its command with a code, is refused, or returns a RESULT. -/
theorem decision_decided (s : State) : Decided s (decision s) := by
  unfold decision
  split
  · exact .goesOn _
  iterate 4 · exact .ends _ _
  · unfold releaseDrain; split <;> exact .goesOn _
  · exact decided_encodeCheck s
  · rename_i hp
    unfold requiredLengthBody; dsimp only; split
    · exact .refused
    · exact .returns _ (.inl hp)
  · exact decided_seqStartCheck _ s
  · rename_i ch hp
    exact .returns _ (.inr ⟨ch, hp⟩)
  · unfold seqWaitPoll; split
    · exact .ends _ _
    · exact .goesOn _
  · exact decided_sendBufCheck s
  · unfold sendBufLoop; split <;> exact .goesOn _
  · unfold sendBufItem; split
    · exact .ends _ _
    · exact .goesOn _
  · exact .goesOn _
  · exact .goesOn _
  · unfold sendBufWait; split
    · exact .ends _ _
    · exact .goesOn _
  · exact decided_writeSingleFirst s
  · exact .goesOn _
  · unfold writeSingleNext; dsimp only; split <;> exact .goesOn _
  · unfold writeSingleTail; split
    · exact .goesOn _
    · exact .ends _ _
  · unfold writeLoopFirst; split
    · exact .ends _ _
    · exact .goesOn _
  · unfold writeLoopSecond; split <;> exact .goesOn _
  · exact .goesOn _
  · unfold writeLoopStep; split <;> split <;> exact .goesOn _
  · unfold writeLoopTest; split <;> exact .goesOn _
  · unfold writeLoopItem; split
    · exact .goesOn _
    · split
      · exact .ends _ _
      · exact .goesOn _
  · unfold writeLoopFinal; split
    · exact .ends _ _
    · exact .goesOn _

namespace Decided

variable {s t : State}

theorem refused_sticky (h : Decided s t) (hr : s.faults.refused = true) : t.faults.refused = true := by
  cases h with
  | refused => rfl
  | _ => exact hr

/-- A decision writes ERR only where it ends the command (rule R102). -/
theorem err (h : Decided s t) (he : t.iface.err ≠ s.iface.err) : t.busy = false := by
  cases h with
  | goesOn c => exact absurd rfl he
  | _ => rfl

/-- A decision writes RESULT only where it ends a command that returns one, with ERR = OK (rules R27 and R102). -/
theorem result (h : Decided s t) (hne : t.iface.result ≠ s.iface.result) :
    (s.ctrl.pc = .rlBody ∨ ∃ ch, s.ctrl.pc = .sdBody ch) ∧ t.busy = false ∧ t.iface.err = .ok := by
  cases h with
  | returns v returning => exact ⟨returning, rfl, rfl⟩
  | _ => exact absurd rfl hne

end Decided

/-! ### What CTRL leaves unchanged -/

section

variable (s : State)

@[simp] theorem decision_params : (decision s).params = s.params := by rw [onlyControl_decision s]
@[simp] theorem decision_drv : (decision s).drv = s.drv := by rw [onlyControl_decision s]
@[simp] theorem decision_wire : (decision s).wire = s.wire := by rw [onlyControl_decision s]
@[simp] theorem decision_marks : (decision s).marks = s.marks := by rw [onlyControl_decision s]
@[simp] theorem decision_dmaRace : (decision s).faults.dmaRace = s.faults.dmaRace := by rw [onlyControl_decision s]
@[simp] theorem decision_overrun : (decision s).iface.overrun = s.iface.overrun := by rw [onlyControl_decision s]

variable (m : Micro) (rest : List Micro)

@[simp] theorem microStep_err : (microStep m rest s).iface.err = s.iface.err := by
  rw [microStep_iface]; split <;> rfl
@[simp] theorem microStep_result : (microStep m rest s).iface.result = s.iface.result := by
  rw [microStep_iface]; split <;> rfl
@[simp] theorem microStep_overrun : (microStep m rest s).iface.overrun = s.iface.overrun := by
  rw [microStep_iface]; split <;> rfl

/-- A statement other than `DRV <- d` leaves the driver state and its record. -/
theorem microStep_noDrv (h : ∀ d, m ≠ .drv d) :
    (microStep m rest s).marks = s.marks ∧ (microStep m rest s).drv = s.drv := by
  rw [microStep_marks, microStep_drv]
  split
  · exact absurd rfl (h _)
  · exact ⟨rfl, rfl⟩

end

/-! ### A step by its turn -/

/-- CTRL in IDLE has no step (rule R21). -/
theorem ctrlTurn_idle {s : State} (h : s.ctrl.pc = .idle) : ctrlTurn s = .next s := by
  simp [ctrlTurn, h, Pc.instr]

/-- A stopped ENG has no step (rule R126). -/
theorem engTurn_stopped {s : State} (h : s.eng.play = .stopped) : engTurn s = .next s := by
  unfold engTurn
  rw [h]

/-- What a step makes of the state: the turn is taken off the schedule, and its agent moves. -/
inductive StepMove (s : State) : State → Prop
  /-- an agent with nothing to do -/
  | rests : StepMove s s.takeTurn
  | host {t : State} (turn : s.nextTurn = .host) (move : HostMove s.takeTurn t) : StepMove s t
  /-- CTRL performs a statement -/
  | statement {m : Micro} {rest : List Micro} (turn : s.nextTurn = .ctrl) (micro : s.ctrl.micro = m :: rest) :
    StepMove s (microStep m rest s.takeTurn)
  /-- CTRL decides -/
  | decision (turn : s.nextTurn = .ctrl) : StepMove s (decision s.takeTurn)
  /-- ENG plays a word -/
  | eng (turn : s.nextTurn = .eng) (w : Sample) : StepMove s ((s.takeTurn.countDraws 2).emitWord w)
  /-- a memory step -/
  | drain (w : Writer) : StepMove s (s.takeTurn.drain w)

theorem ctrlTurn_move {s t : State} (hn : s.nextTurn = .ctrl) (h : ctrlTurn s.takeTurn = .next t) : StepMove s t := by
  by_cases hp : s.takeTurn.ctrl.pc = .idle
  · rw [ctrlTurn_idle hp] at h; cases h; exact .rests
  · rw [ctrlTurn_running hp] at h
    cases h
    unfold advance
    cases hm : s.takeTurn.ctrl.micro with
    | nil => exact .decision hn
    | cons m rest => exact .statement hn (by simpa using hm)

theorem engTurn_move {s t : State} (hn : s.nextTurn = .eng) (h : engTurn s.takeTurn = .next t) : StepMove s t := by
  cases hp : s.takeTurn.eng.play with
  | stopped => rw [engTurn_stopped hp] at h; cases h; exact .rests
  | playing ch idx ll lptr lcnt => rw [engTurn_playing hp] at h; cases h; exact .eng hn _

theorem step_cases {s t : State} (h : step s = .next t) : StepMove s t := by
  unfold step at h
  cases hn : s.nextTurn with
  | host => rw [hn] at h; exact .host hn (hostTurn_cases h)
  | ctrl => rw [hn] at h; exact ctrlTurn_move hn h
  | eng => rw [hn] at h; exact engTurn_move hn h
  | drain w => rw [hn] at h; cases h; exact .drain w

/-! ### What no step undoes -/

/-- What of a state no step undoes: the fault bits and the wire trace. -/
def State.history (s : State) : FaultBits × List WireItem := (s.faults, s.wire)

/-- The fault bits set stay set (rule R53), and the wire trace only grows (rule R137). -/
structure Grows (a b : FaultBits × List WireItem) : Prop where
  dmaRace : a.1.dmaRace = true → b.1.dmaRace = true
  refused : a.1.refused = true → b.1.refused = true
  wire : a.2 <+: b.2

namespace Grows

variable {s t : State}

theorem refl (s : State) : Grows s.history s.history := ⟨id, id, List.prefix_rfl⟩

theorem trans {a b c : FaultBits × List WireItem} (h : Grows a b) (k : Grows b c) : Grows a c :=
  ⟨k.dmaRace ∘ h.dmaRace, k.refused ∘ h.refused, h.wire.trans k.wire⟩

theorem refuse (s : State) : Grows s.history s.refuse.history := ⟨id, fun _ => rfl, List.prefix_rfl⟩

theorem setLoopMode (s : State) (b : Bool) : Grows s.history (s.setLoopMode b).history := refl s

theorem emit (s : State) (x : WireItem) : Grows s.history (s.emit x).history := ⟨id, id, List.prefix_append _ _⟩

theorem markRace (s : State) (b : Bool) : Grows s.history (s.markRace b).history :=
  ⟨fun h => Bool.or_eq_true_iff.2 (.inl h), id, List.prefix_rfl⟩

theorem beginSeq (s : State) (n : Channel) (ll : Nat) : Grows s.history (s.beginSeq n ll).history := by
  unfold State.beginSeq
  dsimp only
  split
  · exact refuse s
  · exact markRace s _

theorem preempt (s : State) : Grows s.history s.preempt.history := by
  unfold State.preempt
  split
  · exact refl s
  · exact emit s .cut

theorem fireTask (s : State) (n : Channel) : Grows s.history (s.fireTask n).history := by
  unfold State.fireTask
  dsimp only
  split
  · exact refuse s
  · cases n with
    | A => exact .trans (preempt s) (.trans (setLoopMode _ _) (beginSeq _ .A _))
    | B =>
      dsimp only
      split
      · exact .trans (preempt s) (refuse _)
      · exact .trans (preempt s) (.trans (setLoopMode _ _) (beginSeq _ .B _))

theorem endSeq (s : State) (n : Channel) (ll : Nat) : Grows s.history (s.endSeq n ll).history := by
  unfold State.endSeq
  dsimp only
  split
  · exact emit s .gap
  · cases n with
    | A => exact (beginSeq (s.putEvent (.seqEnd .A) true) _ _).trans (markRace _ _)
    | B =>
      dsimp only
      split
      · exact beginSeq (s.putEvent (.seqEnd .B) true) _ _
      · exact emit s .gap

theorem emitWord (s : State) (w : Sample) : Grows s.history (s.emitWord w).history := by
  cases hp : s.eng.play with
  | stopped => rw [State.emitWord_stopped w hp]; exact refl s
  | playing ch idx ll lptr lcnt =>
    by_cases hi : idx + 1 = lcnt
    · rw [State.emitWord_last w hp hi]
      refine .trans ?_ (endSeq _ ch ll)
      exact emit s (.sym w)
    · rw [State.emitWord_inside w hp hi]; exact emit s (.sym w)

theorem drain (s : State) (w : Writer) : Grows s.history (s.drain w).history := by
  unfold State.drain
  split
  · exact refl s
  · exact markRace s _

theorem microStep (m : Micro) (rest : List Micro) (s : State) : Grows s.history (microStep m rest s).history := by
  by_cases ht : ∃ ch, m = .task ch
  · obtain ⟨ch, rfl⟩ := ht
    exact fireTask (s.setMicro rest) ch
  · obtain ⟨_, _, _, hwire, hfaults⟩ := microStep_noTask m rest s fun ch hc => ht ⟨ch, hc⟩
    rw [State.history, State.history, hfaults, hwire]
    exact refl s

theorem decision (s : State) : Grows s.history (decision s).history :=
  ⟨fun h => (decision_dmaRace s).trans h, (decision_decided s).refused_sticky, by simp [State.history]⟩

theorem hostMove (h : HostMove s t) : Grows s.history t.history := by
  refine ⟨fun hr => ?_, h.refused, ?_⟩
  · rw [h.frame]; exact hr
  · rw [h.frame]; exact List.prefix_rfl

end Grows

theorem step_grows {s t : State} (h : step s = .next t) : Grows s.history t.history := by
  have hs : s.history = s.takeTurn.history := by simp [State.history]
  rw [hs]
  cases step_cases h with
  | rests => exact .refl _
  | host _ move => exact .hostMove move
  | statement _ _ => exact .microStep _ _ _
  | decision _ => exact .decision _
  | eng _ w => exact .emitWord (s.takeTurn.countDraws 2) w
  | drain w => exact .drain _ w

/-- The parameters are configuration (rule R227). -/
theorem step_params {s t : State} (h : step s = .next t) : t.params = s.params := by
  cases step_cases h with
  | rests => simp
  | host _ move => rw [move.frame]; simp
  | statement _ _ => simp
  | decision _ => simp
  | eng _ w => simp
  | drain w => simp

/-- A step writes the driver state only by CTRL's statement `DRV <- d`, and records it then (rule R31; log 24). -/
theorem step_drv {s t : State} (h : step s = .next t) :
    (t.marks = s.marks ∧ t.drv = s.drv) ∨
    ∃ d rest, s.nextTurn = .ctrl ∧ s.ctrl.micro = .drv d :: rest ∧ t.drv = d ∧
      t.marks = s.marks ++ [(s.wire.length, d)] := by
  cases step_cases h with
  | rests => left; simp
  | host _ move => left; rw [move.frame]; simp
  | @statement m rest turn micro =>
    by_cases hm : ∃ d, m = .drv d
    · obtain ⟨d, rfl⟩ := hm
      exact .inr ⟨d, rest, turn, micro, by rw [microStep_drv], by rw [microStep_marks]; simp⟩
    · obtain ⟨hmarks, hdrv⟩ := microStep_noDrv s.takeTurn m rest fun d hd => hm ⟨d, hd⟩
      left; rw [hmarks, hdrv]; simp
  | decision _ => left; simp
  | eng _ w => left; simp
  | drain w => left; simp

/-- Settles O10: each agent's move only adds to the record, and `DRV <- d` is the one writer of the driver state. -/
theorem historyOnlyGrows : Obligations.HistoryOnlyGrows := by
  intro s t h
  have hg := step_grows h
  refine ⟨hg.dmaRace, hg.refused, hg.wire, step_params h, ?_⟩
  rcases step_drv h with hd | ⟨d, _, _, _, rfl, hmarks⟩
  · exact .inl hd
  · exact .inr hmarks

/-! ### The driver state (rule R31) -/

/-- The statement `DRV <- d` stands only in CONFIGURE and in CF_OFF, each with its own value (rules R150 and R153). -/
theorem planOk_drv {pc : Pc} {d : Drv} {rest : List Micro} (h : planOk pc (.drv d :: rest)) :
    (pc = .cfWrite ∧ d = .configured) ∨ (pc = .cfOff ∧ d = .unconfigured) := by
  unfold planOk at h
  split at h
  · left
    rcases h with h | ⟨k, hk, hall⟩
    · cases h
    · cases k with
      | nil => cases hk; exact ⟨rfl, rfl⟩
      | cons m k => cases hk; exact absurd (hall _ List.mem_cons_self) (by simp [Micro.isSetup])
  · right
    have hd := h.subset List.mem_cons_self
    exact ⟨rfl, by simpa [releaseWrites] using hd⟩
  · exact absurd (Pc.keepsSettings_of_mayPerform (h _ List.mem_cons_self)) (by simp [Micro.keepsSettings])

/-- Settles O24: a change of DRV is CTRL's `DRV <- d`, which the plan of the invariant keeps to CONFIGURE and CF_OFF. -/
theorem driverStateChanges : Obligations.DriverStateChanges := by
  refine ⟨rfl, fun s t hinv h hne => ?_⟩
  rcases step_drv h with ⟨_, hd⟩ | ⟨d, rest, turn, micro, rfl, _⟩
  · exact absurd hd hne
  refine ⟨turn, ?_⟩
  have hplan := hinv.plan
  rw [micro] at hplan
  rcases planOk_drv hplan with ⟨hp, hd⟩ | ⟨hp, hd⟩
  · exact .inl ⟨hd, by rw [hp]; rfl⟩
  · exact .inr ⟨hd, by rw [hp]; rfl⟩

/-! ### ERR, RESULT and OVERRUN -/

@[simp] theorem State.takeTurn_ifaceWrite (s : State) : s.takeTurn.ifaceWrite = s.ifaceWrite := by
  simp [State.ifaceWrite]

/-- ERR changes only at the end of a command, or where none runs (rules R26 and R102). -/
theorem step_err {s t : State} (h : step s = .next t) (hne : t.iface.err ≠ s.iface.err) : t.busy = false := by
  cases step_cases h with
  | host _ move => exact move.err (by simpa using hne)
  | decision _ => exact (decision_decided _).err (by simpa using hne)
  | statement _ _ => exact absurd (by simp) hne
  | rests => exact absurd (by simp) hne
  | eng _ w => exact absurd (by simp) hne
  | drain w => exact absurd (by simp) hne

/-- RESULT changes only where a command that returns one ends (rules R27 and R102). -/
theorem step_result {s t : State} (h : step s = .next t) (hne : t.iface.result ≠ s.iface.result) :
    s.nextTurn = .ctrl ∧ (s.ctrl.pc = .rlBody ∨ ∃ ch, s.ctrl.pc = .sdBody ch) ∧ t.busy = false ∧
      t.iface.err = .ok := by
  cases step_cases h with
  | decision turn => exact ⟨turn, by simpa using (decision_decided s.takeTurn).result (by simpa using hne)⟩
  | host _ move => exact absurd (by simp [move.result]) hne
  | statement _ _ => exact absurd (by simp) hne
  | rests => exact absurd (by simp) hne
  | eng _ w => exact absurd (by simp) hne
  | drain w => exact absurd (by simp) hne

/-- Settles O20: ERR and RESULT by every agent's move. -/
theorem outcomeWriters : Obligations.OutcomeWriters :=
  fun _ _ h => ⟨step_err h, step_result h⟩

/-- OVERRUN, once set, is cleared only by HOST's write of 1 to STATUS bit 2 (rule R28). -/
theorem step_overrun {s t : State} (h : step s = .next t) (ho : s.iface.overrun = true) :
    t.iface.overrun = true ∨ ∃ v, s.nextTurn = .host ∧ s.ifaceWrite = some (0x14, v) ∧ v.getLsbD 2 = true := by
  cases step_cases h with
  | host turn move =>
    rcases move.overrun (by simpa using ho) with ht | ⟨v, hw, hb⟩
    · exact .inl ht
    · exact .inr ⟨v, turn, by simpa using hw, hb⟩
  | decision _ => left; simpa using ho
  | statement _ _ => left; simpa using ho
  | rests => left; simpa using ho
  | eng _ w => left; simpa using ho
  | drain w => left; simpa using ho

/-- Settles O12: `step_overrun` for every step, and the port's own writes. -/
theorem overrunIsSticky : Obligations.OverrunIsSticky := by
  refine ⟨fun s t ho h => step_overrun h ho, fun s v hb => ?_, fun s v hb => ?_, fun s v hb => ?_, fun s v hp => ?_⟩
  · rw [State.writeIface_status, if_pos hb]
  · rw [State.writeIface_status, hb]; rfl
  · rw [State.writeIface_cmd, State.writeCmd_busy v hb]; rfl
  · rw [State.writeIface_colour, exec_decodeColour, State.deliver_noPull _ hp]; rfl

/-- Settles O58: the frame of HOST's move. -/
theorem hostReach : Obligations.HostReach := by
  intro s t h
  rw [(hostTurn_cases h).frame]
  exact ⟨rfl, rfl, rfl, rfl, rfl, rfl, rfl⟩

/-! ### The ARG registers (rules R25 and R94) -/

/-- The state with other words in the ARG registers. -/
def State.withArgs (a0 a1 a2 a3 : Word) (s : State) : State :=
  { s with iface := { s.iface with arg0 := a0, arg1 := a1, arg2 := a2, arg3 := a3 } }

namespace State
section
variable (a0 a1 a2 a3 : Word) (s : State)

@[simp] theorem withArgs_params : (s.withArgs a0 a1 a2 a3).params = s.params := rfl
@[simp] theorem withArgs_ctrl : (s.withArgs a0 a1 a2 a3).ctrl = s.ctrl := rfl
@[simp] theorem withArgs_eng : (s.withArgs a0 a1 a2 a3).eng = s.eng := rfl

theorem ite_withArgs {c : Prop} [Decidable c] (t u : State) : (if c then t else u).withArgs a0 a1 a2 a3 =
    if c then t.withArgs a0 a1 a2 a3 else u.withArgs a0 a1 a2 a3 := apply_ite _ _ _ _

theorem preempt_withArgs : (s.withArgs a0 a1 a2 a3).preempt = s.preempt.withArgs a0 a1 a2 a3 := by
  unfold preempt
  rw [withArgs_eng]
  split <;> rfl

theorem beginSeq_withArgs (n : Channel) (ll : Nat) :
    (s.withArgs a0 a1 a2 a3).beginSeq n ll = (s.beginSeq n ll).withArgs a0 a1 a2 a3 := by
  unfold beginSeq
  dsimp only [withArgs_eng]
  split <;> rfl

theorem fireTask_withArgs (n : Channel) :
    (s.withArgs a0 a1 a2 a3).fireTask n = (s.fireTask n).withArgs a0 a1 a2 a3 := by
  unfold fireTask
  rw [preempt_withArgs]
  cases n <;> (simp only [ite_withArgs, ← beginSeq_withArgs]; rfl)

end
end State

theorem microStep_withArgs (a0 a1 a2 a3 : Word) (m : Micro) (rest : List Micro) (s : State) :
    microStep m rest (s.withArgs a0 a1 a2 a3) = (microStep m rest s).withArgs a0 a1 a2 a3 := by
  cases m with
  | task ch => exact State.fireTask_withArgs a0 a1 a2 a3 (s.setMicro rest) ch
  | fence => simp only [microStep, State.ite_withArgs]; rfl
  | awaitEnd ch => simp only [microStep, State.ite_withArgs]; rfl
  | awaitItem => simp only [microStep, State.ite_withArgs]; rfl
  | _ => rfl

theorem decision_withArgs (a0 a1 a2 a3 : Word) (s : State) :
    decision (s.withArgs a0 a1 a2 a3) = (decision s).withArgs a0 a1 a2 a3 := by
  unfold decision
  rw [State.withArgs_ctrl]
  split
  · rfl
  iterate 4 · rfl
  · unfold releaseDrain; rw [State.ite_withArgs]; rfl
  · simp only [encodeCheck, State.ite_withArgs]; rfl
  · unfold requiredLengthBody; rw [State.ite_withArgs]; rfl
  · unfold seqStartCheck; dsimp only [State.withArgs_ctrl, State.withArgs_params]; split
    · rfl
    · rw [State.ite_withArgs]; rfl
  · rfl
  · unfold seqWaitPoll; rw [State.ite_withArgs]; rfl
  · cases hc : preflight s.params s.ctrl.ops.addr.toNat (requiredLength s.ctrl.ops.n.toNat) with
    | some c => simp only [sendBufCheck, State.withArgs_ctrl, State.withArgs_params, hc, State.ite_withArgs]; rfl
    | none => simp only [sendBufCheck, State.withArgs_ctrl, State.withArgs_params, hc, State.ite_withArgs]; rfl
  · unfold sendBufLoop; rw [State.ite_withArgs]; rfl
  · unfold sendBufItem; dsimp only [State.withArgs_ctrl]; split <;> rfl
  · rfl
  · rfl
  · unfold sendBufWait; rw [State.ite_withArgs]; rfl
  · unfold writeSingleFirst; dsimp only [State.withArgs_ctrl, State.withArgs_params]; split
    · rfl
    · split <;> rfl
  · rfl
  · unfold writeSingleNext; dsimp only [State.withArgs_ctrl]; split <;> rfl
  · unfold writeSingleTail; rw [State.ite_withArgs]; rfl
  · unfold writeLoopFirst; dsimp only [State.withArgs_ctrl]; split <;> rfl
  · unfold writeLoopSecond; dsimp only [State.withArgs_ctrl]; split <;> rfl
  · rfl
  · unfold writeLoopStep; rw [State.withArgs_ctrl]; split <;> rw [State.ite_withArgs] <;> rfl
  · unfold writeLoopTest; rw [State.ite_withArgs]; rfl
  · unfold writeLoopItem; dsimp only [State.withArgs_ctrl]; split
    · rfl
    · rw [State.ite_withArgs]; rfl
  · unfold writeLoopFinal; rw [State.ite_withArgs]; rfl

theorem advance_withArgs (a0 a1 a2 a3 : Word) (s : State) :
    advance (s.withArgs a0 a1 a2 a3) = (advance s).withArgs a0 a1 a2 a3 := by
  unfold advance
  rw [State.withArgs_ctrl]
  split
  · exact microStep_withArgs a0 a1 a2 a3 _ _ s
  · exact decision_withArgs a0 a1 a2 a3 s

/-- Settles O17: the registers by evaluation; a running command's step is `advance`, which never reads them. -/
theorem argRegisters : Obligations.ArgRegisters := by
  refine ⟨fun s v => ⟨rfl, rfl, rfl, rfl, rfl, rfl, rfl, rfl⟩, fun s t i a0 a1 a2 a3 hi h => ?_⟩
  rw [exec_running i s hi] at h
  cases h
  exact (exec_running i (s.withArgs a0 a1 a2 a3) hi).trans (congrArg _ (advance_withArgs a0 a1 a2 a3 s))

/-! ### Steps -/

theorem step_of_turn {s : State} {t : Turn} (h : s.nextTurn = t) : step s = runTurn t s.takeTurn := by
  rw [step, h]

/-- A sample widened to a word decodes as the sample (rule R85). -/
theorem decode_sample_setWidth (w : Sample) : decode .sample (w.setWidth 32) = decodeSample w := by
  have hlt : (w.setWidth 32).toNat < 2 ^ 16 := by rw [BitVec.toNat_setWidth]; omega
  have hw : (w.setWidth 32).setWidth 16 = w := by simp
  rw [decode, if_pos hlt, hw]

theorem engTurn_instr {s : State} {i : Instr} {ch : Channel} {idx ll lcnt : Nat} {lptr : Word}
    (hp : s.eng.play = .playing ch idx ll lptr lcnt)
    (hi : decodeSample (s.dmaSample (lptr.toNat + 2 * idx)) = .instr i) :
    engTurn s = exec i (s.countDraws 2) := by
  unfold engTurn
  simp only [hp, Play.sampleAddr, hi]

/-- Settles O5: each place by the turn that reads it. -/
theorem stepRunsFetchedInstruction : Obligations.StepRunsFetchedInstruction := by
  intro s i
  refine ⟨fun v rest hn hb hops hd => ?_, fun v rest hwf hn hb hops hd => ?_, fun v rest hn hops hd => ?_,
    fun ch idx ll lptr lcnt hn hp hd => ?_, fun hn hi => ?_, fun t rest ht => ?_⟩
  · have hw : hostTurn s.takeTurn = (s.takeTurn.setHostOps rest).writeIface 0x00 v :=
      hostTurn_w32 (s := s.takeTurn) (by simpa using hops) rfl
    rw [step_of_turn hn]
    exact hw.trans (State.writeCmd_instr (by simpa [State.busy] using hb) hd)
  · have hw : hostTurn s.takeTurn = (s.takeTurn.setHostOps rest).writeIface 0x00 v :=
      hostTurn_mw32_base (by simpa using hops) (by simpa using hwf)
    rw [step_of_turn hn]
    exact hw.trans (State.writeCmd_instr (by simpa [State.busy] using hb) hd)
  · have hw : hostTurn s.takeTurn = (s.takeTurn.setHostOps rest).writeIface 0x1C v :=
      hostTurn_w32 (s := s.takeTurn) (by simpa using hops) rfl
    have hi : decodeColour v = i := Decoded.instr.inj hd
    rw [step_of_turn hn, ← hi]
    exact hw
  · rw [decode_sample_setWidth] at hd
    rw [step_of_turn hn]
    exact engTurn_instr (by simpa using hp) hd
  · rw [step_of_turn hn]
    simp [runTurn, ctrlTurn, hi]
  · simp [State.nextTurn, State.takeTurn, ht]

/-! ### Reset (rules R55 and R225) -/

theorem runTurn_reset (t : Turn) : runTurn t State.reset = .next State.reset := by
  cases t with
  | host => rfl
  | ctrl => rfl
  | eng => rfl
  | drain w => cases w <;> rfl

/-- Settles O6: the reset state, field by field. -/
theorem resetState : Obligations.ResetState :=
  ⟨by decide, rfl, rfl, by decide, rfl, rfl, rfl, rfl, rfl, rfl, rfl, rfl, fun _ => rfl, runTurn_reset⟩

theorem inv_reset : Inv State.reset where
  memory := rfl
  idle _ := rfl
  plan := by simp [State.reset, Ctrl.reset, planOk]
  fenced := rfl
  pulls := rfl
  pullReq h := by cases h
  playing _ _ _ _ _ h := by cases h
  settings h := by cases h
  configuring h := by cases h
  releasing h := by cases h
  noInterrupts := ⟨rfl, rfl⟩
  wholePeriods := rfl

theorem windowInv_reset : WindowInv State.reset where
  mem _ h := by cases h
  host _ h := by cases h
  ctrl _ h := by cases h
  plan _ _ h := by cases h
  scratch h := by rcases h with h | h <;> cases h
  pulling h := by cases h

/-- Settles O7: the parameters of reset by evaluation, the invariants clause by clause. -/
theorem resetMeetsInvariants : Obligations.ResetMeetsInvariants := ⟨by decide, inv_reset, windowInv_reset⟩

/-! ### The interface registers -/

/-- STATUS bit 0 is BUSY, bit 1 CONFIGURED, bit 2 OVERRUN and bit 3 PULLREQ (rule R26). -/
theorem State.status_flags (s : State) : s.status.getLsbD 0 = s.busy ∧ s.status.getLsbD 1 = s.configured ∧
    s.status.getLsbD 2 = s.iface.overrun ∧ s.status.getLsbD 3 = s.iface.pullReq := by
  refine ⟨?_, ?_, ?_, ?_⟩ <;> (unfold State.status; simp only [BitVec.getLsbD_append]; simp)

/-- STATUS bits 11 to 8 are the code of ERR (rule R205). -/
theorem State.status_err (s : State) : s.status.extractLsb' 8 4 = s.iface.err.code := by
  apply BitVec.eq_of_getLsbD_eq
  intro i hi
  unfold State.status
  simp only [BitVec.getLsbD_extractLsb', BitVec.getLsbD_append, hi, decide_true, Bool.true_and]
  iterate 5 rw [if_neg (by omega)]
  rw [if_pos (by omega), show 8 + i - 1 - 1 - 1 - 1 - 4 = i by omega]

/-- The other bits of STATUS are 0. -/
theorem State.status_reserved (s : State) {b : Nat} (hb : 4 ≤ b ∧ b < 8 ∨ 12 ≤ b) : s.status.getLsbD b = false := by
  unfold State.status
  simp only [BitVec.getLsbD_append]
  iterate 4 rw [if_neg (by omega)]
  split
  · exact BitVec.getLsbD_zero
  · rw [if_neg (by omega)]
    exact BitVec.getLsbD_zero

/-- Settles O13: the STATUS word, flag by flag. -/
theorem statusWord : Obligations.StatusWord := by
  intro s
  obtain ⟨hbusy, hconf, hover, hpull⟩ := s.status_flags
  refine ⟨hbusy.trans ?_, hconf.trans ?_, hover, hpull, s.status_err.trans ?_, fun b hb => s.status_reserved hb⟩
  · rw [State.busy, bne, Bool.beq_eq_decide_eq]; simp
  · rw [State.configured, Bool.beq_eq_decide_eq]
  · cases s.iface.err <;> rfl

/-- Settles O14: a colour word delivers its item, which `deliver` takes up or drops. -/
theorem colorPort : Obligations.ColorPort := by
  intro s
  refine ⟨fun w hp hb => ?_, fun w hp hb => ?_, fun w hp => ?_, fun ign r g b hp => ?_, fun ign hp => ?_, rfl⟩
  · rw [State.writeIface_colour, exec_decodeColour, State.deliver_pull _ hp, itemOf, if_pos hb]
  · rw [State.writeIface_colour, exec_decodeColour, State.deliver_pull _ hp, itemOf, hb]; rfl
  · rw [State.writeIface_colour, exec_decodeColour, State.deliver_noPull _ hp]; rfl
  · exact congrArg _ (State.deliver_pull _ hp)
  · exact congrArg _ (State.deliver_pull _ hp)

/-- Settles O15: the register at a reserved offset, then HOST's W32 and R32 of it. -/
theorem reservedOffsets : Obligations.ReservedOffsets := by
  intro s off v rest hlo hhi
  have hread : s.readIface off.toNat = 0 := s.readIface_reserved hlo
  refine ⟨hread, s.writeIface_reserved v hlo, fun ha hops => ?_, fun ha hops => ?_⟩
  · rw [hostTurn_w32 hops (offsetOk_iff.2 ⟨ha, Nat.lt_succ_of_le hhi⟩), State.writeIface_reserved _ v hlo]; rfl
  · rw [hostTurn_r32 hops (offsetOk_iff.2 ⟨ha, Nat.lt_succ_of_le hhi⟩), hread]

/-- Settles O16: HOST's reading operations. -/
theorem readsHaveNoSideEffects : Obligations.ReadsHaveNoSideEffects := by
  intro s off mask v rest ha hlt
  have hoff := offsetOk_iff.2 ⟨ha, hlt⟩
  refine ⟨fun hops => hostTurn_r32 hops hoff, fun hops => ⟨fun hv => ?_, fun hv => ?_⟩, rfl⟩
  · rw [hostTurn_poll hops hoff, if_pos hv]; rfl
  · rw [hostTurn_poll hops hoff, if_neg hv]

end Sys2Proof.Machine

/-! PROOFS. 20_memory.md: HOST's stores and their entries, the start of a command, the two invariants through every turn,
the write buffers, ENG's reads and races, and the frame of a command's step. -/

namespace Sys2Proof.Machine

/-! ### HOST's stores (rules R66, R67 and R70) -/

/-- The entries HOST buffers for a store to RAM: halfwords where it is aligned, single bytes elsewhere (logs 9 and 14). -/
def hostEntries (a : Nat) (bytes : List Byte) : List Entry :=
  if a % bytes.length = 0 then storeEntries a bytes else byteEntries a bytes

theorem mem_byteEntries {a : Nat} {bytes : List Byte} {e : Entry} {c : Host.Cell} (he : e ∈ byteEntries a bytes)
    (hc : c ∈ e) : a ≤ c.1 ∧ c.1 < a + bytes.length := by
  induction bytes generalizing a with
  | nil => cases he
  | cons b bytes ih =>
    rcases List.mem_cons.1 he with rfl | he
    · simp at hc; simp [hc]
    · have := ih he
      simp only [List.length_cons]
      omega

theorem mem_storeEntries {a : Nat} {bytes : List Byte} {e : Entry} {c : Host.Cell} (he : e ∈ storeEntries a bytes)
    (hc : c ∈ e) : a ≤ c.1 ∧ c.1 < a + bytes.length := by
  induction a, bytes using storeEntries.induct with
  | case1 a b0 b1 rest ih =>
    rcases List.mem_cons.1 he with rfl | he
    · simp at hc; rcases hc with rfl | rfl <;> simp
    · have := ih he
      simp only [List.length_cons]
      omega
  | case2 a b => simp [storeEntries] at he; subst he; simp at hc; simp [hc]
  | case3 a => cases he

/-- The entries of a store write the bytes stored to, no others. -/
theorem mem_hostEntries {a : Nat} {bytes : List Byte} {e : Entry} {c : Host.Cell} (he : e ∈ hostEntries a bytes)
    (hc : c ∈ e) : a ≤ c.1 ∧ c.1 < a + bytes.length := by
  unfold hostEntries at he
  split at he
  · exact mem_storeEntries he hc
  · exact mem_byteEntries he hc

/-- The entries of a store to RAM lie in the RAM window. -/
theorem hostEntries_inRam {p : Params} {a : Nat} {bytes : List Byte} (h : inRam p a bytes.length = true) {e : Entry}
    (he : e ∈ hostEntries a bytes) : Entry.inRam p e := by
  intro c hc
  have hb := mem_hostEntries he hc
  simp only [inRam, Bool.and_eq_true, decide_eq_true_eq] at h ⊢
  omega

namespace State

variable {s : State} {a : Nat} {bytes : List Byte}

/-- A store that reaches an internal buffer is refused (rule R66; log 13). -/
theorem hostStore_buffer (hi : reachesIface s.params a bytes.length = false)
    (ho : overlapsBuffers s.params a bytes.length = true) : s.hostStore a bytes = .next s.refuse := by
  simp [hostStore, hi, ho]

/-- A store to RAM is buffered, and marked where it is misaligned (rules R67 and R70; log 14). -/
theorem hostStore_ram (hi : reachesIface s.params a bytes.length = false)
    (ho : overlapsBuffers s.params a bytes.length = false) (hr : inRam s.params a bytes.length = true) :
    s.hostStore a bytes = .next { s with
      wb := { s.wb with host := s.wb.host ++ hostEntries a bytes }
      faults := { s.faults with refused := s.faults.refused || decide (a % bytes.length ≠ 0) } } := by
  by_cases ha : a % bytes.length = 0 <;> simp [hostStore, hi, ho, hr, ha, enqueueAll_host, hostEntries, refuse]

/-- A store to neither RAM nor the interface window stops (rule R60; log 14). -/
theorem hostStore_unmapped (hi : reachesIface s.params a bytes.length = false)
    (ho : overlapsBuffers s.params a bytes.length = false) (hr : inRam s.params a bytes.length = false) :
    s.hostStore a bytes = .fault .hostStoreUnmapped := by
  simp [hostStore, hi, ho, hr]

/-- A store to the interface window that is no aligned word is refused (rule R76; log 13). -/
theorem hostStore_iface_refused (hi : reachesIface s.params a bytes.length = true)
    (hw : inIface s.params a = false ∨ bytes.length ≠ 4 ∨ a % 4 ≠ 0) : s.hostStore a bytes = .next s.refuse := by
  have hn : (inIface s.params a && bytes.length == 4 && a % 4 == 0) = false := by
    rcases hw with h | h | h <;> simp [h]
  simp [hostStore, hi, hn]

/-- An aligned word stored to the interface window is a register write (log 13). -/
theorem hostStore_iface (hi : reachesIface s.params a bytes.length = true)
    (hw : (inIface s.params a && bytes.length == 4 && a % 4 == 0) = true) :
    s.hostStore a bytes = s.writeIface (a - s.params.ifBase.toNat) (BitVec.ofNat 32 (leValue bytes)) := by
  rw [hostStore, if_pos hi, if_pos hw]

end State

/-- A storing operation of HOST is its store. -/
theorem hostTurn_store {s : State} {op : HostOp} {rest : List HostOp} {a : Nat} {bytes : List Byte}
    (hops : s.host.ops = op :: rest) (h : op.store = some (a, bytes)) :
    hostTurn s = (s.setHostOps rest).hostStore a bytes := by
  rw [hostTurn, hops]
  cases op <;> cases h <;> rfl

/-- HOST's turn in full: what it writes to the interface, refuses or buffers. -/
inductive HostEffect (s : State) : State → Prop
  /-- an interface write -/
  | port {t : State} (rest : List HostOp) (off : Nat) (v : Word)
    (write : (s.setHostOps rest).writeIface off v = .next t) : HostEffect s t
  /-- a read, a wait or a refused access -/
  | access (side : HostSide) (r : Bool) :
    HostEffect s { s with host := side, faults := { s.faults with refused := r } }
  /-- a store to RAM -/
  | store (side : HostSide) (r : Bool) (a : Nat) (bytes : List Byte) (ram : inRam s.params a bytes.length = true) :
    HostEffect s { s with
      host := side, wb := { s.wb with host := s.wb.host ++ hostEntries a bytes }
      faults := { s.faults with refused := r } }

theorem HostEffect.of_hostStore {s t : State} {rest : List HostOp} {a : Nat} {bytes : List Byte}
    (h : (s.setHostOps rest).hostStore a bytes = .next t) : HostEffect s t := by
  cases hi : reachesIface (s.setHostOps rest).params a bytes.length with
  | true =>
    by_cases hw : (inIface (s.setHostOps rest).params a && bytes.length == 4 && a % 4 == 0) = true
    · rw [State.hostStore_iface hi hw] at h
      exact .port rest _ _ h
    · rw [State.hostStore, if_pos hi, if_neg hw] at h
      cases h; exact .access _ true
  | false =>
    cases ho : overlapsBuffers (s.setHostOps rest).params a bytes.length with
    | true => rw [State.hostStore_buffer hi ho] at h; cases h; exact .access _ true
    | false =>
      cases hr : inRam (s.setHostOps rest).params a bytes.length with
      | true => rw [State.hostStore_ram hi ho hr] at h; cases h; exact .store _ _ a bytes hr
      | false => rw [State.hostStore_unmapped hi ho hr] at h; cases h

theorem hostTurn_effect {s t : State} (h : hostTurn s = .next t) : HostEffect s t := by
  cases hops : s.host.ops with
  | nil => rw [hostTurn, hops] at h; cases h; exact .access _ _
  | cons op rest =>
    cases hs : op.store with
    | some st => rw [hostTurn_store hops hs] at h; exact .of_hostStore h
    | none =>
      rw [hostTurn, hops] at h
      cases op with
      | w32 off v =>
        dsimp only [State.hostOp] at h
        split at h
        · cases h
        split at h
        · cases h; exact .access _ true
        · exact .port rest _ _ h
      | r32 off =>
        dsimp only [State.hostOp] at h
        split at h
        · cases h
        split at h <;> cases h
        · exact .access _ true
        · exact .access _ _
      | poll off mask v =>
        dsimp only [State.hostOp] at h
        split at h
        · cases h
        split at h <;> cases h
        · exact .access _ true
        · split <;> exact .access _ _
      | fence => cases h; split <;> exact .access _ _
      | mw8 a v => cases hs
      | mw16 a v => cases hs
      | mw32 a v => cases hs

/-! ### The start of a command (rule R100) -/

/-- A command other than CONFIGURE has begun: CTRL is in its first state, with a plan that writes no memory. -/
structure Begun (s t : State) : Prop where
  frame : t = { s with ctrl := t.ctrl }
  running : t.ctrl.pc ≠ .idle
  notConfiguring : t.ctrl.pc ≠ .cfWrite
  notTurningOff : t.ctrl.pc ≠ .cfOff
  notFilling : t.ctrl.pc ≠ .sbLoop ∧ t.ctrl.pc ≠ .sbFill
  plan : Plan t.ctrl.pc t.ctrl.micro
  noWrite : ∀ a v, Micro.memWrite a v ∉ t.ctrl.micro

theorem Begun.waits {s t : State} (frame : t = { s with ctrl := t.ctrl }) (hm : t.ctrl.micro = [])
    (hp : t.ctrl.pc ∉ ([.idle, .cfWrite, .cfOff, .sbLoop, .sbFill] : List Pc)) : Begun s t := by
  simp only [List.mem_cons, List.not_mem_nil, or_false, not_or] at hp
  obtain ⟨hidle, hwrite, hoff, hfill⟩ := hp
  exact ⟨frame, hidle, hwrite, hoff, hfill, by rw [hm]; exact .nil, by simp [hm]⟩

theorem Begun.pulls {s t : State} (frame : t = { s with ctrl := t.ctrl }) (hm : t.ctrl.micro = pull)
    (hp : t.ctrl.pc = .wsFirst ∨ t.ctrl.pc = .wlSetup) : Begun s t := by
  rcases hp with hp | hp <;>
    exact ⟨frame, by simp [hp], by simp [hp], by simp [hp], by simp [hp], by rw [hp, hm]; exact .of_decide rfl,
      by simp [hm, pull]⟩

/-- What an idle CTRL makes of CONFIGURE (rules R100, R150 and R152). -/
theorem execConfigure_idle {s t : State} (hp : s.ctrl.pc = .idle) (h : execConfigure s = .next t) :
    t = s.decodeError .badCommand ∨
    s.drv = .unconfigured ∧ t = s.start .cfWrite (configureWrites s.iface.operands.pin) := by
  rw [execConfigure, hp] at h
  cases hd : s.drv with
  | configured => simp [hd] at h; exact .inl h.symm
  | unconfigured => simp [hd] at h; exact .inr ⟨rfl, h.symm⟩

/-- What an idle CTRL makes of a command: a decode error, the start of CONFIGURE from an unconfigured driver, or the
start of another command (rules R100, R150 and R206). -/
theorem exec_idle_starts {i : Instr} {s t : State} (hf : i.format = .command) (hp : s.ctrl.pc = .idle)
    (h : exec i s = .next t) : (∃ c, t = s.decodeError c) ∨
    (s.drv = .unconfigured ∧ t = s.start .cfWrite (configureWrites s.iface.operands.pin)) ∨ Begun s t := by
  by_cases hc : i = .configure
  · subst hc
    exact (execConfigure_idle hp h).imp (⟨_, ·⟩) .inl
  have hidle := exec_idle i s hf hp
  rw [h] at hidle
  rcases hidle with ⟨c, he⟩ | he | ⟨_, he⟩ <;> cases he
  · exact .inl ⟨c, rfl⟩
  · right; right
    cases i with
    | configure => exact absurd rfl hc
    | writeSingle => exact .pulls rfl rfl (.inl rfl)
    | writeLoop => exact .pulls rfl rfl (.inr rfl)
    | symOne | symZero | symIdle | color | endItem => cases hf
    | _ => exact .waits rfl rfl (by simp [firstState])
  · exact .inr (.inr (.pulls rfl rfl (.inr rfl)))

/-- An interface write starts a command in an idle CTRL, or leaves CTRL its state and statements and raises no PULLREQ. -/
theorem writeIface_ctrl {s t : State} {off : Nat} {v : Word} (h : s.writeIface off v = .next t) :
    (∃ i, i.format = .command ∧ s.ctrl.pc = .idle ∧ exec i s = .next t) ∨
    ((∃ it, t.ctrl = { s.ctrl with item := it }) ∧ (t.iface.pullReq = true → s.iface.pullReq = true)) := by
  by_cases hoff : off = 0x00
  · subst hoff
    rw [State.writeIface_cmd] at h
    cases hb : s.busy with
    | true => rw [State.writeCmd_busy v hb] at h; cases h; exact .inr ⟨⟨_, rfl⟩, id⟩
    | false =>
      cases hd : decodeCommand v with
      | reject r => simp [State.writeCmd, hb, hd] at h; subst h; exact .inr ⟨⟨_, rfl⟩, id⟩
      | instr i =>
        rw [State.writeCmd_instr hb hd] at h
        exact .inl ⟨i, decodeCommand_format hd, State.busy_eq_false.1 hb, h⟩
  · right
    rw [State.writeIface, if_neg hoff] at h
    iterate 4 (split at h; · cases h; exact ⟨⟨_, rfl⟩, id⟩)
    split at h
    · cases h; split <;> exact ⟨⟨_, rfl⟩, id⟩
    split at h
    · rw [exec_decodeColour] at h
      cases h
      cases hq : s.iface.pullReq with
      | true => rw [State.deliver_pull _ hq]; exact ⟨⟨_, rfl⟩, fun h => by cases h⟩
      | false => rw [State.deliver_noPull _ hq]; exact ⟨⟨_, rfl⟩, fun h => hq.symm.trans h⟩
    · cases h; exact ⟨⟨_, rfl⟩, id⟩

/-! ### The invariant of the machine through every turn -/

theorem Inv.takeTurn {s : State} (h : Inv s) : Inv s.takeTurn :=
  h.congr (by simpa using h.memory) (by simp) (by simp) (by simp) (by simp) (by simp) (by simp)
    (by simpa using h.hasSample) (by simp) (by simpa using h.wholePeriods)

/-- A change of the interface that raises no PULLREQ, of HOST, its buffer or FAULT, and of CTRL's working registers. -/
theorem Inv.outside {s t : State} (h : Inv s) (eng : t.eng = s.eng) (mem : t.mem = s.mem) (drv : t.drv = s.drv)
    (wb : t.wb.ctrl = s.wb.ctrl) (pc : t.ctrl.pc = s.ctrl.pc) (micro : t.ctrl.micro = s.ctrl.micro)
    (pull : t.iface.pullReq = true → s.iface.pullReq = true) : Inv t :=
  h.congr (by rw [mem]; exact h.memory) pc micro (by rw [wb]; exact id) drv pull (by rw [eng])
    (by rw [eng]; exact h.hasSample) (by rw [eng]; exact id) (by rw [eng]; exact h.wholePeriods)

/-- CONFIGURE's statements make the settings of rule R151, whatever the registers were. -/
theorem fixed_configureWrites (pin : BitVec 6) (r : EngRegs) :
    ((configureWrites pin).foldl (fun r m => m.regs r) r).fixed := by
  have hpin : (pin.setWidth 32).toNat < 64 := by
    rw [BitVec.toNat_setWidth]
    have := pin.isLt
    omega
  exact ⟨rfl, rfl, rfl, rfl, rfl, rfl, rfl, rfl, rfl, rfl, hpin, rfl, rfl, rfl⟩

/-- CONFIGURE's statements are settings and event clears, then `DRV <- Configured` (rule R150). -/
theorem planOk_configureWrites (pin : BitVec 6) : planOk .cfWrite (configureWrites pin) := by
  refine .inr ⟨(configureWrites pin).dropLast, rfl, fun m hm => ?_⟩
  have hall : (configureWrites pin).dropLast.all Micro.isSetup = true := rfl
  exact List.all_eq_true.1 hall m hm

/-- CONFIGURE starts from an unconfigured driver. -/
theorem Inv.startConfigure {s : State} (h : Inv s) (hp : s.ctrl.pc = .idle) (hd : s.drv = .unconfigured)
    (pin : BitVec 6) : Inv (s.start .cfWrite (configureWrites pin)) where
  memory := h.memory
  idle hc := by cases hc
  plan := planOk_configureWrites pin
  fenced := rfl
  pulls := rfl
  pullReq hq := by
    have hw := h.pullReq hq
    rw [h.idle hp] at hw
    cases hw
  playing := h.playing
  settings hc := absurd (hd.symm.trans hc) (by simp)
  configuring _ := ⟨fixed_configureWrites pin s.eng.regs, fun _ => hd⟩
  releasing hc := by cases hc
  noInterrupts := h.noInterrupts
  wholePeriods := h.wholePeriods

/-- A command that has begun from an idle CTRL. -/
theorem Inv.begun {s t : State} (h : Inv s) (hp : s.ctrl.pc = .idle) (hb : Begun s t) : Inv t := by
  have hr := h.registers { t.ctrl with pc := s.ctrl.pc, micro := s.ctrl.micro } rfl rfl
  rw [hb.frame]
  exact hr.goto (h.idle hp) (by rw [hp]; simp) hb.running hb.notConfiguring hb.notTurningOff hb.plan

/-- An interface write keeps the invariant. -/
theorem Inv.writeIface {s t : State} (h : Inv s) {off : Nat} {v : Word} (hw : s.writeIface off v = .next t) :
    Inv t := by
  have hframe := (writeIface_cases hw).frame
  rcases writeIface_ctrl hw with ⟨i, hf, hp, he⟩ | ⟨⟨it, hc⟩, hpull⟩
  · rcases exec_idle_starts hf hp he with ⟨c, rfl⟩ | ⟨hd, rfl⟩ | hb
    · exact h.outside rfl rfl rfl rfl rfl rfl id
    · exact h.startConfigure hp hd _
    · exact h.begun hp hb
  · refine h.outside ?_ ?_ ?_ ?_ ?_ ?_ hpull
    iterate 4 rw [hframe]
    iterate 2 rw [hc]

/-- HOST's turn keeps the invariant. -/
theorem Inv.hostEffect {s t : State} (h : Inv s) (he : HostEffect s t) : Inv t := by
  cases he with
  | port rest off v write => exact (h.outside rfl rfl rfl rfl rfl rfl id : Inv (s.setHostOps rest)).writeIface write
  | access side r => exact h.outside rfl rfl rfl rfl rfl rfl id
  | store side r a bytes ram => exact h.outside rfl rfl rfl rfl rfl rfl id

/-- Every agent's turn keeps the invariant. -/
theorem Inv.runTurn {s t : State} (h : Inv s) {w : Turn} (hr : runTurn w s = .next t) : Inv t := by
  cases w with
  | host => exact h.hostEffect (hostTurn_effect hr)
  | ctrl =>
    by_cases hp : s.ctrl.pc = .idle
    · cases (ctrlTurn_idle hp).symm.trans hr; exact h
    · cases (ctrlTurn_running hp).symm.trans hr; exact advance_inv h
  | eng =>
    cases hp : s.eng.play with
    | stopped => cases (engTurn_stopped hp).symm.trans hr; exact h
    | playing ch idx ll lptr lcnt =>
      cases (engTurn_playing hp).symm.trans hr
      exact (h.outside rfl rfl rfl rfl rfl rfl id : Inv (s.countDraws 2)).emitWord _
  | drain w => cases hr; exact h.drain w

/-- Settles O8: taking the turn off the schedule, then the turn itself, whichever agent's it is. -/
theorem stepKeepsInv : Obligations.StepKeepsInv :=
  fun _ _ h hs => h.takeTurn.runTurn hs

/-! ### The window invariant through every turn (rules R60, R62 and R66) -/

/-- The invariant does not depend on the interface, the driver, ENG, HOST or the schedule. -/
theorem WindowInv.outside {s t : State} (h : WindowInv s) (params : t.params = s.params) (mem : t.mem = s.mem)
    (wb : t.wb = s.wb) (ctrl : ∃ it, t.ctrl = { s.ctrl with item := it }) : WindowInv t := by
  obtain ⟨it, hc⟩ := ctrl
  apply h.congr params mem wb <;> rw [hc]
  exact fun _ => id

theorem WindowInv.takeTurn {s : State} (h : WindowInv s) : WindowInv s.takeTurn :=
  h.outside (by simp) (by simp) (by simp) ⟨s.ctrl.item, by simp⟩

/-- An interface write keeps the invariant: no command writes memory as it starts. -/
theorem WindowInv.writeIface {s t : State} (h : WindowInv s) {off : Nat} {v : Word}
    (hw : s.writeIface off v = .next t) : WindowInv t := by
  have hframe := (writeIface_cases hw).frame
  rcases writeIface_ctrl hw with ⟨i, hf, hp, he⟩ | ⟨hc, _⟩
  · rcases exec_idle_starts hf hp he with ⟨c, rfl⟩ | ⟨_, rfl⟩ | hb
    · exact h.outside rfl rfl rfl ⟨_, rfl⟩
    · exact h.of rfl (by simp [configureWrites, allEvents]) (by simp) (by simp)
    · exact h.of (by rw [hb.frame]; rfl) (fun a v hm => absurd hm (hb.noWrite a v)) hb.notFilling.1 hb.notFilling.2
  · refine h.outside ?_ ?_ ?_ hc
    iterate 3 rw [hframe]

/-- HOST's turn keeps the invariant: it buffers a store only inside the RAM window. -/
theorem WindowInv.hostEffect {s t : State} (h : WindowInv s) (he : HostEffect s t) : WindowInv t := by
  cases he with
  | port rest off v write => exact (h.outside rfl rfl rfl ⟨_, rfl⟩ : WindowInv (s.setHostOps rest)).writeIface write
  | access side r => exact h.outside rfl rfl rfl ⟨_, rfl⟩
  | store side r a bytes ram =>
    exact { h with host := fun e he => (List.mem_append.1 he).elim (h.host e) (hostEntries_inRam ram) }

/-- A step of a running command keeps the invariant. -/
theorem WindowInv.advance {s : State} (hwf : s.params.wf = true) (h : WindowInv s) : WindowInv (advance s) := by
  unfold Machine.advance
  split
  · exact h.microStep hwf ‹_›
  · exact decision_window hwf h ‹_›

/-- Every agent's turn keeps the invariant. -/
theorem WindowInv.runTurn {s t : State} (hwf : s.params.wf = true) (h : WindowInv s) {w : Turn}
    (hr : runTurn w s = .next t) : WindowInv t := by
  cases w with
  | host => exact h.hostEffect (hostTurn_effect hr)
  | ctrl =>
    by_cases hp : s.ctrl.pc = .idle
    · cases (ctrlTurn_idle hp).symm.trans hr; exact h
    · cases (ctrlTurn_running hp).symm.trans hr; exact h.advance hwf
  | eng =>
    cases hp : s.eng.play with
    | stopped => cases (engTurn_stopped hp).symm.trans hr; exact h
    | playing ch idx ll lptr lcnt =>
      cases (engTurn_playing hp).symm.trans hr
      exact h.outside (by simp) (by simp) (by simp) ⟨s.ctrl.item, by simp⟩
  | drain w => cases hr; exact h.drain w

/-- Settles O9: taking the turn off the schedule, then the turn itself, whichever agent's it is. -/
theorem stepKeepsWindow : Obligations.StepKeepsWindow :=
  fun s _ hwf h hs => h.takeTurn.runTurn (by simpa using hwf) hs

/-! ### The write buffers (rules R70 and R71) -/

/-- The byte the youngest of a list of entries writes to an address, the oldest entry first (rule R70). -/
def readEntries (es : List Entry) (x : Nat) : Option Byte := es.reverse.findSome? fun e => Entry.read e x

/-- An agent reads its own youngest entry that covers the address, else MEM. -/
theorem State.readAs_eq (s : State) (w : Writer) (x : Nat) :
    s.readAs w x = (readEntries (s.wb.of w) x).or (Memory.read s.mem x) := by
  unfold State.readAs readEntries
  split <;> rename_i h <;> simp [h]

theorem readEntries_append (es fs : List Entry) (x : Nat) :
    readEntries (es ++ fs) x = (readEntries fs x).or (readEntries es x) := by
  simp [readEntries, List.findSome?_append]

theorem readEntries_cons (e : Entry) (es : List Entry) (x : Nat) :
    readEntries (e :: es) x = (readEntries es x).or (Entry.read e x) := by
  rw [← List.singleton_append, readEntries_append]
  simp [readEntries]

/-- Entries appended to an agent's buffer are read before what it read so far. -/
theorem readAs_append {s t : State} {w : Writer} {es : List Entry} (hwb : t.wb.of w = s.wb.of w ++ es)
    (hmem : t.mem = s.mem) (x : Nat) : t.readAs w x = (readEntries es x).or (s.readAs w x) := by
  rw [State.readAs_eq, State.readAs_eq, hwb, hmem, readEntries_append, Option.or_assoc]

/-- An entry of one byte is read at its address. -/
theorem Entry.read_singleton (a : Nat) (b : Byte) (x : Nat) :
    Entry.read [(a, b)] x = if x = a then some b else none := by
  by_cases h : x = a
  · simp [Entry.read, h]
  · simp [Entry.read, h, Ne.symm h]

/-- An entry of two bytes is read at their addresses. -/
theorem Entry.read_pair (a : Nat) (b c : Byte) (x : Nat) :
    Entry.read [(a, b), (a + 1, c)] x = if x = a then some b else if x = a + 1 then some c else none := by
  unfold Entry.read
  by_cases h0 : x = a
  · subst h0; simp
  · by_cases h1 : x = a + 1
    · subst h1; simp
    · simp [h0, h1, Ne.symm h0, Ne.symm h1]

/-- A sample's entry is read little-endian (rule R64). -/
theorem readEntries_sampleCells (a : Nat) (v : Sample) (x : Nat) : readEntries [sampleCells a v] x =
    if x = a then some (v.extractLsb' 0 8) else if x = a + 1 then some (v.extractLsb' 8 8) else none := by
  rw [readEntries_cons]
  exact Entry.read_pair _ _ _ x

/-- An agent reads the sample it buffered last, and every other byte as before (rule R70). -/
theorem readAs_append_sample {s t : State} {w : Writer} {a : Nat} {v : Sample}
    (hwb : t.wb.of w = s.wb.of w ++ [sampleCells a v]) (hmem : t.mem = s.mem) :
    t.readAs w a = some (v.extractLsb' 0 8) ∧ t.readAs w (a + 1) = some (v.extractLsb' 8 8) ∧
    ∀ x, x ≠ a → x ≠ a + 1 → t.readAs w x = s.readAs w x := by
  have hread := readAs_append hwb hmem
  simp only [readEntries_sampleCells] at hread
  refine ⟨by simp [hread], by simp [hread], fun x h0 h1 => by simp [hread, h0, h1]⟩

/-- A memory step with an entry stores the oldest one, and is a race where that writes the playing region (rule R74). -/
theorem State.drain_cons {s : State} {w : Writer} {e : Entry} {rest : List Entry} (h : s.wb.of w = e :: rest) :
    s.drain w = ({ s with wb := s.wb.set w rest, mem := Memory.store s.mem e }).markRace (s.eng.play.covers e) := by
  rw [drain, h]

theorem State.drain_nil {s : State} {w : Writer} (h : s.wb.of w = []) : s.drain w = s := by
  rw [drain, h]

/-- Settles O54: the memory step by the buffer's shape, and a buffered sample as its agent reads it. -/
theorem writeBufferFifo : Obligations.WriteBufferFifo := by
  intro s w
  refine ⟨fun e rest h => ⟨_, rfl, ?_⟩, fun h => congrArg _ (State.drain_nil h), fun a v => ?_⟩
  · rw [State.drain_cons h]
    exact ⟨rfl, rfl, rfl, rfl, rfl, rfl, rfl, rfl⟩
  · have hwb : (s.enqueue w (sampleCells a v)).wb.of w = s.wb.of w ++ [sampleCells a v] := by simp
    exact ⟨hwb, readAs_append_sample hwb (State.enqueue_mem s w _)⟩

/-! ### HOST's stores as HOST reads them (rules R66, R67, R70 and R76) -/

theorem readEntries_byteEntries (a : Nat) (bytes : List Byte) (x : Nat) :
    readEntries (byteEntries a bytes) x = if a ≤ x then bytes[x - a]? else none := by
  induction bytes generalizing a with
  | nil => simp [byteEntries, readEntries]
  | cons b bytes ih =>
    rw [byteEntries, readEntries_cons, ih, Entry.read_singleton]
    by_cases h : a + 1 ≤ x
    · obtain ⟨k, rfl⟩ := Nat.exists_eq_add_of_le h
      simp [show a + 1 + k - a = k + 1 by omega, show a ≤ a + 1 + k by omega, show a + 1 + k ≠ a by omega]
    · by_cases hx : x = a
      · simp [hx]
      · simp [h, hx, show ¬ a ≤ x by omega]

theorem readEntries_storeEntries (a : Nat) (bytes : List Byte) (x : Nat) :
    readEntries (storeEntries a bytes) x = if a ≤ x then bytes[x - a]? else none := by
  induction a, bytes using storeEntries.induct with
  | case1 a b0 b1 rest ih =>
    rw [storeEntries, readEntries_cons, ih, Entry.read_pair]
    by_cases h : a + 2 ≤ x
    · obtain ⟨k, rfl⟩ := Nat.exists_eq_add_of_le h
      simp [show a + 2 + k - a = k + 1 + 1 by omega, show a ≤ a + 2 + k by omega, show a + 2 + k ≠ a by omega,
        show a + 2 + k ≠ a + 1 by omega]
    · by_cases h0 : x = a
      · simp [h0]
      · by_cases h1 : x = a + 1
        · simp [h1]
        · simp [h, h0, h1, show ¬ a ≤ x by omega]
  | case2 a b =>
    rw [storeEntries, readEntries_cons, Entry.read_singleton]
    by_cases h : x = a
    · simp [h, readEntries]
    · by_cases hx : a ≤ x
      · simp [h, hx, readEntries, show x - a ≠ 0 by omega]
      · simp [h, hx, readEntries]
  | case3 a => simp [storeEntries, readEntries]

/-- HOST's entries read as the bytes stored. -/
theorem readEntries_hostEntries (a : Nat) (bytes : List Byte) (x : Nat) :
    readEntries (hostEntries a bytes) x = if a ≤ x then bytes[x - a]? else none := by
  unfold hostEntries
  split
  · exact readEntries_storeEntries a bytes x
  · exact readEntries_byteEntries a bytes x

/-- HOST reads the bytes it has stored, and every other byte as before (rule R70). -/
theorem readAs_append_hostEntries {s t : State} {a : Nat} {bytes : List Byte}
    (hwb : t.wb.of .host = s.wb.of .host ++ hostEntries a bytes) (hmem : t.mem = s.mem) :
    (∀ k b, bytes[k]? = some b → t.readAs .host (a + k) = some b) ∧
    (∀ x, x < a ∨ a + bytes.length ≤ x → t.readAs .host x = s.readAs .host x) := by
  have hread := readAs_append hwb hmem
  simp only [readEntries_hostEntries] at hread
  refine ⟨fun k b hk => by simp [hread, hk], fun x hx => ?_⟩
  have hnone : (if a ≤ x then bytes[x - a]? else none) = none := by
    split
    · exact List.getElem?_eq_none (by omega)
    · rfl
  rw [hread, hnone, Option.none_or]

/-- A store to RAM, as HOST's turn makes it and HOST reads it (rules R67 and R70). -/
theorem hostTurn_ram {s : State} {op : HostOp} {rest : List HostOp} {a : Nat} {bs : List Byte}
    (hops : s.host.ops = op :: rest) (hst : op.store = some (a, bs)) (hi : reachesIface s.params a bs.length = false)
    (ho : overlapsBuffers s.params a bs.length = false) (hr : inRam s.params a bs.length = true) :
    ∃ t, hostTurn s = .next t ∧
      t = { s with
        host := { s.host with ops := rest }
        wb := { s.wb with host := t.wb.host }
        faults := { s.faults with refused := s.faults.refused || decide (a % bs.length ≠ 0) } } ∧
      s.wb.host <+: t.wb.host ∧ (∀ k b, bs[k]? = some b → t.readAs .host (a + k) = some b) ∧
      (∀ x, x < a ∨ a + bs.length ≤ x → t.readAs .host x = s.readAs .host x) := by
  exact ⟨_, (hostTurn_store hops hst).trans (State.hostStore_ram hi ho hr), rfl, List.prefix_append _ _,
    readAs_append_hostEntries rfl rfl⟩

/-- An access to the interface at an unaligned offset is refused (rule R76; log 13). -/
theorem hostTurn_unaligned {s : State} {off mask v : Word} {rest : List HostOp} {op : HostOp}
    (hop : op ∈ ([.w32 off v, .r32 off, .poll off mask v] : List HostOp)) (hops : s.host.ops = op :: rest)
    (hlt : off.toNat < windowBytes) (ha : off.toNat % 4 ≠ 0) : hostTurn s = .next (s.setHostOps rest).refuse := by
  simp only [List.mem_cons, List.not_mem_nil, or_false] at hop
  rcases hop with rfl | rfl | rfl <;> simp [hostTurn, hops, State.hostOp, hlt, ha]

/-- An access to the interface beyond its window stops (rules R30 and R60; log 14). -/
theorem hostTurn_beyond {s : State} {off mask v : Word} {rest : List HostOp} {op : HostOp}
    (hop : op ∈ ([.w32 off v, .r32 off, .poll off mask v] : List HostOp)) (hops : s.host.ops = op :: rest)
    (hge : windowBytes ≤ off.toNat) : hostTurn s = .fault .hostOffsetOutsideWindow := by
  simp only [List.mem_cons, List.not_mem_nil, or_false] at hop
  rcases hop with rfl | rfl | rfl <;> simp [hostTurn, hops, State.hostOp, hge]

/-- Settles O57: a store by where it reaches, then the interface operations by their offset. -/
theorem hostStores : Obligations.HostStores := by
  refine ⟨fun s op rest a bs hops hst => ⟨fun hi => ⟨fun ho => ?_, fun ho hr => ?_, fun ho hr => ?_⟩, fun hi hw => ?_⟩,
    fun s off mask v rest op hop hops hlt ha => hostTurn_unaligned hop hops hlt ha,
    fun s off mask v rest op hop hops hge => hostTurn_beyond hop hops hge⟩
  · exact (hostTurn_store hops hst).trans (State.hostStore_buffer hi ho)
  · exact hostTurn_ram hops hst hi ho hr
  · exact (hostTurn_store hops hst).trans (State.hostStore_unmapped hi ho hr)
  · exact (hostTurn_store hops hst).trans (State.hostStore_iface_refused hi hw)

/-! ### ENG's reads and whole sequences (rules R64, R132 and R133) -/

/-- Settles O53: the laws of a stored sample, and ENG's read of the two bytes. -/
theorem sampleLittleEndian : Obligations.SampleLittleEndian := by
  refine ⟨fun m a v => ⟨read_store_sample_low m a v, read_store_sample_high m a v, fun x h0 h1 => ?_⟩,
    fun s a lo hi hr hlo hhi => ?_, fun _ _ _ _ _ => rfl⟩
  · exact read_store_sample_other m a x v (by omega)
  · exact dmaSample_of_sample hr (by simp [Memory.sample, hlo, hhi])

/-- The samples after the first, where memory holds a list of them. -/
theorem Memory.holds_tail {m : Memory} {a : Nat} {v : Sample} {l : List Sample} (h : Memory.holds m a (v :: l)) :
    Memory.holds m (a + 2) l := by
  intro i w hi
  rw [show a + 2 + 2 * i = a + 2 * (i + 1) by omega]
  exact h (i + 1) w (by simpa using hi)

/-- Outside loop mode a sequence ends with SEQEND set and a gap (rule R133). -/
theorem State.endSeq_single {s : State} {ch : Channel} {ll : Nat} (h : s.eng.loopMode = false) :
    s.endSeq ch ll = (s.putEvent (.seqEnd ch) true).stopPlaying := by
  simp [endSeq, h]

/-- The rest of a sequence out of loop mode, from its sample numbered `idx` on. -/
theorem playout_from (l : List Sample) (s : State) (ch : Channel) (idx ll lcnt : Nat) (lptr : Word) (hne : l ≠ [])
    (hp : s.eng.play = .playing ch idx ll lptr lcnt) (hcnt : idx + l.length = lcnt) (hl : s.eng.loopMode = false)
    (hr : s.eng.raced = false) (hm : Memory.holds s.mem (lptr.toNat + 2 * idx) l) :
    runAgent .eng l.length s = .next
      { s with
        wire := s.wire ++ syms l ++ [.gap]
        eng := { s.eng with play := .stopped, events := s.eng.events.put (.seqEnd ch) true, tick := 0 }
        sched := { s.sched with draws := s.sched.draws + 2 * l.length } } := by
  induction l generalizing s idx with
  | nil => exact absurd rfl hne
  | cons v l ih =>
    have hv : s.dmaSample (lptr.toNat + 2 * idx) = v := dmaSample_of_sample hr (hm 0 v rfl)
    have hturn : runTurn .eng s = .next ((s.countDraws 2).emitWord v) := by
      rw [← hv]; exact engTurn_playing hp
    rw [runAgent, List.length_cons, List.replicate_succ, runTurns_cons_next hturn]
    cases l with
    | nil =>
      rw [State.emitWord_last (s := s.countDraws 2) v hp (by simpa using hcnt), State.endSeq_single]
      · simp [runTurns, syms, State.stopPlaying, State.putEvent, State.setPlay, State.emit, State.countDraws]
      · exact hl
    | cons w l =>
      have hin : idx + 1 ≠ lcnt := by simp only [List.length_cons] at hcnt; omega
      rw [State.emitWord_inside (s := s.countDraws 2) v hp hin]
      refine (ih _ (idx + 1) (by simp) ?_ ?_ ?_ ?_ ?_).trans ?_
      · rfl
      · simp only [List.length_cons] at hcnt ⊢; omega
      · exact hl
      · exact hr
      · exact Memory.holds_tail hm
      · simp [syms, State.countDraws]
        omega

/-- Settles O40: the rest of the sequence from its first sample on. -/
theorem playoutSingle : Obligations.PlayoutSingle :=
  fun s ch ll lptr l hne hp hl hr hm => playout_from l s ch 0 ll l.length lptr hne hp (by simp) hl hr hm

/-! ### Races (rule R74) -/

/-- An entry touches a region where one of its bytes lies in it. -/
theorem Entry.touches_iff {e : Entry} {base len : Nat} :
    Entry.touches e base len = true ↔ ∃ c ∈ e, base ≤ c.1 ∧ c.1 < base + 2 * len := by
  simp [Entry.touches, inRegion]

theorem Entry.touches_eq_false {e : Entry} {base len : Nat} :
    Entry.touches e base len = false ↔ ∀ c ∈ e, c.1 < base ∨ base + 2 * len ≤ c.1 := by
  simp only [Entry.touches, inRegion, List.any_eq_false, Bool.and_eq_true, decide_eq_true_eq]
  exact forall₂_congr fun c _ => by omega

/-- The buffers overlap a region where an entry of either touches it. -/
theorem WriteBuffers.touch_iff {b : WriteBuffers} {base len : Nat} : b.touch base len = true ↔
    ∃ e, (e ∈ b.host ∨ e ∈ b.ctrl) ∧ Entry.touches e base len = true := by
  simp only [touch, Bool.or_eq_true, List.any_eq_true, or_and_right, exists_or]

/-- The mark of a race stays, or a sequence has just begun. -/
def MarkStays (s t : State) : Prop :=
  s.eng.raced = true → t.eng.raced = true ∨ ∃ ch ll lptr lcnt, t.eng.play = .playing ch 0 ll lptr lcnt

namespace MarkStays

variable {s t : State}

theorem of_raced (h : t.eng.raced = s.eng.raced) : MarkStays s t := fun hr => .inl (h.trans hr)

theorem markRace (h : MarkStays s t) (b : Bool) : MarkStays s (t.markRace b) :=
  fun hr => (h hr).imp (fun ht => by simp [ht]) id

/-- A sequence that begins stands at index 0; one that is refused leaves the mark. -/
theorem beginSeq (h : t.eng.raced = s.eng.raced) (n : Channel) (ll : Nat) : MarkStays s (t.beginSeq n ll) := by
  by_cases hc : (t.eng.regs.seq n).cnt = 0
  · rw [State.beginSeq_empty hc]; exact of_raced h
  · exact fun _ => .inr ⟨_, _, _, _, by rw [State.beginSeq_play, if_neg hc]⟩

theorem fireTask (s : State) (n : Channel) : MarkStays s (s.fireTask n) := by
  have hpre : s.preempt.eng.raced = s.eng.raced := by unfold State.preempt; split <;> rfl
  unfold State.fireTask
  dsimp only
  split
  · exact of_raced rfl
  · cases n with
    | A => refine beginSeq ?_ .A _; exact hpre
    | B =>
      dsimp only
      split
      · exact of_raced hpre
      · refine beginSeq ?_ .B _; exact hpre

theorem endSeq (h : t.eng.raced = s.eng.raced) (n : Channel) (ll : Nat) : MarkStays s (t.endSeq n ll) := by
  unfold State.endSeq
  dsimp only
  split
  · exact of_raced h
  · cases n with
    | A => refine .markRace (beginSeq ?_ .B ll) _; exact h
    | B =>
      dsimp only
      split
      · refine beginSeq ?_ .A _; exact h
      · exact of_raced h

theorem emitWord (s : State) (w : Sample) : MarkStays s (s.emitWord w) := by
  cases hp : s.eng.play with
  | stopped => rw [State.emitWord_stopped w hp]; exact of_raced rfl
  | playing ch idx ll lptr lcnt =>
    by_cases hi : idx + 1 = lcnt
    · rw [State.emitWord_last w hp hi]; refine endSeq ?_ ch ll; rfl
    · rw [State.emitWord_inside w hp hi]; exact of_raced rfl

theorem drain (s : State) (w : Writer) : MarkStays s (s.drain w) := by
  unfold State.drain
  split
  · exact of_raced rfl
  · exact .markRace (of_raced rfl) _

theorem microStep (m : Micro) (rest : List Micro) (s : State) : MarkStays s (microStep m rest s) := by
  by_cases ht : ∃ ch, m = .task ch
  · obtain ⟨ch, rfl⟩ := ht
    exact fireTask (s.setMicro rest) ch
  · obtain ⟨_, _, hraced, _⟩ := microStep_noTask m rest s fun ch hc => ht ⟨ch, hc⟩
    exact of_raced hraced

end MarkStays

/-- No step takes the mark of a race away but one in which a sequence begins. -/
theorem step_markStays {s t : State} (h : step s = .next t) : MarkStays s t := by
  suffices hturn : MarkStays s.takeTurn t by simpa [MarkStays] using hturn
  cases step_cases h with
  | rests => exact .of_raced rfl
  | host _ move => rw [move.frame]; exact .of_raced rfl
  | statement _ _ => exact .microStep _ _ _
  | decision _ => rw [onlyControl_decision]; exact .of_raced rfl
  | eng _ w => exact .emitWord (s.takeTurn.countDraws 2) w
  | drain w => exact .drain _ w

/-- A mark that finds no race changes nothing. -/
theorem State.markRace_false (s : State) : s.markRace false = s := by simp [markRace]

/-- A sequence that begins is raced exactly where a write buffer overlaps its region (rules R74 and R131). -/
theorem State.beginSeq_race {s : State} {n : Channel} (ll : Nat) (h : (s.eng.regs.seq n).cnt ≠ 0) :
    (s.beginSeq n ll).eng.raced = s.wb.touch (s.eng.regs.seq n).ptr.toNat (s.eng.regs.seq n).cnt.toNat ∧
    (s.beginSeq n ll).faults = { s.faults with
      dmaRace := s.faults.dmaRace || s.wb.touch (s.eng.regs.seq n).ptr.toNat (s.eng.regs.seq n).cnt.toNat } := by
  unfold beginSeq
  dsimp only
  rw [if_neg h]
  simp

/-- Settles O55: the memory step and the begin by the bytes their entries write, the reads, and the mark. -/
theorem raceConditions : Obligations.RaceConditions := by
  refine ⟨fun s w e rest ch idx ll lcnt lptr hw hp => ⟨_, rfl, ?_⟩, fun s w hp => ⟨_, rfl, ?_⟩,
    fun s n ll hc => ⟨fun h => ?_, fun h => ?_⟩, fun s a hr => ?_, fun s t h hr => step_markStays h hr⟩
  · have hcov : s.eng.play.covers e = Entry.touches e lptr.toNat lcnt := by rw [hp]; rfl
    rw [State.drain_cons hw, hcov]
    refine ⟨fun h => ?_, fun h => ?_⟩
    · rw [Entry.touches_iff.2 h]; simp
    · rw [Entry.touches_eq_false.2 h, State.markRace_false]; exact ⟨rfl, rfl⟩
  · cases hw : s.wb.of w with
    | nil => rw [State.drain_nil hw]; exact ⟨rfl, rfl⟩
    | cons e rest =>
      have hcov : s.eng.play.covers e = false := by rw [hp]; rfl
      rw [State.drain_cons hw, hcov, State.markRace_false]; exact ⟨rfl, rfl⟩
  · obtain ⟨e, he, hcells⟩ := h
    obtain ⟨hraced, hfaults⟩ := State.beginSeq_race ll hc
    have ht := WriteBuffers.touch_iff.2 ⟨e, he, Entry.touches_iff.2 hcells⟩
    rw [hraced, hfaults, ht]
    simp
  · obtain ⟨hraced, hfaults⟩ := State.beginSeq_race ll hc
    have ht : s.wb.touch (s.eng.regs.seq n).ptr.toNat (s.eng.regs.seq n).cnt.toNat = false := by
      rw [Bool.eq_false_iff, Ne, WriteBuffers.touch_iff]
      rintro ⟨e, he, hte⟩
      rw [Entry.touches_eq_false.2 (h e he)] at hte
      cases hte
    rw [hraced, hfaults, ht]
    simp
  · simp [State.dmaSample, State.dmaByte, hr]

/-! ### The frame of a command's step (rules R70 and R73) -/

/-- A statement that is no memory write leaves the write buffers. -/
theorem microStep_noWrite {m : Micro} {rest : List Micro} {s : State} (h : ∀ a v, m ≠ .memWrite a v) :
    (microStep m rest s).wb = s.wb := by
  rw [microStep_wb]
  split
  · exact absurd rfl (h _ _)
  · rfl

/-- No statement writes an ARG register. -/
theorem microStep_args (m : Micro) (rest : List Micro) (s : State) :
    (microStep m rest s).iface.arg0 = s.iface.arg0 ∧ (microStep m rest s).iface.arg1 = s.iface.arg1 ∧
    (microStep m rest s).iface.arg2 = s.iface.arg2 ∧ (microStep m rest s).iface.arg3 = s.iface.arg3 := by
  rw [microStep_iface]
  split <;> exact ⟨rfl, rfl, rfl, rfl⟩

/-- An agent's view of memory depends on memory and the write buffers only. -/
theorem readAs_congr {s t : State} (hwb : t.wb = s.wb) (hmem : t.mem = s.mem) (w : Writer) (x : Nat) :
    t.readAs w x = s.readAs w x := by
  rw [State.readAs_eq, State.readAs_eq, hwb, hmem]

/-- Settles O60: a running command's step is a statement or a decision, and each has its frame. -/
theorem commandFrame : Obligations.CommandFrame := by
  intro s t i hi h
  rw [exec_running i s hi] at h
  cases h
  unfold advance
  cases hm : s.ctrl.micro with
  | nil =>
    obtain ⟨hparams, _, heng, hmem, hwb, hwire, hhost, _, _, hover, h0, h1, h2, h3, hrace, hturns, hpat⟩ :=
      (onlyControl_decision s).frame
    refine ⟨hparams, hmem, by rw [hwb], hhost, hturns, hpat, h0, h1, h2, h3, hover, fun a v hc => (by cases hc),
      fun _ => ⟨hwb, readAs_congr hwb hmem _⟩, by rw [heng]; rfl, fun _ => ?_⟩
    rw [heng]
    exact ⟨rfl, rfl, rfl, hwire, hrace⟩
  | cons m rest =>
    obtain ⟨hparams, hmem, hhost, hsched, _⟩ := microStep_frame m rest s
    obtain ⟨h0, h1, h2, h3⟩ := microStep_args m rest s
    refine ⟨hparams, hmem, ?_, hhost, by rw [hsched], by rw [hsched], h0, h1, h2, h3, microStep_overrun s m rest,
      fun a v hc => ?_, fun hc => ?_, microStep_regs m rest s, fun hc => ?_⟩
    · rw [microStep_wb]; split <;> rfl
    · cases hc
      exact readAs_append_sample (by rw [microStep_wb]; rfl) hmem
    · have hwb : (microStep m rest s).wb = s.wb := microStep_noWrite fun a v hv => hc a v (by rw [hv]; rfl)
      exact ⟨hwb, readAs_congr hwb hmem _⟩
    · obtain ⟨hplay, hloop, hraced, hwire, hfaults⟩ :=
        microStep_noTask m rest s fun ch hch => hc ch (by rw [hch]; rfl)
      exact ⟨hplay, hloop, hraced, hwire, by rw [hfaults]⟩

end Sys2Proof.Machine

/-! PROOFS. 30_encoding.md: the fields of a command word and its decoding as an equivalence, decoding and encoding at
each place as inverses, the start of a command, the statements that wait, and one period of a sample. -/

namespace Sys2Proof.Machine

/-! ### The fields of a command word (rules R86 to R89) -/

@[simp] theorem rsvField_commandWord (opc : BitVec 8) (ch : Channel) : rsvField (commandWord opc ch) = 0 :=
  (BitVec.extractLsb'_append_eq_of_le (by decide)).trans BitVec.extractLsb'_append_eq_left

@[simp] theorem opcField_commandWord (opc : BitVec 8) (ch : Channel) : opcField (commandWord opc ch) = opc :=
  BitVec.extractLsb'_append_eq_right

@[simp] theorem chField_commandWord (opc : BitVec 8) (ch : Channel) : chField (commandWord opc ch) = ch := by
  have hbit : (commandWord opc ch).getLsbD 8 = (chBit ch).getLsbD 0 := by
    rw [commandWord, BitVec.getLsbD_append, BitVec.getLsbD_append]; rfl
  rw [chField, hbit]
  cases ch <;> rfl

/-- A field of one bit is that bit. -/
theorem extractLsb'_bit (w : Word) (k : Nat) : w.extractLsb' k 1 = BitVec.ofBool (w.getLsbD k) := by
  rw [BitVec.getLsbD_eq_extractLsb']
  generalize w.extractLsb' k 1 = b
  revert b
  decide

/-- The bit of the CH field is bit 8 of the word (rule R86). -/
theorem chBit_chField (w : Word) : chBit (chField w) = w.extractLsb' 8 1 := by
  rw [extractLsb'_bit, chField]
  cases w.getLsbD 8 <;> rfl

/-- A word without reserved bits is the command word of its fields. -/
theorem commandWord_fields {w : Word} (h : rsvField w = 0) : commandWord (opcField w) (chField w) = w := by
  have hhigh : rsvField w ++ w.extractLsb' 8 1 = w.extractLsb' 8 24 :=
    BitVec.extractLsb'_append_extractLsb'_eq_extractLsb' rfl
  rw [commandWord, ← h, chBit_chField, hhigh]
  exact BitVec.extractLsb'_append_extractLsb'

/-- OPC and CH of a legal command word, and the instruction it stands for (rules R87 to R89). -/
structure LegalFields (opc : BitVec 8) (ch : Channel) (i : Instr) : Prop where
  row : commandOf opc ch = some i
  channel : ch = .B → usesChannel opc = true

/-- A command word decodes where its reserved bits are 0 and its fields are legal (rules R89 and R100). -/
theorem decodeCommand_eq_instr {w : Word} {i : Instr} :
    decodeCommand w = .instr i ↔ rsvField w = 0 ∧ LegalFields (opcField w) (chField w) i := by
  unfold decodeCommand
  constructor
  · intro h
    split at h
    · cases h
    · rename_i hrsv
      split at h
      · cases h
      · rename_i hrow
        split at h
        · cases h
        · rename_i hch
          cases h
          exact ⟨not_not.1 hrsv, hrow, by simpa using hch⟩
  · rintro ⟨hrsv, hrow, hch⟩
    rw [if_neg (not_not.2 hrsv), hrow]
    exact if_neg (by simpa using hch)

/-- The opcodes of the map (rule R87). -/
theorem LegalFields.opcode_mem {opc : BitVec 8} {ch : Channel} {i : Instr} (h : LegalFields opc ch i) :
    opc ∈ ([0x01, 0x02, 0x10, 0x11, 0x20, 0x21, 0x22, 0x30, 0x31, 0x32] : List (BitVec 8)) := by
  obtain ⟨hrow, -⟩ := h
  unfold commandOf at hrow
  repeat' split at hrow
  all_goals cases hrow
  all_goals subst opc; decide

/-- CH is 1 only for the opcodes that use it (rule R88). -/
theorem LegalFields.opcode_mem_of_B {opc : BitVec 8} {i : Instr} (h : LegalFields opc .B i) :
    opc ∈ ([0x20, 0x21, 0x22] : List (BitVec 8)) := by
  simpa [usesChannel, or_assoc] using h.channel rfl

/-- The word of an instruction has the fields it is decoded from. -/
theorem LegalFields.encode_eq {opc : BitVec 8} {ch : Channel} {i : Instr} (h : LegalFields opc ch i) :
    encode i = commandWord opc ch := by
  cases ch with
  | A =>
    obtain ⟨hrow, -⟩ := h
    unfold commandOf at hrow
    repeat' split at hrow
    all_goals cases hrow
    all_goals subst opc; rfl
  | B =>
    have hopc := h.opcode_mem_of_B
    simp only [List.mem_cons, List.not_mem_nil, or_false] at hopc
    rcases hopc with rfl | rfl | rfl <;> cases h.row <;> rfl

/-- Every command has legal fields. -/
theorem exists_legalFields {i : Instr} (h : i.format = .command) : ∃ opc ch, LegalFields opc ch i := by
  cases i with
  | configure => exact ⟨0x01, .A, rfl, nofun⟩
  | release => exact ⟨0x02, .A, rfl, nofun⟩
  | encodePixel => exact ⟨0x10, .A, rfl, nofun⟩
  | requiredLength => exact ⟨0x11, .A, rfl, nofun⟩
  | seqStart ch => exact ⟨0x20, ch, rfl, fun _ => rfl⟩
  | seqIsDone ch => exact ⟨0x21, ch, rfl, fun _ => rfl⟩
  | seqWait ch => exact ⟨0x22, ch, rfl, fun _ => rfl⟩
  | sendBuf => exact ⟨0x30, .A, rfl, nofun⟩
  | writeSingle => exact ⟨0x31, .A, rfl, nofun⟩
  | writeLoop => exact ⟨0x32, .A, rfl, nofun⟩
  | symOne | symZero | symIdle | color | endItem => cases h

/-! ### Decoding and encoding at each place (rules R85, R91 and R93) -/

theorem decodeCommand_encode {i : Instr} (h : i.format = .command) : decodeCommand (encode i) = .instr i := by
  obtain ⟨opc, ch, hl⟩ := exists_legalFields h
  exact decodeCommand_eq_instr.2 (by simpa [hl.encode_eq] using hl)

theorem encode_of_decodeCommand {w : Word} {i : Instr} (h : decodeCommand w = .instr i) : encode i = w := by
  obtain ⟨hrsv, hl⟩ := decodeCommand_eq_instr.1 h
  rw [hl.encode_eq, commandWord_fields hrsv]

/-- A sample that is one of the three is the low half of its instruction's word (rule R91). -/
theorem encode_of_decodeSample {v : Sample} {i : Instr} (h : decodeSample v = .instr i) :
    i.format = .sample ∧ encode i = v.setWidth 32 := by
  unfold decodeSample at h
  repeat' split at h
  all_goals cases h
  all_goals subst v
  all_goals exact ⟨rfl, rfl⟩

theorem decodeColour_color (ign : BitVec 7) (r g b : Byte) :
    decodeColour (encode (.color ign r g b)) = .color ign r g b := by
  have hend : (0#1 ++ ign ++ r ++ g ++ b).getLsbD 31 = false := by
    iterate 4 rw [BitVec.getLsbD_append, if_neg (by decide)]
    rfl
  have hign : (0#1 ++ ign ++ r ++ g ++ b).extractLsb' 24 7 = ign := by
    iterate 3 rw [BitVec.extractLsb'_append_eq_of_le (by decide)]
    exact BitVec.extractLsb'_append_eq_right
  have hr : (0#1 ++ ign ++ r ++ g ++ b).extractLsb' 16 8 = r := by
    iterate 2 rw [BitVec.extractLsb'_append_eq_of_le (by decide)]
    exact BitVec.extractLsb'_append_eq_right
  have hg : (0#1 ++ ign ++ r ++ g ++ b).extractLsb' 8 8 = g := by
    rw [BitVec.extractLsb'_append_eq_of_le (by decide)]
    exact BitVec.extractLsb'_append_eq_right
  have hb : (0#1 ++ ign ++ r ++ g ++ b).extractLsb' 0 8 = b := BitVec.extractLsb'_append_eq_right
  calc decodeColour (0#1 ++ ign ++ r ++ g ++ b)
    _ = .color _ _ _ _ := if_neg (by rw [hend]; decide)
    _ = .color ign r g b := by rw [hign, hr, hg, hb]

theorem decodeColour_endItem (ign : BitVec 31) : decodeColour (encode (.endItem ign)) = .endItem ign := by
  have hend : (1#1 ++ ign).getLsbD 31 = true := by
    rw [BitVec.getLsbD_append, if_neg (by decide)]; rfl
  calc decodeColour (1#1 ++ ign)
    _ = .endItem _ := if_pos hend
    _ = .endItem ign := congrArg _ BitVec.extractLsb'_append_eq_right

/-- A colour word is put together again from END and the fields of its item (rule R93). -/
theorem encode_decodeColour (w : Word) : encode (decodeColour w) = w := by
  have hbit := extractLsb'_bit w 31
  unfold decodeColour
  cases hend : w.getLsbD 31 with
  | true =>
    rw [hend] at hbit
    rw [if_pos rfl, encode, ← show w.extractLsb' 31 1 = 1 from hbit]
    exact BitVec.extractLsb'_append_extractLsb'
  | false =>
    rw [hend] at hbit
    have h24 : w.extractLsb' 31 1 ++ w.extractLsb' 24 7 = w.extractLsb' 24 8 :=
      BitVec.extractLsb'_append_extractLsb'_eq_extractLsb' rfl
    have h16 : w.extractLsb' 24 8 ++ w.extractLsb' 16 8 = w.extractLsb' 16 16 :=
      BitVec.extractLsb'_append_extractLsb'_eq_extractLsb' rfl
    have h8 : w.extractLsb' 16 16 ++ w.extractLsb' 8 8 = w.extractLsb' 8 24 :=
      BitVec.extractLsb'_append_extractLsb'_eq_extractLsb' rfl
    rw [if_neg (by decide), encode, ← show w.extractLsb' 31 1 = 0 from hbit, h24, h16, h8]
    exact BitVec.extractLsb'_append_extractLsb'

theorem decodeColour_format (w : Word) : (decodeColour w).format = .colour := by
  unfold decodeColour; split <;> rfl

/-- The word of an instruction decodes to it at its place. -/
theorem decode_encode (i : Instr) : decode i.format (encode i) = .instr i := by
  cases hf : i.format with
  | command => exact decodeCommand_encode hf
  | sample =>
    cases i with
    | symOne | symZero | symIdle => decide
    | _ => cases hf
  | colour =>
    cases i with
    | color ign r g b => exact congrArg _ (decodeColour_color ign r g b)
    | endItem ign => exact congrArg _ (decodeColour_endItem ign)
    | _ => cases hf

/-- The bytes of an instruction hold its word, in as many bytes as its format has (rules R64 and R85). -/
theorem encodeBytes_layout (i : Instr) : Laws.Layout.Statement i := by
  cases i with
  | symOne => exact Laws.Layout.symOne
  | symZero => exact Laws.Layout.symZero
  | symIdle => exact Laws.Layout.symIdle
  | _ => exact Laws.Layout.statement_of_four rfl

/-- Decoding the bytes of an instruction is decoding its word. -/
theorem decodeBytes_encodeBytes (i : Instr) : decodeBytes i.format (encodeBytes i) = decode i.format (encode i) := by
  obtain ⟨hlen, hval⟩ := encodeBytes_layout i
  rw [decodeBytes, if_pos hlen, hval, BitVec.ofNat_toNat, BitVec.setWidth_eq]

/-- Settles O2: the word by its place, the bytes by the word. -/
theorem encodeThenDecode : Obligations.EncodeThenDecode :=
  fun i => ⟨decode_encode i, (decodeBytes_encodeBytes i).trans (decode_encode i)⟩

/-- Settles O3: each place by its own decoder. -/
theorem decodeThenEncode : Obligations.DecodeThenEncode := by
  intro f w i h
  cases f with
  | command => exact ⟨decodeCommand_format h, encode_of_decodeCommand h⟩
  | sample =>
    by_cases hw : w.toNat < 2 ^ 16
    · rw [decode, if_pos hw] at h
      obtain ⟨hf, he⟩ := encode_of_decodeSample h
      refine ⟨hf, he.trans (BitVec.eq_of_toNat_eq ?_)⟩
      simp only [BitVec.toNat_setWidth]
      omega
    · rw [decode, if_neg hw] at h
      cases h
  | colour =>
    cases h
    exact ⟨decodeColour_format w, encode_decodeColour w⟩

/-- Settles O1: each word written out is decoded as it stands. -/
theorem spelledWordsDecode : Obligations.SpelledWordsDecode := by
  unfold Obligations.SpelledWordsDecode
  decide

/-! ### Illegal command words (rule R89) -/

/-- An illegal word written to CMD while BUSY = 0 records BAD_COMMAND. -/
theorem State.writeCmd_reject {s : State} {v : Word} (hb : s.busy = false) (h : ∀ i, decodeCommand v ≠ .instr i) :
    s.writeCmd v = .next (s.decodeError .badCommand) := by
  cases hd : decodeCommand v with
  | instr i => exact absurd hd (h i)
  | reject r => simp [writeCmd, hb, hd]

/-- Settles O4: a word that decodes has none of the three defects. -/
theorem illegalCommandWords : Obligations.IllegalCommandWords := by
  intro s v hb hbad
  refine State.writeCmd_reject hb fun i hd => ?_
  obtain ⟨hrsv, hl⟩ := decodeCommand_eq_instr.1 hd
  rcases hbad with hopc | hres | ⟨hbit, hch⟩
  · exact hopc hl.opcode_mem
  · exact hres hrsv
  · have hB : chField v = .B := if_pos hbit
    rw [hB] at hl
    exact hch hl.opcode_mem_of_B

/-! ### The start of a command (rules R94, R100, R101 and R206) -/

/-- The state in which a command has started: WRITE_LOOP also clears its counters (rule R178). -/
def startOf (i : Instr) (s : State) : State :=
  (if i = .writeLoop then s.clearLoopCounters else s).start (firstState i s).1 (firstState i s).2

/-- CTRL as a command has started: busy with it, its operands copied from the ARG registers, nothing else changed. -/
theorem startOf_ctrl {i : Instr} {s : State} (h : i.format = .command) :
    startOf i s = { s with ctrl := (startOf i s).ctrl } ∧ (startOf i s).ctrl.pc.instr = some i ∧
    (startOf i s).ctrl.ops = s.iface.operands := by
  cases i with
  | symOne | symZero | symIdle | color | endItem => cases h
  | _ => exact ⟨rfl, rfl, rfl⟩

/-- An idle CTRL starts ENCODE_PIXEL and REQUIRED_LENGTH whatever the driver, and CONFIGURE where it is unconfigured. -/
theorem exec_idle_free {i : Instr} {s : State} (hp : s.ctrl.pc = .idle)
    (h : (s.drv = .unconfigured ∧ i = .configure) ∨ i = .encodePixel ∨ i = .requiredLength) :
    exec i s = .next (startOf i s) := by
  rcases h with ⟨hd, rfl⟩ | rfl | rfl
  · simp [exec, execConfigure, hp, hd, startOf, firstState]
  · simp [exec, execEncodePixel, hp, startOf, firstState]
  · simp [exec, execRequiredLength, hp, startOf, firstState]

/-- An idle CTRL starts every other command where the driver is configured, and else records NOT_CONFIGURED. -/
theorem exec_idle_needsDriver {i : Instr} {s : State} (hf : i.format = .command) (hp : s.ctrl.pc = .idle)
    (hc : i ≠ .configure) (he : i ≠ .encodePixel) (hr : i ≠ .requiredLength) :
    exec i s = .next (if s.drv = .configured then startOf i s else s.decodeError .notConfigured) := by
  cases i with
  | configure => exact absurd rfl hc
  | encodePixel => exact absurd rfl he
  | requiredLength => exact absurd rfl hr
  | symOne | symZero | symIdle | color | endItem => cases hf
  | release => simp only [exec, execRelease, hp]; rfl
  | seqStart ch => simp only [exec, execSeqStart, hp]; rfl
  | seqIsDone ch => simp only [exec, execSeqIsDone, hp]; rfl
  | seqWait ch => simp only [exec, execSeqWait, hp]; rfl
  | sendBuf => simp only [exec, execSendBuf, hp]; rfl
  | writeSingle => simp only [exec, execWriteSingle, hp]; rfl
  | writeLoop => simp only [exec, execWriteLoop, hp]; split <;> rfl

/-- Settles O18: the commands that need no driver, then those that do. -/
theorem commandStarts : Obligations.CommandStarts := by
  intro s i hf hp
  refine ⟨fun hd hc he hr => ?_, fun h => ?_⟩
  · exact (exec_idle_needsDriver hf hp hc he hr).trans (congrArg _ (if_neg (by simp [hd])))
  · have hexec : exec i s = .next (startOf i s) := by
      by_cases hfree : (s.drv = .unconfigured ∧ i = .configure) ∨ i = .encodePixel ∨ i = .requiredLength
      · exact exec_idle_free hp hfree
      · obtain ⟨hd, hc⟩ : s.drv = .configured ∧ i ≠ .configure := by tauto
        rw [not_or, not_or] at hfree
        obtain ⟨-, he, hr⟩ := hfree
        rw [exec_idle_needsDriver hf hp hc he hr, if_pos hd]
    obtain ⟨hframe, hinstr, hops⟩ := startOf_ctrl (s := s) hf
    exact ⟨_, hexec.trans (congrArg _ hframe), hinstr, by rw [hops]; exact ⟨rfl, rfl, rfl, rfl, rfl⟩⟩

/-! ### The statements that wait (rules R72, R98 and R99) -/

/-- CTRL's turn in a running command with a statement to perform is that statement. -/
theorem ctrlTurn_statement {s : State} {i : Instr} {m : Micro} {rest : List Micro} (hi : s.ctrl.pc.instr = some i)
    (hm : s.ctrl.micro = m :: rest) : ctrlTurn s = .next (microStep m rest s) := by
  have hp : s.ctrl.pc ≠ .idle := fun hp => by rw [hp] at hi; cases hi
  rw [ctrlTurn_running hp, advance, hm]

/-- A fence waits while CTRL's write buffer holds an entry (rule R72). -/
theorem microStep_fence_waits {s : State} (rest : List Micro) (h : s.wb.ctrl ≠ []) : microStep .fence rest s = s := by
  simp [microStep, h]

theorem microStep_fence_passes {s : State} (rest : List Micro) (h : s.wb.ctrl = []) :
    microStep .fence rest s = s.setMicro rest := by
  simp [microStep, h]

/-- The second half of a pull waits while PULLREQ is set (rule R99). -/
theorem microStep_awaitItem_waits {s : State} (rest : List Micro) (h : s.iface.pullReq = true) :
    microStep .awaitItem rest s = s := by
  simp [microStep, h]

theorem microStep_awaitItem_passes {s : State} (rest : List Micro) (h : s.iface.pullReq = false) :
    microStep .awaitItem rest s = s.setMicro rest := by
  simp [microStep, h]

/-- HOST_FENCE waits while HOST's write buffer holds an entry (rule R98). -/
theorem hostTurn_fence {s : State} {rest : List HostOp} (h : s.host.ops = .fence :: rest) :
    hostTurn s = .next (if s.wb.host = [] then s.setHostOps rest else s) := by
  simp [hostTurn, h, State.hostOp]

/-- Settles O21: the two halves of the pull, and the COLOR_IN write between them. -/
theorem pullWaits : Obligations.PullWaits := by
  intro s i rest hi
  refine ⟨fun hm => ctrlTurn_statement hi hm, fun hm hpull => ?_, fun hm hpull w => ?_⟩
  · rw [ctrlTurn_statement hi hm, microStep_awaitItem_waits rest hpull]
  · rw [State.writeIface_colour, exec_decodeColour, State.deliver_pull _ hpull]
    refine ⟨_, rfl, rfl, (ctrlTurn_statement (i := i) ?_ ?_).trans (congrArg _ (microStep_awaitItem_passes rest ?_))⟩
    · exact hi
    · exact hm
    · rfl

/-- Settles O56: CTRL's fence as its statement, HOST's as its operation. -/
theorem fenceBlocks : Obligations.FenceBlocks := by
  refine ⟨fun s i rest hi hm => ⟨fun hwb => ?_, fun hwb => ?_⟩, fun s rest hops => ⟨fun hwb => ?_, fun hwb => ?_⟩⟩
  · rw [ctrlTurn_statement hi hm, microStep_fence_waits rest hwb]
  · exact (ctrlTurn_statement hi hm).trans (congrArg _ (microStep_fence_passes rest hwb))
  · rw [hostTurn_fence hops, if_neg hwb]
  · exact (hostTurn_fence hops).trans (congrArg _ (if_pos hwb))

/-! ### One period of a sample (rules R91, R132 and R133) -/

/-- The meaning of a canonical sample is the emit step on its word. -/
theorem exec_sample {iw : Instr × Sample}
    (h : iw ∈ ([(.symOne, 0x800D), (.symZero, 0x8005), (.symIdle, 0x8000)] : List (Instr × Sample))) (s : State) :
    exec iw.1 s = .next (s.emitWord iw.2) := by
  simp only [List.mem_cons, List.not_mem_nil, or_false] at h
  rcases h with rfl | rfl | rfl <;> rfl

/-- The last sample of a sequence, out of loop mode: SEQEND, a stopped engine and a gap. -/
theorem State.emitWord_last_single {s : State} (w : Sample) {ch : Channel} {idx ll lcnt : Nat} {lptr : Word}
    (hp : s.eng.play = .playing ch idx ll lptr lcnt) (hlast : idx + 1 = lcnt) (hl : s.eng.loopMode = false) :
    s.emitWord w =
      { s with wire := s.wire ++ [.sym w, .gap],
               eng := { s.eng with play := .stopped, events := s.eng.events.put (.seqEnd ch) true, tick := 0 } } := by
  rw [emitWord_last w hp hlast, endSeq_single]
  · simp [stopPlaying, putEvent, setPlay, emit]
  · exact hl

/-- Settles O38: the emit step inside a sequence and at its end. -/
theorem emitStep : Obligations.EmitStep := by
  intro s ch idx ll lcnt lptr hp iw hiw
  rw [exec_sample hiw]
  exact ⟨fun hi => congrArg _ (State.emitWord_inside iw.2 hp hi),
    fun hlast hl => congrArg _ (State.emitWord_last_single iw.2 hp hlast hl)⟩

end Sys2Proof.Machine

/-! PROOFS. 40_encoder.md: the samples of a frame and their reading back, ENCODE_PIXEL by turns and over every schedule,
REQUIRED_LENGTH, and the levels of idle samples and gaps on the wire. -/

namespace Sys2Proof.Machine

/-! ### Frames (rules R103 to R106 and R112) -/

/-- `rev8(x)[i] = x[7 - i]` (rule R104). -/
theorem rev8_getLsbD (x : Byte) {i : Nat} (h : i < 8) : (rev8 x).getLsbD i = x.getLsbD (7 - i) := by
  rw [rev8, BitVec.getLsbD_ofBoolListLE]
  interval_cases i <;> rfl

@[simp] theorem byteSamples_length (x : Byte) : (byteSamples x).length = 8 := by simp [byteSamples]

/-- The samples of a byte, the most significant bit first (rule R105). -/
theorem byteSamples_eq (x : Byte) : byteSamples x = ((List.range 8).map fun k => x.getLsbD (7 - k)).map sym := by
  rw [byteSamples, List.map_map]
  exact List.map_congr_left fun k hk => congrArg sym (rev8_getLsbD x (List.mem_range.1 hk))

theorem byteSamples_getElem? (x : Byte) {k : Nat} (h : k < 8) :
    (byteSamples x)[k]? = some (sym (x.getLsbD (7 - k))) := by
  simp [byteSamples_eq, List.getElem?_range h]

/-- The samples of a frame by their place: green, then red, then blue (rule R105). -/
theorem frame_getElem? (c : Colour) {k : Nat} (h : k < 8) :
    (frame c)[k]? = (byteSamples c.g)[k]? ∧ (frame c)[8 + k]? = (byteSamples c.r)[k]? ∧
    (frame c)[16 + k]? = (byteSamples c.b)[k]? := by
  refine ⟨?_, ?_, ?_⟩
  · rw [frame, List.append_assoc, List.getElem?_append_left (by simpa)]
  · rw [frame, List.append_assoc, List.getElem?_append_right (by simp), List.getElem?_append_left (by simpa)]
    simp
  · rw [frame, List.getElem?_append_right (by simp)]
    simp

/-- Settles O25: each sample of a frame is a sample of one of its bytes. -/
theorem frameSamples : Obligations.FrameSamples := by
  refine fun c => ⟨frame_length c, fun k hk => ?_, fun x i hi => rev8_getLsbD x hi⟩
  obtain ⟨hg, hr, hb⟩ := frame_getElem? c hk
  rw [hg, hr, hb]
  exact ⟨byteSamples_getElem? _ hk, byteSamples_getElem? _ hk, byteSamples_getElem? _ hk⟩

@[simp] theorem symBit_sym (b : Bool) : symBit (sym b) = some b := by cases b <;> rfl

theorem mapM_symBit_sym (bits : List Bool) : (bits.map sym).mapM symBit = some bits := by
  induction bits with
  | nil => rfl
  | cons b bits ih => simp [ih]

theorem msbValue_append (bits : List Bool) (b : Bool) : msbValue (bits ++ [b]) = 2 * msbValue bits + b.toNat := by
  simp [msbValue]

/-- The last of the bits, the most significant first, is bit 0. -/
theorem testBit_msbValue (bits : List Bool) (i : Nat) : (msbValue bits).testBit i = (bits.reverse[i]?).getD false := by
  induction bits using List.reverseRecOn generalizing i with
  | nil => simp [msbValue]
  | append_singleton bits b ih =>
    rw [msbValue_append, List.reverse_append]
    cases i with
    | zero => cases b <;> simp [Nat.testBit_zero, Nat.add_mod]
    | succ i =>
      have hdiv : (2 * msbValue bits + b.toNat) / 2 = msbValue bits := by cases b <;> simp; omega
      rw [Nat.testBit_succ, hdiv, ih]
      rfl

/-- Reading the eight samples of a byte back gives the byte. -/
theorem samplesByte_byteSamples (x : Byte) : samplesByte (byteSamples x) = some x := by
  rw [samplesByte, byteSamples_eq, mapM_symBit_sym]
  refine congrArg some (BitVec.eq_of_getLsbD_eq fun i hi => ?_)
  have hlt : 7 - i < 8 := by omega
  have hback : 7 - (7 - i) = i := by omega
  rw [BitVec.getLsbD_ofNat, testBit_msbValue, List.getElem?_reverse (by simpa)]
  simp [hi, hback, List.getElem?_range hlt]

/-- Settles O26: the frame falls apart into the samples of its three bytes, each read back. -/
theorem frameRoundTrip : Obligations.FrameRoundTrip := by
  intro c
  have hg : (frame c).take 8 = byteSamples c.g := by simp [frame]
  have hr : ((frame c).drop 8).take 8 = byteSamples c.r := by simp [frame]
  have hb : (frame c).drop 16 = byteSamples c.b := List.drop_left' (by simp)
  simp [unframe, hg, hr, hb, samplesByte_byteSamples]

/-! ### A check that ends its command (rules R102 and R109) -/

theorem advance_statement {s : State} {m : Micro} {rest : List Micro} (hm : s.ctrl.micro = m :: rest) :
    advance s = microStep m rest s := by rw [advance, hm]

theorem advance_decides {s : State} (hm : s.ctrl.micro = []) : advance s = decision s := by rw [advance, hm]

theorem runAgent_one {t : Turn} {s u : State} (h : runTurn t s = .next u) : runAgent t 1 s = .next u :=
  runTurns_cons_next h

/-- One turn of CTRL in a running command with no statement left is the state's decision. -/
theorem runAgent_ctrl_decides {s : State} (hp : s.ctrl.pc ≠ .idle) (hm : s.ctrl.micro = []) :
    runAgent .ctrl 1 s = .next (decision s) :=
  runAgent_one (by rw [runTurn, ctrlTurn_running hp, advance_decides hm])

/-- A command that is refused in its first state. -/
theorem State.refusedEnd_start (s : State) (pc : Pc) (l : List Micro) : s.RefusedEnd (s.start pc l).endRefused := rfl

/-! ### ENC_CHECK (rules R107 and R109) -/

section

variable {s : State}

theorem encodeCheck_bufferTooSmall (hc : s.ctrl.ops.cnt.toNat < 24) : encodeCheck s = s.endCommand .bufferTooSmall := by
  simp [encodeCheck, frameLen, hc]

theorem encodeCheck_outOfRange (hc : 24 ≤ s.ctrl.ops.cnt.toNat)
    (hw : inWindow s.params s.ctrl.ops.addr.toNat 24 = false) : encodeCheck s = s.endCommand .outOfRangePointer := by
  simp [encodeCheck, frameLen, hc, hw]

theorem encodeCheck_refused (hc : 24 ≤ s.ctrl.ops.cnt.toNat) (hw : inWindow s.params s.ctrl.ops.addr.toNat 24 = true)
    (ho : overlapsBuffers s.params s.ctrl.ops.addr.toNat 48 = true) : encodeCheck s = s.endRefused := by
  simp [encodeCheck, frameLen, hc, hw, ho]

theorem encodeCheck_passes (hc : 24 ≤ s.ctrl.ops.cnt.toNat) (hw : inWindow s.params s.ctrl.ops.addr.toNat 24 = true)
    (ho : overlapsBuffers s.params s.ctrl.ops.addr.toNat 48 = false) :
    encodeCheck s = s.goto .encWrite (encodeWrites s.ctrl.ops) := by
  simp [encodeCheck, frameLen, hc, hw, ho]

end

/-- CTRL's first turn of ENCODE_PIXEL is ENC_CHECK. -/
theorem encodePixel_checks (s : State) :
    runAgent .ctrl 1 (startOf .encodePixel s) = .next (encodeCheck (startOf .encodePixel s)) :=
  runAgent_ctrl_decides (by simp [startOf, firstState]) rfl

/-- Settles O27: ENC_CHECK by the first check that fails. -/
theorem encodePixelChecks : Obligations.EncodePixelChecks := by
  refine fun s hp => ⟨_, exec_idle_free hp (.inr (.inl rfl)), fun hc => ?_, fun hc hw => ?_, fun hc hw ho => ?_⟩
  · rw [encodePixel_checks, encodeCheck_bufferTooSmall hc]; rfl
  · rw [encodePixel_checks, encodeCheck_outOfRange hc hw]; rfl
  · exact ⟨_, encodePixel_checks s, by rw [encodeCheck_refused hc hw ho]; exact s.refusedEnd_start _ _⟩

/-! ### REQUIRED_LENGTH (rule R110) -/

theorem requiredLengthBody_fits {s : State} (h : s.ctrl.ops.n.toNat ≤ 178956968) : requiredLengthBody s =
    (s.setResult (BitVec.ofNat 32 (requiredLength s.ctrl.ops.n.toNat))).endCommand .ok := by
  simp [requiredLengthBody, maxColours, Nat.not_lt.2 h]

theorem requiredLengthBody_refused {s : State} (h : 178956968 < s.ctrl.ops.n.toNat) :
    requiredLengthBody s = s.endRefused := by
  simp [requiredLengthBody, maxColours, h]

/-- CTRL's first turn of REQUIRED_LENGTH is its body. -/
theorem requiredLength_decides (s : State) :
    runAgent .ctrl 1 (startOf .requiredLength s) = .next (requiredLengthBody (startOf .requiredLength s)) :=
  runAgent_ctrl_decides (by simp [startOf, firstState]) rfl

/-- The largest required length fits RESULT. -/
theorem toNat_requiredLength {n : Nat} (h : n ≤ 178956968) :
    (BitVec.ofNat 32 (requiredLength n)).toNat = 24 * n + 40 := by
  simp only [requiredLength, frameLen, idleTail, BitVec.toNat_ofNat]
  omega

/-- Settles O30: the body on either side of the largest N. -/
theorem requiredLengthRuns : Obligations.RequiredLengthRuns := by
  refine fun s hp => ⟨_, exec_idle_free hp (.inr (.inr rfl)), fun hn => ?_, fun hn => ?_⟩
  · exact ⟨_, toNat_requiredLength hn, by rw [requiredLength_decides, requiredLengthBody_fits hn]; rfl⟩
  · exact ⟨_, requiredLength_decides s, by rw [requiredLengthBody_refused hn]; exact s.refusedEnd_start _ _⟩

/-! ### Memory steps that may race (rules R70 and R74) -/

/-- Memory steps empty CTRL's buffer into memory, oldest entry first, and mark a race where an entry lies in the playing
region; nothing else changes. -/
theorem drain_all_marked (es : List Entry) (s : State) (hb : s.wb.ctrl = es) :
    runAgent (.drain .ctrl) es.length s = .next
      (State.markRace { s with wb := { s.wb with ctrl := [] }, mem := es.foldl Memory.store s.mem }
        (es.any s.eng.play.covers)) := by
  induction es generalizing s with
  | nil =>
    have hw : s.wb = { s.wb with ctrl := [] } := by rw [← hb]
    rw [List.any_nil, State.markRace_false, List.foldl_nil, ← hw]
    rfl
  | cons e es ih =>
    have hturn : runTurn (.drain .ctrl) s = .next (s.drain .ctrl) := rfl
    rw [runAgent, List.length_cons, List.replicate_succ, runTurns_cons_next hturn,
      State.drain_cons (w := .ctrl) hb]
    refine (ih _ rfl).trans ?_
    simp [State.markRace, WriteBuffers.set, Bool.or_assoc]

/-- Entries lie in the playing region where their bytes together do. -/
theorem Play.covers_flatten (p : Play) (es : List Entry) : p.covers es.flatten = es.any p.covers := by
  cases p with
  | stopped => simp [covers]
  | playing ch idx ll lptr lcnt => exact List.any_flatten

/-- Only the addresses of an entry's bytes decide whether it lies in the playing region. -/
theorem Play.covers_congr (p : Play) {e f : Entry} (h : e.map Prod.fst = f.map Prod.fst) : p.covers e = p.covers f := by
  cases p with
  | stopped => rfl
  | playing ch idx ll lptr lcnt =>
    have htouches : ∀ g : Entry, Entry.touches g lptr.toNat lcnt = (g.map Prod.fst).any (inRegion lptr.toNat lcnt) :=
      fun g => by rw [List.any_map]; rfl
    rw [covers, covers, htouches, htouches, h]

/-- Consecutive sample writes reach consecutive addresses, two for each sample. -/
theorem sampleEntries_addresses (a : Nat) (l : List Sample) :
    (sampleEntries a l).flatten.map Prod.fst = List.range' a (2 * l.length) := by
  induction l generalizing a with
  | nil => rfl
  | cons v l ih => simp [sampleEntries, sampleCells, Nat.mul_succ, List.range'_succ, ih]

/-- The writes of samples race where the range they are written to meets the playing region. -/
theorem sampleEntries_race (p : Play) (a : Nat) (l : List Sample) :
    (sampleEntries a l).any p.covers = p.covers ((List.range (2 * l.length)).map fun k => (a + k, 0)) := by
  rw [← Play.covers_flatten]
  refine p.covers_congr ?_
  rw [sampleEntries_addresses, List.range'_eq_map_range, List.map_map]
  rfl

/-! ### ENCODE_PIXEL by turns (rules R107 and R108) -/

/-- The samples ENCODE_PIXEL writes: the frame of the colour in ARG0. -/
def Iface.pixel (f : Iface) : List Sample := frame (colourOf (f.arg0.extractLsb' 0 24))

@[simp] theorem Iface.pixel_length (f : Iface) : f.pixel.length = 24 := frame_length _

/-- ENCODE_PIXEL with its frame in CTRL's write buffer and the fence to perform. -/
def State.pixelBuffered (s : State) : State :=
  { s with
    ctrl := { s.ctrl with pc := .encWrite, micro := [.fence], ops := s.iface.operands }
    wb := { s.wb with ctrl := sampleEntries s.iface.arg2.toNat s.iface.pixel } }

/-- Where the checks pass, 25 turns of CTRL buffer the frame. -/
theorem encodePixel_buffers {s : State} (hb : s.wb.ctrl = []) (hc : 24 ≤ s.iface.arg3.toNat)
    (hw : inWindow s.params s.iface.arg2.toNat 24 = true) (ho : overlapsBuffers s.params s.iface.arg2.toNat 48 = false) :
    runAgent .ctrl (1 + 24) (startOf .encodePixel s) = .next s.pixelBuffered := by
  have hcheck := encodePixel_checks s
  rw [encodeCheck_passes hc hw ho] at hcheck
  have hwrite := ctrl_writeSamples s.iface.pixel s.iface.arg2.toNat [.fence]
    ((startOf .encodePixel s).goto .encWrite (encodeWrites s.iface.operands)) (by simp) rfl
  rw [Iface.pixel_length] at hwrite
  rw [runAgent_add hcheck]
  refine hwrite.trans (congrArg _ ?_)
  simp [startOf, firstState, State.start, State.goto, State.pixelBuffered, hb]

/-- ENCODE_PIXEL with its frame in memory and the fence to perform, after memory steps that raced or did not. -/
def State.pixelStored (s : State) (race : Bool) : State :=
  State.markRace
    { s.pixelBuffered with
      wb := { s.wb with ctrl := [] }
      mem := (sampleEntries s.iface.arg2.toNat s.iface.pixel).foldl Memory.store s.mem } race

theorem State.pixelStored_mem (s : State) (race : Bool) : (s.pixelStored race).mem =
    (sampleEntries s.iface.arg2.toNat s.iface.pixel).foldl Memory.store s.mem := by
  simp only [pixelStored, markRace_mem]

/-- The memory steps store the frame, with the race of rule R74. -/
theorem pixelBuffered_drains (s : State) : runAgent (.drain .ctrl) 24 s.pixelBuffered =
    .next (s.pixelStored (s.eng.play.covers ((List.range 48).map fun k => (s.iface.arg2.toNat + k, 0)))) := by
  have hdrain := drain_all_marked (sampleEntries s.iface.arg2.toNat s.iface.pixel) s.pixelBuffered rfl
  rw [sampleEntries_race, sampleEntries_length, Iface.pixel_length] at hdrain
  exact hdrain

/-- What ENCODE_PIXEL leaves once its frame is stored. -/
theorem State.pixelStored_ended {s : State} (hb : s.wb.ctrl = []) (race : Bool) : (s.pixelStored race).endCommand .ok =
    { s with
      iface := { s.iface with err := .ok }
      ctrl := s.ctrl.after s.iface
      mem := ((s.pixelStored race).endCommand .ok).mem
      eng := { s.eng with raced := s.eng.raced || race }
      faults := { s.faults with dmaRace := s.faults.dmaRace || race } } := by
  have hwb : s.wb = { s.wb with ctrl := [] } := by rw [← hb]
  simp [pixelStored, pixelBuffered, Ctrl.after, endCommand, markRace, ← hwb]

/-- With CTRL's buffer empty the fence passes, and the next turn ends the command with ERR = OK. -/
theorem encodePixel_ends {s : State} (hp : s.ctrl.pc = .encWrite) (hm : s.ctrl.micro = [.fence]) (hb : s.wb.ctrl = []) :
    runAgent .ctrl (1 + 1) s = .next (s.endCommand .ok) := by
  have hturn : runTurn .ctrl s = .next (microStep .fence [] s) :=
    ctrlTurn_statement (i := .encodePixel) (by rw [hp]; rfl) hm
  rw [microStep_fence_passes [] hb] at hturn
  have hdecides := runAgent_ctrl_decides (s := s.setMicro []) (by simp [hp]) rfl
  rw [runAgent_add (runAgent_one hturn), hdecides]
  simp only [decision, State.setMicro_ctrl, hp]
  rfl

/-- Settles O28: the turns of CTRL, the memory steps and CTRL's last turns, one after the other. -/
theorem encodePixelRuns : Obligations.EncodePixelRuns := by
  intro s hp hb hc hw ho
  have hrun := (runTurns_append (encodePixel_buffers hb hc hw ho)).trans (pixelBuffered_drains s)
  have hend (race : Bool) := encodePixel_ends (s := s.pixelStored race) rfl rfl rfl
  refine ⟨_, _, exec_idle_free hp (.inr (.inl rfl)), (runTurns_append hrun).trans (hend _), ?_, ?_, ?_⟩
  · rw [State.endCommand_mem, State.pixelStored_mem]
    exact holds_storeEntries s.iface.pixel _ s.mem
  · intro a ha
    rw [State.endCommand_mem, State.pixelStored_mem, read_storeEntries_other]
    rwa [Iface.pixel_length]
  · exact State.pixelStored_ended hb _

/-! ### Runs and invariants -/

/-- What every turn keeps, every run keeps. -/
theorem runTurns_keeps {P : State → Prop} (hturn : ∀ w s t, P s → runTurn w s = .next t → P t) {ts : List Turn}
    {s t : State} (h : P s) (hr : runTurns ts s = .next t) : P t := by
  induction ts generalizing s with
  | nil => cases hr; exact h
  | cons w ts ih =>
    simp only [runTurns] at hr
    split at hr
    · exact ih (hturn _ _ _ h ‹_›) hr
    · cases hr
    · cases hr

/-! ### A HOST that only feeds (rules R29, R95 and R99) -/

/-- HOST has only read the interface, waited or answered a pull. -/
structure Fed (s t : State) : Prop where
  frame : t = { s with
    iface := { s.iface with overrun := t.iface.overrun, pullReq := t.iface.pullReq }
    ctrl := { s.ctrl with item := t.ctrl.item }
    faults := { s.faults with refused := t.faults.refused }
    host := t.host }
  ops : t.host.ops <:+ s.host.ops

theorem Fed.deliver {s : State} {op : HostOp} {rest : List HostOp} (hops : s.host.ops = op :: rest) (it : Item) :
    Fed s ((s.setHostOps rest).deliver it) := by
  refine ⟨?_, by rw [State.deliver_host, hops]; exact List.suffix_cons op rest⟩
  unfold State.deliver
  split <;> rfl

/-- A turn of a HOST whose operations only feed. -/
theorem hostTurn_feeds {s t : State} (hf : ∀ op ∈ s.host.ops, op.feeds = true) (h : hostTurn s = .next t) :
    Fed s t := by
  cases hops : s.host.ops with
  | nil => rw [hostTurn, hops] at h; cases h; exact ⟨rfl, List.suffix_rfl⟩
  | cons op rest =>
    have hrest : rest <:+ s.host.ops := by rw [hops]; exact List.suffix_cons op rest
    have hop : op.feeds = true := hf op (by simp [hops])
    rw [hostTurn, hops] at h
    cases op with
    | w32 off v =>
      obtain rfl : off = 0x1C := by simpa [HostOp.feeds] using hop
      have hdeliver : exec (decodeColour v) (s.setHostOps rest) = .next t := h
      rw [exec_decodeColour] at hdeliver
      cases hdeliver
      exact .deliver hops _
    | r32 off =>
      dsimp only [State.hostOp] at h
      split at h
      · cases h
      split at h <;> cases h <;> exact ⟨rfl, hrest⟩
    | poll off mask v =>
      dsimp only [State.hostOp] at h
      split at h
      · cases h
      split at h <;> cases h
      · exact ⟨rfl, hrest⟩
      · split
        · exact ⟨rfl, hrest⟩
        · exact ⟨rfl, List.suffix_rfl⟩
    | fence =>
      cases h
      split
      · exact ⟨rfl, hrest⟩
      · exact ⟨rfl, List.suffix_rfl⟩
    | mw8 a v => cases hop
    | mw16 a v => cases hop
    | mw32 a v => cases hop

/-! ### ENCODE_PIXEL over every schedule (rules R72 and R108) -/

/-- How far ENCODE_PIXEL with operands `o` has come. While it writes, what is buffered and what is still to be written
would together leave the frame in memory. -/
inductive EncodeProgress (o : Operands) (s : State) : Prop
  | checking (pc : s.ctrl.pc = .encCheck) (micro : s.ctrl.micro = []) (ops : s.ctrl.ops = o) (drained : s.wb.ctrl = [])
  | writing (a : Nat) (l : List Sample) (pc : s.ctrl.pc = .encWrite)
    (micro : s.ctrl.micro = writeSamples a l ++ [.fence])
    (frame : Memory.holds ((s.wb.ctrl ++ sampleEntries a l).foldl Memory.store s.mem) o.addr.toNat
      (frame (colourOf o.rgb)))
  | fenced (pc : s.ctrl.pc = .encWrite) (micro : s.ctrl.micro = []) (drained : s.wb.ctrl = [])
    (frame : Memory.holds s.mem o.addr.toNat (frame (colourOf o.rgb)))
  | ended (pc : s.ctrl.pc = .idle) (ok : s.iface.err = .ok) (drained : s.wb.ctrl = [])
    (frame : Memory.holds s.mem o.addr.toNat (frame (colourOf o.rgb)))

/-- A run of ENCODE_PIXEL under a HOST that feeds only and has nothing buffered. -/
structure Encoding (p : Params) (o : Operands) (s : State) : Prop where
  params : s.params = p
  drained : s.wb.host = []
  feeds : ∀ op ∈ s.host.ops, op.feeds = true
  progress : EncodeProgress o s

section

variable {p : Params} {o : Operands} {s t : State}

/-- Only these parts of a state say how far the command has come. -/
theorem EncodeProgress.congr (h : EncodeProgress o s)
    (ctrl : t.ctrl.pc = s.ctrl.pc ∧ t.ctrl.micro = s.ctrl.micro ∧ t.ctrl.ops = s.ctrl.ops)
    (wb : t.wb.ctrl = s.wb.ctrl) (mem : t.mem = s.mem) (err : t.iface.err = s.iface.err) : EncodeProgress o t := by
  obtain ⟨hpc, hmicro, hops⟩ := ctrl
  cases h with
  | checking pc micro ops drained =>
    exact .checking (hpc.trans pc) (hmicro.trans micro) (hops.trans ops) (wb.trans drained)
  | writing a l pc micro frame => exact .writing a l (hpc.trans pc) (hmicro.trans micro) (by rwa [wb, mem])
  | fenced pc micro drained frame =>
    exact .fenced (hpc.trans pc) (hmicro.trans micro) (wb.trans drained) (by rwa [mem])
  | ended pc ok drained frame => exact .ended (hpc.trans pc) (err.trans ok) (wb.trans drained) (by rwa [mem])

/-- A step of CTRL carries the command on: a buffered write moves from what is to be written to what is buffered. -/
theorem EncodeProgress.advance (h : EncodeProgress o s) (hc : 24 ≤ o.cnt.toNat)
    (hw : inWindow s.params o.addr.toNat 24 = true) (ho : overlapsBuffers s.params o.addr.toNat 48 = false)
    (hp : s.ctrl.pc ≠ .idle) : EncodeProgress o (advance s) := by
  cases h with
  | checking pc micro ops drained =>
    subst ops
    have hcheck : advance s = s.goto .encWrite (encodeWrites s.ctrl.ops) := by
      rw [advance_decides micro, ← encodeCheck_passes hc hw ho, decision, pc]
    rw [hcheck]
    refine .writing _ _ rfl rfl ?_
    rw [State.goto_wb, State.goto_mem, drained, List.nil_append]
    exact holds_storeEntries _ _ _
  | writing a l pc micro frame =>
    cases l with
    | nil =>
      rw [advance_statement micro]
      by_cases hb : s.wb.ctrl = []
      · rw [microStep_fence_passes _ hb]
        exact .fenced pc rfl hb (by simpa [hb, sampleEntries] using frame)
      · rw [microStep_fence_waits _ hb]
        exact .writing a [] pc micro frame
    | cons v l =>
      rw [advance_statement micro]
      exact .writing (a + 2) l pc rfl (by simpa [sampleEntries, microStep_wb] using frame)
  | fenced pc micro drained frame =>
    rw [advance_decides micro]
    simp only [decision, pc]
    exact .ended rfl rfl drained frame
  | ended pc => exact absurd pc hp

theorem drain_ctrl_host (s : State) : (s.drain .ctrl).wb.host = s.wb.host := by
  unfold State.drain
  split <;> rfl

/-- A memory step stores what was buffered. -/
theorem EncodeProgress.drain (h : EncodeProgress o s) : EncodeProgress o (s.drain .ctrl) := by
  cases hb : s.wb.ctrl with
  | nil => rwa [State.drain_nil (w := .ctrl) hb]
  | cons e rest =>
    cases h with
    | writing a l pc micro frame =>
      refine .writing a l (by simpa) (by simpa) ?_
      rw [State.drain_cons (w := .ctrl) hb]
      simpa [hb] using frame
    | checking _ _ _ drained => rw [hb] at drained; cases drained
    | fenced _ _ drained => rw [hb] at drained; cases drained
    | ended _ _ drained => rw [hb] at drained; cases drained

/-- CTRL's step leaves the parameters, HOST and HOST's write buffer. -/
theorem advance_host (s : State) :
    (Machine.advance s).params = s.params ∧ (Machine.advance s).host = s.host ∧
    (Machine.advance s).wb.host = s.wb.host := by
  cases hm : s.ctrl.micro with
  | nil =>
    rw [advance_decides hm, onlyControl_decision s]
    exact ⟨rfl, rfl, rfl⟩
  | cons m rest =>
    rw [advance_statement hm, microStep_wb]
    refine ⟨microStep_params _ _ _, microStep_host _ _ _, ?_⟩
    split <;> rfl

/-- Every turn carries the run on. -/
theorem Encoding.runTurn (h : Encoding p o s) (hc : 24 ≤ o.cnt.toNat) (hw : inWindow p o.addr.toNat 24 = true)
    (ho : overlapsBuffers p o.addr.toNat 48 = false) {w : Turn} (hr : runTurn w s = .next t) : Encoding p o t := by
  obtain ⟨params, drained, feeds, progress⟩ := h
  cases w with
  | host =>
    obtain ⟨frame, ops⟩ := hostTurn_feeds feeds hr
    rw [frame]
    exact ⟨params, drained, fun op hop => feeds op (ops.subset hop), progress.congr ⟨rfl, rfl, rfl⟩ rfl rfl rfl⟩
  | ctrl =>
    by_cases hp : s.ctrl.pc = .idle
    · rw [Machine.runTurn, ctrlTurn_idle hp] at hr
      cases hr
      exact ⟨params, drained, feeds, progress⟩
    · rw [Machine.runTurn, ctrlTurn_running hp] at hr
      cases hr
      obtain ⟨hparams, hhost, hwb⟩ := advance_host s
      subst params
      exact ⟨hparams, hwb.trans drained, by rwa [hhost], progress.advance hc hw ho hp⟩
  | eng =>
    cases hplay : s.eng.play with
    | stopped =>
      rw [Machine.runTurn, engTurn_stopped hplay] at hr
      cases hr
      exact ⟨params, drained, feeds, progress⟩
    | playing ch idx ll lptr lcnt =>
      rw [Machine.runTurn, engTurn_playing hplay] at hr
      cases hr
      exact ⟨by simpa, by simpa, by simpa, progress.congr (by simp) (by simp) (by simp) (by simp)⟩
  | drain w =>
    cases hr
    cases w with
    | host => rw [State.drain_nil (w := .host) drained]; exact ⟨params, drained, feeds, progress⟩
    | ctrl => exact ⟨by simpa, by rwa [drain_ctrl_host], by simpa, progress.drain⟩

end

/-- Settles O29: the progress of the command through every turn, read off where it has ended. -/
theorem encodePixelFenced : Obligations.EncodePixelFenced := by
  intro s t u ts hp hwb hf hc hw ho ht hr hbusy
  rw [exec_idle_free hp (.inr (.inl rfl))] at ht
  cases ht
  have hstart : Encoding s.params s.iface.operands (startOf .encodePixel s) :=
    ⟨rfl, congrArg WriteBuffers.host hwb, hf, .checking rfl rfl rfl (congrArg WriteBuffers.ctrl hwb)⟩
  obtain ⟨-, -, -, progress⟩ := runTurns_keeps (fun _ _ _ h hr => h.runTurn hc hw ho hr) hstart hr
  have hidle := State.busy_eq_false.1 hbusy
  cases progress with
  | checking pc => rw [hidle] at pc; cases pc
  | writing _ _ pc => rw [hidle] at pc; cases pc
  | fenced pc => rw [hidle] at pc; cases pc
  | ended _ ok drained frame => exact ⟨ok, drained, frame⟩

/-! ### Samples on the wire (rules R138 and R139) -/

@[simp] theorem symTicks_length (k : Nat) (w : Sample) : (symTicks k w).length = 20 := by simp [symTicks, periodTicks]

/-- A SYM_IDLE period is low (rule R138). -/
theorem symLevel_idle (k t : Nat) : symLevel k symIdleWord t = false := by
  have hpol : polarity symIdleWord = true := by decide
  have hduty : duty symIdleWord = 0 := by decide
  simp [symLevel, hpol, hduty]

theorem symTicks_idle (k : Nat) : symTicks k symIdleWord = List.replicate 20 false := by
  refine List.eq_replicate_iff.2 ⟨symTicks_length _ _, fun b hb => ?_⟩
  obtain ⟨t, -, rfl⟩ := List.mem_map.1 hb
  exact symLevel_idle k t

/-- Samples last 20 ticks each (rule R139). -/
theorem wireTicksFrom_syms_length (g : GapOutput) (marks : DrvMarks) (k : Nat) (last : Option (Nat × Sample))
    (l : List Sample) : (wireTicksFrom g marks k last (syms l)).length = 20 * l.length := by
  induction l generalizing k last with
  | nil => rfl
  | cons v l ih =>
    have hrest := ih (k + 1) (some (k, v))
    simp only [syms] at hrest ⊢
    simp [wireTicksFrom, itemTicks, lastAfter, hrest]
    omega

/-- The items after a first SYM_IDLE follow its 20 low ticks. -/
theorem wireTicksFrom_idle (g : GapOutput) (marks : DrvMarks) (k n : Nat) (last : Option (Nat × Sample))
    (l : List WireItem) : wireTicksFrom g marks k last (syms (idleFrame (n + 1)) ++ l) =
      List.replicate 20 false ++ wireTicksFrom g marks (k + 1) (some (k, symIdleWord)) (syms (idleFrame n) ++ l) := by
  simp [syms, idleFrame, List.replicate_succ, wireTicksFrom, itemTicks, lastAfter, symTicks_idle]

/-- Idle samples are a low run of 20 ticks each (rules R115 and R139). -/
theorem wireTicksFrom_idleFrame (g : GapOutput) (marks : DrvMarks) (k n : Nat) (last : Option (Nat × Sample)) :
    wireTicksFrom g marks k last (syms (idleFrame n)) = List.replicate (20 * n) false := by
  induction n generalizing k last with
  | zero => rfl
  | succ n ih =>
    have hfirst := wireTicksFrom_idle g marks k n last []
    rw [List.append_nil, List.append_nil, ih] at hfirst
    rw [hfirst, List.replicate_append_replicate]
    congr 1
    omega

/-- A low run may be a reset from 800 ticks on (rules R16 and R141). -/
theorem mayReset_replicate (n : Nat) : mayReset (List.replicate n false) = true ↔ 800 ≤ n := by
  simp [mayReset, resetTicks]

/-- A run shorter than 800 ticks is no reset. -/
theorem le_length_of_mayReset {l : List Bool} (h : mayReset l = true) : 800 ≤ l.length := by
  simp only [mayReset, Bool.and_eq_true, decide_eq_true_eq] at h
  exact h.1

/-! ### Gaps (rules R140, R141 and R151) -/

@[simp] theorem gapTicks_length (g : GapOutput) (k : Nat) (changes : List Drv) (last : Option (Nat × Sample)) :
    (gapTicks g k changes last).length = Config.freeGapTicks k := by simp [gapTicks]

/-- A gap in which the driver does not change has the level of its output rule. -/
theorem gapTicks_unchanged (g : GapOutput) (k : Nat) (last : Option (Nat × Sample)) :
    gapTicks g k [] last = (List.range (Config.freeGapTicks k)).map (gapLevel g last) := rfl

/-- After SYM_IDLE, or with no sample since CONFIGURE, a gap is low under either output rule. -/
theorem gapLevel_quiet {g : GapOutput} {last : Option (Nat × Sample)} (h : ∀ x ∈ last, x.2 = symIdleWord) (t : Nat) :
    gapLevel g last t = false := by
  cases g with
  | idleLow => rfl
  | holdLast =>
    cases last with
    | none => rfl
    | some x =>
      obtain ⟨k, w⟩ := x
      obtain rfl : w = symIdleWord := h _ rfl
      exact symLevel_idle k _

theorem gapLevel_idleLow (last : Option (Nat × Sample)) (t : Nat) : gapLevel .idleLow last t = false := rfl

theorem gapTicks_idleLow (k : Nat) (last : Option (Nat × Sample)) :
    gapTicks .idleLow k [] last = List.replicate (Config.freeGapTicks k) false := by
  simp [gapTicks_unchanged, gapLevel_idleLow, List.eq_replicate_iff]

/-- Idle samples and the gap after them are low, where no other sample is held. -/
theorem wireTicksFrom_idleFrame_gap (g : GapOutput) (marks : DrvMarks) (k n : Nat) {last : Option (Nat × Sample)}
    (hlast : n = 0 → ∀ x ∈ last, x.2 = symIdleWord) (hm : drvChanges marks (k + n + 1) = []) :
    ∀ b ∈ wireTicksFrom g marks k last (syms (idleFrame n) ++ [.gap]), b = false := by
  induction n generalizing k last with
  | zero =>
    have hsince : ∀ x ∈ sinceConfigure marks k last, x.2 = symIdleWord := by
      unfold sinceConfigure
      split
      · simp
      · exact hlast rfl
    intro b hb
    have hgap : b ∈ gapTicks g k [] (sinceConfigure marks k last) := by
      rw [← hm]; simpa [syms, idleFrame, wireTicksFrom, itemTicks] using hb
    rw [gapTicks_unchanged] at hgap
    obtain ⟨t, -, rfl⟩ := List.mem_map.1 hgap
    exact gapLevel_quiet hsince t
  | succ n ih =>
    intro b hb
    rw [wireTicksFrom_idle] at hb
    rcases List.mem_append.1 hb with hb | hb
    · exact List.eq_of_mem_replicate hb
    · exact ih (k + 1) (fun _ => by simp) (by rwa [show k + 1 + n + 1 = k + (n + 1) + 1 by omega]) b hb

theorem partStart_le_succ (k j : Nat) : partStart k j ≤ partStart k (j + 1) := Nat.le_add_right _ _

/-- From a CONFIGURE in a gap up to the next change of the driver, if there is one, the pin is low (rules R140 and
R151). -/
theorem partLevel_configured {k j t : Nat} (level : Nat → Bool) (pre : List Drv) {post : List Drv}
    (hstart : partStart k (j + pre.length + 1) ≤ t) (hend : post = [] ∨ t < partStart k (j + pre.length + 2)) :
    partLevel k level j (pre ++ .configured :: post) t = false := by
  induction pre generalizing level j with
  | nil =>
    have hfirst : partStart k (j + 1) ≤ t := hstart
    rw [List.nil_append, partLevel, if_neg (Nat.not_lt.2 hfirst)]
    cases post with
    | nil => rfl
    | cons d post =>
      have hbefore := hend.resolve_left (by simp)
      exact if_pos hbefore
  | cons d pre ih =>
    have hlen : j + (d :: pre).length = j + 1 + pre.length := by simp; omega
    rw [hlen] at hstart hend
    have hfirst : partStart k (j + 1) ≤ t :=
      (monotone_nat_of_le_succ (partStart_le_succ k) (by omega)).trans hstart
    rw [List.cons_append, partLevel, if_neg (Nat.not_lt.2 hfirst)]
    exact ih _ hstart hend

/-- Settles O43: durations and levels of the samples, then of the gaps. -/
theorem gapsAndIdleTail : Obligations.GapsAndIdleTail := by
  refine ⟨fun g marks k n last c => ⟨wireTicksFrom_idleFrame g marks k n last, ?_, ?_, fun hn hm => ?_⟩,
    fun k => ?_, fun k last b hb => ?_, fun k j t w ht => ?_, fun g k t last pre post hstart hend => ?_,
    fun g k changes last => ⟨gapTicks_length .., fun h => ?_, fun h => ?_⟩,
    fun wire lo hi k g changes last hgap hlo hhi hk => ?_⟩
  · rw [wireTicksFrom_idleFrame, mayReset_replicate]
    omega
  · rw [wireTicksFrom_syms_length, frame_length]
  · exact wireTicksFrom_idleFrame_gap g marks k n (fun h0 => by omega) hm
  · simp [cutTicks, periodTicks]
  · rw [gapTicks_idleLow] at hb
    exact List.eq_of_mem_replicate hb
  · simp [gapTicks_unchanged, List.getElem?_range ht, gapLevel, periodTicks]
  · have hlow := partLevel_configured (gapLevel g last) pre (j := 0) (by simpa using hstart) (by simpa using hend)
    intro htrue
    rw [gapTicks, List.getElem?_map, Option.map_eq_some_iff] at htrue
    obtain ⟨x, hx, htrue⟩ := htrue
    obtain rfl : t = x := by simpa using (List.getElem?_eq_some_iff.1 hx).2
    rw [hlow] at htrue
    cases htrue
  · simpa using le_length_of_mayReset h
  · rw [gapTicks_idleLow, mayReset_replicate]
    exact h
  · by_contra hreset
    have hlong := le_length_of_mayReset (eq_true_of_ne_false hreset)
    have hshort := hgap k hlo hhi hk
    rw [gapTicks_length] at hlong
    simp only [resetTicks] at hshort
    omega

end Sys2Proof.Machine

/-! PROOFS. 41_transfer.md: begin, preempt, the start task and the end of a sequence as equations, whole sequences and
pairs by ENG's turns, what changes an event flag, ENG's fair turn, the waveform of a sample, and the three transfer
commands by CTRL's turns. -/

namespace Sys2Proof.Machine

/-! ### Event flags set (rules R45 and R129) -/

/-- Setting a flag clears none. -/
theorem Events.put_true_keeps {ev : Events} {e : Event} (f : Event) (h : ev.get e = true) :
    (ev.put f true).get e = true := by
  rw [Events.get_put]
  split
  · rfl
  · exact h

/-- A flag written twice holds what it was written last. -/
@[simp] theorem Events.put_put (ev : Events) (e : Event) (a b : Bool) : (ev.put e a).put e b = ev.put e b := by
  cases e with
  | seqStarted ch => cases ch <;> rfl
  | seqEnd ch => cases ch <;> rfl
  | _ => rfl

namespace State

/-! ### begin, preempt and the start task as equations (rules R127, R130, R131 and R135) -/

/-- A sequence that begins latches its descriptor, sets SEQSTARTED and is raced where a write buffer overlaps it. -/
theorem beginSeq_begins {s : State} {n : Channel} (ll : Nat) (h : (s.eng.regs.seq n).cnt ≠ 0) :
    s.beginSeq n ll = { s with
      eng := { s.eng with
        events := s.eng.events.put (.seqStarted n) true
        play := .playing n 0 ll (s.eng.regs.seq n).ptr (s.eng.regs.seq n).cnt.toNat
        raced := s.wb.touch (s.eng.regs.seq n).ptr.toNat (s.eng.regs.seq n).cnt.toNat }
      faults := { s.faults with
        dmaRace := s.faults.dmaRace || s.wb.touch (s.eng.regs.seq n).ptr.toNat (s.eng.regs.seq n).cnt.toNat } } := by
  refine (if_neg h).trans ?_
  simp [markRace, putEvent, setPlay]

/-- Preempting stops ENG and reaches the wire; it changes nothing else. -/
theorem preempt_eq (s : State) :
    s.preempt = { s with wire := s.preempt.wire, eng := { s.eng with play := .stopped } } := by
  unfold preempt
  split <;> rename_i hp
  · rw [← hp]
  · rfl

/-- The Cut stands on the wire where a sequence played. -/
theorem preempt_wire_cut (s : State) :
    s.preempt.wire = s.wire ++ (if s.eng.play = .stopped then [] else [.cut]) := by
  rw [preempt_wire]
  split
  · rw [List.append_nil]
  · rfl

/-- In loop mode the start task of channel B is refused, after the cut. -/
theorem fireTask_B_loops {s : State} (hd : s.drv = .configured) (hl : s.eng.regs.loopCnt ≠ 0) :
    s.fireTask .B = { s with
      wire := s.preempt.wire
      eng := { s.eng with play := .stopped }
      faults := { s.faults with refused := true } } := by
  have hfire : s.fireTask .B = s.preempt.refuse := by
    unfold fireTask
    rw [if_neg (by simp [hd])]
    exact if_pos (by simpa using hl)
  rw [hfire, preempt_eq]
  rfl

section

variable {s : State} {n : Channel} (hd : s.drv = .configured) (hl : n = .B → s.eng.regs.loopCnt = 0)
include hd hl

/-- Elsewhere a start task in a configured driver cuts what plays, latches loop_mode and the loop count, and begins. -/
theorem fireTask_begins : s.fireTask n =
    (s.preempt.setLoopMode (decide (n = .A ∧ s.eng.regs.loopCnt ≠ 0))).beginSeq n
      (if n = .A then s.eng.regs.loopCnt.toNat - 1 else 0) := by
  cases n with
  | A => simp [fireTask, hd]; rfl
  | B => simp [fireTask, hd, hl rfl]

/-- A start task of an empty sequence is refused. -/
theorem fireTask_empty (hc : (s.eng.regs.seq n).cnt = 0) : s.fireTask n = { s with
    wire := s.preempt.wire
    eng := { s.eng with play := .stopped, loopMode := decide (n = .A ∧ s.eng.regs.loopCnt ≠ 0) }
    faults := { s.faults with refused := true } } := by
  rw [fireTask_begins hd hl, preempt_eq, beginSeq_empty]
  · rfl
  · exact hc

/-- A start task starts its sequence. -/
theorem fireTask_starts (hc : (s.eng.regs.seq n).cnt ≠ 0) : s.fireTask n = { s with
    wire := s.preempt.wire
    eng := { s.eng with
      events := s.eng.events.put (.seqStarted n) true
      play := .playing n 0 (if n = .A then s.eng.regs.loopCnt.toNat - 1 else 0) (s.eng.regs.seq n).ptr
        (s.eng.regs.seq n).cnt.toNat
      loopMode := decide (n = .A ∧ s.eng.regs.loopCnt ≠ 0)
      raced := s.wb.touch (s.eng.regs.seq n).ptr.toNat (s.eng.regs.seq n).cnt.toNat }
    faults := { s.faults with
      dmaRace := s.faults.dmaRace || s.wb.touch (s.eng.regs.seq n).ptr.toNat (s.eng.regs.seq n).cnt.toNat } } := by
  rw [fireTask_begins hd hl, preempt_eq, beginSeq_begins]
  · rfl
  · exact hc

end

/-- A state is its fields. -/
theorem eq_mk (s : State) : s = State.mk s.params s.iface s.ctrl s.drv s.eng s.mem s.wb s.wire s.marks s.faults s.host
    s.sched := rfl

/-- A start task reaches ENG, the wire and the fault bits only. -/
theorem fireTask_frame (s : State) (n : Channel) : s.fireTask n = { s with
    eng := (s.fireTask n).eng, wire := (s.fireTask n).wire, faults := (s.fireTask n).faults } := by
  rw [eq_mk (s.fireTask n)]
  simp

/-! ### end in loop mode as equations (rules R133 and R183) -/

section

variable {s : State} {ll : Nat} (h : s.eng.loopMode = true)
include h

/-- A chains into B; where B's refill is still owed, with a race. -/
theorem endSeq_loop_A : s.endSeq .A ll =
    ((s.putEvent (.seqEnd .A) true).beginSeq .B ll).markRace s.ctrl.owesB := by
  simp [endSeq, h]

/-- B begins A again while loops are left. -/
theorem endSeq_loop_B_again (hll : 0 < ll) : s.endSeq .B ll =
    (s.putEvent (.seqEnd .B) true).beginSeq .A (ll - 1) := by
  simp [endSeq, h, hll]

/-- The last B ends the loop. -/
theorem endSeq_loop_B_done : s.endSeq .B 0 =
    ((s.putEvent (.seqEnd .B) true).putEvent .loopsDone true).stopPlaying := by
  simp [endSeq, h]

end

/-- A sequence that begins does not depend on what played. -/
theorem beginSeq_setPlay (s : State) (p : Play) (n : Channel) (ll : Nat) :
    (s.setPlay p).beginSeq n ll = s.beginSeq n ll := by
  by_cases hc : (s.eng.regs.seq n).cnt = 0
  · rw [beginSeq_empty hc, beginSeq_empty]
    · rfl
    · exact hc
  · rw [beginSeq_begins ll hc, beginSeq_begins]
    · rfl
    · exact hc

/-- What ends a sequence does not depend on where in it ENG stands. -/
theorem endSeq_setPlay (s : State) (p : Play) (ch : Channel) (ll : Nat) :
    (s.setPlay p).endSeq ch ll = s.endSeq ch ll := by
  have hset (t : State) (e : Event) : (t.setPlay p).putEvent e true = (t.putEvent e true).setPlay p := rfl
  have hstop (t : State) : (t.setPlay p).stopPlaying = t.stopPlaying := rfl
  simp only [endSeq, hset, hstop, beginSeq_setPlay, setPlay_eng, setPlay_ctrl]

/-- Where no race is found, A's end begins B and changes nothing else. -/
theorem endSeq_chains {s : State} {ll : Nat} (h : s.eng.loopMode = true) (hc : s.eng.regs.seqB.cnt ≠ 0)
    (htouch : s.wb.touch s.eng.regs.seqB.ptr.toNat s.eng.regs.seqB.cnt.toNat = false) (howes : s.ctrl.owesB = false)
    (hr : s.eng.raced = false) : s.endSeq .A ll = { s with
      eng := { s.eng with
        events := (s.eng.events.put (.seqEnd .A) true).put (.seqStarted .B) true
        play := .playing .B 0 ll s.eng.regs.seqB.ptr s.eng.regs.seqB.cnt.toNat } } := by
  rw [endSeq_loop_A h, howes, markRace_false, beginSeq_begins]
  · simp [EngRegs.seq, htouch, hr]
  · exact hc

/-- What ends a sequence reaches ENG, the wire and the fault bits only. -/
theorem endSeq_frame (s : State) (n : Channel) (ll : Nat) : s.endSeq n ll = { s with
    eng := (s.endSeq n ll).eng, wire := (s.endSeq n ll).wire, faults := (s.endSeq n ll).faults } := by
  rw [eq_mk (s.endSeq n ll)]
  simp

@[simp] theorem endSeq_loopMode (s : State) (n : Channel) (ll : Nat) :
    (s.endSeq n ll).eng.loopMode = s.eng.loopMode := by
  unfold endSeq
  cases n <;> (dsimp only; split <;> (try split) <;> simp)

end State

/-! ### The start task, the end of a sequence and a pair in loop mode -/

/-- Settles O37: the start task by the driver, the channel, the loop count and the descriptor. -/
theorem startTask : Obligations.StartTask := by
  intro s i n rest hi hm
  have hexec : exec i s = .next ((s.setMicro rest).fireTask n) := by
    rw [exec_running i s hi, advance_statement hm, microStep_task]
  have hcut : (s.setMicro rest).preempt.wire = s.wire ++ (if s.eng.play = .stopped then [] else [.cut]) :=
    State.preempt_wire_cut _
  refine ⟨_, hexec, State.fireTask_frame (s.setMicro rest) n, State.fireTask_regs (s.setMicro rest) n,
    State.fireTask_tick (s.setMicro rest) n, fun hd => ?_, fun hd => ?_, fun hd hn hl => ?_,
    fun hd hl => ⟨?_, fun hc => ?_, fun hc => ?_⟩⟩
  · rw [State.fireTask_unconfigured (s := s.setMicro rest) n hd]
    exact ⟨rfl, rfl, rfl⟩
  · rw [← hcut]
    by_cases hl : n = .B → s.eng.regs.loopCnt = 0
    · rw [State.fireTask_begins (s := s.setMicro rest) hd hl, State.beginSeq_wire]
      rfl
    · obtain ⟨rfl, hloops⟩ := Classical.not_imp.1 hl
      rw [State.fireTask_B_loops (s := s.setMicro rest) hd hloops]
  · subst hn
    rw [State.fireTask_B_loops (s := s.setMicro rest) hd hl]
    exact ⟨rfl, rfl⟩
  · rw [State.fireTask_begins (s := s.setMicro rest) hd hl]
    exact State.beginSeq_loopMode _ _ _
  · rw [State.fireTask_empty (s := s.setMicro rest) hd hl hc]
    exact ⟨rfl, rfl, rfl, rfl⟩
  · rw [State.fireTask_starts (s := s.setMicro rest) hd hl hc]
    exact ⟨rfl, rfl, rfl, rfl⟩

/-- Settles O39: the last sample ends its sequence, by the channel, the loops left and the next descriptor. -/
theorem endOfSequence : Obligations.EndOfSequence := by
  intro s ch idx ll lcnt lptr hp hlast hloop iw hiw
  rw [exec_sample hiw, State.emitWord_last iw.2 hp hlast]
  refine ⟨_, rfl, ?_, State.endSeq_regs _ _ _, ?_, State.endSeq_tick _ _ _, ?_, ?_, ?_, ?_, ?_⟩
  · exact State.endSeq_frame _ _ _
  · exact (State.endSeq_loopMode _ _ _).trans hloop
  · rintro rfl hc
    rw [State.endSeq_loop_A, State.beginSeq_begins]
    · exact ⟨rfl, rfl, rfl, rfl, by simp [Bool.or_assoc]⟩
    · exact hc
    · exact hloop
  · rintro rfl hll hc
    rw [State.endSeq_loop_B_again _ hll, State.beginSeq_begins]
    · exact ⟨rfl, rfl, rfl, rfl, rfl⟩
    · exact hc
    · exact hloop
  · rintro rfl rfl
    rw [State.endSeq_loop_B_done]
    · exact ⟨by simp, rfl, rfl, rfl, rfl⟩
    · exact hloop
  · rintro rfl hc
    rw [State.endSeq_loop_A, State.beginSeq_empty]
    · exact ⟨rfl, rfl, rfl, rfl, rfl⟩
    · exact hc
    · exact hloop
  · rintro rfl hll hc
    rw [State.endSeq_loop_B_again _ hll, State.beginSeq_empty]
    · exact ⟨rfl, rfl, rfl, rfl, rfl⟩
    · exact hc
    · exact hloop

/-- The state as ENG has played samples from memory: on the wire, each with its two draws. -/
def State.played (s : State) (l : List Sample) : State :=
  { s with
    wire := s.wire ++ syms l
    eng := { s.eng with tick := 0 }
    sched := { s.sched with draws := s.sched.draws + 2 * l.length } }

/-- ENG's turns play the rest of a sequence, from its sample numbered `idx` on, to its end. -/
theorem playout_to_end (l : List Sample) (s : State) (ch : Channel) (idx ll lcnt : Nat) (lptr : Word) (hne : l ≠ [])
    (hp : s.eng.play = .playing ch idx ll lptr lcnt) (hcnt : idx + l.length = lcnt) (hr : s.eng.raced = false)
    (hm : Memory.holds s.mem (lptr.toNat + 2 * idx) l) :
    runAgent .eng l.length s = .next ((s.played l).endSeq ch ll) := by
  induction l generalizing s idx with
  | nil => exact absurd rfl hne
  | cons v l ih =>
    have hv : s.dmaSample (lptr.toNat + 2 * idx) = v := dmaSample_of_sample hr (hm 0 v rfl)
    have hturn : runTurn .eng s = .next ((s.countDraws 2).emitWord v) := by
      rw [← hv]; exact engTurn_playing hp
    rw [runAgent, List.length_cons, List.replicate_succ, runTurns_cons_next hturn]
    cases l with
    | nil => rw [State.emitWord_last (s := s.countDraws 2) v hp (by simpa using hcnt)]; rfl
    | cons w l =>
      have hin : idx + 1 ≠ lcnt := by simp only [List.length_cons] at hcnt; omega
      rw [State.emitWord_inside (s := s.countDraws 2) v hp hin]
      refine (ih _ (idx + 1) (by simp) ?_ ?_ ?_ ?_).trans (congrArg _ ?_)
      · rfl
      · simp only [List.length_cons] at hcnt ⊢; omega
      · exact hr
      · exact Memory.holds_tail hm
      · have hdraws : s.sched.draws + 2 + 2 * (l.length + 1) = s.sched.draws + 2 * (l.length + 1 + 1) := by omega
        rw [← State.endSeq_setPlay (s.played (v :: w :: l)) (.playing ch (idx + 1) ll lptr lcnt)]
        simp [State.played, State.setPlay, State.countDraws, syms, hdraws]

/-- Settles O41: A to its end, which begins B, then B to its end. -/
theorem playoutLoopPair : Obligations.PlayoutLoopPair := by
  intro s pa la lb hla hlb hp hloop hr hcnt htouch howes hma hmb
  have hA := playout_to_end la s .A 0 0 la.length pa hla hp (by simp) hr (by simpa using hma)
  have hc : s.eng.regs.seqB.cnt ≠ 0 := by
    intro h0
    rw [h0] at hcnt
    exact hlb (List.length_eq_zero_iff.1 hcnt.symm)
  have hchain : (s.played la).endSeq .A 0 = _ :=
    State.endSeq_chains hloop hc (by rw [← hcnt] at htouch; exact htouch) howes hr
  rw [hchain] at hA
  rw [runAgent_add hA]
  refine (playout_to_end lb _ .B 0 0 lb.length s.eng.regs.seqB.ptr hlb ?_ ?_ ?_ ?_).trans (congrArg _ ?_)
  · exact congrArg _ hcnt
  · simp
  · exact hr
  · exact hmb
  · rw [State.endSeq_loop_B_done]
    · simp [State.played, State.stopPlaying, State.putEvent, State.setPlay, State.emit, Nat.mul_add, Nat.add_assoc]
    · exact hloop

/-! ### What ENG and CTRL do to the event flags (rules R45 and R129) -/

namespace State

variable {s : State} {e : Event}

theorem beginSeq_keepsEvent (n : Channel) (ll : Nat) (h : s.eng.events.get e = true) :
    (s.beginSeq n ll).eng.events.get e = true := by
  rw [beginSeq_events]
  split
  · exact h
  · exact Events.put_true_keeps _ h

theorem fireTask_keepsEvent (n : Channel) (h : s.eng.events.get e = true) :
    (s.fireTask n).eng.events.get e = true := by
  cases hd : s.drv with
  | unconfigured => rwa [fireTask_unconfigured n hd]
  | configured =>
    by_cases hl : n = .B → s.eng.regs.loopCnt = 0
    · rw [fireTask_begins hd hl]
      exact beginSeq_keepsEvent n _ (by simpa using h)
    · obtain ⟨rfl, hloops⟩ := Classical.not_imp.1 hl
      rwa [fireTask_B_loops hd hloops]

theorem endSeq_keepsEvent (n : Channel) (ll : Nat) (h : s.eng.events.get e = true) :
    (s.endSeq n ll).eng.events.get e = true := by
  have hend : (s.putEvent (.seqEnd n) true).eng.events.get e = true := Events.put_true_keeps _ h
  cases hl : s.eng.loopMode with
  | false => rwa [endSeq_single hl]
  | true =>
    cases n with
    | A => rw [endSeq_loop_A hl]; exact beginSeq_keepsEvent .B ll hend
    | B =>
      cases ll with
      | zero => rw [endSeq_loop_B_done hl]; exact Events.put_true_keeps _ hend
      | succ ll => rw [endSeq_loop_B_again hl ll.succ_pos]; exact beginSeq_keepsEvent .A _ hend

/-- ENG clears no flag. -/
theorem emitWord_keepsEvent (w : Sample) (h : s.eng.events.get e = true) :
    (s.emitWord w).eng.events.get e = true := by
  cases hp : s.eng.play with
  | stopped => rwa [emitWord_stopped w hp]
  | playing ch idx ll lptr lcnt =>
    by_cases hi : idx + 1 = lcnt
    · rw [emitWord_last w hp hi]; exact endSeq_keepsEvent ch ll h
    · rwa [emitWord_inside w hp hi]

@[simp] theorem drain_events (s : State) (w : Writer) : (s.drain w).eng.events = s.eng.events := by
  unfold drain; split <;> rfl
@[simp] theorem drain_regs (s : State) (w : Writer) : (s.drain w).eng.regs = s.eng.regs := by
  unfold drain; split <;> rfl

end State

/-- Only the clear of a flag and a start task change a flag. -/
theorem microStep_events {m : Micro} (rest : List Micro) (s : State) (hc : ∀ e, m ≠ .clear e)
    (ht : ∀ ch, m ≠ .task ch) : (microStep m rest s).eng.events = s.eng.events := by
  cases m with
  | clear e => exact absurd rfl (hc e)
  | task ch => exact absurd rfl (ht ch)
  | fence | awaitEnd | awaitItem => simp only [microStep]; split <;> rfl
  | _ => rfl

/-- CTRL clears a flag only by the statement that clears it. -/
theorem microStep_keepsEvent {m : Micro} {rest : List Micro} {s : State} {e : Event} (hm : m ≠ .clear e)
    (h : s.eng.events.get e = true) : (microStep m rest s).eng.events.get e = true := by
  by_cases hc : ∃ f, m = .clear f
  · obtain ⟨f, rfl⟩ := hc
    have hef : e ≠ f := fun hef => hm (by rw [hef])
    exact (Events.get_put_other s.eng.events false hef).trans h
  · by_cases ht : ∃ ch, m = .task ch
    · obtain ⟨ch, rfl⟩ := ht
      exact State.fireTask_keepsEvent ch h
    · rwa [microStep_events rest s (fun f hf => hc ⟨f, hf⟩) fun ch hch => ht ⟨ch, hch⟩]

/-- A step clears a flag only by CTRL's statement that clears it (rule R129). -/
theorem step_clears {s t : State} {e : Event} (h : step s = .next t) (hs : s.eng.events.get e = true)
    (ht : t.eng.events.get e = false) : s.nextTurn = .ctrl ∧ s.ctrl.micro.head? = some (.clear e) := by
  have hkept : t.eng.events.get e ≠ true := by rw [ht]; exact Bool.false_ne_true
  have htake : s.takeTurn.eng.events.get e = true := by rwa [State.takeTurn_eng]
  cases step_cases h with
  | rests => exact absurd htake hkept
  | host _ move => rw [move.frame] at hkept; exact absurd htake hkept
  | @statement m rest turn micro =>
    by_cases hm : m = .clear e
    · exact ⟨turn, by rw [micro, hm]; rfl⟩
    · exact absurd (microStep_keepsEvent hm htake) hkept
  | decision _ => rw [onlyControl_decision s.takeTurn] at hkept; exact absurd htake hkept
  | eng _ w => exact absurd (State.emitWord_keepsEvent (s := s.takeTurn.countDraws 2) w htake) hkept
  | drain w => rw [State.drain_events] at hkept; exact absurd htake hkept

/-- A step writes ENG's registers only by CTRL's turn (rules R51 and R128). -/
theorem step_regs {s t : State} (h : step s = .next t) (hne : t.eng.regs ≠ s.eng.regs) : s.nextTurn = .ctrl := by
  cases step_cases h with
  | statement turn _ => exact turn
  | decision turn => exact turn
  | rests => exact absurd (by simp) hne
  | host _ move => rw [move.frame] at hne; exact absurd (by simp) hne
  | eng _ w => exact absurd (by simp) hne
  | drain w => exact absurd (by simp) hne

/-- Settles O59: ENG's turn as one emit step, and a step by its agent. -/
theorem engineReach : Obligations.EngineReach := by
  refine ⟨fun s t h => ?_, fun _ _ _ h => step_clears h, fun _ _ h => step_regs h,
    fun s i e rest hi hm => ?_⟩
  · cases hp : s.eng.play with
    | stopped => rw [engTurn_stopped hp] at h; cases h; exact ⟨fun _ => id, rfl, rfl, rfl, rfl, rfl, rfl, rfl⟩
    | playing ch idx ll lptr lcnt =>
      rw [engTurn_playing hp] at h
      cases h
      exact ⟨fun e he => State.emitWord_keepsEvent _ he, by simp⟩
  · exact ⟨_, (exec_running i s hi).trans (congrArg _ (advance_statement hm)), Events.get_put_same _ _ _,
      fun f hf => Events.get_put_other _ false hf⟩

/-! ### Fairness (rule R126) -/

/-- A step leaves the schedule as the taking of its turn does, but for the draws. -/
theorem step_sched {s t : State} (h : step s = .next t) :
    t.sched.turns = s.takeTurn.sched.turns ∧ t.sched.patience = s.takeTurn.sched.patience := by
  cases step_cases h with
  | rests => exact ⟨rfl, rfl⟩
  | host _ move => rw [move.frame]; exact ⟨rfl, rfl⟩
  | statement _ _ => rw [microStep_sched]; exact ⟨rfl, rfl⟩
  | decision _ => rw [onlyControl_decision s.takeTurn]; exact ⟨rfl, rfl⟩
  | eng _ w => rw [State.emitWord_sched]; exact ⟨rfl, rfl⟩
  | drain w => rw [State.drain_sched]; exact ⟨rfl, rfl⟩

/-- A free turn of another agent costs ENG one of its patience. -/
theorem State.takeTurn_free {s : State} (h : s.sched.turns = []) (hn : s.nextTurn ≠ .eng) :
    s.takeTurn.sched.turns = [] ∧ s.takeTurn.sched.patience = s.sched.patience - 1 := by
  unfold takeTurn
  split
  · rename_i hc; rw [h] at hc; cases hc
  · exact ⟨h, if_neg hn⟩

/-- With its patience used up, a Playing ENG has its turn. -/
theorem State.nextTurn_of_noPatience {s : State} (h : s.sched.turns = []) (hp : s.isPlaying = true)
    (h0 : s.sched.patience = 0) : s.nextTurn = .eng := by
  simp [nextTurn, h, hp, h0]

/-- Settles O11, by induction on the patience. -/
theorem weakFairness : Obligations.WeakFairness := by
  intro s hturns hplay
  induction hk : s.sched.patience generalizing s with
  | zero => exact ⟨0, le_rfl, .inl ⟨s, rfl, .inl (State.nextTurn_of_noPatience hturns hplay hk)⟩⟩
  | succ k ih =>
    by_cases hn : s.nextTurn = .eng
    · exact ⟨0, Nat.zero_le _, .inl ⟨s, rfl, .inl hn⟩⟩
    have hsucc (j : Nat) {t : State} (ht : step s = .next t) : steps (j + 1) s = steps j t := by
      simp [steps, ht]
    cases ht : step s with
    | fault r => exact ⟨1, by omega, .inr (by simp [steps, ht])⟩
    | refused r => exact ⟨1, by omega, .inr (by simp [steps, ht])⟩
    | next t =>
      by_cases hstop : t.isPlaying = true
      · obtain ⟨hfree, hless⟩ := State.takeTurn_free hturns hn
        obtain ⟨hturns', hpat⟩ := step_sched ht
        obtain ⟨j, hj, hrun⟩ := ih t (hturns'.trans hfree) hstop (by rw [hpat, hless, hk]; rfl)
        exact ⟨j + 1, by omega, by rwa [hsucc j ht]⟩
      · exact ⟨1, by omega, .inl ⟨t, hsucc 0 ht, .inr (by simpa using hstop)⟩⟩

/-! ### The waveform of a sample (rule R138) -/

/-- A sample with POL = 1 and DUTY within its period is high for DUTY ticks, then low. -/
theorem symTicks_duty (k : Nat) {w : Sample} (hpol : polarity w = true) (hduty : duty w ≤ 20) :
    symTicks k w = List.replicate (duty w) true ++ List.replicate (20 - duty w) false := by
  have hlevel (t : Nat) : symLevel k w t = decide (t < duty w) := by simp [symLevel, hpol, periodTicks, hduty]
  refine List.ext_getElem (by simp; omega) fun t ht _ => ?_
  simp [symTicks, hlevel, List.getElem_append]

/-- Any other sample is a draw at each tick. -/
theorem symTicks_free (k : Nat) {w : Sample} (h : polarity w = false ∨ 20 < duty w) :
    symTicks k w = (List.range 20).map (Config.freeLevel k) := by
  have hcond : ¬(polarity w && decide (duty w ≤ periodTicks)) = true := by
    rw [Bool.and_eq_true, decide_eq_true_eq]
    rintro ⟨hpol, hduty⟩
    rcases h with h | h
    · rw [hpol] at h; cases h
    · exact absurd h (Nat.not_lt.2 hduty)
  exact List.map_congr_left fun t _ => if_neg hcond

/-- Settles O42: both ranges of POL and DUTY, and the three symbols in the first of them. -/
theorem waveform : Obligations.Waveform :=
  ⟨fun k _ hpol hduty => symTicks_duty k hpol hduty, fun k _ h => symTicks_free k h,
    fun k => symTicks_duty k (by decide) (by decide), fun k => symTicks_duty k (by decide) (by decide),
    fun k => symTicks_duty k (by decide) (by decide)⟩

/-! ### The pre-flight check (rule R120) -/

theorem inWindow_iff {p : Params} {addr len : Nat} : inWindow p addr len = true ↔
    addr % 2 = 0 ∧ p.ramBase.toNat ≤ addr ∧ addr + 2 * len ≤ p.ramBase.toNat + p.ramSize := by
  unfold inWindow Params.ramEnd
  rw [Bool.and_eq_true, Bool.and_eq_true, beq_iff_eq, decide_eq_true_eq, decide_eq_true_eq, and_assoc]

section

variable {p : Params} {addr len : Nat}

theorem preflight_oversized (h0 : len ≠ 0) (hm : p.maxSeqLen < len) :
    preflight p addr len = some .outOfRangePointer := by
  rw [preflight, if_neg h0, if_pos hm]

theorem preflight_outside (h0 : len ≠ 0) (hw : inWindow p addr len = false) :
    preflight p addr len = some .outOfRangePointer := by
  simp [preflight, h0, hw]

/-- The check passes exactly for a region of an allowed length inside the window. -/
theorem preflight_passes_iff : preflight p addr len = none ↔
    len ≠ 0 ∧ len ≤ p.maxSeqLen ∧ inWindow p addr len = true := by
  by_cases h0 : len = 0
  · simp [preflight, h0]
  by_cases hm : p.maxSeqLen < len
  · simp [preflight_oversized h0 hm, Nat.not_le.2 hm]
  · cases hw : inWindow p addr len <;> simp [preflight, h0, hm, hw, Nat.not_lt.1 hm]

/-- With admissible parameters a length that passes is a descriptor's CNT, and not 0. -/
theorem cnt_of_preflight (hwf : p.wf = true) (h : preflight p addr len = none) :
    (BitVec.ofNat 15 len).toNat = len ∧ len ≠ 0 := by
  obtain ⟨h0, hm, -⟩ := preflight_passes_iff.1 h
  have hmax : p.maxSeqLen ≤ 32767 := by
    simp only [Params.wf, Bool.and_eq_true, decide_eq_true_eq] at hwf
    omega
  exact ⟨by rw [BitVec.toNat_ofNat]; omega, h0⟩

end

/-- Settles O31: the check by its first test that fails. -/
theorem preflightCheck : Obligations.PreflightCheck := by
  refine fun p addr len => ⟨fun h0 => if_pos h0, preflight_oversized, fun h0 _ hw => ?_, fun h0 hm h2 hb he => ?_⟩
  · exact preflight_outside h0 (Bool.eq_false_iff.2 fun h => hw (inWindow_iff.1 h))
  · exact preflight_passes_iff.2 ⟨h0, hm, inWindow_iff.2 ⟨h2, hb, he⟩⟩

/-! ### SEQ_START (rules R121 and R122) -/

/-- With a configured driver an idle CTRL starts every command but CONFIGURE. -/
theorem exec_idle_configured {i : Instr} {s : State} (hf : i.format = .command) (hp : s.ctrl.pc = .idle)
    (hd : s.drv = .configured) (hc : i ≠ .configure) : exec i s = .next (startOf i s) := by
  by_cases hfree : i = .encodePixel ∨ i = .requiredLength
  · exact exec_idle_free hp (.inr hfree)
  · obtain ⟨he, hr⟩ := not_or.1 hfree
    rw [exec_idle_needsDriver hf hp hc he hr, if_pos hd]

section

variable {s : State} {ch : Channel}

theorem seqStartCheck_fails {c : ErrCode}
    (h : preflight s.params s.ctrl.ops.addr.toNat s.ctrl.ops.cnt.toNat = some c) :
    seqStartCheck ch s = s.endCommand c := by
  simp [seqStartCheck, h]

theorem seqStartCheck_refused (h : preflight s.params s.ctrl.ops.addr.toNat s.ctrl.ops.cnt.toNat = none)
    (ho : overlapsBuffers s.params s.ctrl.ops.addr.toNat (2 * s.ctrl.ops.cnt.toNat) = true) :
    seqStartCheck ch s = s.endRefused := by
  simp [seqStartCheck, h, ho]

theorem seqStartCheck_passes (h : preflight s.params s.ctrl.ops.addr.toNat s.ctrl.ops.cnt.toNat = none)
    (ho : overlapsBuffers s.params s.ctrl.ops.addr.toNat (2 * s.ctrl.ops.cnt.toNat) = false) :
    seqStartCheck ch s = s.goto (.ssGo ch) (xferStart ch s.ctrl.ops.addr s.ctrl.ops.cnt.toNat) := by
  simp [seqStartCheck, h, ho]

end

/-- CTRL's first turn of SEQ_START is SS_CHECK. -/
theorem seqStart_checks (s : State) (ch : Channel) :
    runAgent .ctrl 1 (startOf (.seqStart ch) s) = .next (seqStartCheck ch (startOf (.seqStart ch) s)) :=
  runAgent_ctrl_decides (by simp [startOf, firstState]) rfl

/-- Settles O32: SS_CHECK by the check that fails. -/
theorem seqStartChecks : Obligations.SeqStartChecks := by
  refine fun s ch hp hd => ⟨_, exec_idle_configured rfl hp hd (by simp), fun c hc => ?_, fun hc ho => ?_⟩
  · rw [seqStart_checks, seqStartCheck_fails (s := startOf (.seqStart ch) s) hc]; rfl
  · refine ⟨_, seqStart_checks s ch, ?_⟩
    rw [seqStartCheck_refused (s := startOf (.seqStart ch) s) hc ho]
    exact s.refusedEnd_start _ _

/-- A turn of CTRL in a running command performs its next statement. -/
theorem runAgent_ctrl_performs {s : State} {m : Micro} {rest : List Micro} (n : Nat) (hp : s.ctrl.pc ≠ .idle)
    (hm : s.ctrl.micro = m :: rest) : runAgent .ctrl (n + 1) s = runAgent .ctrl n (microStep m rest s) := by
  refine runTurns_cons_next ?_
  rw [runTurn, ctrlTurn_running hp, advance_statement hm]

/-- What a register write or the clear of a flag makes of ENG. -/
def Eng.perform (g : Eng) (m : Micro) : Eng :=
  match m with
  | .clear e => { g with events := g.events.put e false }
  | _ => { g with regs := m.regs g.regs }

/-- A register write or the clear of a flag reaches ENG only. -/
theorem microStep_setup {m : Micro} (h : m.isSetup = true) (rest : List Micro) (s : State) :
    microStep m rest s = { s with ctrl := { s.ctrl with micro := rest }, eng := s.eng.perform m } := by
  cases m with
  | memWrite | drv | fence | task | awaitEnd | raisePull | awaitItem | setRole | incBlanks | incIdleSends | nextFrame =>
    cases h
  | _ => rfl

/-- Turns of CTRL perform register writes and clears of flags, one each, and change nothing but ENG. -/
theorem ctrl_setup (l : List Micro) {s : State} {rest : List Micro} (hp : s.ctrl.pc ≠ .idle)
    (hm : s.ctrl.micro = l ++ rest) (hl : ∀ m ∈ l, m.isSetup = true) :
    runAgent .ctrl l.length s = .next
      { s with ctrl := { s.ctrl with micro := rest }, eng := l.foldl Eng.perform s.eng } := by
  induction l generalizing s with
  | nil =>
    have hr : s.ctrl.micro = rest := hm
    rw [← hr]
    rfl
  | cons m l ih =>
    rw [List.length_cons, runAgent_ctrl_performs _ hp hm, microStep_setup (hl m List.mem_cons_self)]
    exact ih hp rfl fun m hm => hl m (List.mem_cons_of_mem _ hm)

/-- ENG as `xfer_start(ch, addr, len)` leaves it before its start task: armed, with LOOP = 0 and its flags cleared. -/
def Eng.armed (g : Eng) (ch : Channel) (addr : Word) (len : Nat) : Eng :=
  { g with
    regs := { g.regs.setSeq ch { g.regs.seq ch with ptr := addr, cnt := BitVec.ofNat 15 len } with loopCnt := 0 }
    events := (g.events.put (.seqEnd ch) false).put (.seqStarted ch) false }

theorem Eng.armed_seq (g : Eng) (ch : Channel) (addr : Word) (len : Nat) :
    (g.armed ch addr len).regs.seq ch = { g.regs.seq ch with ptr := addr, cnt := BitVec.ofNat 15 len } := by
  cases ch <;> rfl

@[simp] theorem Eng.armed_loopCnt (g : Eng) (ch : Channel) (addr : Word) (len : Nat) :
    (g.armed ch addr len).regs.loopCnt = 0 := rfl

@[simp] theorem Eng.armed_events (g : Eng) (ch : Channel) (addr : Word) (len : Nat) :
    (g.armed ch addr len).events = (g.events.put (.seqEnd ch) false).put (.seqStarted ch) false := rfl

/-- The statements of `xfer_start(ch, addr, len)` before its fence. -/
def armWrites (ch : Channel) (addr : Word) (len : Nat) : List Micro :=
  [.seqPtr ch addr, .seqCnt ch (BitVec.ofNat 15 len), .loopCnt 0, .clear (.seqEnd ch), .clear (.seqStarted ch)]

theorem xferStart_eq (ch : Channel) (addr : Word) (len : Nat) :
    xferStart ch addr len = armWrites ch addr len ++ [.fence, .task ch] := rfl

theorem foldl_perform_armWrites (ch : Channel) (addr : Word) (len : Nat) (g : Eng) :
    (armWrites ch addr len).foldl Eng.perform g = g.armed ch addr len := by
  cases ch <;> rfl

section

variable {s : State} {ch : Channel} {addr : Word} {len : Nat} {rest : List Micro} (hp : s.ctrl.pc ≠ .idle)
  (hm : s.ctrl.micro = xferStart ch addr len ++ rest) (hb : s.wb.ctrl = [])
include hp hm hb

/-- With CTRL's buffer empty, seven turns of CTRL perform `xfer_start`: the channel is armed, then its task fires. -/
theorem ctrl_xferStart : runAgent .ctrl 7 s = .next
    (State.fireTask { s with ctrl := { s.ctrl with micro := rest }, eng := s.eng.armed ch addr len } ch) := by
  rw [xferStart_eq, List.append_assoc] at hm
  have harm := ctrl_setup (armWrites ch addr len) hp hm (by simp [armWrites, Micro.isSetup])
  rw [foldl_perform_armWrites] at harm
  refine (runAgent_add (m := 2) harm).trans (Eq.trans (runAgent_ctrl_performs 1 hp rfl) ?_)
  rw [microStep_fence_passes]
  · exact Eq.trans (runAgent_ctrl_performs 0 hp rfl) rfl
  · exact hb

/-- In a configured driver `xfer_start` starts its sequence out of loop mode, for a length a descriptor holds. -/
theorem ctrl_xferStart_starts (hd : s.drv = .configured) (hcnt : (BitVec.ofNat 15 len).toNat = len) (hlen : len ≠ 0) :
    runAgent .ctrl 7 s = .next
      { s with
        ctrl := { s.ctrl with micro := rest }
        wire := s.wire ++ (if s.eng.play = .stopped then [] else [.cut])
        eng := { s.eng.armed ch addr len with
          events := (s.eng.events.put (.seqEnd ch) false).put (.seqStarted ch) true
          play := .playing ch 0 0 addr len
          loopMode := false
          raced := s.wb.touch addr.toNat len }
        faults := { s.faults with dmaRace := s.faults.dmaRace || s.wb.touch addr.toNat len } } := by
  rw [ctrl_xferStart hp hm hb, State.fireTask_starts, State.preempt_wire_cut]
  · simp only [Eng.armed_seq, hcnt, Eng.armed_events, Events.put_put]
    cases ch <;> rfl
  · exact hd
  · exact fun _ => s.eng.armed_loopCnt ch addr len
  · rw [Eng.armed_seq]
    exact fun hz => hlen (by rw [← hcnt]; exact congrArg BitVec.toNat hz)

end

/-- Settles O33: SS_CHECK, the seven statements of `xfer_start`, and the turn that ends the command. -/
theorem seqStartRuns : Obligations.SeqStartRuns := by
  intro s ch hwf hp hd hb hcheck hover
  refine ⟨_, exec_idle_configured rfl hp hd (by simp), ?_⟩
  have h1 := seqStart_checks s ch
  rw [seqStartCheck_passes (s := startOf (.seqStart ch) s) hcheck hover] at h1
  obtain ⟨hcnt, hlen⟩ := cnt_of_preflight hwf hcheck
  have h7 := ctrl_xferStart_starts (ch := ch) (rest := [])
    (s := (startOf (.seqStart ch) s).goto (.ssGo ch) (xferStart ch s.iface.arg2 s.iface.arg3.toNat))
    (by simp) (List.append_nil _).symm hb hd hcnt hlen
  refine (runAgent_add (m := 7 + 1) h1).trans ((runAgent_add (m := 1) h7).trans ?_)
  exact Eq.trans (runAgent_ctrl_decides (by simp) rfl) rfl

/-! ### SEQ_IS_DONE and SEQ_WAIT (rules R123 and R124) -/

/-- CTRL's first turn of SEQ_IS_DONE is its body. -/
theorem seqIsDone_decides (s : State) (ch : Channel) :
    runAgent .ctrl 1 (startOf (.seqIsDone ch) s) = .next (seqIsDoneBody ch (startOf (.seqIsDone ch) s)) :=
  runAgent_ctrl_decides (by simp [startOf, firstState]) rfl

/-- Settles O34: the body returns the channel's completion flag. -/
theorem seqIsDoneRuns : Obligations.SeqIsDoneRuns := by
  refine fun s ch hp hd => ⟨_, exec_idle_configured rfl hp hd (by simp), (seqIsDone_decides s ch).trans ?_⟩
  have hflag : (BitVec.ofBool (s.eng.events.get (.seqEnd ch))).setWidth 32 =
      if s.eng.events.get (.seqEnd ch) then (1 : Word) else 0 := by
    cases s.eng.events.get (.seqEnd ch) <;> rfl
  rw [← hflag]
  rfl

section

variable {s : State} {ch : Channel}

theorem seqWaitPoll_done (h : s.eng.events.get (.seqEnd ch) = true) : seqWaitPoll ch s = s.endCommand .ok := by
  simp [seqWaitPoll, h]

theorem seqWaitPoll_waits (h : s.eng.events.get (.seqEnd ch) = false) : seqWaitPoll ch s = s := by
  simp [seqWaitPoll, h]

end

/-- CTRL's turn in SEQ_WAIT is its poll. -/
theorem seqWait_polls (s : State) (ch : Channel) :
    runTurn .ctrl (startOf (.seqWait ch) s) = .next (seqWaitPoll ch (startOf (.seqWait ch) s)) := by
  rw [runTurn, ctrlTurn_running (by simp [startOf, firstState]), advance_decides rfl]
  rfl

/-- A turn that changes nothing, taken again and again, changes nothing. -/
theorem runAgent_stays {t : Turn} {s : State} (h : runTurn t s = .next s) (n : Nat) : runAgent t n s = .next s := by
  induction n with
  | zero => rfl
  | succ n ih => exact (runTurns_cons_next h).trans ih

/-- An idle CTRL's turns change nothing (rule R21). -/
theorem runAgent_ctrl_idle {s : State} (h : s.ctrl.pc = .idle) (n : Nat) : runAgent .ctrl n s = .next s :=
  runAgent_stays (by rw [runTurn, ctrlTurn_idle h]) n

/-- Settles O35: the poll by the channel's completion flag. -/
theorem seqWaitRuns : Obligations.SeqWaitRuns := by
  refine fun s ch hp hd => ⟨_, exec_idle_configured rfl hp hd (by simp), fun he => ?_, fun he => runAgent_stays ?_⟩
  · rw [runAgent_one (seqWait_polls s ch), seqWaitPoll_done (s := startOf (.seqWait ch) s) he]
    rfl
  · rw [seqWait_polls, seqWaitPoll_waits (s := startOf (.seqWait ch) s) he]

/-! ### Idempotence (rule R125) -/

/-- What each turn of a run keeps, the run keeps. -/
theorem runTurns_keeps_among {P : State → Prop} {ts : List Turn}
    (hturn : ∀ w ∈ ts, ∀ s t, P s → runTurn w s = .next t → P t) {s t : State} (h : P s)
    (hr : runTurns ts s = .next t) : P t := by
  induction ts generalizing s with
  | nil => cases hr; exact h
  | cons w ts ih =>
    simp only [runTurns] at hr
    split at hr
    · rename_i u hu
      exact ih (fun w hw => hturn w (List.mem_cons_of_mem _ hw)) (hturn w List.mem_cons_self s u h hu) hr
    · cases hr
    · cases hr

/-- The block rests: CTRL is idle in a configured driver, and HOST, where it has a turn in `ts`, gives no command. -/
structure Rests (ts : List Turn) (s : State) : Prop where
  idle : s.ctrl.pc = .idle
  configured : s.drv = .configured
  noCommand : .host ∉ ts ∨ ∀ op ∈ s.host.ops, op.feeds = true

theorem Rests.runTurn {ts : List Turn} {w : Turn} (hw : w ∈ ts) {s t : State} (h : Rests ts s)
    (hr : runTurn w s = .next t) : Rests ts t := by
  obtain ⟨idle, configured, noCommand⟩ := h
  cases w with
  | host =>
    have hfeeds := noCommand.resolve_left (not_not_intro hw)
    obtain ⟨frame, ops⟩ := hostTurn_feeds hfeeds hr
    rw [frame]
    exact ⟨idle, configured, .inr fun op hop => hfeeds op (ops.subset hop)⟩
  | ctrl =>
    rw [Machine.runTurn, ctrlTurn_idle idle] at hr
    cases hr
    exact ⟨idle, configured, noCommand⟩
  | eng =>
    cases hplay : s.eng.play with
    | stopped =>
      rw [Machine.runTurn, engTurn_stopped hplay] at hr
      cases hr
      exact ⟨idle, configured, noCommand⟩
    | playing ch idx ll lptr lcnt =>
      rw [Machine.runTurn, engTurn_playing hplay] at hr
      cases hr
      exact ⟨by simpa, by simpa, by simpa⟩
  | drain w =>
    cases hr
    exact ⟨by simpa, by simpa, by simpa⟩

/-- A block that rests rests at the end of its turns. -/
theorem Rests.runTurns {ts : List Turn} {s t : State} (h : Rests ts s) (hr : runTurns ts s = .next t) : Rests ts t :=
  runTurns_keeps_among (fun _ hw _ _ h hr => h.runTurn hw hr) h hr

/-- SEQ_WAIT's turns leave ENG: it polls, or it has ended. -/
theorem seqWait_keepsEng {s t : State} {ch : Channel} {n : Nat}
    (h : runAgent .ctrl n (startOf (.seqWait ch) s) = .next t) : t.eng = s.eng := by
  have hpoll := seqWait_polls s ch
  cases he : s.eng.events.get (.seqEnd ch) with
  | false =>
    rw [seqWaitPoll_waits (s := startOf (.seqWait ch) s) he] at hpoll
    rw [runAgent_stays hpoll] at h
    cases h; rfl
  | true =>
    rw [seqWaitPoll_done (s := startOf (.seqWait ch) s) he] at hpoll
    cases n with
    | zero => cases h; rfl
    | succ n =>
      have hrest := (runTurns_cons_next hpoll).symm.trans h
      cases (runAgent_ctrl_idle rfl n).symm.trans hrest
      rfl

/-- Settles O36: either command starts again at the end of turns in which the block rests, and its body depends on the
completion flag alone. -/
theorem completionChecksIdempotent : Obligations.CompletionChecksIdempotent := by
  intro s ch hp hd
  refine ⟨⟨_, _, exec_idle_configured rfl hp hd (by simp), seqIsDone_decides s ch, rfl, rfl,
    fun ts v hn hr hflag => ?_⟩, fun n t u ht hu => ?_, fun he => ?_⟩
  · have hrests : Rests ts (seqIsDoneBody ch (startOf (.seqIsDone ch) s)) := ⟨rfl, hd, hn⟩
    obtain ⟨idle, configured, -⟩ := hrests.runTurns hr
    refine ⟨_, _, exec_idle_configured rfl idle configured (by simp), seqIsDone_decides v ch, rfl, rfl, ?_, rfl⟩
    exact congrArg (fun b => (BitVec.ofBool b).setWidth 32) hflag
  · rw [exec_idle_configured rfl hp hd (by simp)] at ht
    cases ht
    exact seqWait_keepsEng hu
  · have hpoll {v : State} (hv : v.eng.events.get (.seqEnd ch) = true) :
        runAgent .ctrl 1 (startOf (.seqWait ch) v) = .next ((startOf (.seqWait ch) v).endCommand .ok) := by
      rw [runAgent_one (seqWait_polls v ch), seqWaitPoll_done (s := startOf (.seqWait ch) v) hv]
    refine ⟨_, _, exec_idle_configured rfl hp hd (by simp), hpoll he, rfl, fun ts v hn hr hflag => ?_⟩
    have hrests : Rests ts ((startOf (.seqWait ch) s).endCommand .ok) := ⟨rfl, hd, hn⟩
    obtain ⟨idle, configured, -⟩ := hrests.runTurns hr
    exact ⟨_, _, exec_idle_configured rfl idle configured (by simp), hpoll hflag, rfl, rfl, rfl⟩

end Sys2Proof.Machine

/-! PROOFS. 42_driver.md: CONFIGURE and RELEASE by CTRL's turns, each the statements of its state and then the turn that
ends it, and the level of the pin after CONFIGURE. -/

namespace Sys2Proof.Machine

/-! ### CONFIGURE while Configured (rule R152) -/

/-- CONFIGURE in a configured driver is rejected at decode. -/
theorem exec_configure_configured {s : State} (hp : s.ctrl.pc = .idle) (hd : s.drv = .configured) :
    exec .configure s = .next (s.decodeError .badCommand) := by
  rw [exec, execConfigure, hp]
  exact if_pos hd

/-- Settles O19: the rejection at decode, reached through CMD by CONFIGURE's word. -/
theorem configureTwiceRejected : Obligations.ConfigureTwiceRejected := by
  intro s hp hd
  have hreject := exec_configure_configured hp hd
  have hword : decodeCommand 0x01 = .instr .configure := decodeCommand_encode (i := .configure) rfl
  refine ⟨hreject, ?_⟩
  rw [State.writeIface_cmd, State.writeCmd_instr (State.busy_eq_false.2 hp) hword, hreject]
  rfl

/-! ### The writes of a command, then `DRV <- d`, then its end (rules R150 and R153) -/

/-- A command that has only register writes and flag clears, then `DRV <- d`, to perform, performs them one a turn; the
turn after them is the decision of its state. -/
theorem ctrl_setup_drv (l : List Micro) {s : State} {d : Drv} (hp : s.ctrl.pc ≠ .idle)
    (hm : s.ctrl.micro = l ++ [.drv d]) (hl : ∀ m ∈ l, m.isSetup = true) :
    runAgent .ctrl (l.length + 2) s = .next (decision
      (State.setDrv { s with ctrl := { s.ctrl with micro := [] }, eng := l.foldl Eng.perform s.eng } d)) := by
  refine (runAgent_add (m := 2) (ctrl_setup l hp hm hl)).trans (Eq.trans (runAgent_ctrl_performs 1 hp rfl) ?_)
  exact runAgent_ctrl_decides hp rfl

/-! ### CONFIGURE (rules R150 and R151) -/

/-- The statements of CF_WRITE before `DRV <- Configured`. -/
def configureSetup (pin : BitVec 6) : List Micro := (configureWrites pin).dropLast

theorem configureWrites_eq (pin : BitVec 6) : configureWrites pin = configureSetup pin ++ [.drv .configured] := rfl

theorem isSetup_configureSetup (pin : BitVec 6) : ∀ m ∈ configureSetup pin, m.isSetup = true :=
  have hall : (configureSetup pin).all Micro.isSetup = true := rfl
  List.all_eq_true.1 hall

/-- ENG as CONFIGURE leaves it: the settings of rule R151, OUT[0] on the pin, and every event flag 0. -/
def Eng.configured (g : Eng) (pin : BitVec 6) : Eng :=
  { g with
    events := Events.none
    regs := { g.regs with
      enable := 1, mode := 0, prescaler := 0, countertop := 20, decLoad := 0, decMode := 0, loopCnt := 0
      seqA := { ptr := 0, cnt := 0, refresh := 0, endDelay := 0 }
      seqB := { ptr := 0, cnt := 0, refresh := 0, endDelay := 0 }
      psel0 := pin.setWidth 32, psel1 := disconnected, psel2 := disconnected, psel3 := disconnected } }

theorem foldl_perform_configureSetup (pin : BitVec 6) (g : Eng) :
    (configureSetup pin).foldl Eng.perform g = g.configured pin := rfl

/-- A change to Configured where an item begins leaves no sample from before it. -/
theorem sinceConfigure_of_mem {marks : DrvMarks} {k : Nat} (last : Option (Nat × Sample))
    (h : (k, .configured) ∈ marks) : sinceConfigure marks k last = none := by
  rw [sinceConfigure, if_pos]
  exact List.any_eq_true.2 ⟨_, h, beq_self_eq_true _⟩

/-- Where the driver has been configured at the end of the trace, no sample of it counts. -/
theorem lastPlayed_of_mem {marks : DrvMarks} {k : Nat} (last : Option (Nat × Sample)) (l : List WireItem)
    (h : (k + l.length, .configured) ∈ marks) : lastPlayed marks k last l = none := by
  induction l generalizing k last with
  | nil => exact sinceConfigure_of_mem last h
  | cons x l ih => exact ih _ (by rwa [List.length_cons, ← Nat.add_assoc, Nat.add_right_comm] at h)

/-- A driver just configured drives its pin, which rests low under either output rule, whatever the trace. -/
theorem State.pin_justConfigured {s : State} {g : Eng} {pin : BitVec 6} (hd : s.drv = .configured)
    (heng : s.eng = g.configured pin) (hmark : (s.wire.length, .configured) ∈ s.marks) :
    s.pinDriven = true ∧ s.pin = pin ∧ ∀ tick, s.restLevel tick = false := by
  have hdriven : s.pinDriven = true := by simp [pinDriven, heng, Eng.configured]
  refine ⟨hdriven, by simp [State.pin, heng, Eng.configured, BitVec.extractLsb'_setWidth_of_le], fun tick => ?_⟩
  rw [restLevel, if_pos ⟨hd, hdriven⟩, lastPlayed_of_mem none s.wire (by rwa [Nat.zero_add])]
  exact gapLevel_quiet (by simp) tick

/-- Settles O22: CF_WRITE's statements, `DRV <- Configured` and the turn that ends the command; then the pin. -/
theorem configureRuns : Obligations.ConfigureRuns := by
  intro s hp hd
  have hrun := ctrl_setup_drv (configureSetup s.iface.operands.pin) (s := startOf .configure s)
    (by simp [startOf, firstState]) (configureWrites_eq _) (isSetup_configureSetup _)
  rw [foldl_perform_configureSetup] at hrun
  exact ⟨_, _, exec_idle_free hp (.inl ⟨hd, rfl⟩), hrun, rfl,
    State.pin_justConfigured rfl (g := s.eng) rfl (List.mem_append_right _ List.mem_cons_self)⟩

/-! ### RELEASE (rule R153) -/

theorem releaseDrain_waits {s : State} (h : s.eng.play ≠ .stopped) : releaseDrain s = s := if_neg h

theorem releaseDrain_passes {s : State} (h : s.eng.play = .stopped) : releaseDrain s = s.goto .cfOff releaseWrites :=
  if_pos h

/-- CTRL's turn in CF_DRAIN is its wait. -/
theorem release_drains (s : State) :
    runTurn .ctrl (startOf .release s) = .next (releaseDrain (startOf .release s)) := by
  rw [runTurn, ctrlTurn_running (by simp [startOf, firstState]), advance_decides rfl]
  rfl

/-- Settles O23: CF_DRAIN by the playout, and from a stopped ENG the statements of CF_OFF and the turn that ends it. -/
theorem releaseRuns : Obligations.ReleaseRuns := by
  refine fun s hp hd => ⟨_, exec_idle_configured rfl hp hd (by simp), fun n hplay => ?_, fun hplay => ?_⟩
  · exact runAgent_stays (by rw [release_drains, releaseDrain_waits (s := startOf .release s) hplay]) n
  · have hdrain := runAgent_one (release_drains s)
    rw [releaseDrain_passes (s := startOf .release s) hplay] at hdrain
    have hoff := ctrl_setup_drv [.enable 0, .psel 0 disconnected] (d := .unconfigured)
      (s := (startOf .release s).goto .cfOff releaseWrites) (by simp) rfl (by simp [Micro.isSetup])
    exact (runAgent_add (m := 4) hdrain).trans hoff

end Sys2Proof.Machine

/-! PROOFS. 43_stream_single.md: a pull with HOST's answer and the writers over no colours; WRITE_SINGLE by stages, each
reached from the one before by some schedule; and WRITE_SINGLE's freedom from races as an invariant of every turn. -/

namespace Sys2Proof.Machine

/-! ### A pull and HOST's answer (rules R96 and R99) -/

/-- The item of a colour's word is the colour (rule R93). -/
theorem itemOf_colourWord (c : Colour) : itemOf (colourWord c) = .color c := by
  have hdecode : decodeColour (colourWord c) = .color 0 c.r c.g c.b := decodeColour_color 0 c.r c.g c.b
  unfold decodeColour at hdecode
  unfold itemOf
  split at hdecode
  · cases hdecode
  · rw [if_neg ‹_›]
    obtain ⟨-, hr, hg, hb⟩ := Instr.color.inj hdecode
    rw [hr, hg, hb]

/-- HOST's poll for PULLREQ passes where a pull is pending (rule R26). -/
theorem hostTurn_pollPull {s : State} {ops : List HostOp} (hops : s.host.ops = HostProgram.pollPull :: ops)
    (h : s.iface.pullReq = true) : runTurn .host s = .next (s.setHostOps ops) := by
  have hstatus : s.status &&& 0x8 = 0x8 := by
    obtain ⟨-, -, -, hbit⟩ := s.status_flags
    have h8 : (0x8 : Word) = BitVec.twoPow 32 3 := rfl
    rw [h8, BitVec.and_twoPow, hbit, h, if_pos rfl]
  exact (hostTurn_poll hops (by decide)).trans (congrArg _ (if_pos hstatus))

/-- HOST's COLOR_IN write answers a pending pull (rule R29). -/
theorem hostTurn_answers {s : State} {w : Word} {ops : List HostOp} (hops : s.host.ops = .w32 0x1C w :: ops)
    (h : s.iface.pullReq = true) : runTurn .host s = .next
      { s with
        iface := { s.iface with pullReq := false }
        ctrl := { s.ctrl with item := itemOf w }
        host := { s.host with ops := ops } } := by
  have hdeliver : runTurn .host s = .next ((s.setHostOps ops).deliver (itemOf w)) :=
    (hostTurn_w32 hops (by decide)).trans (exec_decodeColour _ w)
  rw [hdeliver, State.deliver_pull]
  · rfl
  · exact h

/-- CTRL goes on where its pull is answered (rule R99). -/
theorem ctrlTurn_takesItem {s : State} {rest : List Micro} (hp : s.ctrl.pc ≠ .idle)
    (hm : s.ctrl.micro = .awaitItem :: rest) (h : s.iface.pullReq = false) :
    runTurn .ctrl s = .next (s.setMicro rest) := by
  rw [runTurn, ctrlTurn_running hp, advance_statement hm, microStep_awaitItem_passes rest h]

/-- The state in which a pull waits for its item, with `rest` to perform after it. -/
def State.pulling (s : State) (rest : List Micro) : State :=
  { s with ctrl := { s.ctrl with micro := .awaitItem :: rest }, iface := { s.iface with pullReq := true } }

/-- A pull that HOST answers: CTRL raises PULLREQ, HOST sees it and writes the item, and CTRL goes on with it. -/
theorem pull_answered {s : State} {rest : List Micro} {w : Word} {ops : List HostOp} (hp : s.ctrl.pc ≠ .idle)
    (hm : s.ctrl.micro = pull ++ rest) (hops : s.host.ops = HostProgram.pollPull :: .w32 0x1C w :: ops)
    (hpull : s.iface.pullReq = false) : runTurns [.ctrl, .host, .host, .ctrl] s = .next
      { s with
        ctrl := { s.ctrl with micro := rest, item := itemOf w }
        host := { s.host with ops := ops } } := by
  have hraise : runTurn .ctrl s = .next (s.pulling rest) :=
    (ctrlTurn_running hp).trans (congrArg _ (advance_statement hm))
  have hpoll := hostTurn_pollPull (s := s.pulling rest) hops rfl
  have hitem := hostTurn_answers (s := (s.pulling rest).setHostOps (.w32 0x1C w :: ops)) rfl rfl
  rw [runTurns_cons_next hraise, runTurns_cons_next hpoll, runTurns_cons_next hitem]
  have hiface : s.iface = { s.iface with pullReq := false } := by rw [← hpull]
  rw [runTurns_cons_next (ctrlTurn_takesItem (rest := rest) ?_ ?_ ?_), hiface]
  · rfl
  · exact hp
  · rfl
  · rfl

/-- A state that has only to pull decides on the item HOST answers. -/
theorem pull_decides {s : State} {w : Word} {ops : List HostOp} (hp : s.ctrl.pc ≠ .idle) (hm : s.ctrl.micro = pull)
    (hops : s.host.ops = HostProgram.pollPull :: .w32 0x1C w :: ops) (hpull : s.iface.pullReq = false) :
    runTurns [.ctrl, .host, .host, .ctrl, .ctrl] s = .next (decision
      { s with
        ctrl := { s.ctrl with micro := [], item := itemOf w }
        host := { s.host with ops := ops } }) :=
  (runTurns_append (b := [.ctrl]) (pull_answered (rest := []) hp hm hops hpull)).trans (runAgent_ctrl_decides hp rfl)

/-- Settles O50: the pull of the first item, and the decision on END. -/
theorem zeroColoursNoTransfer : Obligations.ZeroColoursNoTransfer := by
  intro s rest hready hops
  obtain ⟨-, hd, hp, -, -, hpull⟩ := hready
  refine ⟨⟨_, exec_idle_configured rfl hp hd (by simp), ?_⟩, ⟨_, exec_idle_configured rfl hp hd (by simp), ?_⟩⟩
  · exact (pull_decides (s := startOf .writeSingle s) (by simp [startOf, firstState]) rfl hops hpull).trans rfl
  · exact (pull_decides (s := startOf .writeLoop s) (by simp [startOf, firstState]) rfl hops hpull).trans rfl

/-! ### Samples stored (rules R64 and R70) -/

/-- Memory with samples stored from an address on, as the memory steps of their writes leave it. -/
def Memory.storeSamples (m : Memory) (a : Nat) (l : List Sample) : Memory := (sampleEntries a l).foldl Memory.store m

theorem Memory.read_storeSamples_other {m : Memory} {a x : Nat} {l : List Sample} (h : x < a ∨ a + 2 * l.length ≤ x) :
    Memory.read (m.storeSamples a l) x = Memory.read m x := read_storeEntries_other l a x m h

theorem Memory.holds_storeSamples (m : Memory) (a : Nat) (l : List Sample) :
    Memory.holds (m.storeSamples a l) a l := holds_storeEntries l a m

/-- Samples held apart from those stored are held still. -/
theorem Memory.holds.storeSamples_apart {m : Memory} {a b : Nat} {k l : List Sample} (hk : Memory.holds m b k)
    (h : b + 2 * k.length ≤ a ∨ a + 2 * l.length ≤ b) : Memory.holds (m.storeSamples a l) b k := by
  intro i v hi
  have hlt : i < k.length := (List.getElem?_eq_some_iff.1 hi).1
  have hread := hk i v hi
  unfold Memory.sample at hread ⊢
  rw [read_storeSamples_other (by omega), read_storeSamples_other (by omega)]
  exact hread

theorem Memory.holds_append {m : Memory} {a : Nat} {k l : List Sample} (hk : Memory.holds m a k)
    (hl : Memory.holds m (a + 2 * k.length) l) : Memory.holds m a (k ++ l) := by
  intro i v hi
  rcases Nat.lt_or_ge i k.length with hlt | hge
  · exact hk i v (by rwa [List.getElem?_append_left hlt] at hi)
  · rw [List.getElem?_append_right hge] at hi
    have := hl (i - k.length) v hi
    rwa [Nat.add_assoc, ← Nat.mul_add, Nat.add_sub_cancel' hge] at this

theorem Memory.holds.drop {m : Memory} {a : Nat} {l : List Sample} (h : Memory.holds m a l) (n : Nat) :
    Memory.holds m (a + 2 * n) (l.drop n) := by
  intro i v hi
  rw [List.getElem?_drop] at hi
  rw [Nat.add_assoc, ← Nat.mul_add]
  exact h (n + i) v hi

/-! ### The internal buffers (rule R66) -/

@[simp] theorem Channel.other_other (ch : Channel) : ch.other.other = ch := by cases ch <;> rfl

/-- BUF_A and BUF_B share no byte. -/
theorem buf_apart {p : Params} (h : p.wf = true) (ch : Channel) :
    (p.buf ch).toNat + 48 ≤ (p.buf ch.other).toNat ∨ (p.buf ch.other).toNat + 48 ≤ (p.buf ch).toNat := by
  simp only [Params.wf, Params.apart, Bool.and_eq_true, Bool.or_eq_true, decide_eq_true_eq] at h
  have hlen : frameLen = 24 := rfl
  cases ch <;> simp only [Params.buf, Channel.other] <;> omega

/-- The descriptor of an internal buffer passes the pre-flight check where MAX_SEQ_LEN admits a frame (log 18). -/
theorem preflight_buf {p : Params} (h : p.wf = true) (hmax : 24 ≤ p.maxSeqLen) (ch : Channel) :
    preflight p (p.buf ch).toNat frameLen = none := by
  refine preflight_passes_iff.2 ⟨by decide, hmax, inWindow_iff.2 ?_⟩
  obtain ⟨hlo, hhi⟩ := buf_ok h ch
  have heven : (p.buf ch).toNat % 2 = 0 := by
    simp only [Params.wf, Params.bufOk, Bool.and_eq_true, beq_iff_eq] at h
    cases ch <;> simp only [Params.buf] <;> omega
  exact ⟨heven, hlo, hhi⟩

/-! ### A transfer to its end (rules R121, R132 and R133) -/

/-- `xfer_start` of samples that memory holds, and their playout: the samples and a gap on the wire, and SEQEND set. -/
theorem xferStart_plays {s : State} {addr : Word} {len : Nat} {l : List Sample} {rest : List Micro}
    (hp : s.ctrl.pc ≠ .idle) (hm : s.ctrl.micro = xferStart .A addr len ++ rest) (hl : l.length = len)
    (hlen : 0 < len ∧ len < 2 ^ 15) (hd : s.drv = .configured) (hstop : s.eng.play = .stopped)
    (hb : s.wb = { host := [], ctrl := [] }) (hmem : Memory.holds s.mem addr.toNat l) : Reaches s
      { s with
        ctrl := { s.ctrl with micro := rest }
        wire := s.wire ++ syms l ++ [.gap]
        eng := { s.eng.armed .A addr len with
          events := ((s.eng.events.put (.seqEnd .A) false).put (.seqStarted .A) true).put (.seqEnd .A) true
          play := .stopped, loopMode := false, raced := false, tick := 0 }
        sched := { s.sched with draws := s.sched.draws + 2 * l.length } } := by
  have hcnt : (BitVec.ofNat 15 len).toNat = len := by rw [BitVec.toNat_ofNat]; omega
  have htouch : s.wb.touch addr.toNat len = false := WriteBuffers.touch_nil _ _ _ (congrArg _ hb) (congrArg _ hb)
  have hstart := ctrl_xferStart_starts hp hm (congrArg _ hb) hd hcnt (Nat.ne_of_gt hlen.1)
  rw [htouch, if_pos hstop, List.append_nil, Bool.or_false] at hstart
  have hne : l ≠ [] := List.ne_nil_of_length_pos (hl ▸ hlen.1)
  refine (Reaches.agent hstart).trans (Reaches.agent (w := .eng) (n := l.length) ?_)
  exact playout_from l _ .A 0 0 len addr hne rfl (by rw [Nat.zero_add, hl]) rfl rfl hmem

/-! ### Stages of a write -/

/-- Where a write stands between its transfers: CTRL's state, statements, role and idle sends, then memory, the wire output
so far, and what HOST has to do. -/
structure Stage where
  pc : Pc
  micro : List Micro
  role : Channel
  idleSends : Nat
  mem : Memory
  out : List WireItem
  ops : List HostOp

/-- A write begun in `s` stands at a stage: ENG is stopped, nothing is buffered and no pull pending, and what it has sent
was sent by channel A out of loop mode. -/
structure State.At (s : State) (k : Stage) (t : State) : Prop where
  params : t.params = s.params
  configured : t.drv = .configured
  pc : t.ctrl.pc = k.pc
  micro : t.ctrl.micro = k.micro
  role : t.ctrl.role = k.role
  idleSends : t.ctrl.idleSends = k.idleSends
  stopped : t.eng.play = .stopped
  drained : t.wb = { host := [], ctrl := [] }
  noPull : t.iface.pullReq = false
  faults : t.faults = s.faults
  mem : t.mem = k.mem
  wire : t.wire = s.wire ++ k.out
  ops : t.host.ops = k.ops
  sent : k.out ≠ [] → t.eng.events.get (.seqEnd .A) = true ∧ t.eng.regs.loopCnt = 0

/-- Some schedule takes a write begun in `s` from one stage to another. -/
def State.Leads (s : State) (k k' : Stage) : Prop := ∀ t, s.At k t → ∃ u, Reaches t u ∧ s.At k' u

namespace State.Leads

variable {s : State} {k k' : Stage} {pc : Pc} {rest : List Micro} {r : Channel} {n : Nat} {m : Memory}
  {out : List WireItem} {ops : List HostOp}

theorem refl (s : State) (k : Stage) : s.Leads k k := fun t ht => ⟨t, .refl t, ht⟩

theorem trans {k'' : Stage} (h : s.Leads k k') (h' : s.Leads k' k'') : s.Leads k k'' := by
  intro t ht
  obtain ⟨u, hu, hk⟩ := h t ht
  obtain ⟨v, hv, hk'⟩ := h' u hk
  exact ⟨v, hu.trans hv, hk'⟩

/-- A turn of CTRL. -/
theorem advances (hp : k.pc ≠ .idle) (h : ∀ t, s.At k t → s.At k' (advance t)) : s.Leads k k' :=
  fun t ht => ⟨_, .turn .ctrl (ctrlTurn_running (by rwa [ht.pc])), h t ht⟩

/-- A decision. -/
theorem decides (hp : k.pc ≠ .idle) (hm : k.micro = []) (h : ∀ t, s.At k t → s.At k' (decision t)) : s.Leads k k' :=
  advances hp fun t ht => advance_decides (ht.micro.trans hm) ▸ h t ht

/-- A pull that HOST answers, and the decision on its item (rules R96 and R99). -/
theorem pulls {w : Word} (hp : pc ≠ .idle)
    (h : ∀ t, s.At ⟨pc, [], r, n, m, out, ops⟩ t → t.ctrl.item = itemOf w → s.At k' (decision t)) :
    s.Leads ⟨pc, pull, r, n, m, out, HostProgram.pollPull :: .w32 0x1C w :: ops⟩ k' := by
  intro t ht
  exact ⟨_, ⟨_, pull_decides (by rwa [ht.pc]) ht.micro ht.ops ht.noPull⟩, h _ { ht with micro := rfl, ops := rfl } rfl⟩

/-- Buffered writes of samples, and the memory steps that store them (rule R70). -/
theorem stores {a : Nat} {l : List Sample} (hp : pc ≠ .idle) :
    s.Leads ⟨pc, writeSamples a l ++ rest, r, n, m, out, ops⟩ ⟨pc, rest, r, n, m.storeSamples a l, out, ops⟩ := by
  intro t ht
  have hwrite := ctrl_writeSamples l a rest t (by rwa [ht.pc]) ht.micro
  have hdrain := drain_all (sampleEntries a l)
    { t with ctrl := { t.ctrl with micro := rest }, wb := { t.wb with ctrl := t.wb.ctrl ++ sampleEntries a l } }
    (by simp [ht.drained]) (fun _ _ => by simp [ht.stopped, Play.covers])
  refine ⟨_, (Reaches.agent hwrite).trans (.agent hdrain), ?_⟩
  exact { ht with micro := rfl, drained := by simp [ht.drained], mem := congrArg (·.storeSamples a l) ht.mem }

/-- `xfer_start` of samples that memory holds, and their playout to its gap (rules R121, R132 and R133). -/
theorem sends {addr : Word} {len : Nat} {l : List Sample} (hp : pc ≠ .idle) (hl : l.length = len)
    (hlen : 0 < len ∧ len < 2 ^ 15) (hmem : Memory.holds m addr.toNat l) :
    s.Leads ⟨pc, xferStart .A addr len ++ rest, r, n, m, out, ops⟩
      ⟨pc, rest, r, n, m, out ++ (syms l ++ [.gap]), ops⟩ := by
  intro t ht
  refine ⟨_, xferStart_plays (by rwa [ht.pc]) ht.micro hl hlen ht.configured ht.stopped ht.drained
    (by rwa [ht.mem]), ?_⟩
  exact { ht with
    micro := rfl
    stopped := rfl
    wire := by simp [ht.wire]
    sent := fun _ => ⟨by simp, rfl⟩ }

/-- A wait for SEQEND[0] passes once something has been sent. -/
theorem awaits (hp : pc ≠ .idle) (hout : out ≠ []) :
    s.Leads ⟨pc, .awaitEnd .A :: rest, r, n, m, out, ops⟩ ⟨pc, rest, r, n, m, out, ops⟩ := by
  refine advances hp fun t ht => ?_
  have hpass : advance t = t.setMicro rest :=
    (advance_statement ht.micro).trans (if_pos (ht.sent hout).1)
  rw [hpass]
  exact { ht with micro := rfl }

theorem setsRole {ch : Channel} (hp : pc ≠ .idle) :
    s.Leads ⟨pc, .setRole ch :: rest, r, n, m, out, ops⟩ ⟨pc, rest, ch, n, m, out, ops⟩ := by
  refine advances hp fun t ht => ?_
  rw [advance_statement ht.micro]
  exact { ht with micro := rfl, role := rfl }

theorem countsIdleSend (hp : pc ≠ .idle) :
    s.Leads ⟨pc, .incIdleSends :: rest, r, n, m, out, ops⟩ ⟨pc, rest, r, n + 1, m, out, ops⟩ := by
  refine advances hp fun t ht => ?_
  rw [advance_statement ht.micro]
  exact { ht with micro := rfl, idleSends := congrArg (· + 1) ht.idleSends }

end State.Leads

/-! ### WRITE_SINGLE's decisions (rules R160 to R164) -/

section

variable {s : State} {c : Colour}

theorem decision_wsFirst (h : s.ctrl.pc = .wsFirst) : decision s = writeSingleFirst s := by rw [decision, h]
theorem decision_wsFirst2 (h : s.ctrl.pc = .wsFirst2) : decision s = s.goto .wsNext pull := by rw [decision, h]
theorem decision_wsNext (h : s.ctrl.pc = .wsNext) : decision s = writeSingleNext s := by rw [decision, h]
theorem decision_wsTail (h : s.ctrl.pc = .wsTail) : decision s = writeSingleTail s := by rw [decision, h]

theorem writeSingleFirst_color (h : s.ctrl.item = .color c)
    (hcheck : preflight s.params s.params.bufA.toNat frameLen = none) : writeSingleFirst s = { s with
      ctrl := { s.ctrl with
        pc := .wsFirst2, ended := false
        micro := encodeInto s.params .A c ++ xferStart .A s.params.bufA frameLen ++ [.setRole .A] } } := by
  simp [writeSingleFirst, h, hcheck, State.goto]

theorem writeSingleNext_color (h : s.ctrl.item = .color c) : writeSingleNext s =
    s.goto .wsNext (encodeInto s.params s.ctrl.role.other c ++ [.awaitEnd .A] ++
      xferStart .A (s.params.buf s.ctrl.role.other) frameLen ++ [.setRole s.ctrl.role.other] ++ pull) := by
  simp [writeSingleNext, h]

theorem writeSingleNext_end (h : s.ctrl.item = .endSeq) : writeSingleNext s = { s with
    ctrl := { s.ctrl with
      pc := .wsTail, ended := true, idleSends := 0
      micro := fillIdle (s.params.buf s.ctrl.role.other).toNat halfTail ++ [.awaitEnd .A] } } := by
  simp [writeSingleNext, h, State.goto]

theorem writeSingleTail_sends (h : s.ctrl.idleSends < 2) : writeSingleTail s =
    s.goto .wsTail (xferStart .A (s.params.buf s.ctrl.role.other) halfTail ++ [.awaitEnd .A, .incIdleSends]) :=
  if_pos h

theorem writeSingleTail_ends (h : s.ctrl.idleSends = 2) : writeSingleTail s = s.endCommand .ok :=
  if_neg (by omega)

end

/-! ### WRITE_SINGLE by stages (rules R160 to R168) -/

/-- The buffer of the colour numbered `n` of a write (rule R161). -/
def bufferAt (n : Nat) : Channel := if n % 2 = 0 then .A else .B

theorem bufferAt_succ (n : Nat) : bufferAt (n + 1) = (bufferAt n).other := by
  rcases Nat.mod_two_eq_zero_or_one n with h | h <;> simp [bufferAt, Nat.add_mod, h, Channel.other]

/-- Memory as the frames of colours leave it, the first of them the write's colour numbered `n`. -/
def Memory.streamed (p : Params) : Nat → List Colour → Memory → Memory
  | _, [], m => m
  | n, c :: cs, m => streamed p (n + 1) cs (m.storeSamples (p.buf (bufferAt n)).toNat (frame c))

/-- What colours put on the wire: each its frame and a gap (rule R168). -/
def colourTrace (cs : List Colour) : List WireItem := cs.flatMap fun c => syms (frame c) ++ [.gap]

section

variable {s : State} {m : Memory} {out : List WireItem} {ops : List HostOp} {n : Nat}

/-- The stage between two colours, `i` of them sent: WS_NEXT at its pull, the next colour for the other buffer. -/
def betweenColours (i n : Nat) (m : Memory) (out : List WireItem) (ops : List HostOp) : Stage :=
  ⟨.wsNext, pull, (bufferAt i).other, n, m, out, ops⟩

/-- A frame stored in an internal buffer is sent from it, and CTRL takes the buffer's role. -/
theorem leads_sendsFrame {pc : Pc} {rest : List Micro} {r ch : Channel} (c : Colour) (hp : pc ≠ .idle) : s.Leads
    ⟨pc, xferStart .A (s.params.buf ch) frameLen ++ .setRole ch :: rest, r, n,
      m.storeSamples (s.params.buf ch).toNat (frame c), out, ops⟩
    ⟨pc, rest, ch, n, m.storeSamples (s.params.buf ch).toNat (frame c), out ++ (syms (frame c) ++ [.gap]), ops⟩ :=
  (State.Leads.sends hp (frame_length c) (by decide) (Memory.holds_storeSamples _ _ _)).trans (.setsRole hp)

/-- WS_FIRST over a colour (rule R160, steps 1 and 2). -/
theorem leads_firstColour {r : Channel} (c : Colour) (hwf : s.params.wf = true) (hmax : 24 ≤ s.params.maxSeqLen) :
    s.Leads ⟨.wsFirst, pull, r, n, m, out, HostProgram.pollPull :: .w32 0x1C (colourWord c) :: ops⟩
      (betweenColours 1 n (m.streamed s.params 0 [c]) (out ++ colourTrace [c]) ops) := by
  refine .trans (k' := ⟨.wsFirst2, encodeInto s.params .A c ++ (xferStart .A s.params.bufA frameLen ++ [.setRole .A]),
    r, n, m, out, ops⟩) (.pulls (by simp) fun t ht hitem => ?_) ?_
  · rw [decision_wsFirst ht.pc, writeSingleFirst_color (hitem.trans (itemOf_colourWord c))]
    · exact { ht with pc := rfl, micro := by rw [List.append_assoc, ht.params] }
    · rw [ht.params]; exact preflight_buf hwf hmax .A
  · refine (State.Leads.stores (by simp)).trans ((leads_sendsFrame (ch := .A) c (by simp)).trans ?_)
    rw [colourTrace, List.flatMap_singleton]
    refine .decides (by simp) rfl fun t ht => ?_
    rw [decision_wsFirst2 ht.pc]
    exact { ht with pc := rfl, micro := rfl }

/-- WS_NEXT over a colour (rules R160 to R162). -/
theorem leads_nextColour {i : Nat} (c : Colour) (hout : out ≠ []) :
    s.Leads (betweenColours i n m out (HostProgram.pollPull :: .w32 0x1C (colourWord c) :: ops))
      (betweenColours (i + 1) n (m.streamed s.params i [c]) (out ++ colourTrace [c]) ops) := by
  refine .trans (k' := ⟨.wsNext, encodeInto s.params (bufferAt i) c ++ (.awaitEnd .A ::
    (xferStart .A (s.params.buf (bufferAt i)) frameLen ++ .setRole (bufferAt i) :: pull)),
    (bufferAt i).other, n, m, out, ops⟩) (.pulls (by simp) fun t ht hitem => ?_) ?_
  · have hrole : t.ctrl.role.other = bufferAt i := by rw [ht.role, Channel.other_other]
    rw [decision_wsNext ht.pc, writeSingleNext_color (hitem.trans (itemOf_colourWord c)), hrole, ht.params]
    exact { ht with pc := rfl, micro := by simp }
  · rw [betweenColours, bufferAt_succ, Channel.other_other, colourTrace, List.flatMap_singleton]
    exact (State.Leads.stores (by simp)).trans ((State.Leads.awaits (by simp) hout).trans
      (leads_sendsFrame c (by simp)))

/-- WS_NEXT over all the colours HOST answers. -/
theorem leads_nextColours (cs : List Colour) {i : Nat} (hout : out ≠ []) :
    s.Leads (betweenColours i n m out (pushColours cs ++ ops))
      (betweenColours (i + cs.length) n (m.streamed s.params i cs) (out ++ colourTrace cs) ops) := by
  induction cs generalizing i m out with
  | nil =>
    rw [colourTrace, List.flatMap_nil, List.append_nil]
    exact .refl s _
  | cons c cs ih =>
    have hrest := ih (i := i + 1) (m := m.streamed s.params i [c]) (out := out ++ colourTrace [c]) (by simp [hout])
    rw [Nat.add_assoc, Nat.add_comm 1, List.append_assoc] at hrest
    exact (leads_nextColour c hout).trans hrest

/-- The idle half-buffer is sent once (rule R164). -/
theorem leads_sendsIdle {i k : Nat} (hk : k < 2)
    (hmem : Memory.holds m (s.params.buf (bufferAt i)).toNat (idleFrame 20)) : s.Leads
    ⟨.wsTail, [], (bufferAt i).other, k, m, out, ops⟩
    ⟨.wsTail, [], (bufferAt i).other, k + 1, m, out ++ (syms (idleFrame 20) ++ [.gap]), ops⟩ := by
  refine .trans (k' := ⟨.wsTail, xferStart .A (s.params.buf (bufferAt i)) halfTail ++ [.awaitEnd .A, .incIdleSends],
    (bufferAt i).other, k, m, out, ops⟩) (.decides (by simp) rfl fun t ht => ?_) ?_
  · have hrole : t.ctrl.role.other = bufferAt i := by rw [ht.role, Channel.other_other]
    rw [decision_wsTail ht.pc, writeSingleTail_sends (ht.idleSends ▸ hk), hrole, ht.params]
    exact { ht with pc := rfl, micro := rfl }
  · exact (State.Leads.sends (by simp) rfl (by decide) hmem).trans
      ((State.Leads.awaits (by simp) (by simp)).trans (.countsIdleSend (by simp)))

/-- WS_NEXT on END: the idle half-buffer, filled in the buffer that is not active, is sent twice (rule R164). -/
theorem leads_tail {i : Nat} (hout : out ≠ []) : s.Leads (betweenColours i n m out (HostProgram.pushEnd ++ ops))
    ⟨.wsTail, [], (bufferAt i).other, 2, m.storeSamples (s.params.buf (bufferAt i)).toNat (idleFrame 20),
      out ++ (syms (idleFrame 20) ++ [.gap]) ++ (syms (idleFrame 20) ++ [.gap]), ops⟩ := by
  refine .trans (k' := ⟨.wsTail, fillIdle (s.params.buf (bufferAt i)).toNat halfTail ++ [.awaitEnd .A],
    (bufferAt i).other, 0, m, out, ops⟩) (.pulls (by simp) fun t ht hitem => ?_) ?_
  · have hrole : t.ctrl.role.other = bufferAt i := by rw [ht.role, Channel.other_other]
    rw [decision_wsNext ht.pc, writeSingleNext_end (hitem.trans rfl)]
    exact { ht with pc := rfl, micro := by rw [hrole, ht.params], idleSends := rfl }
  · have hmem := Memory.holds_storeSamples m (s.params.buf (bufferAt i)).toNat (idleFrame 20)
    exact (State.Leads.stores (by simp)).trans ((State.Leads.awaits (by simp) hout).trans
      ((leads_sendsIdle (by decide) hmem).trans (leads_sendsIdle (by decide) hmem)))

end

/-! ### What WRITE_SINGLE leaves in memory (rules R161, R164 and R165) -/

section

variable {p : Params} {n : Nat} {m : Memory}

theorem Memory.streamed_append (a b : List Colour) :
    m.streamed p n (a ++ b) = (m.streamed p n a).streamed p (n + a.length) b := by
  induction a generalizing n m with
  | nil => rfl
  | cons c a ih =>
    rw [List.cons_append, streamed, ih, List.length_cons, Nat.add_assoc, Nat.add_comm 1]
    rfl

/-- A byte outside the internal buffers stays as it was. -/
theorem Memory.read_streamed_other {a : Nat} (cs : List Colour)
    (h : ∀ ch, a < (p.buf ch).toNat ∨ (p.buf ch).toNat + 48 ≤ a) :
    Memory.read (m.streamed p n cs) a = Memory.read m a := by
  induction cs generalizing n m with
  | nil => rfl
  | cons c cs ih =>
    have hframe := frame_length c
    have ha := h (bufferAt n)
    rw [streamed, ih, read_storeSamples_other (by omega)]

/-- Memory as WRITE_SINGLE leaves it: the colours' frames, then the idle half-buffer in the buffer that is not active. -/
def Memory.afterSingle (m : Memory) (p : Params) (cs : List Colour) : Memory :=
  (m.streamed p 0 cs).storeSamples (p.buf (bufferAt cs.length)).toNat (idleFrame 20)

theorem idleFrame_length (n : Nat) : (idleFrame n).length = n := List.length_replicate

/-- The buffer that is not active holds the idle half-buffer. -/
theorem holds_afterSingle_idle (cs : List Colour) : Memory.holds (m.afterSingle p cs)
    (p.buf (bufferAt cs.length)).toNat (idleFrame 20) := Memory.holds_storeSamples _ _ _

/-- A byte outside the internal buffers is as it was. -/
theorem read_afterSingle_other {a : Nat} (cs : List Colour)
    (h : ∀ ch, a < (p.buf ch).toNat ∨ (p.buf ch).toNat + 48 ≤ a) :
    Memory.read (m.afterSingle p cs) a = Memory.read m a := by
  have ha := h (bufferAt cs.length)
  have hidle := idleFrame_length 20
  rw [Memory.afterSingle, Memory.read_storeSamples_other (by omega), Memory.read_streamed_other cs h]

variable (hwf : p.wf = true)
include hwf

/-- The last colour stands in the buffer that was active last. -/
theorem holds_afterSingle_last (pre : List Colour) (d : Colour) : Memory.holds (m.afterSingle p (pre ++ [d]))
    (p.buf (bufferAt (pre ++ [d]).length).other).toNat (frame d) := by
  have hlen : (pre ++ [d]).length = pre.length + 1 := by simp
  have hapart := buf_apart hwf (bufferAt pre.length)
  rw [Memory.afterSingle, Memory.streamed_append, hlen, bufferAt_succ, Channel.other_other, Nat.zero_add]
  refine (Memory.holds_storeSamples _ _ _).storeSamples_apart ?_
  rw [frame_length, idleFrame_length]
  omega

/-- After the idle half-buffer stands the rest of the colour before the last. -/
theorem holds_afterSingle_other (pre : List Colour) (c d : Colour) : Memory.holds (m.afterSingle p (pre ++ [c, d]))
    (p.buf (bufferAt (pre ++ [c, d]).length)).toNat (idleFrame 20 ++ (frame c).drop 20) := by
  refine Memory.holds_append (holds_afterSingle_idle _) ?_
  have hlen : (pre ++ [c, d]).length = pre.length + 1 + 1 := by simp
  have hapart := buf_apart hwf (bufferAt pre.length)
  rw [Memory.afterSingle, Memory.streamed_append, hlen, bufferAt_succ, bufferAt_succ, Channel.other_other, Nat.zero_add,
    idleFrame_length]
  have hframe : Memory.holds ((m.streamed p 0 pre).streamed p pre.length [c, d])
      (p.buf (bufferAt pre.length)).toNat (frame c) := by
    refine (Memory.holds_storeSamples _ _ _).storeSamples_apart ?_
    rw [bufferAt_succ, frame_length, frame_length]
    omega
  refine (hframe.drop 20).storeSamples_apart ?_
  rw [List.length_drop, frame_length, idleFrame_length]
  omega

/-- With one colour sent, BUF_B keeps what stands after the idle half-buffer. -/
theorem read_afterSingle_one (c : Colour) {k : Nat} (hlo : 40 ≤ k) (hhi : k < 48) :
    Memory.read (m.afterSingle p [c]) ((p.buf .B).toNat + k) = Memory.read m ((p.buf .B).toNat + k) := by
  have hapart := buf_apart hwf .A
  simp only [Channel.other] at hapart
  have hstored : m.afterSingle p [c] =
      (m.storeSamples (p.buf .A).toNat (frame c)).storeSamples (p.buf .B).toNat (idleFrame 20) := rfl
  rw [hstored, Memory.read_storeSamples_other (by rw [idleFrame_length]; omega),
    Memory.read_storeSamples_other (by rw [frame_length]; omega)]

end

/-! ### WRITE_SINGLE (rules R160 to R168) -/

/-- The buffer active last, by the number of colours. -/
theorem lastBuffer_eq (n : Nat) : (if n % 2 = 1 then Channel.A else .B) = (bufferAt n).other := by
  rcases Nat.mod_two_eq_zero_or_one n with h | h <;> simp [bufferAt, h, Channel.other]

/-- WRITE_SINGLE over colours, up to the turn that ends it. -/
theorem leads_writeSingle {s : State} {cs : List Colour} {rest : List HostOp} {r : Channel} {n : Nat}
    (hwf : s.params.wf = true) (hmax : 24 ≤ s.params.maxSeqLen) (hne : cs ≠ []) : s.Leads
    ⟨.wsFirst, pull, r, n, s.mem, [], pushColours cs ++ (HostProgram.pushEnd ++ rest)⟩
    ⟨.wsTail, [], (bufferAt cs.length).other, 2, s.mem.afterSingle s.params cs, singleTrace cs, rest⟩ := by
  obtain ⟨c, cs, rfl⟩ := List.exists_cons_of_ne_nil hne
  have hout : ([] : List WireItem) ++ colourTrace [c] ≠ [] := by simp [colourTrace]
  have htrace : singleTrace (c :: cs) = [] ++ colourTrace [c] ++ colourTrace cs ++ (syms (idleFrame 20) ++ [.gap]) ++
      (syms (idleFrame 20) ++ [.gap]) := by simp [singleTrace, colourTrace]
  have hlen : (c :: cs).length = 1 + cs.length := Nat.add_comm _ _
  rw [htrace, Memory.afterSingle, hlen]
  exact (leads_firstColour c hwf hmax).trans ((leads_nextColours cs hout).trans
    (leads_tail (List.append_ne_nil_of_left_ne_nil hout _)))

/-- Settles O46: the stages of WRITE_SINGLE one after the other, and the turn that ends it. -/
theorem writeSingleRuns : Obligations.WriteSingleRuns := by
  intro s cs rest hready hmax hne hops
  obtain ⟨hwf, hd, hp, hstop, hwb, hpull⟩ := hready
  have hstart : s.At ⟨.wsFirst, pull, s.ctrl.role, s.ctrl.idleSends, s.mem, [],
      pushColours cs ++ (HostProgram.pushEnd ++ rest)⟩ (startOf .writeSingle s) :=
    ⟨rfl, hd, rfl, rfl, rfl, rfl, hstop, hwb, hpull, rfl, rfl, (List.append_nil _).symm,
      hops.trans (List.append_assoc _ _ _), fun h => absurd rfl h⟩
  obtain ⟨u, hu, hat⟩ := leads_writeSingle hwf hmax hne _ hstart
  have hend : runTurn .ctrl u = .next (u.endCommand .ok) := by
    rw [runTurn, ctrlTurn_running (by simp [hat.pc]), advance_decides hat.micro, decision_wsTail hat.pc,
      writeSingleTail_ends hat.idleSends]
  have hmem : u.mem = s.mem.afterSingle s.params cs := by simpa only using hat.mem
  obtain ⟨hflag, hloop⟩ := hat.sent (by simp [singleTrace])
  refine ⟨_, _, exec_idle_configured rfl hp hd (by simp), hu.trans (.turn .ctrl hend), rfl, rfl, hat.ops, hat.stopped,
    hflag, hloop, hat.faults, hat.drained.trans hwb.symm, ?_, fun a ha => ?_, hat.wire⟩
  · rw [State.endCommand_mem, hmem, lastBuffer_eq]
    refine ⟨?_, ?_, fun hone => ?_⟩
    · rintro pre d rfl
      exact holds_afterSingle_last hwf pre d
    · rintro pre c d rfl
      rw [Channel.other_other]
      exact holds_afterSingle_other hwf pre c d
    · obtain ⟨c, rfl⟩ := List.length_eq_one_iff.1 hone
      exact ⟨holds_afterSingle_idle [c], fun k hlo hhi => read_afterSingle_one hwf c hlo hhi⟩
  · rw [State.endCommand_mem, hmem]
    exact read_afterSingle_other cs ha

/-! ### WRITE_SINGLE over every schedule (rules R74, R84 and R163) -/

/-- The entry a statement buffers. -/
def Micro.entry? : Micro → Option Entry
  | .memWrite a v => some (sampleCells a v)
  | _ => none

/-- The entries a list of statements buffers. -/
def entriesOf (l : List Micro) : List Entry := l.filterMap Micro.entry?

/-- The entries CTRL has buffered, then those it has still to buffer. -/
def State.pending (s : State) : List Entry := s.wb.ctrl ++ entriesOf s.ctrl.micro

theorem entriesOf_append (k l : List Micro) : entriesOf (k ++ l) = entriesOf k ++ entriesOf l := List.filterMap_append

theorem entriesOf_writeSamples (a : Nat) (l : List Sample) : entriesOf (writeSamples a l) = sampleEntries a l := by
  induction l generalizing a with
  | nil => rfl
  | cons v l ih => exact congrArg (sampleCells a v :: ·) (ih (a + 2))

theorem entriesOf_cons (m : Micro) (l : List Micro) : entriesOf (m :: l) = m.entry?.toList ++ entriesOf l := by
  rw [entriesOf, List.filterMap_cons]
  cases m.entry? <;> rfl

/-- A statement appends the entry it buffers to CTRL's buffer (rule R70). -/
theorem microStep_wb_ctrl (m : Micro) (rest : List Micro) (s : State) :
    (microStep m rest s).wb.ctrl = s.wb.ctrl ++ m.entry?.toList := by
  rw [microStep_wb]
  cases m <;> simp [Micro.entry?]

/-- A statement taken off the list leaves the entries buffered and still to buffer. -/
theorem microStep_pending {m : Micro} {rest : List Micro} {s : State} (hm : s.ctrl.micro = m :: rest)
    (hne : (microStep m rest s).ctrl.micro = rest) : (microStep m rest s).pending = s.pending := by
  rw [State.pending, State.pending, hne, hm, microStep_wb_ctrl, entriesOf_cons, List.append_assoc]

/-- A fence taken off the list has found CTRL's buffer empty (rule R72). -/
theorem drained_of_fence {rest : List Micro} {s : State} (hm : s.ctrl.micro = .fence :: rest)
    (hne : (microStep .fence rest s).ctrl.micro = rest) : s.wb.ctrl = [] := by
  by_contra hb
  rw [microStep_fence_waits rest hb, hm] at hne
  simp at hne

/-- What a statement makes of CTRL's role. -/
def Micro.role (m : Micro) (r : Channel) : Channel :=
  match m with
  | .setRole ch => ch
  | _ => r

/-- The role CTRL has once it has performed its statements. -/
def Ctrl.nextRole (c : Ctrl) : Channel := c.micro.foldl (fun r m => m.role r) c.role

/-- A statement taken off the list leaves the role to come. -/
theorem Ctrl.nextRole_cons {c c' : Ctrl} {m : Micro} {rest : List Micro} (hm : c.micro = m :: rest)
    (hm' : c'.micro = rest) (hr : c'.role = m.role c.role) : c'.nextRole = c.nextRole := by
  rw [nextRole, nextRole, hm, hm', hr, List.foldl_cons]

theorem foldl_role_writeSamples (a : Nat) (l : List Sample) (r : Channel) :
    (writeSamples a l).foldl (fun r m => m.role r) r = r := by
  induction l generalizing a with
  | nil => rfl
  | cons v l ih => exact ih (a + 2)

theorem microStep_role (m : Micro) (rest : List Micro) (s : State) :
    (microStep m rest s).ctrl.role = m.role s.ctrl.role := by
  cases m <;> simp [microStep, Micro.role] <;> split <;> simp

/-- Each start task of a list of statements, begun with registers `r`, is channel A's, finds registers with `P`, and has
no buffered write after it; the driver state is left alone. -/
def StartsWith (P : EngRegs → Prop) : EngRegs → List Micro → Prop
  | _, [] => True
  | _, .drv _ :: _ => False
  | r, .task ch :: l => ch = .A ∧ P r ∧ entriesOf l = [] ∧ StartsWith P r l
  | r, m :: l => StartsWith P (m.regs r) l

theorem StartsWith.tail {P : EngRegs → Prop} {r : EngRegs} {m : Micro} {l : List Micro} (h : StartsWith P r (m :: l)) :
    StartsWith P (m.regs r) l := by
  cases m with
  | drv d => cases h
  | task ch => exact h.2.2.2
  | _ => exact h

theorem StartsWith.writes {P : EngRegs → Prop} {r : EngRegs} {l : List Micro} (h : StartsWith P r l) (a : Nat)
    (vs : List Sample) : StartsWith P r (writeSamples a vs ++ l) := by
  induction vs generalizing a with
  | nil => exact h
  | cons v vs ih => exact ih (a + 2)

/-- A start by `xfer_start`, with no buffered write after it. -/
theorem startsWith_xferStart {P : EngRegs → Prop} {r : EngRegs} {addr : Word} {len : Nat} {l : List Micro}
    (hP : P { r with seqA := { r.seqA with ptr := addr, cnt := BitVec.ofNat 15 len }, loopCnt := 0 })
    (hentries : entriesOf l = [])
    (hl : StartsWith P { r with seqA := { r.seqA with ptr := addr, cnt := BitVec.ofNat 15 len }, loopCnt := 0 } l) :
    StartsWith P r (xferStart .A addr len ++ l) := ⟨rfl, hP, hentries, hl⟩

/-- What plays is a frame in the internal buffer of `ch`. -/
def Play.From (p : Params) (ch : Channel) (q : Play) : Prop :=
  ∀ c idx ll lptr lcnt, q = .playing c idx ll lptr lcnt → lptr = p.buf ch ∧ lcnt = 24

/-- Samples written to the other internal buffer do not reach it. -/
theorem Play.From.covers_other {p : Params} (hwf : p.wf = true) {ch : Channel} {q : Play} (h : q.From p ch)
    {l : List Sample} (hl : l.length ≤ 24) : ∀ e ∈ sampleEntries (p.buf ch.other).toNat l, q.covers e = false := by
  have hany : (sampleEntries (p.buf ch.other).toNat l).any q.covers = false := by
    rw [sampleEntries_race]
    cases q with
    | stopped => rfl
    | playing c idx ll lptr lcnt =>
      obtain ⟨rfl, rfl⟩ := h _ _ _ _ _ rfl
      refine Entry.touches_eq_false.2 fun x hx => ?_
      obtain ⟨k, hk, rfl⟩ := List.mem_map.1 hx
      have hlt := List.mem_range.1 hk
      have hapart := buf_apart hwf ch
      simp only
      omega
  intro e he
  simpa using List.any_eq_false.1 hany e he

/-- WRITE_SINGLE's start tasks are out of loop mode and of samples; before the tail, of the frame in the buffer of the
role CTRL is to take. -/
def SingleAims (p : Params) (pc : Pc) (next : Channel) (r : EngRegs) : Prop :=
  r.loopCnt = 0 ∧ r.seqA.cnt ≠ 0 ∧ (pc ≠ .wsTail → r.seqA.ptr = p.buf next ∧ r.seqA.cnt = 24)

/-- A run of WRITE_SINGLE under a HOST that feeds only, and after it: nothing that CTRL writes can reach what plays, and
FAULT.DMA_RACE is still `race`. -/
structure RaceFree (p : Params) (race : Bool) (s : State) : Prop where
  params : s.params = p
  configured : s.drv = .configured
  feeds : ∀ op ∈ s.host.ops, op.feeds = true
  drained : s.wb.host = []
  race : s.faults.dmaRace = race
  command : s.ctrl.pc = .idle ∨ s.ctrl.pc.instr = some .writeSingle
  apart : ∀ e ∈ s.pending, s.eng.play.covers e = false
  single : s.eng.play ≠ .stopped → s.eng.loopMode = false
  fenced : tasksFenced s.wb.ctrl.isEmpty s.ctrl.micro = true
  starts : StartsWith (SingleAims p s.ctrl.pc s.ctrl.nextRole) s.eng.regs s.ctrl.micro
  first : s.ctrl.pc = .wsFirst → s.eng.play = .stopped ∧ .task .A ∉ s.ctrl.micro
  active : s.ctrl.pc = .wsFirst2 ∨ s.ctrl.pc = .wsNext → .task .A ∉ s.ctrl.micro → s.eng.play.From p s.ctrl.nextRole

namespace RaceFree

variable {p : Params} {race : Bool} {s t : State}

/-- HOST's turn. -/
theorem fed (h : RaceFree p race s) (hf : Fed s t) : RaceFree p race t := by
  obtain ⟨frame, ops⟩ := hf
  rw [frame]
  exact { h with feeds := fun op hop => h.feeds op (ops.subset hop) }

/-- A memory step. -/
theorem drain (h : RaceFree p race s) (w : Writer) : RaceFree p race (s.drain w) := by
  cases hb : s.wb.of w with
  | nil => rwa [State.drain_nil hb]
  | cons e rest =>
    cases w with
    | host => rw [WriteBuffers.of_host, h.drained] at hb; cases hb
    | ctrl =>
      have hpending : s.pending = e :: (rest ++ entriesOf s.ctrl.micro) := congrArg (· ++ entriesOf s.ctrl.micro) hb
      have hcovers := h.apart
      rw [hpending, List.forall_mem_cons] at hcovers
      have hfenced := h.fenced
      rw [← WriteBuffers.of_ctrl, hb] at hfenced
      rw [State.drain_cons hb, hcovers.1, State.markRace_false]
      exact { h with apart := hcovers.2, fenced := tasksFenced_mono hfenced }

/-- An emit step: what plays keeps its region, or has ended with no other sequence begun. -/
theorem emitWord (h : RaceFree p race s) (w : Sample) : RaceFree p race (s.emitWord w) := by
  cases hplay : s.eng.play with
  | stopped => rwa [State.emitWord_stopped w hplay]
  | playing ch idx ll lptr lcnt =>
    have hloop : s.eng.loopMode = false := h.single (by simp [hplay])
    have hfirst : s.ctrl.pc ≠ .wsFirst := fun hp => by simpa [hplay] using (h.first hp).1
    by_cases hlast : idx + 1 = lcnt
    · rw [State.emitWord_last_single w hplay hlast hloop]
      exact { h with
        apart := fun _ _ => rfl
        single := fun hs => absurd rfl hs
        first := fun hp => absurd hp hfirst
        active := fun _ _ _ _ _ _ _ hq => by cases hq }
    · rw [State.emitWord_inside w hplay hlast]
      exact { h with
        apart := fun e he => by have := h.apart e he; rwa [hplay] at this
        single := fun _ => hloop
        first := fun hp => absurd hp hfirst
        active := fun hp hm _ _ _ _ _ hq => by cases hq; exact h.active hp hm _ _ _ _ _ hplay }

/-- A start task: CTRL's buffer is empty, so no race is found, and the frame just written plays. -/
theorem task (h : RaceFree p race s) {ch : Channel} {rest : List Micro} (hm : s.ctrl.micro = .task ch :: rest) :
    RaceFree p race (microStep (.task ch) rest s) := by
  have hstarts := h.starts
  rw [hm] at hstarts
  obtain ⟨rfl, ⟨hloop, hcnt, haims⟩, hentries, hrest⟩ := hstarts
  have hfenced := h.fenced
  rw [hm, tasksFenced, Bool.and_eq_true] at hfenced
  obtain ⟨hempty, hfenced⟩ := hfenced
  have hwb : s.wb.ctrl = [] := List.isEmpty_iff.1 hempty
  have htouch : s.wb.touch s.eng.regs.seqA.ptr.toNat s.eng.regs.seqA.cnt.toNat = false :=
    WriteBuffers.touch_nil _ _ _ h.drained hwb
  have hnext : (s.setMicro rest).ctrl.nextRole = s.ctrl.nextRole := Ctrl.nextRole_cons hm rfl rfl
  have hne : s.ctrl.pc ≠ .wsFirst := fun hp => (h.first hp).2 (by simp [hm])
  rw [microStep_task, State.fireTask_starts (s := s.setMicro rest) (n := .A) h.configured (by simp) hcnt]
  simp only [EngRegs.seq, State.setMicro_eng, State.setMicro_wb, htouch, State.setMicro_faults, Bool.or_false]
  exact { h with
    apart := by simp [State.pending, hwb, hentries]
    single := fun _ => by simp [hloop]
    fenced := tasksFenced_mono hfenced
    starts := hnext ▸ hrest
    first := fun hp => absurd hp hne
    active := fun hp _ _ _ _ _ _ hq => by
      obtain ⟨hptr, hcnt⟩ := haims fun ht => by rw [State.setMicro_ctrl, ht] at hp; simp at hp
      cases hq
      rw [hnext]
      exact ⟨hptr, by rw [hcnt]; rfl⟩ }

/-- A statement that is no start task. -/
theorem statement (h : RaceFree p race s) {m : Micro} {rest : List Micro} (hm : s.ctrl.micro = m :: rest)
    (ht : ∀ ch, m ≠ .task ch) (hne : (microStep m rest s).ctrl.micro = rest) : RaceFree p race (microStep m rest s) := by
  obtain ⟨hplay, hloop, -, -, hfaults⟩ := microStep_noTask m rest s ht
  have hnext := Ctrl.nextRole_cons hm hne (microStep_role m rest s)
  have hstarts := h.starts
  rw [hm] at hstarts
  have hdrv : ∀ d, m ≠ .drv d := by rintro d rfl; exact hstarts
  have hhost : (microStep m rest s).wb.host = s.wb.host := by rw [microStep_wb]; split <;> rfl
  have htask : .task .A ∉ rest → .task .A ∉ s.ctrl.micro := by
    rw [hm, List.mem_cons, not_or]
    exact fun hr => ⟨Ne.symm (ht .A), hr⟩
  have hfenced := h.fenced
  rw [hm] at hfenced
  constructor
  case fenced =>
    rw [hne]
    by_cases hf : m = .fence
    · subst hf
      have hb := drained_of_fence hm hne
      rw [microStep_fence_passes rest hb, State.setMicro_wb, hb]
      exact hfenced
    · exact tasksFenced_mono (tasksFenced_tail hfenced hf)
  case starts => rw [hne, hnext, microStep_pc, microStep_regs]; exact hstarts.tail
  case first =>
    rw [hne, microStep_pc, hplay]
    intro hp
    obtain ⟨hstop, hno⟩ := h.first hp
    exact ⟨hstop, fun hr => hno (by rw [hm]; exact List.mem_cons_of_mem _ hr)⟩
  case active => rw [hne, microStep_pc, hplay, hnext]; exact fun hp hr => h.active hp (htask hr)
  case apart => rw [microStep_pending hm hne, hplay]; exact h.apart
  case single => rw [hplay, hloop]; exact h.single
  case params => rw [microStep_params]; exact h.params
  case configured => rw [(microStep_noDrv s m rest hdrv).2]; exact h.configured
  case feeds => rw [microStep_host]; exact h.feeds
  case drained => rw [hhost]; exact h.drained
  case race => rw [hfaults]; exact h.race
  case command => rw [microStep_pc]; exact h.command

/-- Every statement. -/
theorem microStep (h : RaceFree p race s) {m : Micro} {rest : List Micro} (hm : s.ctrl.micro = m :: rest) :
    RaceFree p race (microStep m rest s) := by
  rcases microStep_micro m rest s with hne | hwait
  · by_cases ht : ∃ ch, m = .task ch
    · obtain ⟨ch, rfl⟩ := ht
      exact h.task hm
    · exact h.statement hm (fun ch hc => ht ⟨ch, hc⟩) hne
  · rwa [hwait]

/-- A command that ends. -/
theorem ends (h : RaceFree p race s) (c : Ctrl) (e : ErrCode) :
    RaceFree p race (State.endCommand { s with ctrl := c } e) :=
  { h with
    command := .inl rfl
    apart := fun e he => h.apart e (List.mem_append_left _ (by simpa [State.pending, entriesOf] using he))
    fenced := rfl
    starts := trivial
    first := fun hp => by cases hp
    active := fun hp => by simp at hp }

/-- A decision by which WRITE_SINGLE goes on. -/
theorem takes (h : RaceFree p race s) (c : Ctrl) (hi : c.pc.instr = some .writeSingle) (hfirst : c.pc ≠ .wsFirst)
    (hentries : ∀ e ∈ entriesOf c.micro, s.eng.play.covers e = false) (hfenced : tasksFenced false c.micro = true)
    (hstarts : StartsWith (SingleAims p c.pc c.nextRole) s.eng.regs c.micro)
    (hactive : c.pc = .wsFirst2 ∨ c.pc = .wsNext → .task .A ∉ c.micro → s.eng.play.From p c.nextRole) :
    RaceFree p race { s with ctrl := c } :=
  { h with
    command := .inr hi
    apart := fun e he => (List.mem_append.1 he).elim (fun he => h.apart e (List.mem_append_left _ he)) (hentries e)
    fenced := tasksFenced_mono hfenced
    starts := hstarts
    first := fun hp => absurd hp hfirst
    active := hactive }

/-- WRITE_SINGLE takes up a frame: its writes to an internal buffer that does not play, and its transfer from there. -/
theorem takesFrame (h : RaceFree p race s) (c : Ctrl) {ch : Channel} {col : Colour} {wait after : List Micro}
    (hpc : c.pc = .wsFirst2 ∨ c.pc = .wsNext) (hm : c.micro =
      encodeInto p ch col ++ (wait ++ (xferStart .A (p.buf ch) frameLen ++ .setRole ch :: after)))
    (hwait : wait = [] ∨ wait = [.awaitEnd .A]) (hafter : after = [] ∨ after = pull)
    (hcovers : ∀ e ∈ sampleEntries (p.buf ch).toNat (frame col), s.eng.play.covers e = false) :
    RaceFree p race { s with ctrl := c } := by
  have hnext : c.nextRole = ch := by
    rw [Ctrl.nextRole, hm, encodeInto, List.foldl_append, foldl_role_writeSamples]
    rcases hwait with rfl | rfl <;> rcases hafter with rfl | rfl <;> rfl
  have haims (r : EngRegs) : SingleAims p c.pc c.nextRole
      { r with seqA := { r.seqA with ptr := p.buf ch, cnt := BitVec.ofNat 15 frameLen }, loopCnt := 0 } := by
    have hcnt : BitVec.ofNat 15 frameLen ≠ 0 := by decide
    rw [hnext]
    exact ⟨rfl, hcnt, fun _ => ⟨rfl, rfl⟩⟩
  refine h.takes c ?_ ?_ ?_ ?_ ?_ fun _ hno => absurd (by simp [hm, xferStart]) hno
  · rcases hpc with hpc | hpc <;> rw [hpc] <;> rfl
  · rcases hpc with hpc | hpc <;> simp [hpc]
  · rw [hm, entriesOf_append, encodeInto, entriesOf_writeSamples]
    rcases hwait with rfl | rfl <;> rcases hafter with rfl | rfl <;>
      exact fun e he => hcovers e (by rwa [← List.append_nil (sampleEntries _ _)])
  · rw [hm]
    refine tasksFenced_writes _ _ ?_
    rcases hwait with rfl | rfl <;> rcases hafter with rfl | rfl <;> rfl
  · rw [hm]
    refine StartsWith.writes ?_ _ _
    rcases hwait with rfl | rfl <;> rcases hafter with rfl | rfl <;> exact startsWith_xferStart (haims _) rfl trivial

/-- WS_FIRST: nothing plays yet. -/
theorem decides_first (h : RaceFree p race s) (hp : s.ctrl.pc = .wsFirst) : RaceFree p race (writeSingleFirst s) := by
  obtain ⟨hstop, -⟩ := h.first hp
  cases hitem : s.ctrl.item with
  | endSeq =>
    rw [writeSingleFirst, hitem]
    exact h.ends s.ctrl .ok
  | color c =>
    cases hcheck : preflight s.params s.params.bufA.toNat frameLen with
    | some e =>
      simp only [writeSingleFirst, hitem, hcheck]
      exact h.ends _ e
    | none =>
      rw [writeSingleFirst_color hitem hcheck]
      exact h.takesFrame _ (ch := .A) (col := c) (wait := []) (after := []) (.inl rfl)
        (by rw [h.params, List.append_assoc]; rfl) (.inl rfl) (.inl rfl) (fun e _ => by rw [hstop]; rfl)

/-- WS_NEXT: what CTRL writes is for the buffer that is not active. -/
theorem decides_next (h : RaceFree p race s) (hwf : p.wf = true) (hp : s.ctrl.pc = .wsNext) (hm : s.ctrl.micro = []) :
    RaceFree p race (writeSingleNext s) := by
  have hfrom : s.eng.play.From p s.ctrl.role := by
    have hactive := h.active (.inr hp) (by simp [hm])
    rwa [Ctrl.nextRole, hm] at hactive
  cases hitem : s.ctrl.item with
  | endSeq =>
    rw [writeSingleNext_end hitem]
    refine h.takes _ rfl (by simp) ?_ (tasksFenced_writes _ _ rfl) (StartsWith.writes (by trivial) _ _) (by simp)
    rw [h.params, fillIdle, entriesOf_append, entriesOf_writeSamples]
    exact fun e he => hfrom.covers_other hwf (l := idleFrame halfTail) (by decide) e
      (by rwa [← List.append_nil (sampleEntries _ _)])
  | color c =>
    rw [writeSingleNext_color hitem, h.params]
    exact h.takesFrame _ (ch := s.ctrl.role.other) (col := c) (wait := [.awaitEnd .A]) (after := pull) (.inr rfl)
      (by simp) (.inr rfl) (.inr rfl) (hfrom.covers_other hwf (by rw [frame_length]))

/-- WS_TAIL writes no more. -/
theorem decides_tail (h : RaceFree p race s) : RaceFree p race (writeSingleTail s) := by
  unfold writeSingleTail
  split
  · have hcnt : BitVec.ofNat 15 halfTail ≠ 0 := by decide
    refine h.takes _ rfl (by simp) (fun e he => by cases he) rfl ?_ (by simp)
    exact startsWith_xferStart ⟨rfl, hcnt, fun ht => absurd rfl ht⟩ rfl trivial
  · exact h.ends s.ctrl .ok

/-- Every decision of WRITE_SINGLE. -/
theorem decision (h : RaceFree p race s) (hwf : p.wf = true) (hp : s.ctrl.pc ≠ .idle) (hm : s.ctrl.micro = []) :
    RaceFree p race (decision s) := by
  have hcommand := h.command.resolve_left hp
  cases hpc : s.ctrl.pc with
  | wsFirst => rw [decision_wsFirst hpc]; exact h.decides_first hpc
  | wsFirst2 =>
    rw [decision_wsFirst2 hpc]
    refine h.takes _ rfl (by simp) (fun e he => by cases he) rfl trivial fun _ _ => ?_
    have hactive := h.active (.inl hpc) (by simp [hm])
    rwa [Ctrl.nextRole, hm] at hactive
  | wsNext => rw [decision_wsNext hpc]; exact h.decides_next hwf hpc hm
  | wsTail => rw [decision_wsTail hpc]; exact h.decides_tail
  | _ => rw [hpc] at hcommand; cases hcommand

/-- Every turn. -/
theorem runTurn (h : RaceFree p race s) (hwf : p.wf = true) {w : Turn} (hr : runTurn w s = .next t) :
    RaceFree p race t := by
  cases w with
  | host => exact h.fed (hostTurn_feeds h.feeds hr)
  | ctrl =>
    by_cases hp : s.ctrl.pc = .idle
    · rw [Machine.runTurn, ctrlTurn_idle hp] at hr
      cases hr
      exact h
    · rw [Machine.runTurn, ctrlTurn_running hp] at hr
      cases hr
      cases hm : s.ctrl.micro with
      | nil => rw [advance_decides hm]; exact h.decision hwf hp hm
      | cons m rest => rw [advance_statement hm]; exact h.microStep hm
  | eng =>
    cases hplay : s.eng.play with
    | stopped =>
      rw [Machine.runTurn, engTurn_stopped hplay] at hr
      cases hr
      exact h
    | playing ch idx ll lptr lcnt =>
      rw [Machine.runTurn, engTurn_playing hplay] at hr
      cases hr
      exact RaceFree.emitWord (s := s.countDraws 2) { h with } _
  | drain w =>
    cases hr
    exact h.drain w

end RaceFree

/-- Settles O47: what WRITE_SINGLE writes stays apart from what plays through every turn. -/
theorem writeSingleNeverRaces : Obligations.WriteSingleNeverRaces := by
  intro s t u ts hready hfeeds ht hr
  obtain ⟨hwf, hd, hp, hstop, hwb, -⟩ := hready
  rw [exec_idle_configured rfl hp hd (by simp)] at ht
  cases ht
  have hstart : RaceFree s.params s.faults.dmaRace (startOf .writeSingle s) :=
    { params := rfl
      configured := hd
      feeds := hfeeds
      drained := congrArg WriteBuffers.host hwb
      race := rfl
      command := .inr rfl
      apart := fun e _ => by
        have hplay : (startOf .writeSingle s).eng.play = .stopped := hstop
        rw [hplay]; rfl
      single := fun hs => absurd hstop hs
      fenced := tasksFenced_mono rfl
      starts := trivial
      first := fun _ => ⟨hstop, by simp [startOf, firstState, pull]⟩
      active := fun hpc => by simp [startOf, firstState] at hpc }
  exact (runTurns_keeps (fun _ _ _ h hr => h.runTurn hwf hr) hstart hr).race

end Sys2Proof.Machine

/-! PROOFS. 44_stream_loop.md: WRITE_LOOP's decisions, with the malformed inputs of both writers; WRITE_LOOP by stages,
in each of which a buffer begins to play or has played; and its freedom from races, under its refill deadline, as an
invariant of every turn. -/

namespace Sys2Proof.Machine

/-! ### WRITE_LOOP's decisions (rules R175, R176, R178 and R185) -/

/-- An idle frame, which counts as a blank fed (rule R176). -/
def Fill.isIdle (v : Fill) : Bool := v == .idle

/-- The item that WRITE_LOOP makes a fill of (rule R175). -/
def Fill.item : Fill → Item
  | .color c => .color c
  | .idle => .endSeq

theorem Fill.samples_length (v : Fill) : v.samples.length = 24 := by
  cases v with
  | color c => exact frame_length c
  | idle => rfl

theorem Item.exists_fill (it : Item) : ∃ v : Fill, it = v.item := by
  cases it with
  | color c => exact ⟨.color c, rfl⟩
  | endSeq => exact ⟨.idle, rfl⟩

section

variable {s : State} {v : Fill}

theorem decision_wlSetup (h : s.ctrl.pc = .wlSetup) : decision s = writeLoopFirst s := by rw [decision, h]
theorem decision_wlSetup2 (h : s.ctrl.pc = .wlSetup2) : decision s = writeLoopSecond s := by rw [decision, h]
theorem decision_wlSetup3 (h : s.ctrl.pc = .wlSetup3) : decision s = s.goto .wlStep [] := by rw [decision, h]
theorem decision_wlStep (h : s.ctrl.pc = .wlStep) : decision s = writeLoopStep s := by rw [decision, h]
theorem decision_wlTest (h : s.ctrl.pc = .wlTest) : decision s = writeLoopTest s := by rw [decision, h]
theorem decision_wlItem (h : s.ctrl.pc = .wlItem) : decision s = writeLoopItem s := by rw [decision, h]
theorem decision_wlFinal (h : s.ctrl.pc = .wlFinal) : decision s = writeLoopFinal s := by rw [decision, h]

theorem writeLoopFirst_end (h : s.ctrl.item = .endSeq) : writeLoopFirst s = s.endCommand .ok := by
  simp [writeLoopFirst, h]

theorem writeLoopFirst_color {c : Colour} (h : s.ctrl.item = .color c) :
    writeLoopFirst s = s.goto .wlSetup2 (refill s.params .A (.color c) ++ pull) := by
  simp [writeLoopFirst, h]

/-- The statements of WL_SETUP after B's refill and before the start (rule R178). -/
def pairWrites (p : Params) : List Micro := loopSetup p ++ clearEvents

/-- WL_SETUP with it1 pulled, as CTRL's new state. -/
theorem writeLoopSecond_fill (h : s.ctrl.item = v.item) : writeLoopSecond s = { s with
    ctrl := { s.ctrl with
      pc := .wlSetup3, ended := s.ctrl.ended || v.isIdle
      micro := refill s.params .B v ++ (pairWrites s.params ++ (startA ++ [.setRole .A])) } } := by
  cases v <;> simp [writeLoopSecond, h, Fill.item, Fill.isIdle, writeLoopPrime, State.goto, pairWrites]

theorem writeLoopStep_A (hr : s.ctrl.role = .A) (h : s.eng.events.get (.seqEnd .A) = true) :
    writeLoopStep s = s.goto .wlTest [] := by
  simp [writeLoopStep, hr, h]

theorem writeLoopStep_B (hr : s.ctrl.role = .B) (h : s.eng.events.get .loopsDone = true) :
    writeLoopStep s = s.goto .wlTest (startA ++ clearEvents) := by
  simp [writeLoopStep, hr, h]

theorem writeLoopTest_pulls (h : s.ctrl.blanksFed < 2) : writeLoopTest s = s.goto .wlItem pull := if_neg (by omega)

theorem writeLoopTest_ends (h : 2 ≤ s.ctrl.blanksFed) : writeLoopTest s = s.goto .wlFinal [] := if_pos h

theorem writeLoopItem_malformed {c : Colour} (h : s.ctrl.item = .color c) (he : s.ctrl.ended = true) :
    writeLoopItem s = s.endCommand .malformedSequence := by
  simp [writeLoopItem, h, he]

/-- `next_item()` with an item in order, as CTRL's new state. -/
theorem writeLoopItem_fill (h : s.ctrl.item = v.item) (he : v.isIdle = false → s.ctrl.ended = false) :
    writeLoopItem s = { s with
      ctrl := { s.ctrl with
        pc := .wlStep, ended := s.ctrl.ended || v.isIdle
        micro := refill s.params s.ctrl.role v ++ [.setRole s.ctrl.role.other] } } := by
  cases v with
  | color c => simp [writeLoopItem, h, Fill.item, Fill.isIdle, he rfl, writeLoopRefill, State.goto]
  | idle => simp [writeLoopItem, h, Fill.item, Fill.isIdle, writeLoopRefill, State.goto]

theorem writeLoopFinal_ends (h : s.eng.events.get .loopsDone = true) : writeLoopFinal s = s.endCommand .ok := if_pos h

end

/-! ### Malformed input (rules R175, R187 and R195) -/

theorem decision_sbFill {s : State} (h : s.ctrl.pc = .sbFill) : decision s = sendBufItem s := by rw [decision, h]

theorem sendBufItem_end {s : State} (h : s.ctrl.item = .endSeq) : sendBufItem s = s.endCommand .malformedSequence := by
  simp [sendBufItem, h]

/-- Where nothing is left to perform, the end of a command reaches STATUS.ERR and CTRL's state only. -/
theorem State.endCommand_performed {s : State} (hm : s.ctrl.micro = []) (c : ErrCode) : s.endCommand c =
    { s with iface := { s.iface with err := c }, ctrl := { s.ctrl with pc := .idle } } := by
  rw [endCommand, ← hm]

/-- Settles O51: each writer's decision on the item out of order. -/
theorem malformedInput : Obligations.MalformedInput := by
  refine fun s hm => ⟨fun c hp he hitem => ?_, fun hp hitem => ?_⟩
  · rw [exec_running .writeLoop s (by rw [hp]; rfl), advance_decides hm, decision_wlItem hp,
      writeLoopItem_malformed hitem he, State.endCommand_performed hm]
  · rw [exec_running .sendBuf s (by rw [hp]; rfl), advance_decides hm, decision_sbFill hp, sendBufItem_end hitem,
      State.endCommand_performed hm]

/-! ### The pair of buffers in loop mode (rules R130, R133 and R178) -/

/-- The descriptors and the loop count of a pair: A and B over the internal buffers, once. -/
def EngRegs.Paired (p : Params) (r : EngRegs) : Prop :=
  (∀ ch, (r.seq ch).ptr = p.buf ch ∧ (r.seq ch).cnt = 24) ∧ r.loopCnt = 1

theorem Eng.perform_regs (g : Eng) (m : Micro) : (g.perform m).regs = m.regs g.regs := by cases m <;> rfl

theorem Eng.perform_play (g : Eng) (m : Micro) : (g.perform m).play = g.play := by cases m <;> rfl

theorem foldl_perform_regs (l : List Micro) (g : Eng) :
    (l.foldl Eng.perform g).regs = l.foldl (fun r m => m.regs r) g.regs := by
  induction l generalizing g with
  | nil => rfl
  | cons m l ih => rw [List.foldl_cons, List.foldl_cons, ih, Eng.perform_regs]

theorem foldl_perform_play (l : List Micro) (g : Eng) : (l.foldl Eng.perform g).play = g.play := by
  induction l generalizing g with
  | nil => rfl
  | cons m l ih => rw [List.foldl_cons, ih, Eng.perform_play]

/-- ENG as WL_SETUP's writes leave it. -/
def Eng.paired (g : Eng) (p : Params) : Eng := (pairWrites p).foldl Eng.perform g

/-- WL_SETUP's writes set the pair up. -/
theorem foldl_regs_pairWrites (p : Params) (r : EngRegs) : ((pairWrites p).foldl (fun r m => m.regs r) r).Paired p := by
  refine ⟨fun ch => ?_, rfl⟩
  cases ch <;> exact ⟨rfl, rfl⟩

theorem Eng.paired_regs (g : Eng) (p : Params) : (g.paired p).regs.Paired p := by
  rw [paired, foldl_perform_regs]
  exact foldl_regs_pairWrites p g.regs

theorem clearEvents_isSetup : ∀ m ∈ clearEvents, m.isSetup = true := by decide

theorem pairWrites_isSetup (p : Params) : ∀ m ∈ pairWrites p, m.isSetup = true := by
  simp [pairWrites, loopSetup, clearEvents, Micro.isSetup]

/-- With nothing buffered the start of a pair begins A, without a race. -/
theorem State.fireTask_pair {p : Params} {s : State} (hd : s.drv = .configured) (hr : s.eng.regs.Paired p)
    (hhost : s.wb.host = []) (hctrl : s.wb.ctrl = []) : s.fireTask .A = { s with
      wire := s.preempt.wire
      eng := { s.eng with
        events := s.eng.events.put (.seqStarted .A) true
        play := .playing .A 0 0 (p.buf .A) 24, loopMode := true, raced := false } } := by
  obtain ⟨hseq, hloop⟩ := hr
  obtain ⟨hptr, hcnt⟩ := hseq .A
  rw [fireTask_starts hd (by simp) (by simp [hcnt]), s.wb.touch_nil _ _ hhost hctrl]
  simp [hptr, hcnt, hloop]

/-- With nothing buffered and B not owed its refill, A's end in a pair begins B, without a race. -/
theorem State.endSeq_pair_A {p : Params} {s : State} {ll : Nat} (hl : s.eng.loopMode = true)
    (hr : s.eng.regs.Paired p) (hhost : s.wb.host = []) (hctrl : s.wb.ctrl = []) (howes : s.ctrl.owesB = false)
    (hraced : s.eng.raced = false) : s.endSeq .A ll = { s with
      eng := { s.eng with
        events := (s.eng.events.put (.seqEnd .A) true).put (.seqStarted .B) true
        play := .playing .B 0 ll (p.buf .B) 24 } } := by
  obtain ⟨hptr, hcnt⟩ := hr.1 .B
  simp only [EngRegs.seq] at hptr hcnt
  rw [endSeq_chains hl (by simp [hcnt]) (s.wb.touch_nil _ _ hhost hctrl) howes hraced]
  simp [hptr, hcnt]

theorem Ctrl.owesB_of_role {c : Ctrl} (h : c.role = .A) : c.owesB = false := by simp [owesB, h]

theorem Ctrl.owesB_of_final {c : Ctrl} (h : c.pc = .wlFinal) : c.owesB = false := by simp [owesB, h]

/-- A buffer of the pair from its first sample on, or a stopped ENG. -/
def pairPlay (p : Params) : Option Channel → Play
  | none => .stopped
  | some ch => .playing ch 0 0 (p.buf ch) 24

/-- The buffer that does not play is the other one's. -/
theorem pairPlay_from {p : Params} {o : Option Channel} {ch : Channel} (h : o ≠ some ch) :
    (pairPlay p o).From p ch.other := by
  intro c idx ll lptr lcnt hq
  cases o with
  | none => cases hq
  | some d =>
    cases hq
    have hc : c = ch.other := by cases c <;> cases ch <;> simp_all [Channel.other]
    exact ⟨by rw [hc], rfl⟩

/-! ### A refill (rules R70 and R176) -/

/-- What HOST writes to answer a pull with the item of a fill (rule R93). -/
def Fill.word : Fill → Word
  | .color c => colourWord c
  | .idle => 0x80000000

theorem itemOf_word (v : Fill) : itemOf v.word = v.item := by
  cases v with
  | color c => exact itemOf_colourWord c
  | idle => rfl

section

variable {s : State} {rest : List Micro} (hp : s.ctrl.pc ≠ .idle)
include hp

/-- A statement that does not wait. -/
theorem reaches_statement {m : Micro} (hm : s.ctrl.micro = m :: rest) : Reaches s (microStep m rest s) :=
  .turn .ctrl ((ctrlTurn_running hp).trans (congrArg _ (advance_statement hm)))

theorem reaches_decision (hm : s.ctrl.micro = []) : Reaches s (decision s) :=
  .agent (runAgent_ctrl_decides hp hm)

variable (hb : s.wb = { host := [], ctrl := [] })
include hb

theorem reaches_fenced (hm : s.ctrl.micro = .fence :: rest) : Reaches s (s.setMicro rest) := by
  have hfence := reaches_statement hp hm
  rwa [microStep_fence_passes rest (congrArg _ hb)] at hfence

/-- Samples apart from what plays, buffered and stored. -/
theorem reaches_stored {a : Nat} {l : List Sample} (hm : s.ctrl.micro = writeSamples a l ++ rest)
    (hc : ∀ e ∈ sampleEntries a l, s.eng.play.covers e = false) :
    Reaches s { s with ctrl := { s.ctrl with micro := rest }, mem := s.mem.storeSamples a l } := by
  have hwrite := ctrl_writeSamples l a rest s hp hm
  have hdrain := drain_all (sampleEntries a l)
    { s with ctrl := { s.ctrl with micro := rest }, wb := { s.wb with ctrl := s.wb.ctrl ++ sampleEntries a l } }
    (by rw [hb]; rfl) hc
  refine (Reaches.agent hwrite).trans (.trans (.agent hdrain) ?_)
  have hwb : { s.wb with ctrl := [] } = s.wb := by rw [hb]
  simp only [hwb]
  exact .refl _

/-- What a refill performs after its samples. -/
theorem reaches_refillEnd {v : Fill}
    (hm : s.ctrl.micro = (if v = .idle then [Micro.incBlanks] else []) ++ [Micro.fence] ++ rest) :
    Reaches s { s with ctrl := { s.ctrl with micro := rest, blanksFed := s.ctrl.blanksFed + v.isIdle.toNat } } := by
  cases v with
  | color c => exact reaches_fenced hp hb hm
  | idle => exact (reaches_statement (m := .incBlanks) hp hm).trans (reaches_fenced (rest := rest) hp hb rfl)

/-- A refill of a buffer that does not play. -/
theorem reaches_refilled {p : Params} {ch : Channel} {v : Fill} (hm : s.ctrl.micro = refill p ch v ++ rest)
    (hc : ∀ e ∈ sampleEntries (p.buf ch).toNat v.samples, s.eng.play.covers e = false) :
    Reaches s { s with
      ctrl := { s.ctrl with micro := rest, blanksFed := s.ctrl.blanksFed + v.isIdle.toNat }
      mem := s.mem.storeSamples (p.buf ch).toNat v.samples } := by
  rw [refill, List.append_assoc, List.append_assoc, ← List.append_assoc (ite _ _ _)] at hm
  refine (reaches_stored hp hb hm hc).trans (reaches_refillEnd (v := v) ?_ ?_ ?_)
  · exact hp
  · exact hb
  · rfl

/-- The start of a pair, with ENG stopped. -/
theorem reaches_started {p : Params} (hm : s.ctrl.micro = startA ++ rest) (hd : s.drv = .configured)
    (hr : s.eng.regs.Paired p) (hstop : s.eng.play = .stopped) : Reaches s { s with
      ctrl := { s.ctrl with micro := rest }
      eng := { s.eng with
        events := s.eng.events.put (.seqStarted .A) true
        play := .playing .A 0 0 (p.buf .A) 24, loopMode := true, raced := false } } := by
  have hm' : s.ctrl.micro = .fence :: .task .A :: rest := hm
  refine (reaches_fenced hp hb hm').trans (.trans (reaches_statement (m := .task .A) (rest := rest) ?_ ?_) ?_)
  · exact hp
  · rfl
  · have hwire : (s.setMicro rest).preempt.wire = s.wire := (State.preempt_wire _).trans (if_pos hstop)
    have hfire : (s.setMicro rest).fireTask .A = _ :=
      State.fireTask_pair (s := s.setMicro rest) hd hr (congrArg _ hb) (congrArg _ hb)
    rw [hwire] at hfire
    exact hfire ▸ .refl _

end

/-- WL_STEP's pull of an item in order, the refill of the role's buffer, which does not play, and the change of role. -/
theorem reaches_itemFilled {s : State} {v : Fill} {ops : List HostOp} (hp : s.ctrl.pc = .wlItem)
    (hm : s.ctrl.micro = pull) (hb : s.wb = { host := [], ctrl := [] }) (hpull : s.iface.pullReq = false)
    (hops : s.host.ops = HostProgram.pollPull :: .w32 0x1C v.word :: ops)
    (he : v.isIdle = false → s.ctrl.ended = false)
    (hc : ∀ e ∈ sampleEntries (s.params.buf s.ctrl.role).toNat v.samples, s.eng.play.covers e = false) :
    Reaches s { s with
      ctrl := { s.ctrl with
        pc := .wlStep, micro := [], role := s.ctrl.role.other, blanksFed := s.ctrl.blanksFed + v.isIdle.toNat
        ended := s.ctrl.ended || v.isIdle, item := v.item }
      mem := s.mem.storeSamples (s.params.buf s.ctrl.role).toNat v.samples
      host := { s.host with ops := ops } } := by
  have hitem := pull_decides (by simp [hp]) hm hops hpull
  rw [decision_wlItem (by exact hp), itemOf_word, writeLoopItem_fill (v := v)] at hitem
  · refine .trans ⟨_, hitem⟩ (.trans (reaches_refilled (p := s.params) (ch := s.ctrl.role) (v := v)
      (rest := [.setRole s.ctrl.role.other]) ?_ ?_ ?_ ?_) (reaches_statement (m := .setRole s.ctrl.role.other) ?_ ?_))
    · simp
    · exact hb
    · rfl
    · exact hc
    · simp
    · rfl
  · rfl
  · exact he

/-- With fills held by both buffers, one stored anew is held beside the other. -/
theorem holds_refilled {p : Params} (hwf : p.wf = true) {m : Memory} {held : Channel → Fill}
    (h : ∀ ch, Memory.holds m (p.buf ch).toNat (held ch).samples) (r : Channel) (v : Fill) (ch : Channel) :
    Memory.holds (m.storeSamples (p.buf r).toNat v.samples) (p.buf ch).toNat (Function.update held r v ch).samples := by
  by_cases hch : ch = r
  · rw [hch, Function.update_self]
    exact Memory.holds_storeSamples _ _ _
  · rw [Function.update_of_ne hch]
    refine (h ch).storeSamples_apart ?_
    have hother : ch = r.other := by cases ch <;> cases r <;> simp_all [Channel.other]
    have hapart := buf_apart hwf r
    rw [Fill.samples_length, Fill.samples_length, hother]
    omega

/-! ### Stages of WRITE_LOOP -/

/-- Where WRITE_LOOP stands with no statement to perform: CTRL's state and role, the blanks it has fed, the buffer that
ENG plays from its first sample on, what the buffers hold, then the wire output so far and what HOST has to do. -/
structure LoopStage where
  pc : Pc
  role : Channel
  blanks : Nat
  play : Option Channel
  held : Channel → Fill
  out : List WireItem
  ops : List HostOp

/-- A WRITE_LOOP begun in `s` stands at a stage: nothing is buffered and no pull pending, the pair is set up, and the flags
of what has played since A's start are set. -/
structure State.LoopAt (s : State) (k : LoopStage) (t : State) : Prop where
  params : t.params = s.params
  configured : t.drv = .configured
  pc : t.ctrl.pc = k.pc
  micro : t.ctrl.micro = []
  role : t.ctrl.role = k.role
  blanks : t.ctrl.blanksFed = k.blanks
  ended : t.ctrl.ended = decide (0 < k.blanks)
  regs : t.eng.regs.Paired s.params
  loops : t.eng.loopMode = true
  raced : t.eng.raced = false
  play : t.eng.play = pairPlay s.params k.play
  endA : k.play ≠ some .A → t.eng.events.get (.seqEnd .A) = true
  endB : k.play = none → t.eng.events.get (.seqEnd .B) = true ∧ t.eng.events.get .loopsDone = true
  drained : t.wb = { host := [], ctrl := [] }
  noPull : t.iface.pullReq = false
  faults : t.faults = s.faults
  held : ∀ ch, Memory.holds t.mem (s.params.buf ch).toNat (k.held ch).samples
  others : ∀ a, (∀ ch, a < (s.params.buf ch).toNat ∨ (s.params.buf ch).toNat + 48 ≤ a) →
    Memory.read t.mem a = Memory.read s.mem a
  wire : t.wire = s.wire ++ k.out
  ops : t.host.ops = k.ops

/-- Some schedule takes a WRITE_LOOP begun in `s` from one stage to another. -/
def State.LoopLeads (s : State) (k k' : LoopStage) : Prop := ∀ t, s.LoopAt k t → ∃ u, Reaches t u ∧ s.LoopAt k' u

namespace State.LoopLeads

variable {s : State} {k k' : LoopStage} {pc : Pc} {r : Channel} {b : Nat} {o : Option Channel} {held : Channel → Fill}
  {out : List WireItem} {ops : List HostOp}

theorem trans {k'' : LoopStage} (h : s.LoopLeads k k') (h' : s.LoopLeads k' k'') : s.LoopLeads k k'' := by
  intro t ht
  obtain ⟨u, hu, hk⟩ := h t ht
  obtain ⟨v, hv, hk'⟩ := h' u hk
  exact ⟨v, hu.trans hv, hk'⟩

/-- A decision. -/
theorem decides (hp : k.pc ≠ .idle) (h : ∀ t, s.LoopAt k t → s.LoopAt k' (decision t)) : s.LoopLeads k k' :=
  fun t ht => ⟨_, reaches_decision (by rwa [ht.pc]) ht.micro, h t ht⟩

/-- A plays to its end and begins B, which is owed no refill (rule R133). -/
theorem playsA (howes : r = .A ∨ pc = .wlFinal) : s.LoopLeads ⟨pc, r, b, some .A, held, out, ops⟩
    ⟨pc, r, b, some .B, held, out ++ syms (held .A).samples, ops⟩ := by
  intro t ht
  have hne : (held .A).samples ≠ [] := List.ne_nil_of_length_pos (by rw [Fill.samples_length]; decide)
  have hrun := playout_to_end (held .A).samples t .A 0 0 24 _ hne ht.play (by rw [Fill.samples_length]) ht.raced
    (ht.held .A)
  have howed : t.ctrl.owesB = false :=
    howes.elim (fun h => Ctrl.owesB_of_role (ht.role.trans h)) fun h => Ctrl.owesB_of_final (ht.pc.trans h)
  rw [State.endSeq_pair_A (s := t.played _) ht.loops ht.regs (congrArg _ ht.drained) (congrArg _ ht.drained) howed
    ht.raced] at hrun
  exact ⟨_, .agent hrun, { ht with
    play := rfl
    endA := fun _ => by simp [Events.get_put]
    endB := fun h => by cases h
    wire := by simp [State.played, ht.wire] }⟩

/-- B plays to its end, and the pair is done (rule R133). -/
theorem playsB : s.LoopLeads ⟨pc, r, b, some .B, held, out, ops⟩
    ⟨pc, r, b, none, held, out ++ (syms (held .B).samples ++ [WireItem.gap]), ops⟩ := by
  intro t ht
  have hne : (held .B).samples ≠ [] := List.ne_nil_of_length_pos (by rw [Fill.samples_length]; decide)
  have hrun := playout_to_end (held .B).samples t .B 0 0 24 _ hne ht.play (by rw [Fill.samples_length]) ht.raced
    (ht.held .B)
  rw [State.endSeq_loop_B_done (s := t.played _) ht.loops] at hrun
  have hA : t.eng.events.get (.seqEnd .A) = true := ht.endA (by simp)
  exact ⟨_, .agent hrun, { ht with
    play := rfl
    endA := fun _ => by simp [State.stopPlaying, State.played, Events.get_put, hA]
    endB := fun _ => by simp [State.stopPlaying, Events.get_put]
    wire := by simp [State.played, State.stopPlaying, State.emit, State.setPlay, ht.wire] }⟩

/-- WL_STEP's wait for A (rule R180). -/
theorem waitsA (ho : o ≠ some .A) :
    s.LoopLeads ⟨.wlStep, .A, b, o, held, out, ops⟩ ⟨.wlTest, .A, b, o, held, out, ops⟩ := by
  refine .decides (by simp) fun t ht => ?_
  rw [decision_wlStep ht.pc, writeLoopStep_A ht.role (ht.endA ho)]
  exact { ht with pc := rfl, micro := rfl }

/-- WL_STEP's wait for the pair, the restart of A and the clear (rule R181). -/
theorem restarts :
    s.LoopLeads ⟨.wlStep, .B, b, none, held, out, ops⟩ ⟨.wlTest, .B, b, some .A, held, out, ops⟩ := by
  intro t ht
  have hwait := reaches_decision (by simp [ht.pc]) ht.micro
  rw [decision_wlStep ht.pc, writeLoopStep_B ht.role (ht.endB rfl).2] at hwait
  have hstart := reaches_started (s := t.goto .wlTest (startA ++ clearEvents)) (by simp) ht.drained rfl ht.configured
    ht.regs ht.play
  refine ⟨_, hwait.trans (hstart.trans (.agent (ctrl_setup clearEvents (rest := []) ?_ ?_ clearEvents_isSetup))), ?_⟩
  · simp
  · rfl
  · exact { ht with
      pc := rfl, micro := rfl, loops := rfl, raced := rfl, play := rfl
      endA := fun h => absurd rfl h
      endB := fun h => by cases h }

/-- The termination test, passed (rule R185). -/
theorem terminates (hb : b = 2) :
    s.LoopLeads ⟨.wlTest, r, b, o, held, out, ops⟩ ⟨.wlFinal, r, b, o, held, out, ops⟩ := by
  refine .decides (by simp) fun t ht => ?_
  rw [decision_wlTest ht.pc, writeLoopTest_ends (by rw [ht.blanks]; exact hb.ge)]
  exact { ht with pc := rfl, micro := rfl }

/-- The pull of an item in order and the refill of the role's buffer, which does not play (rules R175, R176 and R178). -/
theorem refills {v : Fill} (hwf : s.params.wf = true) (hb : b < 2) (hv : v.isIdle = false → b = 0) (ho : o ≠ some r) :
    s.LoopLeads ⟨.wlTest, r, b, o, held, out, HostProgram.pollPull :: .w32 0x1C v.word :: ops⟩
      ⟨.wlStep, r.other, b + v.isIdle.toNat, o, Function.update held r v, out, ops⟩ := by
  intro t ht
  have htest := reaches_decision (by simp [ht.pc]) ht.micro
  rw [decision_wlTest ht.pc, writeLoopTest_pulls (by rwa [ht.blanks])] at htest
  have hfrom : t.eng.play.From s.params r.other := by rw [ht.play]; exact pairPlay_from ho
  have hcovers := hfrom.covers_other hwf (l := v.samples) (by rw [Fill.samples_length])
  rw [Channel.other_other] at hcovers
  have hfill := reaches_itemFilled (s := t.goto .wlItem pull) rfl rfl ht.drained ht.noPull ht.ops
    (fun h => by simp [ht.ended, hv h]) (by simpa only [State.goto_params, State.goto_ctrl, State.goto_eng, ht.params,
      ht.role] using hcovers)
  rw [State.goto_params, State.goto_ctrl, ht.params, ht.role] at hfill
  have hended : (t.ctrl.ended || v.isIdle) = decide (0 < b + v.isIdle.toNat) := by
    rw [ht.ended]
    cases v.isIdle <;> simp
  refine ⟨_, htest.trans hfill, { ht with
    params := rfl, pc := rfl, micro := rfl, role := rfl, ops := rfl
    blanks := congrArg (· + v.isIdle.toNat) ht.blanks
    ended := hended
    held := holds_refilled hwf ht.held r v
    others := fun a ha => ?_ }⟩
  have hr := ha r
  exact (Memory.read_storeSamples_other (by rw [Fill.samples_length]; omega)).trans (ht.others a ha)

end State.LoopLeads

/-! ### WRITE_LOOP's rounds (rules R182, R185, R189 and R190) -/

/-- The fills still to pull come in order, and end as the blanks fed, `b` of them so far, come to two (rules R185, R187). -/
def InOrder : Nat → List Fill → Prop
  | b, [] => b = 2
  | b, v :: vs => b < 2 ∧ (v.isIdle = false → b = 0) ∧ InOrder (b + v.isIdle.toNat) vs

/-- What ENG plays once the buffers hold `x` and `y` and `vs` are still to pull, a pair at a time: where one fill is left
for A alone, B plays once more (rule R189). -/
def playedFrom : Fill → Fill → List Fill → List Fill
  | x, y, [] => [x, y]
  | x, y, [v] => [x, y, v, y]
  | x, y, v :: w :: vs => x :: y :: playedFrom v w vs

/-- The fills that the buffers hold. -/
def inBuffers (x y : Fill) : Channel → Fill
  | .A => x
  | .B => y

theorem update_inBuffers_A (x y v : Fill) : Function.update (inBuffers x y) .A v = inBuffers v y := by
  funext ch
  cases ch <;> rfl

theorem update_inBuffers_B (x y v : Fill) : Function.update (inBuffers x y) .B v = inBuffers x v := by
  funext ch
  cases ch <;> rfl

/-- What HOST does to answer the pulls of a list of fills (rule R96). -/
def answers (vs : List Fill) : List HostOp := HostProgram.pushes (vs.map Fill.word)

theorem answers_cons (v : Fill) (vs : List Fill) (ops : List HostOp) :
    answers (v :: vs) ++ ops = HostProgram.pollPull :: .w32 0x1C v.word :: (answers vs ++ ops) := rfl

theorem answers_append (vs ws : List Fill) : answers (vs ++ ws) = answers vs ++ answers ws := by
  simp [answers, HostProgram.pushes]

/-- The wire output of the fills played, in pairs. -/
def fillTrace (vs : List Fill) : List WireItem := pairTrace (vs.map Fill.samples)

theorem fillTrace_nil : fillTrace [] = [] := rfl

theorem fillTrace_pair (x y : Fill) (vs : List Fill) :
    fillTrace (x :: y :: vs) = syms x.samples ++ (syms y.samples ++ [WireItem.gap]) ++ fillTrace vs := by
  simp [fillTrace, pairTrace]

/-- A pair before others. -/
theorem fillTrace_append (x y : Fill) (vs : List Fill) :
    fillTrace (x :: y :: vs) = fillTrace [x, y] ++ fillTrace vs := by
  rw [fillTrace_pair, fillTrace_pair, fillTrace_nil, List.append_nil]

section

variable {s : State} (hwf : s.params.wf = true) {out : List WireItem} {ops : List HostOp} {b : Nat}
include hwf

/-- A round over a fill for A: A plays to its end and is refilled while B plays, then starts again (rules R180, R181). -/
theorem leads_round {x y v : Fill} (hb : b < 2) (hv : v.isIdle = false → b = 0) : s.LoopLeads
    ⟨.wlStep, .A, b, some .A, inBuffers x y, out, HostProgram.pollPull :: .w32 0x1C v.word :: ops⟩
    ⟨.wlTest, .B, b + v.isIdle.toNat, some .A, inBuffers v y, out ++ fillTrace [x, y], ops⟩ := by
  have hrefill := State.LoopLeads.refills (s := s) (r := .A) (o := some .B) (held := inBuffers x y)
    (out := out ++ syms x.samples) (ops := ops) hwf hb hv (by simp)
  rw [update_inBuffers_A] at hrefill
  rw [fillTrace_pair, fillTrace_nil, List.append_nil, ← List.append_assoc out]
  exact (State.LoopLeads.playsA (.inl rfl)).trans ((State.LoopLeads.waitsA (by simp)).trans
    (hrefill.trans (State.LoopLeads.playsB.trans .restarts)))

/-- The fill for B, refilled while A plays (rule R183). -/
theorem leads_refillsB {x y w : Fill} (hb : b < 2) (hw : w.isIdle = false → b = 0) : s.LoopLeads
    ⟨.wlTest, .B, b, some .A, inBuffers x y, out, HostProgram.pollPull :: .w32 0x1C w.word :: ops⟩
    ⟨.wlStep, .A, b + w.isIdle.toNat, some .A, inBuffers x w, out, ops⟩ := by
  have hrefill := State.LoopLeads.refills (s := s) (r := .B) (o := some .A) (held := inBuffers x y) (out := out)
    (ops := ops) hwf hb hw (by simp)
  rwa [update_inBuffers_B] at hrefill

/-- WRITE_LOOP's rounds to their end. What the buffers hold then is the pair played last. -/
theorem leads_rounds (x y : Fill) (vs : List Fill) (horder : InOrder b vs) : ∃ pre x' y' r,
    playedFrom x y vs = pre ++ [x', y'] ∧
    s.LoopLeads ⟨.wlStep, .A, b, some .A, inBuffers x y, out, answers vs ++ ops⟩
      ⟨.wlFinal, r, 2, none, inBuffers x' y', out ++ fillTrace (playedFrom x y vs), ops⟩ := by
  induction x, y, vs using playedFrom.induct generalizing b out with
  | case1 x y =>
    obtain rfl : b = 2 := horder
    refine ⟨[], x, y, .A, rfl, ?_⟩
    rw [playedFrom, fillTrace_pair, fillTrace_nil, List.append_nil, ← List.append_assoc out]
    exact (State.LoopLeads.playsA (.inl rfl)).trans ((State.LoopLeads.waitsA (by simp)).trans
      ((State.LoopLeads.terminates rfl).trans .playsB))
  | case2 x y v =>
    obtain ⟨hb, hv, hend⟩ := horder
    refine ⟨[x, y], v, y, .B, rfl, ?_⟩
    rw [playedFrom, fillTrace_append x y, fillTrace_pair v, fillTrace_nil, List.append_nil, ← List.append_assoc out,
      ← List.append_assoc _ (syms v.samples), answers_cons]
    exact (leads_round hwf hb hv).trans ((State.LoopLeads.terminates hend).trans
      (hend ▸ (State.LoopLeads.playsA (.inr rfl)).trans .playsB))
  | case3 x y v w vs ih =>
    obtain ⟨hb, hv, hb', hw, hrest⟩ := horder
    obtain ⟨pre, x', y', r, hplayed, hleads⟩ := ih (out := out ++ fillTrace [x, y]) hrest
    refine ⟨x :: y :: pre, x', y', r, by rw [playedFrom, hplayed]; rfl, ?_⟩
    rw [playedFrom, fillTrace_append x y, ← List.append_assoc out, answers_cons, answers_cons]
    exact (leads_round hwf hb hv).trans ((leads_refillsB hwf hb' hw).trans hleads)

end

/-! ### WRITE_LOOP (rules R178, R185, R186 and R189 to R191) -/

section

variable {s : State} {v : Fill} {ops : List HostOp} (hb : s.wb = { host := [], ctrl := [] })
include hb

/-- WL_SETUP over it0, a colour, with ENG stopped: A is filled. -/
theorem reaches_primesA {c : Colour} (hp : s.ctrl.pc = .wlSetup) (hm : s.ctrl.micro = pull)
    (hstop : s.eng.play = .stopped) (hpull : s.iface.pullReq = false)
    (hops : s.host.ops = HostProgram.pollPull :: .w32 0x1C (colourWord c) :: ops) : Reaches s { s with
      ctrl := { s.ctrl with pc := .wlSetup2, micro := pull, item := .color c }
      mem := s.mem.storeSamples (s.params.buf .A).toNat (frame c)
      host := { s.host with ops := ops } } := by
  have hfirst := pull_decides (by simp [hp]) hm hops hpull
  rw [itemOf_colourWord, decision_wlSetup (by exact hp), writeLoopFirst_color (c := c) rfl] at hfirst
  refine .trans ⟨_, hfirst⟩ (reaches_refilled (p := s.params) (ch := .A) (v := .color c) (rest := pull) ?_ ?_ ?_ ?_)
  · simp
  · exact hb
  · rfl
  · exact fun e _ => by rw [State.goto_eng, hstop]; rfl

/-- WL_SETUP over it1, with ENG stopped: B is filled, and the pair is to be set up and started. -/
theorem reaches_primesB (hp : s.ctrl.pc = .wlSetup2) (hm : s.ctrl.micro = pull)
    (hstop : s.eng.play = .stopped) (hpull : s.iface.pullReq = false)
    (hops : s.host.ops = HostProgram.pollPull :: .w32 0x1C v.word :: ops) : Reaches s { s with
      ctrl := { s.ctrl with
        pc := .wlSetup3, micro := pairWrites s.params ++ (startA ++ [Micro.setRole .A])
        blanksFed := s.ctrl.blanksFed + v.isIdle.toNat, ended := s.ctrl.ended || v.isIdle, item := v.item }
      mem := s.mem.storeSamples (s.params.buf .B).toNat v.samples
      host := { s.host with ops := ops } } := by
  have hsecond := pull_decides (by simp [hp]) hm hops hpull
  rw [itemOf_word, decision_wlSetup2 (by exact hp), writeLoopSecond_fill (v := v) rfl] at hsecond
  refine .trans ⟨_, hsecond⟩ (reaches_refilled (p := s.params) (ch := .B) (v := v)
    (rest := pairWrites s.params ++ (startA ++ [Micro.setRole .A])) ?_ ?_ ?_ ?_)
  · simp
  · exact hb
  · rfl
  · exact fun e _ => by simp only [hstop]; rfl

end

/-- ENG with the pair set up and A begun. -/
def Eng.startedPair (g : Eng) (p : Params) : Eng :=
  { g.paired p with
    events := (g.paired p).events.put (.seqStarted .A) true, play := pairPlay p (some .A), loopMode := true
    raced := false }

theorem Eng.startedPair_regs (g : Eng) (p : Params) : (g.startedPair p).regs.Paired p := by
  rw [startedPair]
  exact g.paired_regs p

/-- The rest of WL_SETUP: the pair is set up and started, and CTRL takes A's role. -/
theorem reaches_pairStarted {s : State} {p : Params} (hp : s.ctrl.pc = .wlSetup3)
    (hm : s.ctrl.micro = pairWrites p ++ (startA ++ [Micro.setRole .A])) (hb : s.wb = { host := [], ctrl := [] })
    (hd : s.drv = .configured) (hstop : s.eng.play = .stopped) : Reaches s { s with
      ctrl := { s.ctrl with pc := .wlStep, micro := [], role := .A }, eng := s.eng.startedPair p } := by
  have hne : s.ctrl.pc ≠ .idle := by simp [hp]
  refine .trans (.agent (ctrl_setup (pairWrites p) hne hm (pairWrites_isSetup p))) ?_
  refine .trans (reaches_started (p := p) (rest := [.setRole .A]) (by exact hne) (by exact hb) (by rfl) (by exact hd)
    (s.eng.paired_regs p) ((foldl_perform_play _ _).trans hstop)) ?_
  refine .trans (reaches_statement (m := .setRole .A) (rest := []) (by exact hne) (by rfl)) ?_
  exact ⟨_, (runAgent_ctrl_decides (by exact hne) (by rfl)).trans (congrArg _ (decision_wlSetup3 (by exact hp)))⟩

theorem inOrder_colours (cs : List Colour) : InOrder 0 (cs.map Fill.color ++ [Fill.idle, Fill.idle]) := by
  induction cs with
  | nil => simp [InOrder, Fill.isIdle]
  | cons c cs ih => exact ⟨by decide, fun _ => rfl, ih⟩

/-- Over colours ENG plays them, then two idle frames or, for an odd number of colours, three (rule R189). -/
theorem playedFrom_colours {x y : Fill} {vs : List Fill} {cs : List Colour}
    (h : x :: y :: vs = cs.map Fill.color ++ [Fill.idle, Fill.idle]) :
    playedFrom x y vs = cs.map Fill.color ++ List.replicate (if cs.length % 2 = 0 then 2 else 3) Fill.idle := by
  induction x, y, vs using playedFrom.induct generalizing cs with
  | case1 x y =>
    obtain rfl : cs = [] := by simpa using congrArg List.length h
    simpa [playedFrom] using h
  | case2 x y v =>
    obtain ⟨c, rfl⟩ : ∃ c, cs = [c] := List.length_eq_one_iff.1 (by simpa using (congrArg List.length h).symm)
    simp at h
    simp [playedFrom, h, List.replicate]
  | case3 x y v w vs ih =>
    match cs, h with
    | [], h => simp at h
    | [c], h => simp at h
    | c :: d :: cs, h =>
      simp only [List.map_cons, List.cons_append, List.cons.injEq] at h
      obtain ⟨rfl, rfl, htail⟩ := h
      have hparity : (c :: d :: cs).length % 2 = cs.length % 2 := by
        rw [List.length_cons, List.length_cons]
        omega
      rw [playedFrom, ih htail, hparity]
      rfl

theorem fillTrace_colours {x y : Fill} {vs : List Fill} {cs : List Colour}
    (h : x :: y :: vs = cs.map Fill.color ++ [Fill.idle, Fill.idle]) :
    fillTrace (playedFrom x y vs) = loopTrace cs := by
  rw [playedFrom_colours h, fillTrace, List.map_append, List.map_map, List.map_replicate]
  rfl

/-- The pair played last is idle (rule R188). -/
theorem lastPair_idle {x y x' y' : Fill} {vs pre : List Fill} {cs : List Colour}
    (h : x :: y :: vs = cs.map Fill.color ++ [Fill.idle, Fill.idle]) (hlast : playedFrom x y vs = pre ++ [x', y']) :
    x' = .idle ∧ y' = .idle := by
  rw [playedFrom_colours h] at hlast
  obtain ⟨n, hn⟩ : ∃ n, (if cs.length % 2 = 0 then 2 else 3) = n + 2 := by split; exacts [⟨0, rfl⟩, ⟨1, rfl⟩]
  rw [hn, ← List.replicate_append_replicate, ← List.append_assoc] at hlast
  have hpair := (List.append_inj' hlast rfl).2
  simpa [List.replicate, eq_comm] using hpair

/-- WL_SETUP over its two items, to WL_STEP with the first pair begun. -/
theorem reaches_setUp {s : State} {c : Colour} {v : Fill} {ops : List HostOp} (hp : s.ctrl.pc = .wlSetup)
    (hm : s.ctrl.micro = pull) (hb : s.wb = { host := [], ctrl := [] }) (hd : s.drv = .configured)
    (hstop : s.eng.play = .stopped) (hpull : s.iface.pullReq = false)
    (hops : s.host.ops = answers [.color c, v] ++ ops) : Reaches s { s with
      ctrl := { s.ctrl with
        pc := .wlStep, micro := [], role := .A, item := v.item
        blanksFed := s.ctrl.blanksFed + v.isIdle.toNat, ended := s.ctrl.ended || v.isIdle }
      eng := s.eng.startedPair s.params
      mem := (s.mem.storeSamples (s.params.buf .A).toNat (frame c)).storeSamples (s.params.buf .B).toNat v.samples
      host := { s.host with ops := ops } } := by
  have hA := reaches_primesA hb hp hm hstop hpull hops
  have hB := hA.trans (reaches_primesB (v := v) (ops := ops) hb (by rfl) (by rfl) hstop hpull (by rfl))
  dsimp only at hB
  have hpair := hB.trans (reaches_pairStarted (p := s.params) (by rfl) (by rfl) hb hd hstop)
  dsimp only at hpair
  exact hpair

/-- HOST's answers to the pulls of colours and of two ENDs. -/
theorem answers_colours (cs : List Colour) :
    answers (cs.map Fill.color ++ [Fill.idle, Fill.idle]) =
      pushColours cs ++ HostProgram.pushEnd ++ HostProgram.pushEnd := by
  rw [answers_append, List.append_assoc, answers, List.map_map]
  rfl

section

variable {p : Params} (m : Memory) (c : Colour) (v : Fill)

/-- Once both buffers are filled they hold their fills. -/
theorem holds_primed (hwf : p.wf = true) (ch : Channel) : Memory.holds
    ((m.storeSamples (p.buf .A).toNat (frame c)).storeSamples (p.buf .B).toNat v.samples) (p.buf ch).toNat
    (inBuffers (.color c) v ch).samples := by
  cases ch with
  | A =>
    refine (Memory.holds_storeSamples m _ (frame c)).storeSamples_apart ?_
    rw [frame_length, Fill.samples_length]
    exact buf_apart hwf .A
  | B => exact Memory.holds_storeSamples _ _ _

/-- A byte outside the buffers is as it was. -/
theorem read_primed_other {a : Nat} (h : ∀ ch, a < (p.buf ch).toNat ∨ (p.buf ch).toNat + 48 ≤ a) : Memory.read
    ((m.storeSamples (p.buf .A).toNat (frame c)).storeSamples (p.buf .B).toNat v.samples) a = Memory.read m a := by
  have hA := h .A
  have hB := h .B
  have hframe := frame_length c
  have hfill := v.samples_length
  rw [Memory.read_storeSamples_other (by omega), Memory.read_storeSamples_other (by omega)]

end

/-- WL_SETUP over colours, up to the stage in which the first pair begins. -/
theorem reaches_firstPair {s : State} (hready : s.Ready) {c : Colour} {v : Fill} {ops : List HostOp}
    (hops : s.host.ops = answers [.color c, v] ++ ops) : ∃ t, Reaches (startOf .writeLoop s) t ∧
    s.LoopAt ⟨.wlStep, .A, v.isIdle.toNat, some .A, inBuffers (.color c) v, [], ops⟩ t := by
  obtain ⟨hwf, hd, hp, hstop, hwb, hpull⟩ := hready
  have hpair := reaches_setUp (s := startOf .writeLoop s) rfl rfl hwb hd hstop hpull hops
  have hheld := holds_primed s.mem c v hwf
  have hothers := fun a => read_primed_other (p := s.params) (a := a) s.mem c v
  exact ⟨_, hpair, {
    params := rfl, configured := hd, pc := rfl, micro := rfl, role := rfl, blanks := Nat.zero_add _
    ended := by cases v.isIdle <;> rfl
    regs := Eng.startedPair_regs _ _
    loops := rfl, raced := rfl, play := rfl
    endA := fun h => absurd rfl h
    endB := fun h => by cases h
    drained := hwb, noPull := hpull, faults := rfl
    held := hheld
    others := hothers
    wire := (List.append_nil _).symm
    ops := rfl }⟩

/-- Settles O48: the first pair, WRITE_LOOP's rounds, and the turn that ends it. -/
theorem writeLoopRuns : Obligations.WriteLoopRuns := by
  intro s cs rest hready hne hops
  obtain ⟨c, cs, rfl⟩ := List.exists_cons_of_ne_nil hne
  obtain ⟨v, vs, hvs⟩ : ∃ v vs, cs.map Fill.color ++ [Fill.idle, Fill.idle] = v :: vs := by
    cases cs with
    | nil => exact ⟨_, _, rfl⟩
    | cons d cs => exact ⟨_, _, rfl⟩
  have hfills : Fill.color c :: v :: vs = (c :: cs).map Fill.color ++ [Fill.idle, Fill.idle] := by rw [← hvs]; rfl
  have hanswers : s.host.ops = answers [.color c, v] ++ (answers vs ++ rest) := by
    rw [hops, ← answers_colours, ← hfills]
    exact (congrArg (· ++ rest) (answers_append [.color c, v] vs)).trans (List.append_assoc _ _ _)
  have horder : InOrder v.isIdle.toNat vs := by
    have h := inOrder_colours cs
    rw [hvs] at h
    obtain ⟨-, -, h⟩ := h
    rwa [Nat.zero_add] at h
  obtain ⟨t, ht, hat⟩ := reaches_firstPair hready hanswers
  obtain ⟨pre, x, y, r, hlast, hleads⟩ :=
    leads_rounds (s := s) (out := []) (ops := rest) hready.params (.color c) v vs horder
  obtain ⟨u, hu, hend⟩ := hleads t hat
  obtain ⟨rfl, rfl⟩ := lastPair_idle hfills hlast
  obtain ⟨hB, hdone⟩ := hend.endB rfl
  have hfinal : runTurn .ctrl u = .next (u.endCommand .ok) := by
    rw [runTurn, ctrlTurn_running (by simp [hend.pc]), advance_decides hend.micro, decision_wlFinal hend.pc,
      writeLoopFinal_ends hdone]
  refine ⟨_, _, exec_idle_configured rfl hready.idle hready.configured (by simp),
    ht.trans (hu.trans (.turn .ctrl hfinal)), rfl, rfl, hend.ops, hend.play, hdone, hend.endA (by simp), hB,
    hend.regs.2, hend.blanks, hend.faults, hend.drained.trans hready.drained.symm, fun ch => ?_, hend.others, ?_⟩
  · have hheld := hend.held ch
    cases ch <;> exact hheld
  · rw [State.endCommand_wire, hend.wire, List.nil_append, fillTrace_colours hfills]

/-! ### WRITE_LOOP over every schedule (rules R74, R183, R184 and R233) -/

/-- What WRITE_LOOP has to perform after a statement, where the statement finds registers `r`: no buffered write after a
fence, none and no second start after a start, which is A's and of the pair, and nothing after a change of role. -/
def Micro.FitsLoop (p : Params) (r : EngRegs) (m : Micro) (l : List Micro) : Prop :=
  match m with
  | .drv _ => False
  | .setRole _ => l = []
  | .fence => entriesOf l = []
  | .task ch => ch = .A ∧ r.Paired p ∧ entriesOf l = [] ∧ .task .A ∉ l
  | _ => True

/-- Statements of WRITE_LOOP, begun with registers `r`: each fits what comes after it and leaves the pair set up. -/
def LoopPlan (p : Params) : EngRegs → List Micro → Prop
  | _, [] => True
  | r, m :: l => m.FitsLoop p r l ∧ (r.Paired p → (m.regs r).Paired p) ∧ LoopPlan p (m.regs r) l

section

variable {p : Params} {r : EngRegs} {l : List Micro}

theorem LoopPlan.writes (h : LoopPlan p r l) (a : Nat) (vs : List Sample) : LoopPlan p r (writeSamples a vs ++ l) := by
  induction vs generalizing a with
  | nil => exact h
  | cons v vs ih => exact ⟨trivial, id, ih (a + 2)⟩

theorem LoopPlan.refills (h : LoopPlan p r l) (hl : entriesOf l = []) (q : Params) (ch : Channel) (v : Fill) :
    LoopPlan p r (refill q ch v ++ l) := by
  rw [refill, List.append_assoc, List.append_assoc]
  refine LoopPlan.writes ?_ _ _
  cases v with
  | color c => exact ⟨hl, id, h⟩
  | idle => exact ⟨trivial, id, hl, id, h⟩

theorem loopPlan_pull (p : Params) (r : EngRegs) : LoopPlan p r pull := ⟨trivial, id, trivial, id, trivial⟩

theorem loopPlan_restart (hr : r.Paired p) : LoopPlan p r (startA ++ clearEvents) := by
  refine ⟨rfl, id, ⟨rfl, hr, rfl, by decide⟩, id, ?_⟩
  exact ⟨trivial, id, trivial, id, trivial, id, trivial, id, trivial, id, trivial⟩

theorem LoopPlan.setup {k : List Micro} (hk : ∀ m ∈ k, m.isSetup = true)
    (hpair : ∀ m ∈ k, ∀ r : EngRegs, r.Paired p → (m.regs r).Paired p)
    (h : LoopPlan p (k.foldl (fun r m => m.regs r) r) l) : LoopPlan p r (k ++ l) := by
  induction k generalizing r with
  | nil => exact h
  | cons m k ih =>
    refine ⟨?_, hpair m List.mem_cons_self r, ih (fun m hm => hk m (List.mem_cons_of_mem _ hm))
      (fun m hm => hpair m (List.mem_cons_of_mem _ hm)) h⟩
    have hm := hk m List.mem_cons_self
    cases m with
    | drv | fence | task | setRole => cases hm
    | _ => trivial

theorem EngRegs.Paired.setSeq (h : r.Paired p) (ch : Channel) {d : SeqRegs} (hptr : d.ptr = p.buf ch)
    (hcnt : d.cnt = 24) : (r.setSeq ch d).Paired p := by
  obtain ⟨hseq, hloop⟩ := h
  cases ch with
  | A => exact ⟨fun c => by cases c; exacts [⟨hptr, hcnt⟩, hseq .B], hloop⟩
  | B => exact ⟨fun c => by cases c; exacts [hseq .A, ⟨hptr, hcnt⟩], hloop⟩

theorem pairWrites_keepPair (p : Params) : ∀ m ∈ pairWrites p, ∀ r : EngRegs, r.Paired p → (m.regs r).Paired p := by
  simp only [pairWrites, loopSetup, clearEvents, List.cons_append, List.nil_append, List.forall_mem_cons]
  exact ⟨fun _ h => h.setSeq .A rfl (h.1 .A).2, fun _ h => h.setSeq .A (h.1 .A).1 rfl,
    fun _ h => h.setSeq .B rfl (h.1 .B).2, fun _ h => h.setSeq .B (h.1 .B).1 rfl, fun _ h => ⟨h.1, rfl⟩,
    fun _ => id, fun _ => id, fun _ => id, fun _ => id, fun _ => id, nofun⟩

/-- What WL_SETUP performs after B's refill. -/
theorem loopPlan_setup (p : Params) (r : EngRegs) :
    LoopPlan p r (pairWrites p ++ (startA ++ [Micro.setRole .A])) := by
  refine LoopPlan.setup (pairWrites_isSetup p) (pairWrites_keepPair p) ?_
  exact ⟨rfl, id, ⟨rfl, foldl_regs_pairWrites p r, rfl, by decide⟩, id, rfl, id, trivial⟩

/-- A refill's buffered writes, and what comes after it. -/
theorem entriesOf_refill (q : Params) (ch : Channel) (v : Fill) (l : List Micro) :
    entriesOf (refill q ch v ++ l) = sampleEntries (q.buf ch).toNat v.samples ++ entriesOf l := by
  rw [refill, entriesOf_append, entriesOf_append, entriesOf_append, entriesOf_writeSamples]
  cases v <;> rfl

theorem fence_mem_refill (q : Params) (ch : Channel) (v : Fill) (l : List Micro) : .fence ∈ refill q ch v ++ l := by
  simp [refill]

theorem tasksFenced_refill (q : Params) (ch : Channel) (v : Fill) (hl : tasksFenced true l = true) :
    tasksFenced false (refill q ch v ++ l) = true := by
  rw [refill, List.append_assoc, List.append_assoc]
  refine tasksFenced_writes _ _ ?_
  cases v <;> exact hl

theorem task_not_mem_refill (q : Params) (ch : Channel) (v : Fill) : .task .A ∉ refill q ch v := by
  intro h
  rcases List.mem_append.1 h with h | h
  · rcases List.mem_append.1 h with h | h
    · exact absurd (isWrite_writes h) (by decide)
    · cases v <;> simp at h
  · simp at h

theorem foldl_role_refill (q : Params) (ch : Channel) (v : Fill) (l : List Micro) (r : Channel) :
    (refill q ch v ++ l).foldl (fun r m => m.role r) r = l.foldl (fun r m => m.role r) r := by
  rw [refill, List.append_assoc, List.append_assoc, List.foldl_append, foldl_role_writeSamples]
  cases v <;> rfl

end

/-- WRITE_LOOP has not started its first pair. -/
def Ctrl.SettingUp (c : Ctrl) : Prop :=
  c.pc = .wlSetup ∨ c.pc = .wlSetup2 ∨ (c.pc = .wlSetup3 ∧ .task .A ∈ c.micro)

/-- WRITE_LOOP is about to start A, or A has ended and WRITE_LOOP has not started it again: it refills A, or it waits
for the pair (rules R180, R181 and R184). -/
def Ctrl.SparesA (c : Ctrl) : Prop :=
  .task .A ∈ c.micro ∨ ((c.pc = .wlSetup3 ∨ c.pc = .wlStep) ∧ c.nextRole = .B) ∨
    ((c.pc = .wlTest ∨ c.pc = .wlItem) ∧ c.nextRole = .A)

/-- In a refill, the buffered writes `es`, those to come among them, are for the buffer of the role CTRL has before its
change of role. -/
def Ctrl.Refills (p : Params) (c : Ctrl) (es : List Entry) : Prop :=
  c.pc = .wlStep ∧ c.role = c.nextRole.other ∧
    ∃ v : Fill, ∀ e ∈ es, e ∈ sampleEntries (p.buf c.nextRole.other).toNat v.samples

theorem Ctrl.nextRole_refill {c : Ctrl} {q : Params} {ch r : Channel} {v : Fill}
    (hm : c.micro = refill q ch v ++ [.setRole r]) : c.nextRole = r := by
  rw [nextRole, hm]
  exact foldl_role_refill q ch v [.setRole r] c.role

/-- A refill as WL_STEP begins it. -/
theorem Ctrl.refills_begun {p : Params} {c : Ctrl} {v : Fill} (hp : c.pc = .wlStep)
    (hm : c.micro = refill p c.role v ++ [.setRole c.role.other]) : c.Refills p (entriesOf c.micro) := by
  have hrole : c.nextRole.other = c.role := by rw [nextRole_refill hm, Channel.other_other]
  refine ⟨hp, hrole.symm, v, fun e he => ?_⟩
  rw [hm, entriesOf_refill] at he
  rw [hrole]
  exact (List.mem_append.1 he).resolve_right (by rintro ⟨⟩)

/-- What plays is a buffer of the pair, once, in loop mode and not raced. -/
def Eng.PlaysPair (p : Params) (g : Eng) : Prop :=
  ∀ ch idx ll lptr lcnt, g.play = .playing ch idx ll lptr lcnt →
    lptr = p.buf ch ∧ lcnt = 24 ∧ ll = 0 ∧ g.regs.Paired p ∧ g.loopMode = true ∧ g.raced = false

/-- A run of WRITE_LOOP under a HOST that feeds only, and after it: where A plays, its completion flag is not set but by
the clear to come; no buffered write is left but before a start or in a refill; and FAULT.DMA_RACE is still `race`. -/
structure LoopSafe (p : Params) (race : Bool) (s : State) : Prop where
  params : s.params = p
  configured : s.drv = .configured
  feeds : ∀ op ∈ s.host.ops, op.feeds = true
  drained : s.wb.host = []
  race : s.faults.dmaRace = race
  command : s.ctrl.pc = .idle ∨ s.ctrl.pc.instr = some .writeLoop
  fenced : tasksFenced s.wb.ctrl.isEmpty s.ctrl.micro = true
  plan : LoopPlan p s.eng.regs s.ctrl.micro
  paired : ¬s.ctrl.SettingUp → s.ctrl.pc ≠ .idle → s.eng.regs.Paired p
  pair : s.eng.PlaysPair p
  writes : s.pending ≠ [] → .fence ∈ s.ctrl.micro ∧ (s.ctrl.SettingUp ∨ s.ctrl.Refills p s.pending)
  stopped : s.ctrl.SettingUp → s.eng.play = .stopped
  starts : .task .A ∈ s.ctrl.micro →
    (s.ctrl.pc = .wlSetup3 ∧ s.ctrl.nextRole = .A) ∨ (s.ctrl.pc = .wlTest ∧ s.ctrl.nextRole = .B)
  spares : s.ctrl.SparesA → ¬s.playsA
  fresh : s.playsA ∨ .task .A ∈ s.ctrl.micro →
    s.eng.events.get (.seqEnd .A) = false ∨ .clear (.seqEnd .A) ∈ s.ctrl.micro

/-- Once the start task is performed. -/
theorem Ctrl.started {c : Ctrl} (hc : (c.pc = .wlSetup3 ∧ c.nextRole = .A) ∨ (c.pc = .wlTest ∧ c.nextRole = .B))
    (ht : .task .A ∉ c.micro) : ¬c.SettingUp ∧ ¬c.SparesA := by
  rcases hc with ⟨hp, hn⟩ | ⟨hp, hn⟩ <;> simp [SettingUp, SparesA, hp, hn, ht]

/-- In loop mode A's end leaves no A playing. -/
theorem State.endSeq_A_notA {s : State} {ll : Nat} (hl : s.eng.loopMode = true) : ¬(s.endSeq .A ll).playsA := by
  rintro ⟨_, _, _, _, hq⟩
  rw [endSeq_loop_A hl, markRace_eng, beginSeq_play] at hq
  split at hq <;> cases hq

/-- A statement that is no start task leaves every flag but the one it clears. -/
theorem microStep_flag {m : Micro} (rest : List Micro) (s : State) {e : Event} (hc : m ≠ .clear e)
    (ht : ∀ ch, m ≠ .task ch) : (microStep m rest s).eng.events.get e = s.eng.events.get e := by
  by_cases hclear : ∃ f, m = .clear f
  · obtain ⟨f, rfl⟩ := hclear
    exact Events.get_put_other _ false fun hef => hc (by rw [hef])
  · rw [microStep_events rest s (fun f hf => hclear ⟨f, hf⟩) ht]

theorem Ctrl.owesB_of_refill {c : Ctrl} (hp : c.pc = .wlStep) (hr : c.role = .B) (hf : .fence ∈ c.micro)
    (ht : .task .A ∉ c.micro) : c.owesB = true := by
  simp [owesB, hp, hr, hf, ht]

namespace LoopSafe

variable {p : Params} {race : Bool} {s t : State}

theorem from_channel (h : LoopSafe p race s) {ch : Channel}
    (honly : ∀ c idx ll lptr lcnt, s.eng.play = .playing c idx ll lptr lcnt → c = ch) : s.eng.play.From p ch := by
  intro c idx ll lptr lcnt hq
  obtain ⟨hptr, hcnt, -⟩ := h.pair c idx ll lptr lcnt hq
  exact ⟨by rw [hptr, honly c idx ll lptr lcnt hq], hcnt⟩

/-- In a refill of B, CTRL owes it. -/
theorem owesB (h : LoopSafe p race s) {es : List Entry} (hr : s.ctrl.Refills p es) (hf : .fence ∈ s.ctrl.micro)
    (hn : s.ctrl.nextRole = .A) : s.ctrl.owesB = true := by
  obtain ⟨hp, hrole, -⟩ := hr
  refine Ctrl.owesB_of_refill hp (by rw [hrole, hn]; rfl) hf fun ht => ?_
  rcases h.starts ht with ⟨hp', -⟩ | ⟨hp', -⟩ <;> simp [hp] at hp'

/-- In a refill of A, A does not play. -/
theorem sparesA (h : LoopSafe p race s) {es : List Entry} (hr : s.ctrl.Refills p es) (hn : s.ctrl.nextRole = .B) :
    ¬s.playsA :=
  h.spares (.inr (.inl ⟨.inr hr.1, hn⟩))

/-- Under the refill deadline, nothing that CTRL writes can reach what plays. -/
theorem apart (h : LoopSafe p race s) (hwf : p.wf = true) (hdeadline : tRefillB s) :
    ∀ e ∈ s.pending, s.eng.play.covers e = false := by
  intro e he
  obtain ⟨hfence, hsetup | hrefill⟩ := h.writes (List.ne_nil_of_mem he)
  · rw [h.stopped hsetup]
    rfl
  · obtain ⟨-, -, v, hv⟩ := id hrefill
    have hfrom : s.eng.play.From p s.ctrl.nextRole := by
      cases hn : s.ctrl.nextRole with
      | A =>
        obtain ⟨i, j, a, k, hA⟩ := hdeadline (h.owesB hrefill hfence hn)
        exact h.from_channel fun c idx ll lptr lcnt hq => by rw [hA] at hq; cases hq; rfl
      | B =>
        have hA := h.sparesA hrefill hn
        refine h.from_channel fun c idx ll lptr lcnt hq => ?_
        cases c with
        | A => exact absurd ⟨_, _, _, _, hq⟩ hA
        | B => rfl
    exact hfrom.covers_other hwf (by rw [Fill.samples_length]) e (hv e he)

/-- Where A plays and B is not owed its refill, nothing is left to write. -/
theorem quiet (h : LoopSafe p race s) (hA : s.playsA) (howes : s.ctrl.owesB = false) : s.pending = [] := by
  by_contra hne
  obtain ⟨hfence, hsetup | hrefill⟩ := h.writes hne
  · obtain ⟨i, j, a, k, hA⟩ := hA
    rw [h.stopped hsetup] at hA
    cases hA
  · cases hn : s.ctrl.nextRole with
    | A => rw [h.owesB hrefill hfence hn] at howes; cases howes
    | B => exact h.sparesA hrefill hn hA

/-- Where CTRL has nothing to perform, nothing is left to write. -/
theorem performed (h : LoopSafe p race s) (hm : s.ctrl.micro = []) : s.pending = [] ∧ s.wb.ctrl = [] := by
  have hpending : s.pending = [] := by
    by_contra hne
    have hfence := (h.writes hne).1
    rw [hm] at hfence
    cases hfence
  exact ⟨hpending, (List.append_eq_nil_iff.1 hpending).1⟩

/-- HOST's turn. -/
theorem fed (h : LoopSafe p race s) (hf : Fed s t) : LoopSafe p race t := by
  obtain ⟨frame, ops⟩ := hf
  rw [frame]
  exact { h with feeds := fun op hop => h.feeds op (ops.subset hop) }

/-- A memory step. -/
theorem drain (h : LoopSafe p race s) (hwf : p.wf = true) (hdeadline : tRefillB s) (w : Writer) :
    LoopSafe p race (s.drain w) := by
  cases hb : s.wb.of w with
  | nil => rwa [State.drain_nil hb]
  | cons e rest =>
    cases w with
    | host => rw [WriteBuffers.of_host, h.drained] at hb; cases hb
    | ctrl =>
      have hpending : s.pending = e :: (rest ++ entriesOf s.ctrl.micro) := congrArg (· ++ entriesOf s.ctrl.micro) hb
      have hcovers := h.apart hwf hdeadline
      have hwrites := h.writes
      have hfenced := h.fenced
      rw [hpending] at hcovers hwrites
      rw [← WriteBuffers.of_ctrl, hb] at hfenced
      rw [State.drain_cons hb, hcovers e List.mem_cons_self, State.markRace_false]
      refine { h with writes := fun _ => ?_, fenced := tasksFenced_mono hfenced }
      obtain ⟨hfence, hsetup | hrefill⟩ := hwrites (List.cons_ne_nil _ _)
      · exact ⟨hfence, .inl hsetup⟩
      · obtain ⟨hp, hrole, v, hv⟩ := hrefill
        exact ⟨hfence, .inr ⟨hp, hrole, v, fun e he => hv e (List.mem_cons_of_mem _ he)⟩⟩

/-- Under the refill deadline A's end begins B with nothing left to write. -/
theorem endsA (h : LoopSafe p race s) {idx ll lcnt : Nat} {lptr : Word}
    (hplay : s.eng.play = .playing .A idx ll lptr lcnt) (hdeadline : tRefillB (s.endSeq .A ll)) :
    LoopSafe p race (s.endSeq .A ll) := by
  obtain ⟨-, -, rfl, hregs, hloop, hraced⟩ := h.pair _ _ _ _ _ hplay
  have hA : s.playsA := ⟨_, _, _, _, hplay⟩
  have howes : s.ctrl.owesB = false := by
    by_contra ho
    exact State.endSeq_A_notA hloop (hdeadline (by simpa using ho))
  have hctrl : s.wb.ctrl = [] := (List.append_eq_nil_iff.1 (h.quiet hA howes)).1
  rw [State.endSeq_pair_A hloop hregs h.drained hctrl howes hraced]
  exact { h with
    pair := fun _ _ _ _ _ hq => by cases hq; exact ⟨rfl, rfl, rfl, hregs, hloop, hraced⟩
    stopped := fun hs => absurd (hplay.symm.trans (h.stopped hs)) (by simp)
    spares := fun _ ⟨_, _, _, _, hq⟩ => by cases hq
    fresh := fun hc => hc.elim (fun ⟨_, _, _, _, hq⟩ => by cases hq) fun ht => absurd hA (h.spares (.inl ht)) }

/-- B's end is the pair's. -/
theorem endsB (h : LoopSafe p race s) {idx ll lcnt : Nat} {lptr : Word}
    (hplay : s.eng.play = .playing .B idx ll lptr lcnt) : LoopSafe p race (s.endSeq .B ll) := by
  obtain ⟨-, -, rfl, -, hloop, -⟩ := h.pair _ _ _ _ _ hplay
  rw [State.endSeq_loop_B_done hloop]
  exact { h with
    pair := fun _ _ _ _ _ hq => by cases hq
    stopped := fun _ => rfl
    spares := fun _ ⟨_, _, _, _, hq⟩ => by cases hq
    fresh := fun hc => hc.elim (fun ⟨_, _, _, _, hq⟩ => by cases hq) fun ht => h.fresh (.inr ht) }

/-- An emit step under the refill deadline: what plays keeps its region, or it ends. -/
theorem emitWord (h : LoopSafe p race s) (w : Sample) (hdeadline : tRefillB (s.emitWord w)) :
    LoopSafe p race (s.emitWord w) := by
  cases hplay : s.eng.play with
  | stopped => rwa [State.emitWord_stopped w hplay]
  | playing ch idx ll lptr lcnt =>
    by_cases hlast : idx + 1 = lcnt
    · have hemit : LoopSafe p race { s with wire := s.wire ++ [.sym w], eng := { s.eng with tick := 0 } } := { h with }
      rw [State.emitWord_last w hplay hlast] at hdeadline ⊢
      cases ch with
      | A => exact hemit.endsA hplay hdeadline
      | B => exact hemit.endsB hplay
    · have hA : (∃ i j a k, Play.playing ch (idx + 1) ll lptr lcnt = .playing .A i j a k) → s.playsA :=
        fun ⟨_, _, _, _, hq⟩ => by cases hq; exact ⟨_, _, _, _, hplay⟩
      rw [State.emitWord_inside w hplay hlast]
      exact { h with
        pair := fun _ _ _ _ _ hq => by cases hq; exact h.pair _ _ _ _ _ hplay
        stopped := fun hs => absurd (hplay.symm.trans (h.stopped hs)) (by simp)
        spares := fun hc hp => h.spares hc (hA hp)
        fresh := fun hc => h.fresh (hc.imp_left hA) }

/-- A start task: CTRL's buffer is empty, so no race is found, and A's flag is not set. -/
theorem task (h : LoopSafe p race s) {ch : Channel} {rest : List Micro} (hm : s.ctrl.micro = .task ch :: rest) :
    LoopSafe p race (microStep (.task ch) rest s) := by
  have hplan := h.plan
  rw [hm] at hplan
  obtain ⟨⟨rfl, hregs, hentries, honce⟩, -, hplan⟩ := hplan
  have hfenced := h.fenced
  rw [hm, tasksFenced, Bool.and_eq_true] at hfenced
  obtain ⟨hempty, hfenced⟩ := hfenced
  have hwb : s.wb.ctrl = [] := List.isEmpty_iff.1 hempty
  have hnext : (s.setMicro rest).ctrl.nextRole = s.ctrl.nextRole := Ctrl.nextRole_cons hm rfl rfl
  have hstarts := h.starts (by simp [hm])
  have hfresh := h.fresh (.inr (by simp [hm]))
  obtain ⟨hsetup, hspares⟩ := Ctrl.started (c := (s.setMicro rest).ctrl) (by rwa [hnext]) honce
  rw [microStep_task, State.fireTask_pair (s := s.setMicro rest) h.configured hregs h.drained hwb]
  exact { h with
    fenced := tasksFenced_mono hfenced
    plan := hplan
    paired := fun _ _ => hregs
    pair := fun _ _ _ _ _ hq => by cases hq; exact ⟨rfl, rfl, rfl, hregs, rfl, rfl⟩
    writes := fun hne => absurd (by simp [State.pending, hwb, hentries]) hne
    stopped := fun hs => absurd hs hsetup
    starts := fun ht => absurd ht honce
    spares := fun hs => absurd hs hspares
    fresh := fun _ => by simpa [hm, Events.get_put] using hfresh }

/-- A statement that is no start task leaves WRITE_LOOP before its first start or after it. -/
theorem settingUp_statement {m : Micro} {rest : List Micro} (hm : s.ctrl.micro = m :: rest) (ht : ∀ ch, m ≠ .task ch)
    (hne : (microStep m rest s).ctrl.micro = rest) : (microStep m rest s).ctrl.SettingUp ↔ s.ctrl.SettingUp := by
  have htask : .task .A ∈ rest ↔ .task .A ∈ s.ctrl.micro := by simp [hm, Ne.symm (ht .A)]
  rw [Ctrl.SettingUp, Ctrl.SettingUp, microStep_pc, hne, htask]

/-- The buffered writes after a statement that is no start task, where some are left: the fence after them is still to
come, and so is a change of role. -/
theorem statement_writes (h : LoopSafe p race s) {m : Micro} {rest : List Micro} (hm : s.ctrl.micro = m :: rest)
    (ht : ∀ ch, m ≠ .task ch) (hne : (microStep m rest s).ctrl.micro = rest)
    (hleft : (microStep m rest s).pending ≠ []) : .fence ∈ rest ∧
      ((microStep m rest s).ctrl.SettingUp ∨ (microStep m rest s).ctrl.Refills p (microStep m rest s).pending) := by
  have hplan := h.plan
  rw [hm] at hplan
  obtain ⟨hfits, -⟩ := hplan
  have hnext := Ctrl.nextRole_cons hm hne (microStep_role m rest s)
  have hpending := microStep_pending hm hne
  obtain ⟨hfence, hwrites⟩ := h.writes (hpending ▸ hleft)
  have hm_fence : m ≠ .fence := by
    rintro rfl
    refine hleft ?_
    rw [State.pending, hne, microStep_wb_ctrl, drained_of_fence hm hne]
    exact hfits
  have hfence : .fence ∈ rest := by
    rw [hm] at hfence
    exact (List.mem_cons.1 hfence).resolve_left (Ne.symm hm_fence)
  have hrole : m.role s.ctrl.role = s.ctrl.role := by
    cases m with
    | setRole ch =>
      obtain rfl : rest = [] := hfits
      cases hfence
    | _ => rfl
  refine ⟨hfence, hwrites.imp (settingUp_statement hm ht hne).2 fun hrefill => ?_⟩
  rw [Ctrl.Refills, microStep_pc, hnext, microStep_role, hrole, hpending]
  exact hrefill

/-- A statement that is no start task. -/
theorem statement (h : LoopSafe p race s) {m : Micro} {rest : List Micro} (hm : s.ctrl.micro = m :: rest)
    (ht : ∀ ch, m ≠ .task ch) (hne : (microStep m rest s).ctrl.micro = rest) :
    LoopSafe p race (microStep m rest s) := by
  obtain ⟨hplay, hloop, hraced, -, hfaults⟩ := microStep_noTask m rest s ht
  have hnext := Ctrl.nextRole_cons hm hne (microStep_role m rest s)
  have hplan := h.plan
  rw [hm] at hplan
  obtain ⟨hfits, hkeeps, hplan⟩ := hplan
  have hdrv : ∀ d, m ≠ .drv d := by rintro d rfl; exact hfits
  have hhost : (microStep m rest s).wb.host = s.wb.host := by rw [microStep_wb]; split <;> rfl
  have htask : .task .A ∈ rest → .task .A ∈ s.ctrl.micro := fun hr => by rw [hm]; exact List.mem_cons_of_mem _ hr
  have hsetup := settingUp_statement hm ht hne
  have hspares : (Machine.microStep m rest s).ctrl.SparesA → s.ctrl.SparesA := by
    unfold Ctrl.SparesA
    rw [microStep_pc, hne, hnext]
    exact .imp_left htask
  have hplays : (Machine.microStep m rest s).playsA → s.playsA := by
    unfold State.playsA
    rw [hplay]
    exact id
  have hfenced := h.fenced
  rw [hm] at hfenced
  constructor
  case fenced =>
    rw [hne]
    by_cases hf : m = .fence
    · subst hf
      have hb := drained_of_fence hm hne
      rw [microStep_fence_passes rest hb, State.setMicro_wb, hb]
      exact hfenced
    · exact tasksFenced_mono (tasksFenced_tail hfenced hf)
  case plan => rw [hne, microStep_regs]; exact hplan
  case paired =>
    rw [microStep_pc, microStep_regs]
    exact fun hs hp => hkeeps (h.paired (fun hs' => hs (hsetup.2 hs')) hp)
  case pair =>
    intro ch idx ll lptr lcnt hq
    rw [hplay] at hq
    rw [microStep_regs, hloop, hraced]
    obtain ⟨hptr, hcnt, hll, hregs, hmode⟩ := h.pair ch idx ll lptr lcnt hq
    exact ⟨hptr, hcnt, hll, hkeeps hregs, hmode⟩
  case writes => rw [hne]; exact h.statement_writes hm ht hne
  case stopped => rw [hplay]; exact fun hs => h.stopped (hsetup.1 hs)
  case starts => rw [hne, microStep_pc, hnext]; exact fun hr => h.starts (htask hr)
  case spares => exact fun hs hp => h.spares (hspares hs) (hplays hp)
  case fresh =>
    rw [hne]
    intro hc
    have hfresh := h.fresh (hc.imp hplays htask)
    by_cases hclear : m = .clear (.seqEnd .A)
    · subst hclear
      exact .inl (Events.get_put_same s.eng.events (.seqEnd .A) false)
    · rw [hm, List.mem_cons] at hfresh
      rw [microStep_flag rest s hclear ht]
      exact hfresh.imp_right fun hr => hr.resolve_left (Ne.symm hclear)
  case params => rw [microStep_params]; exact h.params
  case configured => rw [(microStep_noDrv s m rest hdrv).2]; exact h.configured
  case feeds => rw [microStep_host]; exact h.feeds
  case drained => rw [hhost]; exact h.drained
  case race => rw [hfaults]; exact h.race
  case command => rw [microStep_pc]; exact h.command

/-- Every statement. -/
theorem microStep (h : LoopSafe p race s) {m : Micro} {rest : List Micro} (hm : s.ctrl.micro = m :: rest) :
    LoopSafe p race (microStep m rest s) := by
  rcases microStep_micro m rest s with hne | hwait
  · by_cases ht : ∃ ch, m = .task ch
    · obtain ⟨ch, rfl⟩ := ht
      exact h.task hm
    · exact h.statement hm (fun ch hc => ht ⟨ch, hc⟩) hne
  · rwa [hwait]

/-- A command that ends. -/
theorem ends (h : LoopSafe p race s) (hm : s.ctrl.micro = []) (e : ErrCode) : LoopSafe p race (s.endCommand e) := by
  obtain ⟨-, hwb⟩ := h.performed hm
  have hpending : (s.endCommand e).pending = [] := by simp [State.pending, hwb, entriesOf]
  exact { h with
    command := .inl rfl
    fenced := rfl
    plan := trivial
    paired := fun _ hp => absurd rfl hp
    writes := fun hne => absurd hpending hne
    stopped := fun hs => by simp [Ctrl.SettingUp] at hs
    starts := fun ht => by cases ht
    spares := fun hs => by simp [Ctrl.SparesA] at hs
    fresh := fun hc => by
      have hfresh := h.fresh (hc.imp_right fun ht => by cases ht)
      rwa [hm] at hfresh }

/-- A decision by which WRITE_LOOP goes on. -/
theorem takes (h : LoopSafe p race s) (hm : s.ctrl.micro = []) (c : Ctrl) (hi : c.pc.instr = some .writeLoop)
    (hfenced : tasksFenced false c.micro = true) (hplan : LoopPlan p s.eng.regs c.micro)
    (hpaired : ¬c.SettingUp → s.eng.regs.Paired p)
    (hwrites : entriesOf c.micro ≠ [] → .fence ∈ c.micro ∧ (c.SettingUp ∨ c.Refills p (entriesOf c.micro)))
    (hstopped : c.SettingUp → s.eng.play = .stopped)
    (hstarts : .task .A ∈ c.micro → (c.pc = .wlSetup3 ∧ c.nextRole = .A) ∨ (c.pc = .wlTest ∧ c.nextRole = .B))
    (hspares : c.SparesA → ¬s.playsA)
    (hfresh : s.playsA ∨ .task .A ∈ c.micro →
      s.eng.events.get (.seqEnd .A) = false ∨ .clear (.seqEnd .A) ∈ c.micro) :
    LoopSafe p race { s with ctrl := c } := by
  obtain ⟨-, hwb⟩ := h.performed hm
  have hpending : State.pending { s with ctrl := c } = entriesOf c.micro := by simp [State.pending, hwb]
  exact { h with
    command := .inr hi
    fenced := tasksFenced_mono hfenced
    plan := hplan
    paired := fun hs _ => hpaired hs
    writes := by rw [hpending]; exact hwrites
    stopped := hstopped
    starts := hstarts
    spares := hspares
    fresh := hfresh }

/-- Where CTRL has nothing to perform, A's flag is not set while A plays. -/
theorem flag (h : LoopSafe p race s) (hm : s.ctrl.micro = []) (hA : s.playsA) :
    s.eng.events.get (.seqEnd .A) = false := by
  have hfresh := h.fresh (.inl hA)
  rw [hm] at hfresh
  exact hfresh.resolve_right (by simp)

/-- A decision after the first start that takes up no buffered write and no start task. -/
theorem goes (h : LoopSafe p race s) (hm : s.ctrl.micro = []) (hs : ¬s.ctrl.SettingUp) (hp : s.ctrl.pc ≠ .idle)
    {pc : Pc} {l : List Micro} (hl : l = [] ∨ l = pull) (hi : pc.instr = some .writeLoop)
    (hnew : ¬(pc = .wlSetup ∨ pc = .wlSetup2 ∨ pc = .wlSetup3)) (hB : pc = .wlStep → s.ctrl.role = .B → ¬s.playsA)
    (hA : pc = .wlTest ∨ pc = .wlItem → s.ctrl.role = .A → ¬s.playsA) : LoopSafe p race (s.goto pc l) := by
  have ht : .task .A ∉ l := by rcases hl with rfl | rfl <;> simp [pull]
  have hn : (s.goto pc l).ctrl.nextRole = s.ctrl.role := by rcases hl with rfl | rfl <;> rfl
  refine h.takes hm _ hi ?_ ?_ (fun _ => h.paired hs hp) (fun hne => ?_) (fun hsetup => ?_) (fun h => absurd h ht)
    (fun hspares => ?_) (fun hc => .inl (h.flag hm (hc.resolve_right ht)))
  · rcases hl with rfl | rfl <;> rfl
  · rcases hl with rfl | rfl
    · trivial
    · exact loopPlan_pull _ _
  · rcases hl with rfl | rfl <;> exact absurd rfl hne
  · rcases hsetup with hpc | hpc | ⟨-, hstart⟩
    · exact absurd (.inl hpc) hnew
    · exact absurd (.inr (.inl hpc)) hnew
    · exact absurd hstart ht
  · rcases hspares with hstart | ⟨hpc | hpc, hrole⟩ | ⟨hpc, hrole⟩
    · exact absurd hstart ht
    · exact absurd (.inr (.inr hpc)) hnew
    · exact hB hpc (hn.symm.trans hrole)
    · exact hA hpc (hn.symm.trans hrole)

/-- WL_SETUP's decision on it0. -/
theorem decides_first (h : LoopSafe p race s) (hm : s.ctrl.micro = []) (hp : s.ctrl.pc = .wlSetup) :
    LoopSafe p race (writeLoopFirst s) := by
  have hstop := h.stopped (.inl hp)
  have hA : ¬s.playsA := fun ⟨_, _, _, _, hq⟩ => by cases hstop.symm.trans hq
  cases hitem : s.ctrl.item with
  | endSeq => rw [writeLoopFirst_end hitem]; exact h.ends hm .ok
  | color c =>
    have ht : .task .A ∉ refill s.params .A (.color c) ++ pull := by
      simp [task_not_mem_refill, pull]
    rw [writeLoopFirst_color hitem]
    exact h.takes hm _ rfl (tasksFenced_refill _ _ _ rfl) ((loopPlan_pull _ _).refills rfl _ _ _)
      (fun hs => absurd (.inr (.inl rfl)) hs) (fun _ => ⟨fence_mem_refill _ _ _ _, .inl (.inr (.inl rfl))⟩)
      (fun _ => hstop) (fun h => absurd h ht) (fun _ => hA) (fun hc => absurd hc (not_or.2 ⟨hA, ht⟩))

/-- WL_SETUP's decision on it1. -/
theorem decides_second (h : LoopSafe p race s) (hm : s.ctrl.micro = []) (hp : s.ctrl.pc = .wlSetup2) :
    LoopSafe p race (writeLoopSecond s) := by
  have hstop := h.stopped (.inr (.inl hp))
  have hA : ¬s.playsA := fun ⟨_, _, _, _, hq⟩ => by cases hstop.symm.trans hq
  obtain ⟨v, hv⟩ := s.ctrl.item.exists_fill
  have ht : .task .A ∈ refill s.params .B v ++ (pairWrites s.params ++ (startA ++ [Micro.setRole .A])) := by
    simp [startA]
  rw [writeLoopSecond_fill hv]
  refine h.takes hm _ rfl (tasksFenced_refill _ _ _ rfl) (.refills ?_ rfl _ _ _)
    (fun hs => absurd (.inr (.inr ⟨rfl, ht⟩)) hs)
    (fun _ => ⟨fence_mem_refill _ _ _ _, .inl (.inr (.inr ⟨rfl, ht⟩))⟩) (fun _ => hstop)
    (fun _ => .inl ⟨rfl, foldl_role_refill _ _ _ _ _⟩) (fun _ => hA) (fun _ => .inr ?_)
  · rw [h.params]; exact loopPlan_setup p _
  · simp [pairWrites, clearEvents]

/-- WL_STEP's waits: in A's role A has ended where its flag is set, in B's role A has ended before. -/
theorem decides_step (h : LoopSafe p race s) (hm : s.ctrl.micro = []) (hp : s.ctrl.pc = .wlStep) :
    LoopSafe p race (writeLoopStep s) := by
  have hs : ¬s.ctrl.SettingUp := by simp [Ctrl.SettingUp, hp]
  have hidle : s.ctrl.pc ≠ .idle := by simp [hp]
  have hn : s.ctrl.nextRole = s.ctrl.role := by rw [Ctrl.nextRole, hm]; rfl
  cases hrole : s.ctrl.role with
  | A =>
    cases hflag : s.eng.events.get (.seqEnd .A) with
    | false => simpa [writeLoopStep, hrole, hflag] using h
    | true =>
      rw [writeLoopStep_A hrole hflag]
      refine h.goes hm hs hidle (.inl rfl) rfl (by simp) (by simp) fun _ _ hA => ?_
      rw [h.flag hm hA] at hflag
      cases hflag
  | B =>
    cases hflag : s.eng.events.get .loopsDone with
    | false => simpa [writeLoopStep, hrole, hflag] using h
    | true =>
      rw [writeLoopStep_B hrole hflag]
      exact h.takes hm _ rfl rfl (loopPlan_restart (h.paired hs hidle)) (fun _ => h.paired hs hidle)
        (fun hne => absurd rfl hne) (fun hsetup => by simp [Ctrl.SettingUp] at hsetup) (fun _ => .inr ⟨rfl, hrole⟩)
        (fun _ => h.spares (.inr (.inl ⟨.inr hp, hn.trans hrole⟩))) (fun _ => .inr (by simp [clearEvents]))

/-- The termination test. -/
theorem decides_test (h : LoopSafe p race s) (hm : s.ctrl.micro = []) (hp : s.ctrl.pc = .wlTest) :
    LoopSafe p race (writeLoopTest s) := by
  have hs : ¬s.ctrl.SettingUp := by simp [Ctrl.SettingUp, hp]
  have hidle : s.ctrl.pc ≠ .idle := by simp [hp]
  have hn : s.ctrl.nextRole = s.ctrl.role := by rw [Ctrl.nextRole, hm]; rfl
  unfold writeLoopTest
  split
  · exact h.goes hm hs hidle (.inl rfl) rfl (by simp) (by simp) (by simp)
  · exact h.goes hm hs hidle (.inr rfl) rfl (by simp) (by simp) fun _ hrole =>
      h.spares (.inr (.inr ⟨.inl hp, hn.trans hrole⟩))

/-- WL_STEP's item: in A's role A does not play. -/
theorem decides_item (h : LoopSafe p race s) (hm : s.ctrl.micro = []) (hp : s.ctrl.pc = .wlItem) :
    LoopSafe p race (writeLoopItem s) := by
  have hs : ¬s.ctrl.SettingUp := by simp [Ctrl.SettingUp, hp]
  have hidle : s.ctrl.pc ≠ .idle := by simp [hp]
  have hn : s.ctrl.nextRole = s.ctrl.role := by rw [Ctrl.nextRole, hm]; rfl
  obtain ⟨v, hv⟩ := s.ctrl.item.exists_fill
  by_cases he : v.isIdle = false → s.ctrl.ended = false
  · have ht : .task .A ∉ refill s.params s.ctrl.role v ++ [Micro.setRole s.ctrl.role.other] := by
      simp [task_not_mem_refill]
    have hplan : LoopPlan p s.eng.regs [Micro.setRole s.ctrl.role.other] := ⟨rfl, id, trivial⟩
    rw [writeLoopItem_fill hv he]
    refine h.takes hm _ rfl (tasksFenced_refill _ _ _ rfl) (hplan.refills rfl _ _ _) (fun _ => h.paired hs hidle)
      (fun _ => ⟨fence_mem_refill _ _ _ _, .inr (Ctrl.refills_begun rfl (by rw [h.params]))⟩)
      (fun hsetup => by simp [Ctrl.SettingUp] at hsetup) (fun h => absurd h ht) (fun hspares hA => ?_)
      (fun hc => .inl (h.flag hm (hc.resolve_right ht)))
    rcases hspares with hstart | ⟨-, hB⟩ | ⟨hpc, -⟩
    · exact ht hstart
    · have hother : Channel.B = s.ctrl.role.other := hB.symm.trans (Ctrl.nextRole_refill rfl)
      have hrole : s.ctrl.role = .A := by rw [← Channel.other_other s.ctrl.role, ← hother]; rfl
      exact h.spares (.inr (.inr ⟨.inr hp, hn.trans hrole⟩)) hA
    · simp at hpc
  · obtain ⟨hcolour, hended⟩ := Classical.not_imp.1 he
    cases v with
    | idle => cases hcolour
    | color c => rw [writeLoopItem_malformed hv (by simpa using hended)]; exact h.ends hm _

/-- Every decision of WRITE_LOOP. -/
theorem decision (h : LoopSafe p race s) (hp : s.ctrl.pc ≠ .idle) (hm : s.ctrl.micro = []) :
    LoopSafe p race (decision s) := by
  have hcommand := h.command.resolve_left hp
  cases hpc : s.ctrl.pc with
  | wlSetup => rw [decision_wlSetup hpc]; exact h.decides_first hm hpc
  | wlSetup2 => rw [decision_wlSetup2 hpc]; exact h.decides_second hm hpc
  | wlSetup3 =>
    have hs : ¬s.ctrl.SettingUp := by simp [Ctrl.SettingUp, hpc, hm]
    have hn : s.ctrl.nextRole = s.ctrl.role := by rw [Ctrl.nextRole, hm]; rfl
    rw [decision_wlSetup3 hpc]
    exact h.goes hm hs hp (.inl rfl) rfl (by simp)
      (fun _ hrole => h.spares (.inr (.inl ⟨.inl hpc, hn.trans hrole⟩))) (by simp)
  | wlStep => rw [decision_wlStep hpc]; exact h.decides_step hm hpc
  | wlTest => rw [decision_wlTest hpc]; exact h.decides_test hm hpc
  | wlItem => rw [decision_wlItem hpc]; exact h.decides_item hm hpc
  | wlFinal =>
    rw [decision_wlFinal hpc, writeLoopFinal]
    split
    · exact h.ends hm .ok
    · exact h
  | _ => rw [hpc] at hcommand; cases hcommand

/-- Every turn, under the refill deadline. -/
theorem runTurn (h : LoopSafe p race s) (hwf : p.wf = true) {w : Turn} (hr : runTurn w s = .next t)
    (hs : tRefillB s) (ht : tRefillB t) : LoopSafe p race t := by
  cases w with
  | host => exact h.fed (hostTurn_feeds h.feeds hr)
  | ctrl =>
    by_cases hp : s.ctrl.pc = .idle
    · rw [Machine.runTurn, ctrlTurn_idle hp] at hr
      cases hr
      exact h
    · rw [Machine.runTurn, ctrlTurn_running hp] at hr
      cases hr
      cases hm : s.ctrl.micro with
      | nil => rw [advance_decides hm]; exact h.decision hp hm
      | cons m rest => rw [advance_statement hm]; exact h.microStep hm
  | eng =>
    cases hplay : s.eng.play with
    | stopped =>
      rw [Machine.runTurn, engTurn_stopped hplay] at hr
      cases hr
      exact h
    | playing ch idx ll lptr lcnt =>
      rw [Machine.runTurn, engTurn_playing hplay] at hr
      cases hr
      exact emitWord (s := s.countDraws 2) { h with } _ ht
  | drain w =>
    cases hr
    exact h.drain hwf hs w

end LoopSafe

/-- What every turn keeps between states of a run that meet a premise, the run keeps. -/
theorem runTurns_keeps_under {P Q : State → Prop}
    (hturn : ∀ w s t, P s → Q s → Q t → runTurn w s = .next t → P t) {ts : List Turn} {s t : State} (h : P s)
    (hQ : ∀ k u, runTurns (ts.take k) s = .next u → Q u) (hr : runTurns ts s = .next t) : P t := by
  induction ts generalizing s with
  | nil => cases hr; exact h
  | cons w ts ih =>
    have hr' := hr
    simp only [runTurns] at hr
    split at hr
    · rename_i u hu
      have htail : ∀ k v, runTurns (ts.take k) u = .next v → Q v := fun k v hv =>
        hQ (k + 1) v ((runTurns_cons_next hu).trans hv)
      exact ih (hturn w s u h (hQ 0 s rfl) (htail 0 u rfl) hu) htail hr
    · cases hr
    · cases hr

/-- Settles O49: what WRITE_LOOP writes stays apart from what plays, at every turn that meets the refill deadline. -/
theorem writeLoopRacesOnlyPastDeadline : Obligations.WriteLoopRacesOnlyPastDeadline := by
  intro s t u ts hready hfeeds ht hr hdeadline
  obtain ⟨hwf, hd, hp, hstop, hwb, -⟩ := hready
  rw [exec_idle_configured rfl hp hd (by simp)] at ht
  cases ht
  have hstart : LoopSafe s.params s.faults.dmaRace (startOf .writeLoop s) :=
    { params := rfl
      configured := hd
      feeds := hfeeds
      drained := congrArg WriteBuffers.host hwb
      race := rfl
      command := .inr rfl
      fenced := tasksFenced_mono rfl
      plan := loopPlan_pull _ _
      paired := fun hs => absurd (.inl rfl) hs
      pair := fun _ _ _ _ _ hq => by cases hstop.symm.trans hq
      writes := fun hne => absurd (congrArg (WriteBuffers.ctrl · ++ []) hwb) hne
      stopped := fun _ => hstop
      starts := fun ht => by simp [startOf, firstState, pull] at ht
      spares := fun _ ⟨_, _, _, _, hq⟩ => by cases hstop.symm.trans hq
      fresh := fun hc => hc.elim (fun ⟨_, _, _, _, hq⟩ => by cases hstop.symm.trans hq)
        fun ht => by simp [startOf, firstState, pull] at ht }
  exact (runTurns_keeps_under (fun _ _ _ h hs ht hr => h.runTurn hwf hr hs ht) hstart hdeadline hr).race

end Sys2Proof.Machine

/-! PROOFS. 45_send_buf.md: SEND_BUF's checks by the first that fails; and SEND_BUF frame by frame, its scratch buffer
filled by one round of the loop after another, then its one transfer. -/

namespace Sys2Proof.Machine

/-! ### SB_CHECK (rules R195 and R197) -/

theorem requiredLength_eq (n : Nat) : requiredLength n = 24 * n + 40 := rfl

/-- SEND_BUF at the test of SB_FILL's loop: its write pointer, the frames left, the item pulled last, memory, and what
HOST has to do. -/
def State.filling (s : State) (wptr : Word) (nLeft : Nat) (item : Item) (m : Memory) (ops : List HostOp) : State :=
  { s with
    ctrl := { s.ctrl with pc := .sbLoop, micro := [], wptr := wptr, nLeft := nLeft, item := item }
    mem := m
    host := { s.host with ops := ops } }

section

variable {s : State}

theorem sendBufCheck_bufferTooSmall (h : s.ctrl.ops.cnt.toNat < 24 * s.ctrl.ops.n.toNat + 40) :
    sendBufCheck s = s.endCommand .bufferTooSmall := if_pos h

/-- Where the capacity suffices, no colours end the command with OK. -/
theorem sendBufCheck_noColours (hc : 40 ≤ s.ctrl.ops.cnt.toNat) (hn : s.ctrl.ops.n = 0) :
    sendBufCheck s = s.endCommand .ok := by
  have hcap : ¬ s.ctrl.ops.cnt.toNat < requiredLength s.ctrl.ops.n.toNat := by simp [hn, requiredLength_eq, hc]
  exact (if_neg hcap).trans (if_pos hn)

variable (hcap : 24 * s.ctrl.ops.n.toNat + 40 ≤ s.ctrl.ops.cnt.toNat) (hn : s.ctrl.ops.n ≠ 0)
include hcap hn

theorem sendBufCheck_fails {c : ErrCode}
    (hc : preflight s.params s.ctrl.ops.addr.toNat (24 * s.ctrl.ops.n.toNat + 40) = some c) :
    sendBufCheck s = s.endCommand c := by
  simp only [sendBufCheck, requiredLength_eq, if_neg (Nat.not_lt.2 hcap), if_neg hn, hc, State.raise]

variable (hc : preflight s.params s.ctrl.ops.addr.toNat (24 * s.ctrl.ops.n.toNat + 40) = none)
include hc

theorem sendBufCheck_refused
    (ho : overlapsBuffers s.params s.ctrl.ops.addr.toNat (2 * (24 * s.ctrl.ops.n.toNat + 40)) = true) :
    sendBufCheck s = s.endRefused := by
  simp only [sendBufCheck, requiredLength_eq, if_neg (Nat.not_lt.2 hcap), if_neg hn, hc]
  exact if_pos ho

theorem sendBufCheck_passes
    (ho : overlapsBuffers s.params s.ctrl.ops.addr.toNat (2 * (24 * s.ctrl.ops.n.toNat + 40)) = false) :
    sendBufCheck s = s.filling s.ctrl.ops.addr s.ctrl.ops.n.toNat s.ctrl.item s.mem s.host.ops := by
  simp only [sendBufCheck, requiredLength_eq, if_neg (Nat.not_lt.2 hcap), if_neg hn, hc]
  exact if_neg (by simp [ho])

end

/-- CTRL's first turn of SEND_BUF is SB_CHECK. -/
theorem sendBuf_checks (s : State) :
    runAgent .ctrl 1 (startOf .sendBuf s) = .next (sendBufCheck (startOf .sendBuf s)) :=
  runAgent_ctrl_decides (by simp [startOf, firstState]) rfl

/-- Settles O44: SB_CHECK by the check that decides. -/
theorem sendBufChecks : Obligations.SendBufChecks := by
  refine fun s hp hd => ⟨_, exec_idle_configured rfl hp hd (by simp), fun hc => ?_, fun hc hn => ?_, fun hc hn => ?_⟩
  · rw [sendBuf_checks, sendBufCheck_bufferTooSmall hc]; rfl
  · rw [sendBuf_checks, sendBufCheck_noColours hc hn]; rfl
  · refine ⟨fun c hfail => ?_, fun hpass ho => ⟨_, sendBuf_checks s, ?_⟩⟩
    · rw [sendBuf_checks, sendBufCheck_fails (s := startOf .sendBuf s) hc hn hfail]; rfl
    · rw [sendBufCheck_refused (s := startOf .sendBuf s) hc hn hpass ho]
      exact s.refusedEnd_start _ _

/-! ### SEND_BUF's decisions past its checks (rule R195) -/

section

variable {s : State}

theorem decision_sbLoop (h : s.ctrl.pc = .sbLoop) : decision s = sendBufLoop s := by rw [decision, h]
theorem decision_sbTail (h : s.ctrl.pc = .sbTail) : decision s = sendBufStart s := by rw [decision, h]
theorem decision_sbGo (h : s.ctrl.pc = .sbGo) : decision s = s.goto .sbWait [] := by rw [decision, h]
theorem decision_sbWait (h : s.ctrl.pc = .sbWait) : decision s = sendBufWait s := by rw [decision, h]

theorem sendBufLoop_pulls (h : 0 < s.ctrl.nLeft) : sendBufLoop s = s.goto .sbFill pull := if_pos h

theorem sendBufLoop_ends (h : s.ctrl.nLeft = 0) :
    sendBufLoop s = s.goto .sbTail (fillIdle s.ctrl.wptr.toNat idleTail) := if_neg (by omega)

theorem sendBufItem_color {c : Colour} (h : s.ctrl.item = .color c) :
    sendBufItem s = s.goto .sbLoop (writeSamples s.ctrl.wptr.toNat (frame c) ++ [.nextFrame]) := by
  simp [sendBufItem, h]

theorem sendBufWait_passes (h : s.eng.events.get (.seqEnd .A) = true) : sendBufWait s = s.endCommand .ok := if_pos h

end

/-- A block that has sent samples from an address by channel A, out of loop mode (rules R121 and R133). -/
def State.transferred (s : State) (addr : Word) (l : List Sample) : State :=
  { s with
    wire := s.wire ++ syms l ++ [.gap]
    eng := { s.eng.armed .A addr l.length with
      events := ((s.eng.events.put (.seqEnd .A) false).put (.seqStarted .A) true).put (.seqEnd .A) true
      play := .stopped, loopMode := false, raced := false, tick := 0 }
    sched := { s.sched with draws := s.sched.draws + 2 * l.length } }

theorem State.transferred_seqEnd (s : State) (addr : Word) (l : List Sample) :
    (s.transferred addr l).eng.events.get (.seqEnd .A) = true := by
  simp [transferred]

/-! ### The scratch buffer (rule R196) -/

theorem sampleEntries_append (a : Nat) (k l : List Sample) :
    sampleEntries a (k ++ l) = sampleEntries a k ++ sampleEntries (a + 2 * k.length) l := by
  induction k generalizing a with
  | nil => rfl
  | cons v k ih =>
    have haddr : a + 2 * (v :: k).length = a + 2 + 2 * k.length := by rw [List.length_cons]; omega
    rw [haddr, List.cons_append, sampleEntries, ih]
    rfl

/-- Samples stored right after others are stored with them. -/
theorem Memory.storeSamples_append (m : Memory) (a : Nat) (k l : List Sample) :
    m.storeSamples a (k ++ l) = (m.storeSamples a k).storeSamples (a + 2 * k.length) l := by
  simp only [storeSamples, sampleEntries_append, List.foldl_append]

/-- The samples SEND_BUF sends: the colours' frames and the idle tail. -/
def scratchSamples (cs : List Colour) : List Sample := cs.flatMap frame ++ idleFrame 40

theorem length_flatMap_frame (cs : List Colour) : (cs.flatMap frame).length = 24 * cs.length := by
  simp [List.length_flatMap, frame_length, Nat.mul_comm]

theorem scratchSamples_length (cs : List Colour) : (scratchSamples cs).length = 24 * cs.length + 40 := by
  rw [scratchSamples, List.length_append, length_flatMap_frame, idleFrame_length]

/-- What SEND_BUF sends, with the gap after it (rule R198). -/
theorem syms_scratchSamples (cs : List Colour) : syms (scratchSamples cs) ++ [.gap] = sendTrace cs := by
  simp [syms, scratchSamples, sendTrace, List.map_flatMap]

section

variable {s : State} {w : Word} {it : Item} {m : Memory} {ops : List HostOp}

theorem microStep_nextFrame (n : Nat) :
    microStep .nextFrame [] ((s.filling w (n + 1) it m ops).goto .sbLoop [.nextFrame]) =
      s.filling (w + 48) n it m ops := rfl

/-- The pull of a colour, whose frame is then to be stored at the write pointer. -/
theorem reaches_framePulled (c : Colour) (n : Nat) (hpull : s.iface.pullReq = false) : Reaches
    (s.filling w (n + 1) it m (HostProgram.pollPull :: .w32 0x1C (colourWord c) :: ops))
    ((s.filling w (n + 1) (.color c) m ops).goto .sbLoop (writeSamples w.toNat (frame c) ++ [.nextFrame])) := by
  have htest := reaches_decision
    (s := s.filling w (n + 1) it m (HostProgram.pollPull :: .w32 0x1C (colourWord c) :: ops))
    (by simp [State.filling]) rfl
  rw [decision_sbLoop rfl, sendBufLoop_pulls (Nat.succ_pos n)] at htest
  have hitem := pull_decides (w := colourWord c) (ops := ops)
    (s := (s.filling w (n + 1) it m (HostProgram.pollPull :: .w32 0x1C (colourWord c) :: ops)).goto .sbFill pull)
    (by simp) rfl rfl hpull
  rw [itemOf_colourWord, decision_sbFill rfl, sendBufItem_color (c := c) rfl] at hitem
  exact htest.trans ⟨_, hitem⟩

/-- With its transfer performed and SEQEND[0] set, SEND_BUF ends. -/
theorem reaches_sbWaitEnds (hp : s.ctrl.pc = .sbGo) (hm : s.ctrl.micro = [])
    (h : s.eng.events.get (.seqEnd .A) = true) : Reaches s (s.endCommand .ok) := by
  have hgo := reaches_decision (by simp [hp]) hm
  rw [decision_sbGo hp] at hgo
  have hwait := reaches_decision (s := s.goto .sbWait []) (by simp) rfl
  rw [decision_sbWait rfl, sendBufWait_passes (s := s.goto .sbWait []) h] at hwait
  exact hgo.trans hwait

variable (hstop : s.eng.play = .stopped) (hb : s.wb = { host := [], ctrl := [] })
include hstop hb

/-- With ENG stopped SB_FILL's samples are buffered and stored, whatever is still to perform. -/
theorem reaches_fillingStored {pc : Pc} (hp : pc ≠ .idle) (n a : Nat) (l : List Sample) (rest : List Micro) : Reaches
    ((s.filling w n it m ops).goto pc (writeSamples a l ++ rest))
    ((s.filling w n it (m.storeSamples a l) ops).goto pc rest) := by
  have hstore := reaches_stored (s := (s.filling w n it m ops).goto pc (writeSamples a l ++ rest)) hp hb rfl
    fun e _ => by rw [State.goto_eng, State.filling, hstop]; rfl
  simpa only [State.filling, State.goto] using hstore

/-- One round of SB_FILL's loop: a colour pulled, and its frame stored at the write pointer. -/
theorem reaches_frameFilled (c : Colour) (n : Nat) (hpull : s.iface.pullReq = false) : Reaches
    (s.filling w (n + 1) it m (HostProgram.pollPull :: .w32 0x1C (colourWord c) :: ops))
    (s.filling (w + 48) n (.color c) (m.storeSamples w.toNat (frame c)) ops) := by
  have hstore := reaches_fillingStored (w := w) (it := .color c) (m := m) (ops := ops) hstop hb (pc := .sbLoop)
    (by simp) (n + 1) w.toNat (frame c) [.nextFrame]
  have hnext := reaches_statement (m := .nextFrame) (rest := [])
    (s := (s.filling w (n + 1) (.color c) (m.storeSamples w.toNat (frame c)) ops).goto .sbLoop [.nextFrame])
    (by simp) rfl
  rw [microStep_nextFrame] at hnext
  exact (reaches_framePulled c n hpull).trans (hstore.trans hnext)

/-- SB_FILL's loop over all the colours HOST answers: their frames stored one after the other. -/
theorem reaches_framesFilled (cs : List Colour) (hpull : s.iface.pullReq = false)
    (hfit : w.toNat + 48 * cs.length < 2 ^ 32) : ∃ w' it', w'.toNat = w.toNat + 48 * cs.length ∧
      Reaches (s.filling w cs.length it m (pushColours cs ++ ops))
        (s.filling w' 0 it' (m.storeSamples w.toNat (cs.flatMap frame)) ops) := by
  induction cs generalizing w it m with
  | nil => exact ⟨w, it, rfl, .refl _⟩
  | cons c cs ih =>
    rw [List.length_cons] at hfit ⊢
    have hnext : (w + 48).toNat = w.toNat + 48 := by bv_omega
    have hround := reaches_frameFilled (w := w) (it := it) (m := m) (ops := pushColours cs ++ ops) hstop hb c
      cs.length hpull
    obtain ⟨w', it', hw', hrest⟩ :=
      ih (w := w + 48) (it := .color c) (m := m.storeSamples w.toNat (frame c)) (by omega)
    have hmem : m.storeSamples w.toNat ((c :: cs).flatMap frame) =
        (m.storeSamples w.toNat (frame c)).storeSamples (w + 48).toNat (cs.flatMap frame) := by
      rw [List.flatMap_cons, Memory.storeSamples_append, frame_length, hnext]
    rw [hmem]
    exact ⟨w', it', by omega, hround.trans hrest⟩

/-- The end of SB_FILL: the idle samples stored at the write pointer. -/
theorem reaches_tailFilled : Reaches (s.filling w 0 it m ops)
    ((s.filling w 0 it (m.storeSamples w.toNat (idleFrame 40)) ops).goto .sbTail []) := by
  have htest := reaches_decision (s := s.filling w 0 it m ops) (by simp [State.filling]) rfl
  rw [decision_sbLoop rfl, sendBufLoop_ends rfl, fillIdle, ← List.append_nil (writeSamples _ _)] at htest
  exact htest.trans (reaches_fillingStored hstop hb (by simp) _ _ _ _)

/-- SB_FILL from its first pull on: the scratch buffer holds what is to be sent. -/
theorem reaches_scratchFilled (cs : List Colour) (hpull : s.iface.pullReq = false)
    (hfit : w.toNat + 48 * cs.length < 2 ^ 32) : ∃ w' it',
      Reaches (s.filling w cs.length it m (pushColours cs ++ ops))
        ((s.filling w' 0 it' (m.storeSamples w.toNat (scratchSamples cs)) ops).goto .sbTail []) := by
  obtain ⟨w', it', hw', hframes⟩ := reaches_framesFilled hstop hb (it := it) (m := m) (ops := ops) cs hpull hfit
  have hmem : m.storeSamples w.toNat (scratchSamples cs) =
      (m.storeSamples w.toNat (cs.flatMap frame)).storeSamples w'.toNat (idleFrame 40) := by
    have hend : w.toNat + 2 * (cs.flatMap frame).length = w'.toNat := by rw [length_flatMap_frame]; omega
    rw [scratchSamples, Memory.storeSamples_append, hend]
  rw [hmem]
  exact ⟨w', it', hframes.trans (reaches_tailFilled hstop hb)⟩

/-- SB_GO and SB_WAIT: the one transfer, played to its end, and the turn that ends SEND_BUF. -/
theorem reaches_transferred {l : List Sample} (hp : s.ctrl.pc = .sbTail) (hm : s.ctrl.micro = [])
    (hd : s.drv = .configured) (hl : l.length = 24 * s.ctrl.ops.n.toNat + 40) (hlen : l.length < 2 ^ 15)
    (hmem : Memory.holds s.mem s.ctrl.ops.addr.toNat l) :
    Reaches s ((s.transferred s.ctrl.ops.addr l).endCommand .ok) := by
  have hgo := reaches_decision (by simp [hp]) hm
  rw [decision_sbTail hp] at hgo
  have hplay : Reaches (sendBufStart s) ((s.transferred s.ctrl.ops.addr l).goto .sbGo []) :=
    xferStart_plays (by simp [sendBufStart]) (by rw [hl, List.append_nil]; rfl) rfl ⟨by omega, hlen⟩ hd hstop hb hmem
  exact hgo.trans (hplay.trans (reaches_sbWaitEnds rfl rfl (s.transferred_seqEnd _ _)))

end

/-- With admissible parameters a region that passes the pre-flight check is no longer than a descriptor's CNT can say,
and ends within the address space. -/
theorem bounds_of_preflight {p : Params} {addr len : Nat} (hwf : p.wf = true) (h : preflight p addr len = none) :
    len < 2 ^ 15 ∧ addr + 2 * len ≤ 2 ^ 32 := by
  obtain ⟨hcnt, -⟩ := cnt_of_preflight hwf h
  obtain ⟨-, -, hw⟩ := preflight_passes_iff.1 h
  obtain ⟨-, -, hend⟩ := inWindow_iff.1 hw
  have hram : p.ramEnd ≤ 2 ^ 32 := by
    simp only [Params.wf, Bool.and_eq_true, decide_eq_true_eq] at hwf
    omega
  exact ⟨hcnt ▸ (BitVec.ofNat 15 len).isLt, hend.trans hram⟩

/-- SEND_BUF started with its checks met and its scratch buffer filled. -/
theorem reaches_sendBufFilled {s : State} {cs : List Colour} {rest : List HostOp} (hready : s.Ready) (hne : cs ≠ [])
    (hn : s.iface.arg1.toNat = cs.length) (hcap : 24 * cs.length + 40 ≤ s.iface.arg3.toNat)
    (hcheck : preflight s.params s.iface.arg2.toNat (24 * cs.length + 40) = none)
    (ho : overlapsBuffers s.params s.iface.arg2.toNat (2 * (24 * cs.length + 40)) = false)
    (hops : s.host.ops = pushColours cs ++ rest) : ∃ w it, Reaches (startOf .sendBuf s)
      (((startOf .sendBuf s).filling w 0 it (s.mem.storeSamples s.iface.arg2.toNat (scratchSamples cs)) rest).goto
        .sbTail []) := by
  obtain ⟨hwf, -, -, hstop, hwb, hpull⟩ := hready
  obtain ⟨-, hend⟩ := bounds_of_preflight hwf hcheck
  have harg1 : s.iface.arg1 ≠ 0 := by
    intro h0
    rw [h0] at hn
    exact hne (List.length_eq_zero_iff.1 hn.symm)
  rw [← hn] at hcap hcheck ho
  have hchecks := sendBufCheck_passes (s := startOf .sendBuf s) hcap harg1 hcheck ho
  have hstart : Reaches (startOf .sendBuf s)
      ((startOf .sendBuf s).filling s.iface.arg2 cs.length s.ctrl.item s.mem (pushColours cs ++ rest)) := by
    rw [← hn, ← hops]
    exact .agent ((sendBuf_checks s).trans (congrArg _ hchecks))
  obtain ⟨w, it, hfill⟩ := reaches_scratchFilled (s := startOf .sendBuf s) (w := s.iface.arg2) (it := s.ctrl.item)
    (m := s.mem) (ops := rest) hstop hwb cs hpull (by omega)
  exact ⟨w, it, hstart.trans hfill⟩

/-- Settles O45: the scratch buffer filled, and the transfer to its end. -/
theorem sendBufRuns : Obligations.SendBufRuns := by
  intro s cs rest hready hne hn hcap hcheck ho hops
  obtain ⟨w, it, hfill⟩ := reaches_sendBufFilled hready hne hn hcap hcheck ho hops
  obtain ⟨hwf, hd, hp, hstop, hwb, -⟩ := hready
  obtain ⟨hlen, -⟩ := bounds_of_preflight hwf hcheck
  have hsend := reaches_transferred (l := scratchSamples cs)
    (s := ((startOf .sendBuf s).filling w 0 it (s.mem.storeSamples s.iface.arg2.toNat (scratchSamples cs)) rest).goto
      .sbTail []) hstop hwb rfl rfl hd ((scratchSamples_length cs).trans (by rw [← hn]; rfl))
    (by rwa [scratchSamples_length]) (Memory.holds_storeSamples _ _ _)
  refine ⟨_, _, exec_idle_configured rfl hp hd (by simp), hfill.trans hsend, rfl, rfl, rfl, rfl,
    State.transferred_seqEnd _ _ _, rfl, rfl, Memory.holds_storeSamples _ _ _, fun a ha => ?_, ?_⟩
  · exact Memory.read_storeSamples_other (by rwa [scratchSamples_length])
  · exact (List.append_assoc _ _ _).trans (congrArg _ (syms_scratchSamples cs))

end Sys2Proof.Machine

/-! PROOFS. 70_reset_and_hazards.md: the hangs, as waits no turn moves while ENG is stopped; and the completion flag of
A over the clear of a B-role step, as an invariant of every turn that meets T_CLEAR. -/

namespace Sys2Proof.Machine

/-! ### What a turn leaves of a running command and of a stopped ENG -/

/-- HOST's turn leaves a running command its state, its statements and its working registers but for the item pulled
(rules R28 and R29). -/
theorem hostTurn_running {s t : State} (hp : s.ctrl.pc ≠ .idle) (h : hostTurn s = .next t) :
    ∃ it, t.ctrl = { s.ctrl with item := it } := by
  cases hostTurn_effect h with
  | port rest off v write =>
    rcases writeIface_ctrl write with ⟨_, _, idle, _⟩ | ⟨hitem, _⟩
    · exact absurd idle hp
    · exact hitem
  | access side r => exact ⟨_, rfl⟩
  | store side r a bytes ram => exact ⟨_, rfl⟩

/-- A memory step reaches no stopped ENG (rule R74). -/
theorem State.drain_stopped {s : State} (h : s.eng.play = .stopped) (w : Writer) : (s.drain w).eng = s.eng := by
  obtain ⟨-, hdrain, -⟩ := raceConditions
  obtain ⟨t, ht, -, heng⟩ := hdrain s w h
  cases ht
  exact heng

/-! ### Waits that nothing ends (rules R124, R178 and R234) -/

/-- The flag a state of CTRL waits for, with no time limit (rules R124, R178 and R195). -/
def Ctrl.awaits (c : Ctrl) : Option Event :=
  match c.pc with
  | .swPoll ch => some (.seqEnd ch)
  | .sbWait => some (.seqEnd .A)
  | .wlStep => match c.role with
    | .A => some (.seqEnd .A)
    | .B => some .loopsDone
  | .wlFinal => some .loopsDone
  | _ => none

theorem Ctrl.running_of_awaits {c : Ctrl} {e : Event} (h : c.awaits = some e) : c.pc ≠ .idle := by
  intro hp
  simp [awaits, hp] at h

/-- While the flag is 0 the decision is to wait. -/
theorem decision_awaits {s : State} {e : Event} (h : s.ctrl.awaits = some e) (he : s.eng.events.get e = false) :
    decision s = s := by
  unfold Ctrl.awaits at h
  split at h
  · rename_i ch hp
    cases h
    rw [decision, hp]
    exact seqWaitPoll_waits he
  · rename_i hp
    cases h
    simp [decision_sbWait hp, sendBufWait, he]
  · rename_i hp
    rw [decision_wlStep hp]
    split at h <;> cases h
    · rename_i hrole
      simp [writeLoopStep, hrole, he]
    · rename_i hrole
      simp [writeLoopStep, hrole, he]
  · rename_i hp
    cases h
    simp [decision_wlFinal hp, writeLoopFinal, he]
  · cases h

/-- CTRL waits for a flag that is 0, and ENG, the one agent that sets flags, is stopped. -/
structure Hangs (s : State) : Prop where
  performed : s.ctrl.micro = []
  stopped : s.eng.play = .stopped
  waits : ∃ e, s.ctrl.awaits = some e ∧ s.eng.events.get e = false

/-- CTRL, but for its item, ENG and the wire are as they were. -/
structure Unmoved (s t : State) : Prop where
  ctrl : ∃ it, t.ctrl = { s.ctrl with item := it }
  eng : t.eng = s.eng
  wire : t.wire = s.wire

theorem Unmoved.refl (s : State) : Unmoved s s := ⟨⟨_, rfl⟩, rfl, rfl⟩

theorem Unmoved.trans {s t u : State} (h : Unmoved s t) (k : Unmoved t u) : Unmoved s u := by
  obtain ⟨⟨_, hctrl⟩, heng, hwire⟩ := h
  obtain ⟨⟨it, kctrl⟩, keng, kwire⟩ := k
  exact ⟨⟨it, by rw [kctrl, hctrl]⟩, keng.trans heng, kwire.trans hwire⟩

namespace Hangs

variable {s t : State}

theorem running (h : Hangs s) : s.ctrl.pc ≠ .idle := by
  obtain ⟨e, he, -⟩ := h.waits
  exact Ctrl.running_of_awaits he

theorem of_unmoved (h : Hangs s) (hu : Unmoved s t) : Hangs t := by
  obtain ⟨performed, stopped, waits⟩ := h
  obtain ⟨⟨it, hctrl⟩, heng, -⟩ := hu
  exact ⟨by rw [hctrl]; exact performed, by rw [heng]; exact stopped, by rw [hctrl, heng]; exact waits⟩

/-- No agent's turn ends a hang. -/
theorem runTurn (h : Hangs s) {w : Turn} (hr : runTurn w s = .next t) : Unmoved s t := by
  cases w with
  | host =>
    refine ⟨hostTurn_running h.running hr, ?_, ?_⟩ <;> rw [(hostTurn_cases hr).frame]
  | ctrl =>
    obtain ⟨e, hawaits, he⟩ := h.waits
    rw [Machine.runTurn, ctrlTurn_running h.running, advance_decides h.performed, decision_awaits hawaits he] at hr
    cases hr
    exact .refl s
  | eng =>
    rw [Machine.runTurn, engTurn_stopped h.stopped] at hr
    cases hr
    exact .refl s
  | drain w =>
    cases hr
    exact ⟨⟨_, State.drain_ctrl s w⟩, State.drain_stopped h.stopped w, State.drain_wire s w⟩

/-- No schedule ends a hang. -/
theorem runTurns (h : Hangs s) {ts : List Turn} (hr : runTurns ts s = .next t) : Unmoved s t :=
  runTurns_keeps (P := Unmoved s) (fun _ _ _ hu hr => hu.trans ((h.of_unmoved hu).runTurn hr)) (.refl s) hr

end Hangs

/-! ### No lost flag under T_CLEAR (rules R177, R181 and R234) -/

/-- The end of A is not lost: it is still to come, or its flag tells of it. -/
def State.keepsEndOfA (s : State) : Prop := s.playsA ∨ s.eng.events.get (.seqEnd .A) = true

theorem State.endSeq_setsFlag (s : State) (n : Channel) (ll : Nat) :
    (s.endSeq n ll).eng.events.get (.seqEnd n) = true := by
  have hput : (s.putEvent (.seqEnd n) true).endSeq n ll = s.endSeq n ll := by
    simp [State.endSeq, State.putEvent]
  rw [← hput]
  exact State.endSeq_keepsEvent n ll (Events.get_put_same _ _ _)

/-- ENG's step does not lose the end of A. -/
theorem State.keepsEndOfA.emitWord {s : State} (h : s.keepsEndOfA) (w : Sample) : (s.emitWord w).keepsEndOfA := by
  rcases h with ⟨idx, ll, lptr, lcnt, hplay⟩ | hflag
  · by_cases hlast : idx + 1 = lcnt
    · rw [State.emitWord_last w hplay hlast]
      exact .inr (State.endSeq_setsFlag _ .A ll)
    · rw [State.emitWord_inside w hplay hlast]
      exact .inl ⟨_, _, _, _, rfl⟩
  · exact .inr (State.emitWord_keepsEvent w hflag)

/-- CTRL is in the clear of a B-role step, or has done it, and the end of A is not lost. -/
structure Clearing (s : State) : Prop where
  role : s.ctrl.role = .B
  left : s.ctrl.micro <:+ clearEvents
  kept : s.keepsEndOfA

namespace Clearing

variable {s t : State}

/-- A clear goes on to the next; under T_CLEAR A is playing meanwhile. -/
theorem statement (h : Clearing s) (hp : s.ctrl.pc = .wlTest) (hclear : tClear s) {m : Micro} {rest : List Micro}
    (hm : s.ctrl.micro = m :: rest) : Clearing (microStep m rest s) := by
  obtain ⟨role, left, -⟩ := h
  have htask : Micro.task .A ∉ s.ctrl.micro := fun ht => absurd (left.subset ht) (by decide)
  have hA : s.playsA := hclear role hp (by simp [hm]) htask
  rw [hm] at left
  obtain ⟨e, rfl⟩ : ∃ e, m = .clear e := by
    have hmem := left.subset List.mem_cons_self
    simp only [clearEvents, List.mem_cons, List.not_mem_nil, or_false] at hmem
    rcases hmem with rfl | rfl | rfl | rfl | rfl <;> exact ⟨_, rfl⟩
  exact ⟨role, (List.suffix_cons _ _).trans left, .inl hA⟩

/-- Every turn that stays in the step, under T_CLEAR. -/
theorem runTurn (h : Clearing s) (hp : s.ctrl.pc = .wlTest) (hclear : tClear s) (ht : t.ctrl.pc = .wlTest) {w : Turn}
    (hr : runTurn w s = .next t) : Clearing t := by
  have hidle : s.ctrl.pc ≠ .idle := by simp [hp]
  cases w with
  | host =>
    obtain ⟨it, hctrl⟩ := hostTurn_running hidle hr
    have heng : t.eng = s.eng := by rw [(hostTurn_cases hr).frame]
    obtain ⟨role, left, kept⟩ := h
    exact ⟨by rw [hctrl]; exact role, by rw [hctrl]; exact left,
      by rw [State.keepsEndOfA, State.playsA, heng]; exact kept⟩
  | ctrl =>
    rw [Machine.runTurn, ctrlTurn_running hidle] at hr
    cases hr
    cases hm : s.ctrl.micro with
    | nil =>
      rw [advance_decides hm, decision_wlTest hp, writeLoopTest] at ht
      split at ht <;> cases ht
    | cons m rest =>
      rw [advance_statement hm]
      exact h.statement hp hclear hm
  | eng =>
    cases hplay : s.eng.play with
    | stopped =>
      rw [Machine.runTurn, engTurn_stopped hplay] at hr
      cases hr
      exact h
    | playing ch idx ll lptr lcnt =>
      rw [Machine.runTurn, engTurn_playing hplay] at hr
      cases hr
      have kept : (s.countDraws 2).keepsEndOfA := h.kept
      exact ⟨by simpa using h.role, by simpa using h.left, kept.emitWord _⟩
  | drain w =>
    cases hr
    have hplay := (s.drain_eng w).1
    exact ⟨by simpa using h.role, by simpa using h.left,
      by simpa [State.keepsEndOfA, State.playsA, hplay] using h.kept⟩

end Clearing

/-- Settles O52: the hangs, which no turn moves; and the end of A, which no turn loses under T_CLEAR. -/
theorem lostFlagHangs : Obligations.LostFlagHangs := by
  refine ⟨fun s u ts performed stopped hwait hr => ?_, fun s u ts hrole hm hA hclear hr => ?_⟩
  · have hawaits : ∃ e, s.ctrl.awaits = some e ∧ s.eng.events.get e = false := by
      rcases hwait with ⟨ch, hp, he⟩ | ⟨hp, hrole, he⟩ | ⟨hp, hrole, he⟩ | ⟨hp, he⟩
      · exact ⟨_, by simp [Ctrl.awaits, hp], he⟩
      · exact ⟨_, by simp [Ctrl.awaits, hp, hrole], he⟩
      · exact ⟨_, by simp [Ctrl.awaits, hp, hrole], he⟩
      · exact ⟨_, by simp [Ctrl.awaits, hp], he⟩
    have hhang : Hangs s := ⟨performed, stopped, hawaits⟩
    have hmoved := hhang.runTurns hr
    have hbusy : u.busy = true := by simpa [State.busy] using (hhang.of_unmoved hmoved).running
    obtain ⟨⟨it, hctrl⟩, heng, hwire⟩ := hmoved
    exact ⟨by rw [hctrl], hbusy, hwire, heng⟩
  · have hstart : Clearing s := ⟨hrole, by rw [hm], .inl hA⟩
    have hend : Clearing u := runTurns_keeps_under
      (fun _ _ _ h ⟨hp, hs⟩ ⟨hp', _⟩ hr => h.runTurn hp hs hp' hr) hstart hclear hr
    exact hend.kept

end Sys2Proof.Machine
